-- ==== Sys2Proof/Word.lean ====
section
/-! DEFINITION. The machine's words: bytes and 16-bit addresses (00_scope.md R9: 8-bit registers and data bus, 16-bit
program counter and CPU address). -/

namespace Sys2Proof

/-- An 8-bit value: a register, a byte on a bus. -/
abbrev Byte := BitVec 8

/-- A 16-bit value: the program counter, a bus address. -/
abbrev Word := BitVec 16

end Sys2Proof
end

