-- ==== Sys2Proof/Config.lean ====
section
/-! DEFINITION. What an implementation fixes and what the spec leaves open: the model parameters of 00_scope.md R9 and
92_eei_decisions.md as plain data (a field of State carries them, so a statement about every state holds for every
value), and the one free value of the model. -/

namespace Sys2Proof

/-- `ABSENT_IO` of 92_eei_decisions.md D18. -/
inductive AbsentIo where
  | zero | fault | draw
  deriving DecidableEq, Repr

/-- `PPU_ADDR_HIGH` of D19. -/
inductive PpuAddrHigh where
  | wrap | fault
  deriving DecidableEq, Repr

/-- `PPU_WO_READ` of D24. -/
inductive PpuWoRead where
  | fault | latch
  deriving DecidableEq, Repr

/-- `NROM_PRG_WRITE` of D38. -/
inductive NromPrgWrite where
  | fault | ignore
  deriving DecidableEq, Repr

/-- `BANK_RANGE` of D44. -/
inductive BankRange where
  | modulo | fault
  deriving DecidableEq, Repr

/-- The nine model parameters of 92_eei_decisions.md, constant for a run. -/
structure Params where
  /-- OPEN (D46): the bit a controller returns after eight reads. -/
  padExhausted : Bool
  /-- OPEN (D42): the dot of the MMC3 count event. -/
  mmc3IrqDot : Fin 341
  /-- Bit 4 of the status byte an NMI or IRQ entry pushes (D4). -/
  irqPushB : Bool
  absentIo : AbsentIo
  ppuAddrHigh : PpuAddrHigh
  ppuWoRead : PpuWoRead
  nromPrgWrite : NromPrgWrite
  bankRange : BankRange
  /-- Whether an MMC1 reset write forces program mode 3 (D40). -/
  mmc1ResetFixesLast : Bool
  deriving DecidableEq, Repr

/-- The defaults of 00_scope.md R9. DESIGN CHOICE (unsafe, log 4): `PAD_EXHAUSTED`, which has none, is 1; the default
260 of `MMC3_IRQ_DOT`, also OPEN, is the spec's (log 5). -/
def Params.default : Params where
  padExhausted := true
  mmc3IrqDot := 260
  irqPushB := false
  absentIo := .zero
  ppuAddrHigh := .wrap
  ppuWoRead := .fault
  nromPrgWrite := .fault
  bankRange := .modulo
  mmc1ResetFixesLast := false

/-- The unconstrained byte a read of the absent range returns under `ABSENT_IO = draw` (20_memory.md R65): the n-th draw
of a run. It has no body, so nothing can be proved of its value (log 9). -/
opaque Config.freeByte : Nat → Byte

end Sys2Proof
end

