-- ==== Sys2Proof/Syntax.lean ====
section
/-! DEFINITION. The instruction set as data: the 56 mnemonics, the 13 addressing modes, an operand of each mode, and
`Instr` with one constructor for each of the 151 rows of the opcode table (30_encoding.md R100, R101, R120). -/

namespace Sys2Proof

/-- The 56 mnemonics of 30_encoding.md R120. -/
inductive Mnemonic where
  | lda | ldx | ldy | sta | stx | sty | tax | tay
  | txa | tya | tsx | txs | pha | php | pla | plp
  | adc | sbc | and | ora | eor | cmp | cpx | cpy
  | bit | inc | dec | inx | iny | dex | dey | asl
  | lsr | rol | ror | jmp | jsr | rts | rti | brk
  | bcc | bcs | beq | bne | bmi | bpl | bvc | bvs
  | clc | sec | cli | sei | clv | cld | sed | nop
  deriving DecidableEq, Repr

/-- The 13 addressing modes, 30_encoding.md R105 to R117. -/
inductive Mode where
  | implied | accumulator | immediate | zeroPage | zeroPageX | zeroPageY | absolute | absoluteX | absoluteY
  | indirect | indirectX | indirectY | relative
  deriving DecidableEq, Repr

/-- An operand: its mode with the operand byte or word as fetched, 30_encoding.md R101, R102. -/
inductive Operand where
  | implied
  | accumulator
  | immediate (b : Byte)
  | zeroPage (b : Byte)
  | zeroPageX (b : Byte)
  | zeroPageY (b : Byte)
  | absolute (w : Word)
  | absoluteX (w : Word)
  | absoluteY (w : Word)
  | indirect (w : Word)
  | indirectX (b : Byte)
  | indirectY (b : Byte)
  | relative (b : Byte)
  deriving DecidableEq, Repr

/-- One row of the opcode table with its operand filled in: what `Decode(op)` of 30_encoding.md R103 answers, the
opcode byte beside it. -/
structure Row where
  opcode : Byte
  mnemonic : Mnemonic
  operand : Operand
  base : Nat
  pageFlag : Bool
  deriving DecidableEq, Repr

/-- What an assembler line names: a mnemonic and an operand, legal or not (30_encoding.md R125). -/
structure Form where
  mnemonic : Mnemonic
  operand : Operand
  deriving DecidableEq, Repr

/-- The instructions, one constructor per row of spec/opcode_table.json, with the operand bytes the row leaves open. -/
inductive Instr where
  | ldaImmediate (b : Byte)
  | ldaZeroPage (b : Byte)
  | ldaZeroPageX (b : Byte)
  | ldaAbsolute (w : Word)
  | ldaAbsoluteX (w : Word)
  | ldaAbsoluteY (w : Word)
  | ldaIndirectX (b : Byte)
  | ldaIndirectY (b : Byte)
  | ldxImmediate (b : Byte)
  | ldxZeroPage (b : Byte)
  | ldxZeroPageY (b : Byte)
  | ldxAbsolute (w : Word)
  | ldxAbsoluteY (w : Word)
  | ldyImmediate (b : Byte)
  | ldyZeroPage (b : Byte)
  | ldyZeroPageX (b : Byte)
  | ldyAbsolute (w : Word)
  | ldyAbsoluteX (w : Word)
  | staZeroPage (b : Byte)
  | staZeroPageX (b : Byte)
  | staAbsolute (w : Word)
  | staAbsoluteX (w : Word)
  | staAbsoluteY (w : Word)
  | staIndirectX (b : Byte)
  | staIndirectY (b : Byte)
  | stxZeroPage (b : Byte)
  | stxZeroPageY (b : Byte)
  | stxAbsolute (w : Word)
  | styZeroPage (b : Byte)
  | styZeroPageX (b : Byte)
  | styAbsolute (w : Word)
  | tax
  | tay
  | txa
  | tya
  | tsx
  | txs
  | pha
  | php
  | pla
  | plp
  | adcImmediate (b : Byte)
  | adcZeroPage (b : Byte)
  | adcZeroPageX (b : Byte)
  | adcAbsolute (w : Word)
  | adcAbsoluteX (w : Word)
  | adcAbsoluteY (w : Word)
  | adcIndirectX (b : Byte)
  | adcIndirectY (b : Byte)
  | sbcImmediate (b : Byte)
  | sbcZeroPage (b : Byte)
  | sbcZeroPageX (b : Byte)
  | sbcAbsolute (w : Word)
  | sbcAbsoluteX (w : Word)
  | sbcAbsoluteY (w : Word)
  | sbcIndirectX (b : Byte)
  | sbcIndirectY (b : Byte)
  | andImmediate (b : Byte)
  | andZeroPage (b : Byte)
  | andZeroPageX (b : Byte)
  | andAbsolute (w : Word)
  | andAbsoluteX (w : Word)
  | andAbsoluteY (w : Word)
  | andIndirectX (b : Byte)
  | andIndirectY (b : Byte)
  | oraImmediate (b : Byte)
  | oraZeroPage (b : Byte)
  | oraZeroPageX (b : Byte)
  | oraAbsolute (w : Word)
  | oraAbsoluteX (w : Word)
  | oraAbsoluteY (w : Word)
  | oraIndirectX (b : Byte)
  | oraIndirectY (b : Byte)
  | eorImmediate (b : Byte)
  | eorZeroPage (b : Byte)
  | eorZeroPageX (b : Byte)
  | eorAbsolute (w : Word)
  | eorAbsoluteX (w : Word)
  | eorAbsoluteY (w : Word)
  | eorIndirectX (b : Byte)
  | eorIndirectY (b : Byte)
  | cmpImmediate (b : Byte)
  | cmpZeroPage (b : Byte)
  | cmpZeroPageX (b : Byte)
  | cmpAbsolute (w : Word)
  | cmpAbsoluteX (w : Word)
  | cmpAbsoluteY (w : Word)
  | cmpIndirectX (b : Byte)
  | cmpIndirectY (b : Byte)
  | cpxImmediate (b : Byte)
  | cpxZeroPage (b : Byte)
  | cpxAbsolute (w : Word)
  | cpyImmediate (b : Byte)
  | cpyZeroPage (b : Byte)
  | cpyAbsolute (w : Word)
  | bitZeroPage (b : Byte)
  | bitAbsolute (w : Word)
  | incZeroPage (b : Byte)
  | incZeroPageX (b : Byte)
  | incAbsolute (w : Word)
  | incAbsoluteX (w : Word)
  | decZeroPage (b : Byte)
  | decZeroPageX (b : Byte)
  | decAbsolute (w : Word)
  | decAbsoluteX (w : Word)
  | inx
  | iny
  | dex
  | dey
  | aslAccumulator
  | aslZeroPage (b : Byte)
  | aslZeroPageX (b : Byte)
  | aslAbsolute (w : Word)
  | aslAbsoluteX (w : Word)
  | lsrAccumulator
  | lsrZeroPage (b : Byte)
  | lsrZeroPageX (b : Byte)
  | lsrAbsolute (w : Word)
  | lsrAbsoluteX (w : Word)
  | rolAccumulator
  | rolZeroPage (b : Byte)
  | rolZeroPageX (b : Byte)
  | rolAbsolute (w : Word)
  | rolAbsoluteX (w : Word)
  | rorAccumulator
  | rorZeroPage (b : Byte)
  | rorZeroPageX (b : Byte)
  | rorAbsolute (w : Word)
  | rorAbsoluteX (w : Word)
  | jmpAbsolute (w : Word)
  | jmpIndirect (w : Word)
  | jsr (w : Word)
  | rts
  | rti
  | brk
  | bcc (b : Byte)
  | bcs (b : Byte)
  | beq (b : Byte)
  | bne (b : Byte)
  | bmi (b : Byte)
  | bpl (b : Byte)
  | bvc (b : Byte)
  | bvs (b : Byte)
  | clc
  | sec
  | cli
  | sei
  | clv
  | cld
  | sed
  | nop
  deriving DecidableEq, Repr

end Sys2Proof
end

