-- ==== Sys2Proof/Machine/State.lean ====
section
/-! DEFINITION. The state of the whole machine as plain data (10_state.md), the faults and refusals, and the state after
reset. -/

namespace Sys2Proof.Machine

/-- A memory of the machine: the listed bytes by index, in the canonical form `Memory.wf` (Machine/Memory.lean). -/
abbrev Memory := List Host.Cell

/-- The two buses of 20_memory.md R60, R61. -/
inductive Bus where
  | cpu | ppu
  deriving DecidableEq, Repr

/-- The direction of a bus access. -/
inductive Dir where
  | read | write
  deriving DecidableEq, Repr

/-- The three fatal conditions of 60_exceptions.md R250 with the information recorded. -/
inductive FatalCondition where
  /-- Raised by the fetch of `cpuStep` on any of the 105 opcode bytes of 30_encoding.md R122 (R251). -/
  | illegalOpcode (pc : Word) (opcode : Byte)
  /-- Raised by a bus or device that refuses an address (R252): reads of write-only picture-unit registers, 0x4020 to
  0x5FFF, NROM program writes, and what the non-default parameters add. -/
  | invalidAccess (bus : Bus) (address : Word) (dir : Dir)
  /-- Raised by a mapper's picture-unit write when the cartridge has graphics ROM (R253). -/
  | chrRomWrite (address : Word)
  deriving DecidableEq, Repr

/-- Why a step has no meaning. -/
inductive Refusal where
  /-- An instruction whose arm of `exec` gives it no meaning. Safe. -/
  | notModelled (mnemonic : String)
  /-- Raised by `step` when the host's stop signal was observed between frames: the run has ended and has no further
  round (63_bus_devices_console.md R465). Safe. -/
  | runEnded
  deriving DecidableEq, Repr

/-- The nametable mirroring modes of 62_mappers.md R420. -/
inductive Mirroring where
  | horizontal | vertical | singleLower | singleUpper
  deriving DecidableEq, Repr

/-- The launch parameters of 00_scope.md R8, constant for a run: the byte arrays and the header-derived metadata. -/
structure Cartridge where
  prg : Memory
  prgBanks : Nat
  chr : Memory
  chrBanks : Nat
  headerMirroring : Mirroring
  mapperNumber : Nat
  hasBattery : Bool
  hasTrainer : Bool
  deriving DecidableEq, Repr

/-- The seven one-bit flags of 10_state.md R23. -/
structure Flags where
  c : Bool
  z : Bool
  i : Bool
  d : Bool
  b : Bool
  v : Bool
  n : Bool
  deriving DecidableEq, Repr

/-- The CPU: its register file (10_state.md R20) and hidden state (R30 to R33). -/
structure Cpu where
  a : Byte
  x : Byte
  y : Byte
  s : Byte
  pc : Word
  p : Flags
  cycles : Nat
  idle : Nat
  nmiPending : Bool
  irqPending : Bool
  deriving DecidableEq, Repr

/-- One slot of the active-sprite buffer, 61_ppu.md R305. -/
structure Slot where
  pattern : BitVec 32
  posX : Byte
  priority : Bool
  index : BitVec 6
  deriving DecidableEq, Repr

/-- The picture unit, 61_ppu.md R300 to R306 (`nt_base` is kept only as `t[11:10]`, R301). -/
structure Ppu where
  v : BitVec 15
  t : BitVec 15
  x : BitVec 3
  w : Bool
  vramInc : Bool
  sprTable : Bool
  bgTable : Bool
  sprSize : Bool
  nmiEnable : Bool
  grayscale : Bool
  showBgLeft : Bool
  showSprLeft : Bool
  showBg : Bool
  showSpr : Bool
  emphasis : BitVec 3
  vblank : Bool
  sprOverflow : Bool
  spr0Hit : Bool
  latch : Byte
  oamAddr : Byte
  readBuffer : Byte
  dot : Nat
  scanline : Nat
  odd : Bool
  ntByte : Byte
  atBits : BitVec 4
  patLo : Byte
  patHi : Byte
  tileShift : BitVec 64
  sprCount : Nat
  slots : Vector Slot 8
  nametable : Memory
  palette : Memory
  oam : Memory
  /-- The frame buffer by row (log 15): byte `y * 256 + x` of 61_ppu.md R306 is index x of row y. -/
  framebuffer : Vector Memory 240
  deriving DecidableEq, Repr

/-- UxROM, 62_mappers.md R390. -/
structure Uxrom where
  bank : Byte
  deriving DecidableEq, Repr

/-- MMC1, 62_mappers.md R404. -/
structure Mmc1 where
  shift : BitVec 5
  count : Nat
  control : BitVec 5
  chrBank0 : BitVec 5
  chrBank1 : BitVec 5
  prgBank : BitVec 4
  deriving DecidableEq, Repr

/-- MMC3, 62_mappers.md R410. -/
structure Mmc3 where
  bankSelect : BitVec 3
  prgMode : Bool
  chrMode : Bool
  regs : Vector Byte 8
  mirroring : Mirroring
  irqReload : Byte
  irqCounter : Byte
  irqEnable : Bool
  deriving DecidableEq, Repr

/-- The mapper, constructed once per load (62_mappers.md R380); the fixed mapping has no state (R386). -/
inductive Mapper where
  | nrom
  | uxrom (m : Uxrom)
  | mmc1 (m : Mmc1)
  | mmc3 (m : Mmc3)
  deriving DecidableEq, Repr

/-- One controller, 10_state.md R41. -/
structure Pad where
  buttons : Byte
  latched : Byte
  index : Nat
  deriving DecidableEq, Repr

/-- The two controllers and their shared strobe bit, 10_state.md R41. -/
structure Pads where
  pad0 : Pad
  pad1 : Pad
  strobe : Bool
  deriving DecidableEq, Repr

/-- The console, 10_state.md R42, and what the model records of the frame-ready callback (log 11). -/
structure Console where
  /-- The event the picture unit raises (63_bus_devices_console.md R461). -/
  frameReady : Bool
  /-- Host-written, read between frames (R465). -/
  stop : Bool
  /-- The model's own: `DeliverFrame` ran in the round just finished, so the host may act now (R464). -/
  frameDelivered : Bool
  /-- The model's own: how many frames have been delivered. -/
  frameCount : Nat
  /-- The model's own: the frame last delivered. -/
  lastFrame : Option (Vector Memory 240)
  deriving DecidableEq, Repr

/-- The machine. -/
structure State where
  params : Params
  cart : Cartridge
  cpu : Cpu
  ram : Memory
  ppu : Ppu
  map : Mapper
  prgRam : Memory
  chrRam : Memory
  pads : Pads
  con : Console
  /-- The recorded fault of 10_state.md R34. -/
  fault : Option FatalCondition
  /-- The model's own: how many free bytes have been drawn (log 9). -/
  draws : Nat
  deriving DecidableEq, Repr

/-- Why the machine stops (60_exceptions.md R254). -/
inductive Fault where
  /-- Raised in this step by the fetch, a bus, a device or a mapper (R250 to R253): the condition, and the machine as the
  step leaves it, the changes before the faulting access kept and the condition recorded. Safe. -/
  | raised (condition : FatalCondition) (left : State)
  /-- Answered by the CPU's step, the round and the reset of a machine whose fault is already recorded: no agent has a
  step (log 8). Safe. -/
  | recorded (condition : FatalCondition)
  deriving DecidableEq, Repr

/-- The flags after reset, 10_state.md R45: only `P.I` set. -/
def Flags.reset : Flags where
  c := false
  z := false
  i := true
  d := false
  b := false
  v := false
  n := false

/-- The CPU after reset but for its program counter, 10_state.md R45. -/
def Cpu.reset (pc : Word) : Cpu where
  a := 0
  x := 0
  y := 0
  s := 0xFD
  pc := pc
  p := Flags.reset
  cycles := 0
  idle := 0
  nmiPending := false
  irqPending := false

/-- An empty slot of the active-sprite buffer. -/
def Slot.reset : Slot := ⟨0, 0, false, 0⟩

/-- The picture unit after load and reset, 61_ppu.md R307, with its four memories zero (10_state.md R46). -/
def Ppu.reset : Ppu where
  v := 0
  t := 0
  x := 0
  w := false
  vramInc := false
  sprTable := false
  bgTable := false
  sprSize := false
  nmiEnable := false
  grayscale := false
  showBgLeft := false
  showSprLeft := false
  showBg := false
  showSpr := false
  emphasis := 0
  vblank := false
  sprOverflow := false
  spr0Hit := false
  latch := 0
  oamAddr := 0
  readBuffer := 0
  dot := 0
  scanline := 0
  odd := false
  ntByte := 0
  atBits := 0
  patLo := 0
  patHi := 0
  tileShift := 0
  sprCount := 0
  slots := Vector.replicate 8 Slot.reset
  nametable := []
  palette := []
  oam := []
  framebuffer := Vector.replicate 240 []

/-- A controller after reset with the host's buttons, 63_bus_devices_console.md R453. -/
def Pad.reset (buttons : Byte) : Pad := ⟨buttons, 0, 0⟩

/-- The console after reset, 70_reset_and_hazards.md R470. -/
def Console.reset : Console := ⟨false, false, false, 0, none⟩

/-- The cartridge bound to `State.reset`: one program bank of zero bytes, graphics RAM, the fixed mapping. DESIGN CHOICE
(unsafe, log 2): the spec has no machine without a cartridge. -/
def Cartridge.blank : Cartridge where
  prg := []
  prgBanks := 1
  chr := []
  chrBanks := 0
  headerMirroring := .horizontal
  mapperNumber := 0
  hasBattery := false
  hasTrainer := false

/-- The machine right after `Load` and `ConsoleReset` of the blank cartridge (70_reset_and_hazards.md R470, R472): the
program counter is the reset vector read from its zero bytes, no button is pressed (log 7). -/
def State.reset : State where
  params := Params.default
  cart := Cartridge.blank
  cpu := Cpu.reset 0
  ram := []
  ppu := Ppu.reset
  map := .nrom
  prgRam := []
  chrRam := []
  pads := ⟨Pad.reset 0, Pad.reset 0, false⟩
  con := Console.reset
  fault := none
  draws := 0

end Sys2Proof.Machine
end

