-- ==== Sys2Proof/Machine/Flags.lean ====
section
/-! DEFINITION. Every flag computation of the spec: the packed status byte (10_state.md R24), `SetZN` (00_scope.md R14),
`AddCore` (42_arithmetic_logic.md R181), `Compare` (R182), BIT (R178), the shifts (43_incdec_shift.md R196 to R199). -/

namespace Sys2Proof.Machine

/-- `Pack(k)` of 10_state.md R24 with `b(k)` given: `(N, V, 1, b, D, I, Z, C)`. -/
def Flags.pack (p : Flags) (b : Bool) : Byte :=
  BitVec.ofBool p.n ++ BitVec.ofBool p.v ++ 1#1 ++ BitVec.ofBool b ++ BitVec.ofBool p.d ++ BitVec.ofBool p.i ++
    BitVec.ofBool p.z ++ BitVec.ofBool p.c

/-- `Unpack(v)` of 10_state.md R24: bits 4 and 5 are ignored, `P.B` becomes 0. -/
def Flags.unpack (v : Byte) : Flags where
  c := v.getLsbD 0
  z := v.getLsbD 1
  i := v.getLsbD 2
  d := v.getLsbD 3
  b := false
  v := v.getLsbD 6
  n := v.getLsbD 7

/-- `SetZN(v)`, 00_scope.md R14. -/
def Flags.setZN (p : Flags) (v : Byte) : Flags :=
  { p with z := v == 0, n := v.getLsbD 7 }

/-- What `AddCore` returns: result, carry, overflow. -/
structure Sum where
  result : Byte
  carry : Bool
  overflow : Bool
  deriving DecidableEq, Repr

/-- `AddCore(a, b, c)`, 42_arithmetic_logic.md R181: overflow from the sign bits of both operands and the result. -/
def addCore (a b : Byte) (c : Bool) : Sum :=
  let sum := a.toNat + b.toNat + c.toNat
  let r := BitVec.ofNat 8 sum
  { result := r
    carry := decide (255 < sum)
    overflow := a.getLsbD 7 == b.getLsbD 7 && a.getLsbD 7 != r.getLsbD 7 }

/-- The flags after ADC or SBC: C and V from the sum, Z and N from the result (R170, R171). -/
def Flags.ofSum (p : Flags) (r : Sum) : Flags :=
  { p with c := r.carry, v := r.overflow }.setZN r.result

/-- `Compare(r, M)`, 42_arithmetic_logic.md R182. -/
def Flags.compare (p : Flags) (r m : Byte) : Flags :=
  { p with c := decide (m.toNat ≤ r.toNat) }.setZN (r - m)

/-- BIT, 42_arithmetic_logic.md R178: Z from the conjunction, V and N from the memory byte. -/
def Flags.bitTest (p : Flags) (a m : Byte) : Flags :=
  { p with z := (a &&& m) == 0, v := m.getLsbD 6, n := m.getLsbD 7 }

/-- A shift's result and the bit shifted out. -/
structure Shifted where
  result : Byte
  out : Bool
  deriving DecidableEq, Repr

/-- ASL, 43_incdec_shift.md R196. -/
def shiftLeft (m : Byte) (_carry : Bool) : Shifted := ⟨m <<< 1, m.getLsbD 7⟩

/-- LSR, 43_incdec_shift.md R197. -/
def shiftRight (m : Byte) (_carry : Bool) : Shifted := ⟨m >>> 1, m.getLsbD 0⟩

/-- ROL, 43_incdec_shift.md R198: the old carry enters at bit 0. -/
def rotateLeft (m : Byte) (carry : Bool) : Shifted := ⟨(m <<< 1) ||| (if carry then 1 else 0), m.getLsbD 7⟩

/-- ROR, 43_incdec_shift.md R199: the old carry enters at bit 7. -/
def rotateRight (m : Byte) (carry : Bool) : Shifted := ⟨(m >>> 1) ||| (if carry then 0x80 else 0), m.getLsbD 0⟩

end Sys2Proof.Machine
end

