-- ==== Sys2Proof/Decode.lean ====
section
/-! DEFINITION. The opcode table (30_encoding.md R120, R121), the decoder, total on any bytes, and the encoder.
The two directions are written separately: `Instr.row` lists the table by instruction, `decodeOp` by opcode byte. -/

namespace Sys2Proof

/-- The 16-bit value `(hi, lo)` of two bytes (20_memory.md R67: the low byte is the one at the lower address). -/
def wordOf (hi lo : Byte) : Word := hi ++ lo

/-- Bits 7:0 of a word. -/
def loByte (w : Word) : Byte := w.extractLsb' 0 8

/-- Bits 15:8 of a word: its page (00_scope.md R15). -/
def hiByte (w : Word) : Byte := w.extractLsb' 8 8

/-- `zext_16` of 00_scope.md R10. -/
def zext16 (b : Byte) : Word := b.setWidth 16

/-- `sext_16` of 00_scope.md R10. -/
def sext16 (b : Byte) : Word := b.signExtend 16

/-- `PagesDiffer` of 00_scope.md R15. -/
def pagesDiffer (a b : Word) : Bool := hiByte a != hiByte b

/-- The instruction's length in bytes by its mode: formats F1, F2, F3 of 30_encoding.md R101. -/
def Operand.size : Operand → Nat
  | .implied | .accumulator => 1
  | .immediate _ | .zeroPage _ | .zeroPageX _ | .zeroPageY _ | .indirectX _ | .indirectY _ | .relative _ => 2
  | .absolute _ | .absoluteX _ | .absoluteY _ | .indirect _ => 3

/-- The immediate mode (30_encoding.md R107). -/
def Operand.isImmediate : Operand → Bool
  | .immediate _ => true
  | _ => false

/-- The operand bytes in ascending address order, 30_encoding.md R101 (low byte first). -/
def Operand.bytes : Operand → List Byte
  | .implied | .accumulator => []
  | .immediate b | .zeroPage b | .zeroPageX b | .zeroPageY b | .indirectX b | .indirectY b | .relative b => [b]
  | .absolute w | .absoluteX w | .absoluteY w | .indirect w => [loByte w, hiByte w]

/-- The opcode table of 30_encoding.md R120: opcode, mnemonic, operand, base cycles, page-cross flag. -/
def Instr.row : Instr → Row
  | .ldaImmediate b => ⟨0xA9, .lda, .immediate b, 2, false⟩
  | .ldaZeroPage b => ⟨0xA5, .lda, .zeroPage b, 3, false⟩
  | .ldaZeroPageX b => ⟨0xB5, .lda, .zeroPageX b, 4, false⟩
  | .ldaAbsolute w => ⟨0xAD, .lda, .absolute w, 4, false⟩
  | .ldaAbsoluteX w => ⟨0xBD, .lda, .absoluteX w, 4, true⟩
  | .ldaAbsoluteY w => ⟨0xB9, .lda, .absoluteY w, 4, true⟩
  | .ldaIndirectX b => ⟨0xA1, .lda, .indirectX b, 6, false⟩
  | .ldaIndirectY b => ⟨0xB1, .lda, .indirectY b, 5, true⟩
  | .ldxImmediate b => ⟨0xA2, .ldx, .immediate b, 2, false⟩
  | .ldxZeroPage b => ⟨0xA6, .ldx, .zeroPage b, 3, false⟩
  | .ldxZeroPageY b => ⟨0xB6, .ldx, .zeroPageY b, 4, false⟩
  | .ldxAbsolute w => ⟨0xAE, .ldx, .absolute w, 4, false⟩
  | .ldxAbsoluteY w => ⟨0xBE, .ldx, .absoluteY w, 4, true⟩
  | .ldyImmediate b => ⟨0xA0, .ldy, .immediate b, 2, false⟩
  | .ldyZeroPage b => ⟨0xA4, .ldy, .zeroPage b, 3, false⟩
  | .ldyZeroPageX b => ⟨0xB4, .ldy, .zeroPageX b, 4, false⟩
  | .ldyAbsolute w => ⟨0xAC, .ldy, .absolute w, 4, false⟩
  | .ldyAbsoluteX w => ⟨0xBC, .ldy, .absoluteX w, 4, true⟩
  | .staZeroPage b => ⟨0x85, .sta, .zeroPage b, 3, false⟩
  | .staZeroPageX b => ⟨0x95, .sta, .zeroPageX b, 4, false⟩
  | .staAbsolute w => ⟨0x8D, .sta, .absolute w, 4, false⟩
  | .staAbsoluteX w => ⟨0x9D, .sta, .absoluteX w, 5, false⟩
  | .staAbsoluteY w => ⟨0x99, .sta, .absoluteY w, 5, false⟩
  | .staIndirectX b => ⟨0x81, .sta, .indirectX b, 6, false⟩
  | .staIndirectY b => ⟨0x91, .sta, .indirectY b, 6, false⟩
  | .stxZeroPage b => ⟨0x86, .stx, .zeroPage b, 3, false⟩
  | .stxZeroPageY b => ⟨0x96, .stx, .zeroPageY b, 4, false⟩
  | .stxAbsolute w => ⟨0x8E, .stx, .absolute w, 4, false⟩
  | .styZeroPage b => ⟨0x84, .sty, .zeroPage b, 3, false⟩
  | .styZeroPageX b => ⟨0x94, .sty, .zeroPageX b, 4, false⟩
  | .styAbsolute w => ⟨0x8C, .sty, .absolute w, 4, false⟩
  | .tax => ⟨0xAA, .tax, .implied, 2, false⟩
  | .tay => ⟨0xA8, .tay, .implied, 2, false⟩
  | .txa => ⟨0x8A, .txa, .implied, 2, false⟩
  | .tya => ⟨0x98, .tya, .implied, 2, false⟩
  | .tsx => ⟨0xBA, .tsx, .implied, 2, false⟩
  | .txs => ⟨0x9A, .txs, .implied, 2, false⟩
  | .pha => ⟨0x48, .pha, .implied, 3, false⟩
  | .php => ⟨0x08, .php, .implied, 3, false⟩
  | .pla => ⟨0x68, .pla, .implied, 4, false⟩
  | .plp => ⟨0x28, .plp, .implied, 4, false⟩
  | .adcImmediate b => ⟨0x69, .adc, .immediate b, 2, false⟩
  | .adcZeroPage b => ⟨0x65, .adc, .zeroPage b, 3, false⟩
  | .adcZeroPageX b => ⟨0x75, .adc, .zeroPageX b, 4, false⟩
  | .adcAbsolute w => ⟨0x6D, .adc, .absolute w, 4, false⟩
  | .adcAbsoluteX w => ⟨0x7D, .adc, .absoluteX w, 4, true⟩
  | .adcAbsoluteY w => ⟨0x79, .adc, .absoluteY w, 4, true⟩
  | .adcIndirectX b => ⟨0x61, .adc, .indirectX b, 6, false⟩
  | .adcIndirectY b => ⟨0x71, .adc, .indirectY b, 5, true⟩
  | .sbcImmediate b => ⟨0xE9, .sbc, .immediate b, 2, false⟩
  | .sbcZeroPage b => ⟨0xE5, .sbc, .zeroPage b, 3, false⟩
  | .sbcZeroPageX b => ⟨0xF5, .sbc, .zeroPageX b, 4, false⟩
  | .sbcAbsolute w => ⟨0xED, .sbc, .absolute w, 4, false⟩
  | .sbcAbsoluteX w => ⟨0xFD, .sbc, .absoluteX w, 4, true⟩
  | .sbcAbsoluteY w => ⟨0xF9, .sbc, .absoluteY w, 4, true⟩
  | .sbcIndirectX b => ⟨0xE1, .sbc, .indirectX b, 6, false⟩
  | .sbcIndirectY b => ⟨0xF1, .sbc, .indirectY b, 5, true⟩
  | .andImmediate b => ⟨0x29, .and, .immediate b, 2, false⟩
  | .andZeroPage b => ⟨0x25, .and, .zeroPage b, 3, false⟩
  | .andZeroPageX b => ⟨0x35, .and, .zeroPageX b, 4, false⟩
  | .andAbsolute w => ⟨0x2D, .and, .absolute w, 4, false⟩
  | .andAbsoluteX w => ⟨0x3D, .and, .absoluteX w, 4, true⟩
  | .andAbsoluteY w => ⟨0x39, .and, .absoluteY w, 4, true⟩
  | .andIndirectX b => ⟨0x21, .and, .indirectX b, 6, false⟩
  | .andIndirectY b => ⟨0x31, .and, .indirectY b, 5, true⟩
  | .oraImmediate b => ⟨0x09, .ora, .immediate b, 2, false⟩
  | .oraZeroPage b => ⟨0x05, .ora, .zeroPage b, 3, false⟩
  | .oraZeroPageX b => ⟨0x15, .ora, .zeroPageX b, 4, false⟩
  | .oraAbsolute w => ⟨0x0D, .ora, .absolute w, 4, false⟩
  | .oraAbsoluteX w => ⟨0x1D, .ora, .absoluteX w, 4, true⟩
  | .oraAbsoluteY w => ⟨0x19, .ora, .absoluteY w, 4, true⟩
  | .oraIndirectX b => ⟨0x01, .ora, .indirectX b, 6, false⟩
  | .oraIndirectY b => ⟨0x11, .ora, .indirectY b, 5, true⟩
  | .eorImmediate b => ⟨0x49, .eor, .immediate b, 2, false⟩
  | .eorZeroPage b => ⟨0x45, .eor, .zeroPage b, 3, false⟩
  | .eorZeroPageX b => ⟨0x55, .eor, .zeroPageX b, 4, false⟩
  | .eorAbsolute w => ⟨0x4D, .eor, .absolute w, 4, false⟩
  | .eorAbsoluteX w => ⟨0x5D, .eor, .absoluteX w, 4, true⟩
  | .eorAbsoluteY w => ⟨0x59, .eor, .absoluteY w, 4, true⟩
  | .eorIndirectX b => ⟨0x41, .eor, .indirectX b, 6, false⟩
  | .eorIndirectY b => ⟨0x51, .eor, .indirectY b, 5, true⟩
  | .cmpImmediate b => ⟨0xC9, .cmp, .immediate b, 2, false⟩
  | .cmpZeroPage b => ⟨0xC5, .cmp, .zeroPage b, 3, false⟩
  | .cmpZeroPageX b => ⟨0xD5, .cmp, .zeroPageX b, 4, false⟩
  | .cmpAbsolute w => ⟨0xCD, .cmp, .absolute w, 4, false⟩
  | .cmpAbsoluteX w => ⟨0xDD, .cmp, .absoluteX w, 4, true⟩
  | .cmpAbsoluteY w => ⟨0xD9, .cmp, .absoluteY w, 4, true⟩
  | .cmpIndirectX b => ⟨0xC1, .cmp, .indirectX b, 6, false⟩
  | .cmpIndirectY b => ⟨0xD1, .cmp, .indirectY b, 5, true⟩
  | .cpxImmediate b => ⟨0xE0, .cpx, .immediate b, 2, false⟩
  | .cpxZeroPage b => ⟨0xE4, .cpx, .zeroPage b, 3, false⟩
  | .cpxAbsolute w => ⟨0xEC, .cpx, .absolute w, 4, false⟩
  | .cpyImmediate b => ⟨0xC0, .cpy, .immediate b, 2, false⟩
  | .cpyZeroPage b => ⟨0xC4, .cpy, .zeroPage b, 3, false⟩
  | .cpyAbsolute w => ⟨0xCC, .cpy, .absolute w, 4, false⟩
  | .bitZeroPage b => ⟨0x24, .bit, .zeroPage b, 3, false⟩
  | .bitAbsolute w => ⟨0x2C, .bit, .absolute w, 4, false⟩
  | .incZeroPage b => ⟨0xE6, .inc, .zeroPage b, 5, false⟩
  | .incZeroPageX b => ⟨0xF6, .inc, .zeroPageX b, 6, false⟩
  | .incAbsolute w => ⟨0xEE, .inc, .absolute w, 6, false⟩
  | .incAbsoluteX w => ⟨0xFE, .inc, .absoluteX w, 7, false⟩
  | .decZeroPage b => ⟨0xC6, .dec, .zeroPage b, 5, false⟩
  | .decZeroPageX b => ⟨0xD6, .dec, .zeroPageX b, 6, false⟩
  | .decAbsolute w => ⟨0xCE, .dec, .absolute w, 6, false⟩
  | .decAbsoluteX w => ⟨0xDE, .dec, .absoluteX w, 7, false⟩
  | .inx => ⟨0xE8, .inx, .implied, 2, false⟩
  | .iny => ⟨0xC8, .iny, .implied, 2, false⟩
  | .dex => ⟨0xCA, .dex, .implied, 2, false⟩
  | .dey => ⟨0x88, .dey, .implied, 2, false⟩
  | .aslAccumulator => ⟨0x0A, .asl, .accumulator, 2, false⟩
  | .aslZeroPage b => ⟨0x06, .asl, .zeroPage b, 5, false⟩
  | .aslZeroPageX b => ⟨0x16, .asl, .zeroPageX b, 6, false⟩
  | .aslAbsolute w => ⟨0x0E, .asl, .absolute w, 6, false⟩
  | .aslAbsoluteX w => ⟨0x1E, .asl, .absoluteX w, 7, false⟩
  | .lsrAccumulator => ⟨0x4A, .lsr, .accumulator, 2, false⟩
  | .lsrZeroPage b => ⟨0x46, .lsr, .zeroPage b, 5, false⟩
  | .lsrZeroPageX b => ⟨0x56, .lsr, .zeroPageX b, 6, false⟩
  | .lsrAbsolute w => ⟨0x4E, .lsr, .absolute w, 6, false⟩
  | .lsrAbsoluteX w => ⟨0x5E, .lsr, .absoluteX w, 7, false⟩
  | .rolAccumulator => ⟨0x2A, .rol, .accumulator, 2, false⟩
  | .rolZeroPage b => ⟨0x26, .rol, .zeroPage b, 5, false⟩
  | .rolZeroPageX b => ⟨0x36, .rol, .zeroPageX b, 6, false⟩
  | .rolAbsolute w => ⟨0x2E, .rol, .absolute w, 6, false⟩
  | .rolAbsoluteX w => ⟨0x3E, .rol, .absoluteX w, 7, false⟩
  | .rorAccumulator => ⟨0x6A, .ror, .accumulator, 2, false⟩
  | .rorZeroPage b => ⟨0x66, .ror, .zeroPage b, 5, false⟩
  | .rorZeroPageX b => ⟨0x76, .ror, .zeroPageX b, 6, false⟩
  | .rorAbsolute w => ⟨0x6E, .ror, .absolute w, 6, false⟩
  | .rorAbsoluteX w => ⟨0x7E, .ror, .absoluteX w, 7, false⟩
  | .jmpAbsolute w => ⟨0x4C, .jmp, .absolute w, 3, false⟩
  | .jmpIndirect w => ⟨0x6C, .jmp, .indirect w, 5, false⟩
  | .jsr w => ⟨0x20, .jsr, .absolute w, 6, false⟩
  | .rts => ⟨0x60, .rts, .implied, 6, false⟩
  | .rti => ⟨0x40, .rti, .implied, 6, false⟩
  | .brk => ⟨0x00, .brk, .implied, 7, false⟩
  | .bcc b => ⟨0x90, .bcc, .relative b, 2, false⟩
  | .bcs b => ⟨0xB0, .bcs, .relative b, 2, false⟩
  | .beq b => ⟨0xF0, .beq, .relative b, 2, false⟩
  | .bne b => ⟨0xD0, .bne, .relative b, 2, false⟩
  | .bmi b => ⟨0x30, .bmi, .relative b, 2, false⟩
  | .bpl b => ⟨0x10, .bpl, .relative b, 2, false⟩
  | .bvc b => ⟨0x50, .bvc, .relative b, 2, false⟩
  | .bvs b => ⟨0x70, .bvs, .relative b, 2, false⟩
  | .clc => ⟨0x18, .clc, .implied, 2, false⟩
  | .sec => ⟨0x38, .sec, .implied, 2, false⟩
  | .cli => ⟨0x58, .cli, .implied, 2, false⟩
  | .sei => ⟨0x78, .sei, .implied, 2, false⟩
  | .clv => ⟨0xB8, .clv, .implied, 2, false⟩
  | .cld => ⟨0xD8, .cld, .implied, 2, false⟩
  | .sed => ⟨0xF8, .sed, .implied, 2, false⟩
  | .nop => ⟨0xEA, .nop, .implied, 2, false⟩

/-- The number of bytes of an instruction (30_encoding.md R100). -/
def Instr.size (i : Instr) : Nat := i.row.operand.size

/-- The 256 opcode bytes of 30_encoding.md R121, given the two bytes that follow the opcode; the 105 bytes of R122 have
no instruction. -/
def decodeOp (op b1 b2 : Byte) : Option Instr :=
  match op with
  | 0x00 => some .brk
  | 0x01 => some (.oraIndirectX b1)
  | 0x05 => some (.oraZeroPage b1)
  | 0x06 => some (.aslZeroPage b1)
  | 0x08 => some .php
  | 0x09 => some (.oraImmediate b1)
  | 0x0A => some .aslAccumulator
  | 0x0D => some (.oraAbsolute (wordOf b2 b1))
  | 0x0E => some (.aslAbsolute (wordOf b2 b1))
  | 0x10 => some (.bpl b1)
  | 0x11 => some (.oraIndirectY b1)
  | 0x15 => some (.oraZeroPageX b1)
  | 0x16 => some (.aslZeroPageX b1)
  | 0x18 => some .clc
  | 0x19 => some (.oraAbsoluteY (wordOf b2 b1))
  | 0x1D => some (.oraAbsoluteX (wordOf b2 b1))
  | 0x1E => some (.aslAbsoluteX (wordOf b2 b1))
  | 0x20 => some (.jsr (wordOf b2 b1))
  | 0x21 => some (.andIndirectX b1)
  | 0x24 => some (.bitZeroPage b1)
  | 0x25 => some (.andZeroPage b1)
  | 0x26 => some (.rolZeroPage b1)
  | 0x28 => some .plp
  | 0x29 => some (.andImmediate b1)
  | 0x2A => some .rolAccumulator
  | 0x2C => some (.bitAbsolute (wordOf b2 b1))
  | 0x2D => some (.andAbsolute (wordOf b2 b1))
  | 0x2E => some (.rolAbsolute (wordOf b2 b1))
  | 0x30 => some (.bmi b1)
  | 0x31 => some (.andIndirectY b1)
  | 0x35 => some (.andZeroPageX b1)
  | 0x36 => some (.rolZeroPageX b1)
  | 0x38 => some .sec
  | 0x39 => some (.andAbsoluteY (wordOf b2 b1))
  | 0x3D => some (.andAbsoluteX (wordOf b2 b1))
  | 0x3E => some (.rolAbsoluteX (wordOf b2 b1))
  | 0x40 => some .rti
  | 0x41 => some (.eorIndirectX b1)
  | 0x45 => some (.eorZeroPage b1)
  | 0x46 => some (.lsrZeroPage b1)
  | 0x48 => some .pha
  | 0x49 => some (.eorImmediate b1)
  | 0x4A => some .lsrAccumulator
  | 0x4C => some (.jmpAbsolute (wordOf b2 b1))
  | 0x4D => some (.eorAbsolute (wordOf b2 b1))
  | 0x4E => some (.lsrAbsolute (wordOf b2 b1))
  | 0x50 => some (.bvc b1)
  | 0x51 => some (.eorIndirectY b1)
  | 0x55 => some (.eorZeroPageX b1)
  | 0x56 => some (.lsrZeroPageX b1)
  | 0x58 => some .cli
  | 0x59 => some (.eorAbsoluteY (wordOf b2 b1))
  | 0x5D => some (.eorAbsoluteX (wordOf b2 b1))
  | 0x5E => some (.lsrAbsoluteX (wordOf b2 b1))
  | 0x60 => some .rts
  | 0x61 => some (.adcIndirectX b1)
  | 0x65 => some (.adcZeroPage b1)
  | 0x66 => some (.rorZeroPage b1)
  | 0x68 => some .pla
  | 0x69 => some (.adcImmediate b1)
  | 0x6A => some .rorAccumulator
  | 0x6C => some (.jmpIndirect (wordOf b2 b1))
  | 0x6D => some (.adcAbsolute (wordOf b2 b1))
  | 0x6E => some (.rorAbsolute (wordOf b2 b1))
  | 0x70 => some (.bvs b1)
  | 0x71 => some (.adcIndirectY b1)
  | 0x75 => some (.adcZeroPageX b1)
  | 0x76 => some (.rorZeroPageX b1)
  | 0x78 => some .sei
  | 0x79 => some (.adcAbsoluteY (wordOf b2 b1))
  | 0x7D => some (.adcAbsoluteX (wordOf b2 b1))
  | 0x7E => some (.rorAbsoluteX (wordOf b2 b1))
  | 0x81 => some (.staIndirectX b1)
  | 0x84 => some (.styZeroPage b1)
  | 0x85 => some (.staZeroPage b1)
  | 0x86 => some (.stxZeroPage b1)
  | 0x88 => some .dey
  | 0x8A => some .txa
  | 0x8C => some (.styAbsolute (wordOf b2 b1))
  | 0x8D => some (.staAbsolute (wordOf b2 b1))
  | 0x8E => some (.stxAbsolute (wordOf b2 b1))
  | 0x90 => some (.bcc b1)
  | 0x91 => some (.staIndirectY b1)
  | 0x94 => some (.styZeroPageX b1)
  | 0x95 => some (.staZeroPageX b1)
  | 0x96 => some (.stxZeroPageY b1)
  | 0x98 => some .tya
  | 0x99 => some (.staAbsoluteY (wordOf b2 b1))
  | 0x9A => some .txs
  | 0x9D => some (.staAbsoluteX (wordOf b2 b1))
  | 0xA0 => some (.ldyImmediate b1)
  | 0xA1 => some (.ldaIndirectX b1)
  | 0xA2 => some (.ldxImmediate b1)
  | 0xA4 => some (.ldyZeroPage b1)
  | 0xA5 => some (.ldaZeroPage b1)
  | 0xA6 => some (.ldxZeroPage b1)
  | 0xA8 => some .tay
  | 0xA9 => some (.ldaImmediate b1)
  | 0xAA => some .tax
  | 0xAC => some (.ldyAbsolute (wordOf b2 b1))
  | 0xAD => some (.ldaAbsolute (wordOf b2 b1))
  | 0xAE => some (.ldxAbsolute (wordOf b2 b1))
  | 0xB0 => some (.bcs b1)
  | 0xB1 => some (.ldaIndirectY b1)
  | 0xB4 => some (.ldyZeroPageX b1)
  | 0xB5 => some (.ldaZeroPageX b1)
  | 0xB6 => some (.ldxZeroPageY b1)
  | 0xB8 => some .clv
  | 0xB9 => some (.ldaAbsoluteY (wordOf b2 b1))
  | 0xBA => some .tsx
  | 0xBC => some (.ldyAbsoluteX (wordOf b2 b1))
  | 0xBD => some (.ldaAbsoluteX (wordOf b2 b1))
  | 0xBE => some (.ldxAbsoluteY (wordOf b2 b1))
  | 0xC0 => some (.cpyImmediate b1)
  | 0xC1 => some (.cmpIndirectX b1)
  | 0xC4 => some (.cpyZeroPage b1)
  | 0xC5 => some (.cmpZeroPage b1)
  | 0xC6 => some (.decZeroPage b1)
  | 0xC8 => some .iny
  | 0xC9 => some (.cmpImmediate b1)
  | 0xCA => some .dex
  | 0xCC => some (.cpyAbsolute (wordOf b2 b1))
  | 0xCD => some (.cmpAbsolute (wordOf b2 b1))
  | 0xCE => some (.decAbsolute (wordOf b2 b1))
  | 0xD0 => some (.bne b1)
  | 0xD1 => some (.cmpIndirectY b1)
  | 0xD5 => some (.cmpZeroPageX b1)
  | 0xD6 => some (.decZeroPageX b1)
  | 0xD8 => some .cld
  | 0xD9 => some (.cmpAbsoluteY (wordOf b2 b1))
  | 0xDD => some (.cmpAbsoluteX (wordOf b2 b1))
  | 0xDE => some (.decAbsoluteX (wordOf b2 b1))
  | 0xE0 => some (.cpxImmediate b1)
  | 0xE1 => some (.sbcIndirectX b1)
  | 0xE4 => some (.cpxZeroPage b1)
  | 0xE5 => some (.sbcZeroPage b1)
  | 0xE6 => some (.incZeroPage b1)
  | 0xE8 => some .inx
  | 0xE9 => some (.sbcImmediate b1)
  | 0xEA => some .nop
  | 0xEC => some (.cpxAbsolute (wordOf b2 b1))
  | 0xED => some (.sbcAbsolute (wordOf b2 b1))
  | 0xEE => some (.incAbsolute (wordOf b2 b1))
  | 0xF0 => some (.beq b1)
  | 0xF1 => some (.sbcIndirectY b1)
  | 0xF5 => some (.sbcZeroPageX b1)
  | 0xF6 => some (.incZeroPageX b1)
  | 0xF8 => some .sed
  | 0xF9 => some (.sbcAbsoluteY (wordOf b2 b1))
  | 0xFD => some (.sbcAbsoluteX (wordOf b2 b1))
  | 0xFE => some (.incAbsoluteX (wordOf b2 b1))
  | _ => none

/-- The length of the instruction an opcode byte begins, a function of that byte alone (30_encoding.md R100). -/
def opcodeSize (op : Byte) : Option Nat :=
  (decodeOp op 0 0).map Instr.size

/-- The opcode bytes of the immediate mode. -/
def immediateOp (op : Byte) : Bool :=
  match decodeOp op 0 0 with
  | some i => i.row.operand.isImmediate
  | none => false

/-- Why a list of bytes does not begin with an instruction. -/
inductive DecodeError where
  /-- One of the 105 opcode bytes without a handler (30_encoding.md R122). -/
  | illegalOpcode (op : Byte)
  /-- The list ends before the instruction does. -/
  | truncated
  deriving DecidableEq, Repr

/-- The decoder: the instruction a list of bytes begins with and the rest of the list, or why there is none. -/
def decode : List Byte → Except DecodeError (Instr × List Byte)
  | [] => .error .truncated
  | op :: rest =>
    match decodeOp op (rest.getD 0 0) (rest.getD 1 0) with
    | none => .error (.illegalOpcode op)
    | some i => if rest.length + 1 < i.size then .error .truncated else .ok (i, rest.drop (i.size - 1))

/-- The encoder: the opcode byte, then the operand bytes (30_encoding.md R101). -/
def encode (i : Instr) : List Byte :=
  i.row.opcode :: i.row.operand.bytes

/-- The bytes of an instruction whose first `nbits` bits are those of `w`, numbered from the least significant bit of the
first byte, every later bit 0; the longest instruction has three bytes. -/
def bytesOfTableWord (nbits w : Nat) : List Byte :=
  let v := w % 2 ^ nbits
  [BitVec.ofNat 8 v, BitVec.ofNat 8 (v / 256), BitVec.ofNat 8 (v / 65536)]

/-- The instruction the decoder reads from those bytes. -/
def decodeTableWord (nbits w : Nat) : Option Instr :=
  match decode (bytesOfTableWord nbits w) with
  | .ok (i, _) => some i
  | .error _ => none

end Sys2Proof
end

