-- ==== Sys2Proof/Machine/Memory.lean ====
section
/-! DEFINITION. The memories of the machine: a list of (index, byte), indices strictly rising, no listed byte zero; an
index that is not listed reads as zero (10_state.md R46, log 3). -/

namespace Sys2Proof.Machine

/-- What an unlisted index reads as: the content of every memory after a load (10_state.md R46). -/
def Memory.unlisted : Byte := 0

/-- The byte at an index. -/
def Memory.read : Memory → Nat → Byte
  | [], _ => Memory.unlisted
  | (k, v) :: rest, a => if a = k then v else Memory.read rest a

/-- Store a byte at an index, keeping the canonical form. -/
def Memory.write : Memory → Nat → Byte → Memory
  | [], a, v => if v = Memory.unlisted then [] else [(a, v)]
  | (k, w) :: rest, a, v =>
    if a < k then
      if v = Memory.unlisted then (k, w) :: rest else (a, v) :: (k, w) :: rest
    else if a = k then
      if v = Memory.unlisted then rest else (a, v) :: rest
    else
      (k, w) :: Memory.write rest a v

/-- Every index is at least `lo`, indices rise strictly, no listed byte is the unlisted one. -/
def Memory.wfFrom : Nat → Memory → Bool
  | _, [] => true
  | lo, (k, v) :: rest => decide (lo ≤ k) && decide (v ≠ Memory.unlisted) && Memory.wfFrom (k + 1) rest

/-- The canonical form: equal memories are equal lists. -/
def Memory.wf (m : Memory) : Bool :=
  Memory.wfFrom 0 m

/-- Every listed index is inside an array of `size` bytes. -/
def Memory.below (size : Nat) (m : Memory) : Bool :=
  m.all fun cell => decide (cell.1 < size)

/-- A canonical memory of an array of `size` bytes. -/
def Memory.wfIn (size : Nat) (m : Memory) : Bool :=
  m.wf && m.below size

/-- Lay bytes out from an index on (for binding a cartridge's arrays and for tests). -/
def Memory.writeAll (m : Memory) (a : Nat) : List Byte → Memory
  | [] => m
  | b :: rest => Memory.writeAll (m.write a b) (a + 1) rest

end Sys2Proof.Machine
end

