-- ==== Sys2Proof/Machine/Regs.lean ====
section
/-! DEFINITION. The named updates of the state: one per register or memory, through which every write goes, and the
CPU's call contract `triggerNmi`, `triggerIrq`, `addIdleCycles` (10_state.md R31 to R33). -/

namespace Sys2Proof.Machine

/-- `A <- v`. -/
def State.setA (s : State) (v : Byte) : State := { s with cpu := { s.cpu with a := v } }

/-- `X <- v`. -/
def State.setX (s : State) (v : Byte) : State := { s with cpu := { s.cpu with x := v } }

/-- `Y <- v`. -/
def State.setY (s : State) (v : Byte) : State := { s with cpu := { s.cpu with y := v } }

/-- `S <- v`. -/
def State.setSp (s : State) (v : Byte) : State := { s with cpu := { s.cpu with s := v } }

/-- `PC <- target`. -/
def State.setPc (s : State) (target : Word) : State := { s with cpu := { s.cpu with pc := target } }

/-- Replace the flags. -/
def State.setP (s : State) (p : Flags) : State := { s with cpu := { s.cpu with p := p } }

/-- `cycles <- cycles + n`. -/
def State.addCycles (s : State) (n : Nat) : State := { s with cpu := { s.cpu with cycles := s.cpu.cycles + n } }

/-- `addIdleCycles(n)`, 10_state.md R31. -/
def State.addIdleCycles (s : State) (n : Nat) : State := { s with cpu := { s.cpu with idle := s.cpu.idle + n } }

/-- `triggerNmi()`, 10_state.md R32. -/
def State.triggerNmi (s : State) : State := { s with cpu := { s.cpu with nmiPending := true } }

/-- `triggerIrq()`, 10_state.md R33: dropped while `P.I` is set. -/
def State.triggerIrq (s : State) : State :=
  if s.cpu.p.i then s else { s with cpu := { s.cpu with irqPending := true } }

/-- Replace the picture unit. -/
def State.setPpu (s : State) (p : Ppu) : State := { s with ppu := p }

/-- Replace the mapper's registers. -/
def State.setMap (s : State) (m : Mapper) : State := { s with map := m }

/-- Replace the controllers. -/
def State.setPads (s : State) (p : Pads) : State := { s with pads := p }

/-- Replace the console's own state. -/
def State.setCon (s : State) (c : Console) : State := { s with con := c }

/-- `ram[k] <- v`. -/
def State.writeRam (s : State) (k : Nat) (v : Byte) : State := { s with ram := s.ram.write k v }

/-- `cart.prg_ram[k] <- v`. -/
def State.writePrgRam (s : State) (k : Nat) (v : Byte) : State := { s with prgRam := s.prgRam.write k v }

/-- `cart.chr_ram[k] <- v`. -/
def State.writeChrRam (s : State) (k : Nat) (v : Byte) : State := { s with chrRam := s.chrRam.write k v }

/-- One more free byte has been drawn. -/
def State.countDraw (s : State) : State := { s with draws := s.draws + 1 }

/-- Record a fault: `fault <- F(info)` if `fault = none` (60_exceptions.md R254). -/
def State.recordFault (s : State) (c : FatalCondition) : State := { s with fault := some (s.fault.getD c) }

end Sys2Proof.Machine
end

