-- ==== Sys2Proof/Machine/Monad.lean ====
section
/-! DEFINITION. A computation of the machine: it takes a state, and either gives a value and the next state or raises a
fault (00_scope.md R13: a fault ends the current step). A fault carries the machine as it stands when it is raised, the
changes made earlier in the step kept (60_exceptions.md R254). -/

namespace Sys2Proof.Machine

/-- A computation over the state that may raise a fault. -/
abbrev M (α : Type) := StateT State (Except Fault) α

/-- The current state. -/
def getS : M State := fun s => .ok (s, s)

/-- Change the state. -/
def update (f : State → State) : M Unit := fun s => .ok ((), f s)

/-- `raise F(info)`, 60_exceptions.md R254: the fault is recorded in the state as it stands and ends the computation. -/
def raise {α : Type} (c : FatalCondition) : M α := fun s => .error (.raised c (s.recordFault c))

/-- A read that may raise a fault and changes nothing. -/
def look {α : Type} (f : State → Except FatalCondition α) : M α := fun s =>
  match f s with
  | .ok a => .ok (a, s)
  | .error c => raise c s

/-- The outcome of a computation run for its effect. -/
def M.outcome (x : M Unit) (s : State) : Host.Outcome State Fault Refusal :=
  match x s with
  | .ok ((), t) => .next t
  | .error f => .fault f

end Sys2Proof.Machine
end

