-- ==== Sys2Proof/Machine/Cartridge.lean ====
section
/-! DEFINITION. The cartridge store and the four mappers (62_mappers.md): selection, translation, register writes, the
per-step hook. -/

namespace Sys2Proof.Machine

/-! ### Sizes and launch checks -/

/-- `prg_size`, 62_mappers.md R389. -/
def Cartridge.prgSize (c : Cartridge) : Nat := 16384 * c.prgBanks

/-- `chr_size`, R389. -/
def Cartridge.chrSize (c : Cartridge) : Nat := 8192 * max c.chrBanks 1

/-- `mapper_number` is in the supported set and the arrays are those the header describes (00_scope.md R8,
60_exceptions.md R255); any other cartridge is refused. -/
def Cartridge.valid (c : Cartridge) : Bool :=
  [0, 1, 2, 4].contains c.mapperNumber && decide (1 ≤ c.prgBanks) && c.prg.wfIn c.prgSize &&
    c.chr.wfIn (8192 * c.chrBanks) &&
    (c.headerMirroring == .horizontal || c.headerMirroring == .vertical)

/-- MMC1's registers after a load, 62_mappers.md R401. -/
def Mmc1.initial (header : Mirroring) : Mmc1 where
  shift := 0
  count := 0
  control := if header = .vertical then 0x0E else 0x0F
  chrBank0 := 0
  chrBank1 := 0
  prgBank := 0

/-- MMC3's registers after a load, 62_mappers.md R416. -/
def Mmc3.initial (header : Mirroring) : Mmc3 where
  bankSelect := 0
  prgMode := false
  chrMode := false
  regs := Vector.replicate 8 0
  mirroring := header
  irqReload := 0
  irqCounter := 0
  irqEnable := false

/-- The variant a mapper number selects with its reset values (62_mappers.md R380, R386, R393, R401, R416). -/
def Mapper.initial (c : Cartridge) : Option Mapper :=
  match c.mapperNumber with
  | 0 => some .nrom
  | 1 => some (.mmc1 (Mmc1.initial c.headerMirroring))
  | 2 => some (.uxrom ⟨0⟩)
  | 4 => some (.mmc3 (Mmc3.initial c.headerMirroring))
  | _ => none

/-! ### Translation -/

/-- A bank number reduced modulo the `n` banks of its size (62_mappers.md R380); under `BANK_RANGE = fault` one beyond
the cartridge has no reduction. -/
def bankOf (p : Params) (bank n : Nat) : Option Nat :=
  match p.bankRange with
  | .modulo => some (bank % n)
  | .fault => if bank < n then some bank else none

/-- An index that must lie inside an array (62_mappers.md R389). -/
def inArray (size : Nat) (index : Option Nat) : Option Nat :=
  index.bind fun k => if k < size then some k else none

/-- The 16 KB bank MMC1 shows at an address at or above 0x8000, 62_mappers.md R403. -/
def Mmc1.prgBankAt (m : Mmc1) (n16 a : Nat) : Nat :=
  let lower := decide (a < 0xC000)
  match (m.control.extractLsb' 2 2).toNat with
  | 2 => if lower then 0 else m.prgBank.toNat
  | 3 => if lower then m.prgBank.toNat else n16 - 1
  | _ => if lower then (m.prgBank &&& 0xE).toNat else (m.prgBank &&& 0xE ||| 1).toNat

/-- The 4 KB bank MMC1 shows at a picture-unit address below 0x2000, 62_mappers.md R403. -/
def Mmc1.chrBankAt (m : Mmc1) (a : Nat) : Nat :=
  let lower := decide (a < 0x1000)
  if m.control.getLsbD 4 then
    if lower then m.chrBank0.toNat else m.chrBank1.toNat
  else
    if lower then (m.chrBank0 &&& 0x1E).toNat else (m.chrBank0 &&& 0x1E ||| 1).toNat

/-- Register `Rk` of MMC3's bank table. -/
def Mmc3.reg (m : Mmc3) (k : Fin 8) : Byte := m.regs[k]

/-- The 8 KB bank MMC3 shows in each quarter of the program space, 62_mappers.md R417. -/
def Mmc3.prgSlot (m : Mmc3) (n8 slot : Nat) : Nat :=
  match slot with
  | 0 => if m.prgMode then n8 - 2 else (m.reg 6).toNat
  | 1 => (m.reg 7).toNat
  | 2 => if m.prgMode then (m.reg 6).toNat else n8 - 2
  | _ => n8 - 1

/-- The 8 KB bank MMC3 shows at an address at or above 0x8000. -/
def Mmc3.prgBankAt (m : Mmc3) (n8 a : Nat) : Nat := m.prgSlot n8 ((a - 0x8000) / 0x2000)

/-- The 1 KB bank MMC3 shows in each eighth of the pattern space, 62_mappers.md R417: the two 2 KB pairs come first when
`chr_mode` is 0 and last when it is 1. -/
def Mmc3.chrSlot (m : Mmc3) (slot : Nat) : Nat :=
  match (if m.chrMode then (slot + 4) % 8 else slot) with
  | 0 => (m.reg 0 &&& 0xFE).toNat
  | 1 => (m.reg 0 ||| 1).toNat
  | 2 => (m.reg 1 &&& 0xFE).toNat
  | 3 => (m.reg 1 ||| 1).toNat
  | 4 => (m.reg 2).toNat
  | 5 => (m.reg 3).toNat
  | 6 => (m.reg 4).toNat
  | _ => (m.reg 5).toNat

/-- The 1 KB bank MMC3 shows at a picture-unit address below 0x2000. -/
def Mmc3.chrBankAt (m : Mmc3) (a : Nat) : Nat := m.chrSlot (a / 0x400)

/-- `PrgIndex(a)` for `0x8000 <= a`, 62_mappers.md R387, R391, R403, R417; none where the index would leave the array. -/
def prgIndex (s : State) (a : Nat) : Option Nat :=
  let banks := s.cart.prgBanks
  inArray s.cart.prgSize <|
    match s.map with
    | .nrom => some ((a - 0x8000) % s.cart.prgSize)
    | .uxrom m =>
      if a < 0xC000 then (bankOf s.params m.bank.toNat banks).map fun b => b * 16384 + (a - 0x8000)
      else some ((banks - 1) * 16384 + (a - 0xC000))
    | .mmc1 m => (bankOf s.params (m.prgBankAt banks a) banks).map fun b => b * 16384 + a % 0x4000
    | .mmc3 m => (bankOf s.params (m.prgBankAt (2 * banks) a) (2 * banks)).map fun b => b * 8192 + a % 0x2000

/-- `ChrIndex(a)` for `a <= 0x1FFF`, 62_mappers.md R387, R391, R403, R417; none where the index would leave the array. -/
def chrIndex (s : State) (a : Nat) : Option Nat :=
  inArray s.cart.chrSize <|
    match s.map with
    | .nrom => some a
    | .uxrom _ => some a
    | .mmc1 m => (bankOf s.params (m.chrBankAt a) (s.cart.chrSize / 4096)).map fun b => b * 4096 + a % 0x1000
    | .mmc3 m => (bankOf s.params (m.chrBankAt a) (s.cart.chrSize / 1024)).map fun b => b * 1024 + a % 0x400

/-- `map.mirroring`, 62_mappers.md R420 (MMC1: R402). -/
def mirroring (s : State) : Mirroring :=
  match s.map with
  | .nrom | .uxrom _ => s.cart.headerMirroring
  | .mmc1 m =>
    match (m.control.extractLsb' 0 2).toNat with
    | 0 => .singleLower
    | 1 => .singleUpper
    | 2 => .vertical
    | _ => .horizontal
  | .mmc3 m => m.mirroring

/-! ### Register writes -/

/-- MMC1's register write, 62_mappers.md R400. -/
def Mmc1.write (p : Params) (m : Mmc1) (a : Nat) (d : Byte) : Mmc1 :=
  if d.getLsbD 7 then
    { m with
      shift := 0
      count := 0
      control := if p.mmc1ResetFixesLast then m.control ||| 0x0C else m.control }
  else
    let shifted : BitVec 5 := (m.shift >>> 1) ||| (if d.getLsbD 0 then 0x10 else 0)
    if m.count + 1 = 5 then
      let done := { m with shift := 0, count := 0 }
      match a / 0x2000 % 4 with
      | 0 => { done with control := shifted }
      | 1 => { done with chrBank0 := shifted }
      | 2 => { done with chrBank1 := shifted }
      | _ => { done with prgBank := shifted.setWidth 4 }
    else
      { m with shift := shifted, count := m.count + 1 }

/-- MMC3's register write, 62_mappers.md R415. -/
def Mmc3.write (m : Mmc3) (a : Nat) (d : Byte) : Mmc3 :=
  match a / 0x2000 % 4, a % 2 with
  | 0, 0 => { m with bankSelect := d.setWidth 3, prgMode := d.getLsbD 6, chrMode := d.getLsbD 7 }
  | 0, _ => { m with regs := m.regs.set m.bankSelect.toNat d m.bankSelect.isLt }
  | 1, 0 => { m with mirroring := if d.getLsbD 0 then .horizontal else .vertical }
  | 1, _ => m
  | 2, 0 => { m with irqReload := d }
  | 2, _ => { m with irqCounter := 0 }
  | _, 0 => { m with irqEnable := false }
  | _, _ => { m with irqEnable := true }

/-- A CPU write of d to 0x8000 to 0xFFFF: the variant's register, or the refusal of NROM
(62_mappers.md R388, R392, R400, R415). -/
def mapperWrite (a : Word) (d : Byte) : M Unit := do
  let s ← getS
  match s.map with
  | .nrom =>
    match s.params.nromPrgWrite with
    | .fault => raise (.invalidAccess .cpu a .write)
    | .ignore => pure ()
  | .uxrom _ => update (·.setMap (.uxrom ⟨d⟩))
  | .mmc1 m => update (·.setMap (.mmc1 (m.write s.params a.toNat d)))
  | .mmc3 m => update (·.setMap (.mmc3 (m.write a.toNat d)))

/-! ### The mapper's side of the two buses -/

/-- `map.CpuRead(a)` for `0x4020 <= a`, 62_mappers.md R381; it changes nothing. -/
def mapCpuRead (a : Word) (s : State) : Except FatalCondition Byte :=
  if a.toNat < 0x6000 then .error (.invalidAccess .cpu a .read)
  else if a.toNat < 0x8000 then .ok (s.prgRam.read (a.toNat - 0x6000))
  else
    match prgIndex s a.toNat with
    | some k => .ok (s.cart.prg.read k)
    | none => .error (.invalidAccess .cpu a .read)

/-- `map.CpuWrite(a, d)` for `0x4020 <= a`, 62_mappers.md R381. -/
def mapCpuWrite (a : Word) (d : Byte) : M Unit :=
  if a.toNat < 0x6000 then raise (.invalidAccess .cpu a .write)
  else if a.toNat < 0x8000 then update (·.writePrgRam (a.toNat - 0x6000) d)
  else mapperWrite a d

/-- `map.PpuRead(a)` for `a <= 0x1FFF`, 62_mappers.md R384: graphics ROM, or graphics RAM when there is none. -/
def mapPpuRead (a : Word) (s : State) : Except FatalCondition Byte :=
  match chrIndex s a.toNat with
  | some k => .ok (if s.cart.chrBanks = 0 then s.chrRam.read k else s.cart.chr.read k)
  | none => .error (.invalidAccess .ppu a .read)

/-- `map.PpuWrite(a, d)` for `a <= 0x1FFF`, 62_mappers.md R384, R385. -/
def mapPpuWrite (a : Word) (d : Byte) : M Unit := do
  let s ← getS
  if s.cart.chrBanks = 0 then
    match chrIndex s a.toNat with
    | some k => update (·.writeChrRam k d)
    | none => raise (.invalidAccess .ppu a .write)
  else
    raise (.chrRomWrite a)

/-! ### The per-step hook -/

/-- One count event of the MMC3 scanline counter, 62_mappers.md R431: the counter's registers and whether it requests
an IRQ. -/
def Mmc3.count (m : Mmc3) : Mmc3 × Bool :=
  if m.irqCounter = 0 then ({ m with irqCounter := m.irqReload }, false)
  else
    let next := m.irqCounter - 1
    ({ m with irqCounter := next }, next == 0 && m.irqEnable)

/-- Whether the picture unit stands where the MMC3 counter counts, 62_mappers.md R431. -/
def countEvent (s : State) : Bool :=
  decide (s.ppu.dot = s.params.mmc3IrqDot.val) && (decide (s.ppu.scanline ≤ 239) || decide (s.ppu.scanline = 261)) &&
    (s.ppu.showBg || s.ppu.showSpr)

/-- `map.OnPpuStep()`, 62_mappers.md R430, R431. -/
def mapperHook (s : State) : State :=
  match s.map with
  | .nrom | .uxrom _ | .mmc1 _ => s
  | .mmc3 m =>
    if countEvent s then
      let counted := m.count
      let t := s.setMap (.mmc3 counted.1)
      if counted.2 then t.triggerIrq else t
    else s

end Sys2Proof.Machine
end

