-- ==== Sys2Proof/Machine/PpuBus.lean ====
section
/-! DEFINITION. The picture-unit bus: `PpuRead` and `PpuWrite` with the nametable and palette indices
(20_memory.md R80 to R85). -/

namespace Sys2Proof.Machine

/-- `Lookup[mirroring][table]`, 20_memory.md R83: which half of the nametable RAM a logical table is. -/
def nametableHalf (m : Mirroring) (table : Nat) : Nat :=
  match m with
  | .horizontal => table / 2
  | .vertical => table % 2
  | .singleLower => 0
  | .singleUpper => 1

/-- `NtIndex(a')` for `0x2000 <= a' <= 0x3EFF`, 20_memory.md R83. -/
def ntIndex (m : Mirroring) (a : Nat) : Nat :=
  let r := (a - 0x2000) % 0x1000
  nametableHalf m (r / 0x400) * 0x400 + r % 0x400

/-- `PalIndex(a')`, 20_memory.md R84. -/
def palIndex (a : Nat) : Nat :=
  let i := a % 32
  if 16 ≤ i ∧ i % 4 = 0 then i - 16 else i

/-- The address a picture-unit access is routed by, 20_memory.md R81; under `PPU_ADDR_HIGH = fault` an address at or
above 0x4000 is refused. -/
def ppuAddress (p : Params) (a : Word) : Option Word :=
  if p.ppuAddrHigh = .fault ∧ 0x4000 ≤ a.toNat then none else some (a &&& 0x3FFF)

/-- `PpuRead(a)`, 20_memory.md R80; it changes nothing. -/
def ppuRead (a : Word) (s : State) : Except FatalCondition Byte :=
  match ppuAddress s.params a with
  | none => .error (.invalidAccess .ppu a .read)
  | some a' =>
    if a'.toNat < 0x2000 then mapPpuRead a' s
    else if a'.toNat < 0x3F00 then .ok (s.ppu.nametable.read (ntIndex (mirroring s) a'.toNat))
    else .ok (s.ppu.palette.read (palIndex a'.toNat))

/-- `PpuWrite(a, v)`, 20_memory.md R80. -/
def ppuWrite (a : Word) (v : Byte) : M Unit := do
  let s ← getS
  match ppuAddress s.params a with
  | none => raise (.invalidAccess .ppu a .write)
  | some a' =>
    if a'.toNat < 0x2000 then mapPpuWrite a' v
    else if a'.toNat < 0x3F00 then
      update (·.setPpu { s.ppu with nametable := s.ppu.nametable.write (ntIndex (mirroring s) a'.toNat) v })
    else
      update (·.setPpu { s.ppu with palette := s.ppu.palette.write (palIndex a'.toNat) v })

end Sys2Proof.Machine
end

