-- ==== Sys2Proof/Machine/PpuRegs.lean ====
section
/-! DEFINITION. The eight picture-unit registers of the CPU bus (61_ppu.md R308 to R319). -/

namespace Sys2Proof.Machine

/-- Register 0, control (61_ppu.md R310). -/
def Ppu.writeControl (p : Ppu) (d : Byte) : Ppu :=
  { p with
    t := (p.t &&& ~~~(0x0C00 : BitVec 15)) ||| ((d.extractLsb' 0 2).setWidth 15 <<< 10)
    vramInc := d.getLsbD 2
    sprTable := d.getLsbD 3
    bgTable := d.getLsbD 4
    sprSize := d.getLsbD 5
    nmiEnable := d.getLsbD 7 }

/-- Register 1, mask (61_ppu.md R311). -/
def Ppu.writeMask (p : Ppu) (d : Byte) : Ppu :=
  { p with
    grayscale := d.getLsbD 0
    showBgLeft := d.getLsbD 1
    showSprLeft := d.getLsbD 2
    showBg := d.getLsbD 3
    showSpr := d.getLsbD 4
    emphasis := d.extractLsb' 5 3 }

/-- The byte a read of register 2 returns, `(vblank, spr0_hit, spr_overflow, latch[4:0])` (61_ppu.md R312). -/
def Ppu.status (p : Ppu) : Byte :=
  BitVec.ofBool p.vblank ++ BitVec.ofBool p.spr0Hit ++ BitVec.ofBool p.sprOverflow ++ p.latch.extractLsb' 0 5

/-- Register 4, OAM data, written (61_ppu.md R314); OAM DMA stores its bytes the same way. -/
def Ppu.writeOam (p : Ppu) (d : Byte) : Ppu :=
  { p with oam := p.oam.write p.oamAddr.toNat d, oamAddr := p.oamAddr + 1 }

/-- Register 5, scroll (61_ppu.md R315). -/
def Ppu.writeScroll (p : Ppu) (d : Byte) : Ppu :=
  if p.w then
    { p with
      t := (p.t &&& 0x0C1F) ||| ((d.extractLsb' 0 3).setWidth 15 <<< 12) ||| ((d.extractLsb' 3 5).setWidth 15 <<< 5)
      w := false }
  else
    { p with
      t := (p.t &&& 0x7FE0) ||| (d.extractLsb' 3 5).setWidth 15
      x := d.extractLsb' 0 3
      w := true }

/-- Register 6, VRAM address (61_ppu.md R316): the first write clears `t[14]` too. -/
def Ppu.writeAddress (p : Ppu) (d : Byte) : Ppu :=
  if p.w then
    let t := (p.t &&& 0x7F00) ||| d.setWidth 15
    { p with t := t, v := t, w := false }
  else
    { p with t := (p.t &&& 0x00FF) ||| ((d.extractLsb' 0 6).setWidth 15 <<< 8), w := true }

/-- The increment of `v` after an access to register 7 (61_ppu.md R317, R318). -/
def Ppu.stepAddress (p : Ppu) : Ppu :=
  { p with v := p.v + (if p.vramInc then 32 else 1) }

/-- `v mod 0x4000`. -/
def Ppu.busAddress (p : Ppu) : Word := p.v.setWidth 16 &&& 0x3FFF

/-- Register 7, VRAM data, read (61_ppu.md R317). -/
def readVramData : M Byte := do
  let s ← getS
  let a := s.ppu.busAddress
  if a.toNat < 0x3F00 then
    let b ← look (ppuRead a)
    update (·.setPpu { s.ppu with readBuffer := b }.stepAddress)
    pure s.ppu.readBuffer
  else
    let result ← look (ppuRead a)
    let b ← look (ppuRead (a - 0x1000))
    update (·.setPpu { s.ppu with readBuffer := b }.stepAddress)
    pure result

/-- Register 7, VRAM data, write (61_ppu.md R318). -/
def writeVramData (d : Byte) : M Unit := do
  ppuWrite (← getS).ppu.busAddress d
  update fun s => s.setPpu s.ppu.stepAddress

/-- A read of a write-only register: registers 0, 1, 3, 5, 6 (61_ppu.md R319). -/
def readWriteOnly (a : Word) : M Byte := do
  let s ← getS
  match s.params.ppuWoRead with
  | .fault => raise (.invalidAccess .cpu a .read)
  | .latch => pure s.ppu.latch

/-- A CPU read in 0x2000 to 0x3FFF (20_memory.md R64, 61_ppu.md R312, R314, R317, R319). -/
def readPpuRegister (a : Word) : M Byte := do
  let s ← getS
  match a.toNat % 8 with
  | 2 =>
    update (·.setPpu { s.ppu with vblank := false, w := false })
    pure s.ppu.status
  | 4 => pure (s.ppu.oam.read s.ppu.oamAddr.toNat)
  | 7 => readVramData
  | _ => readWriteOnly a

/-- A CPU write in 0x2000 to 0x3FFF (61_ppu.md R308): `latch` first, then the register's rule. -/
def writePpuRegister (a : Word) (d : Byte) : M Unit := do
  update fun s => s.setPpu { s.ppu with latch := d }
  match a.toNat % 8 with
  | 0 => update fun s => s.setPpu (s.ppu.writeControl d)
  | 1 => update fun s => s.setPpu (s.ppu.writeMask d)
  | 2 => pure ()
  | 3 => update fun s => s.setPpu { s.ppu with oamAddr := d }
  | 4 => update fun s => s.setPpu (s.ppu.writeOam d)
  | 5 => update fun s => s.setPpu (s.ppu.writeScroll d)
  | 6 => update fun s => s.setPpu (s.ppu.writeAddress d)
  | _ => writeVramData d

end Sys2Proof.Machine
end

