-- ==== Sys2Proof/Machine/Bus.lean ====
section
/-! DEFINITION. The CPU bus: `MemRead` and `MemWrite` with their routing (20_memory.md R62), OAM DMA and the controllers
(63_bus_devices_console.md R440 to R453), and the two 16-bit reads (20_memory.md R70, R71). -/

namespace Sys2Proof.Machine

/-- The work-RAM index of an address below 0x2000 (20_memory.md R63). -/
def ramIndex (a : Word) : Nat := a.toNat % 0x800

/-! ### Controllers -/

/-- One bit as the byte a controller read returns. -/
def bitByte (b : Bool) : Byte := if b then 1 else 0

/-- A read of one controller (63_bus_devices_console.md R451): the byte and the controller after it. -/
def Pad.read (exhausted strobe : Bool) (p : Pad) : Byte × Pad :=
  if strobe then (bitByte (p.latched.getLsbD 0), p)
  else if p.index < 8 then (bitByte (p.latched.getLsbD p.index), { p with index := p.index + 1 })
  else (bitByte exhausted, p)

/-- Latch the buttons and restart the shift (R450). -/
def Pad.latch (p : Pad) : Pad := { p with latched := p.buttons, index := 0 }

/-- A CPU read of 0x4016. -/
def readPad0 : M Byte := do
  let s ← getS
  let r := s.pads.pad0.read s.params.padExhausted s.pads.strobe
  update (·.setPads { s.pads with pad0 := r.2 })
  pure r.1

/-- A CPU read of 0x4017. -/
def readPad1 : M Byte := do
  let s ← getS
  let r := s.pads.pad1.read s.params.padExhausted s.pads.strobe
  update (·.setPads { s.pads with pad1 := r.2 })
  pure r.1

/-- A CPU write of d to 0x4016, the strobe (R450). -/
def Pads.writeStrobe (p : Pads) (d : Byte) : Pads :=
  if d.getLsbD 0 then ⟨p.pad0.latch, p.pad1.latch, true⟩ else { p with strobe := false }

/-! ### The absent range -/

/-- A read of the absent audio and test range (20_memory.md R65). -/
def readAbsent (a : Word) : M Byte := do
  let s ← getS
  match s.params.absentIo with
  | .zero => pure 0
  | .fault => raise (.invalidAccess .cpu a .read)
  | .draw =>
    update State.countDraw
    pure (Config.freeByte s.draws)

/-- A write to the absent range (20_memory.md R65). -/
def writeAbsent (a : Word) : M Unit := do
  match (← getS).params.absentIo with
  | .fault => raise (.invalidAccess .cpu a .write)
  | .zero | .draw => pure ()

/-! ### Reads -/

/-- `MemRead(a)`: the first matching row of 20_memory.md R62. -/
def memRead (a : Word) : M Byte :=
  if a.toNat < 0x2000 then look fun s => .ok (s.ram.read (ramIndex a))
  else if a.toNat < 0x4000 then readPpuRegister a
  else if a = 0x4016 then readPad0
  else if a = 0x4017 then readPad1
  else if a.toNat < 0x4020 then readAbsent a
  else look (mapCpuRead a)

/-- `Read16(a)`, 20_memory.md R70: the low byte first. -/
def read16 (a : Word) : M Word := do
  let lo ← memRead a
  let hi ← memRead (a + 1)
  pure (wordOf hi lo)

/-- `Read16Bug(a)`, 20_memory.md R71: the address of the high byte wraps inside the page of a. -/
def read16Bug (a : Word) : M Word := do
  let lo ← memRead a
  let hi ← memRead (wordOf (hiByte a) (loByte a + 1))
  pure (wordOf hi lo)

/-! ### OAM DMA -/

/-- The last `n` bytes of the 256-byte copy, 63_bus_devices_console.md R440. -/
def dmaCopy (base : Word) : Nat → M Unit
  | 0 => pure ()
  | n + 1 => do
    let b ← memRead (base + BitVec.ofNat 16 (255 - n))
    update fun s => s.setPpu (s.ppu.writeOam b)
    dmaCopy base n

/-- A CPU write of d to 0x4014 (R440, R441): the copy, then 513 idle cycles, or 514 when `cycles` is odd. -/
def oamDma (d : Byte) : M Unit := do
  dmaCopy (wordOf d 0) 256
  update fun s => s.addIdleCycles (513 + s.cpu.cycles % 2)

/-! ### Writes -/

/-- `MemWrite(a, v)`: the first matching row of 20_memory.md R62. -/
def memWrite (a : Word) (v : Byte) : M Unit :=
  if a.toNat < 0x2000 then update (·.writeRam (ramIndex a) v)
  else if a.toNat < 0x4000 then writePpuRegister a v
  else if a = 0x4014 then oamDma v
  else if a = 0x4016 then update fun s => s.setPads (s.pads.writeStrobe v)
  else if a.toNat < 0x4020 then writeAbsent a
  else mapCpuWrite a v

/-! ### The storage behind an address -/

/-- The byte the storage behind an address holds, where that is a memory (work RAM, cartridge RAM, program ROM seen
through the banking): what a `MemRead` there returns, and it has no side effect. None for a device register, the absent
range and an address that is refused. -/
def peek (s : State) (a : Word) : Option Byte :=
  if a.toNat < 0x2000 then some (s.ram.read (ramIndex a))
  else if a.toNat < 0x6000 then none
  else if a.toNat < 0x8000 then some (s.prgRam.read (a.toNat - 0x6000))
  else (prgIndex s a.toNat).map s.cart.prg.read

/-- Place a byte in the storage behind an address (the host's load of a program, not a bus write): none where `peek` has
no storage. -/
def poke (s : State) (a : Word) (b : Byte) : Option State :=
  if a.toNat < 0x2000 then some (s.writeRam (ramIndex a) b)
  else if a.toNat < 0x6000 then none
  else if a.toNat < 0x8000 then some (s.writePrgRam (a.toNat - 0x6000) b)
  else (prgIndex s a.toNat).map fun k => { s with cart := { s.cart with prg := s.cart.prg.write k b } }

/-- Place bytes at ascending addresses from a. -/
def pokeAll (s : State) (a : Word) : List Byte → Option State
  | [] => some s
  | b :: rest => (poke s a b).bind fun t => pokeAll t (a + 1) rest

end Sys2Proof.Machine
end

