-- ==== Sys2Proof/Machine/Operands.lean ====
section
/-! DEFINITION. The 13 addressing modes (30_encoding.md R105 to R117) and the operand accesses of a handler (R119). -/

namespace Sys2Proof.Machine

/-- Where a handler finds its operand: nowhere, the accumulator, the operand byte fetched at `PC+1` (immediate), or an
effective address. -/
inductive Target where
  | none
  | accumulator
  | immediate (b : Byte)
  | memory (ea : Word)
  deriving DecidableEq, Repr

/-- What `Address(mode, pc0)` answers: the target and whether a page was crossed. -/
structure Resolved where
  target : Target
  crossed : Bool
  deriving DecidableEq, Repr

/-- An effective address reached without an index that could cross a page. -/
def Resolved.at (ea : Word) : Resolved := ⟨.memory ea, false⟩

/-- An effective address reached by adding an index to a base, 30_encoding.md R112, R113, R116. -/
def Resolved.indexed (base : Word) (index : Byte) : Resolved :=
  let ea := base + zext16 index
  ⟨.memory ea, pagesDiffer base ea⟩

/-- `Address(mode, pc0)` for the operand bytes already fetched, 30_encoding.md R105 to R117. -/
def resolve (o : Operand) (pc0 : Word) : M Resolved := do
  let cpu := (← getS).cpu
  match o with
  | .implied => pure ⟨.none, false⟩
  | .accumulator => pure ⟨.accumulator, false⟩
  | .immediate b => pure ⟨.immediate b, false⟩
  | .zeroPage b => pure (.at (zext16 b))
  | .zeroPageX b => pure (.at (zext16 (b + cpu.x)))
  | .zeroPageY b => pure (.at (zext16 (b + cpu.y)))
  | .absolute w => pure (.at w)
  | .absoluteX w => pure (.indexed w cpu.x)
  | .absoluteY w => pure (.indexed w cpu.y)
  | .indirect w =>
    let ea ← read16Bug w
    pure (.at ea)
  | .indirectX b =>
    let ea ← read16Bug (zext16 (b + cpu.x))
    pure (.at ea)
  | .indirectY b =>
    let base ← read16Bug (zext16 b)
    pure (.indexed base cpu.y)
  | .relative b => pure (.at (pc0 + 2 + sext16 b))

/-- The operand read of a handler: `A`, the immediate byte, or `MemRead(ea)` (30_encoding.md R106, R107, R119). -/
def Target.read : Target → M Byte
  | .none => pure 0
  | .accumulator => do pure (← getS).cpu.a
  | .immediate b => pure b
  | .memory ea => memRead ea

/-- The operand write of a handler: `A` or `MemWrite(ea, v)` (R106, R119); the modes of a writing instruction have no
other target. -/
def Target.write : Target → Byte → M Unit
  | .accumulator, v => update (·.setA v)
  | .memory ea, v => memWrite ea v
  | .none, _ | .immediate _, _ => pure ()

/-- The effective address of a jump or branch (30_encoding.md R111, R114, R117); only address targets reach it. -/
def Target.address : Target → Word
  | .memory ea => ea
  | .none | .accumulator | .immediate _ => 0

end Sys2Proof.Machine
end

