-- ==== Sys2Proof/Machine/Ops.lean ====
section
/-! DEFINITION. The operations the instruction meanings share: the stack primitives (41_stack.md R161 to R164), taking
an interrupt and returning from one (60_exceptions.md R264 to R266, 44_control_flow.md R213), and the frame of one
instruction (30_encoding.md R104). -/

namespace Sys2Proof.Machine

/-! ### The stack -/

/-- The address of the stack byte that stack-pointer value s addresses (41_stack.md R160). -/
def stackAddress (s : Byte) : Word := 0x0100 + zext16 s

/-- `Push(v)`, 41_stack.md R161. -/
def push (v : Byte) : M Unit := do
  memWrite (stackAddress (← getS).cpu.s) v
  update fun s => s.setSp (s.cpu.s - 1)

/-- `Push16(w)`, R162: the high byte first. -/
def push16 (w : Word) : M Unit := do
  push (hiByte w)
  push (loByte w)

/-- `Pull()`, R163. -/
def pull : M Byte := do
  update fun s => s.setSp (s.cpu.s + 1)
  memRead (stackAddress (← getS).cpu.s)

/-- `Pull16()`, R164: the low byte first. -/
def pull16 : M Word := do
  let lo ← pull
  let hi ← pull
  pure (wordOf hi lo)

/-! ### Interrupts -/

/-- The three vectors, 60_exceptions.md R260. -/
def nmiVector : Word := 0xFFFA
def resetVector : Word := 0xFFFC
def irqVector : Word := 0xFFFE

/-- What NMI, IRQ and BRK save (60_exceptions.md R266, 44_control_flow.md R214): the return address, high byte first, then
the packed status with bit 4 = b. -/
def saveFrame (ret : Word) (b : Bool) : M Unit := do
  push16 ret
  push ((← getS).cpu.p.pack b)

/-- `PC <- Read16(vec)`. -/
def loadVector (vec : Word) : M Unit := do
  let target ← read16 vec
  update (·.setPc target)

/-- `P.I <- 1`. -/
def disableInterrupts : M Unit := update fun s => s.setP { s.cpu.p with i := true }

/-- How an interrupt is taken, R266: save, then the vector, then `P.I`. -/
def takeVector (ret : Word) (b : Bool) (vec : Word) : M Unit := do
  saveFrame ret b
  loadVector vec
  disableInterrupts

/-- How BRK is taken, R214: as an interrupt, but `P.I` is set before the vector is read, which shows where that read
faults. -/
def takeBreak (ret : Word) : M Unit := do
  saveFrame ret true
  disableInterrupts
  loadVector irqVector

/-- `InterruptEntry(k, vec)`, 60_exceptions.md R266; bit 4 of the pushed status is `IRQ_PUSH_B` (10_state.md R24). -/
def interruptEntry (vec : Word) : M Unit := do
  let s ← getS
  takeVector s.cpu.pc s.params.irqPushB vec
  update (·.addCycles 7)

/-- `TakeNmi()`, 60_exceptions.md R264. -/
def takeNmi : M Unit := do
  update fun s => { s with cpu := { s.cpu with nmiPending := false } }
  interruptEntry nmiVector

/-- `TakeIrq()`, 60_exceptions.md R265. -/
def takeIrq : M Unit := do
  update fun s => { s with cpu := { s.cpu with irqPending := false } }
  interruptEntry irqVector

/-- The return from an interrupt, 44_control_flow.md R213: flags, then `PC`, from the stack. -/
def returnFromInterrupt : M Unit := do
  let v ← pull
  update (·.setP (Flags.unpack v))
  let target ← pull16
  update (·.setPc target)

/-- `IdleStep()`, 60_exceptions.md R263. -/
def idleStep (s : State) : State :=
  { s with cpu := { s.cpu with idle := s.cpu.idle - 1, cycles := s.cpu.cycles + 1 } }

/-! ### One instruction -/

/-- `ExecInstruction()` after the fetch (30_encoding.md R104): compute the address, advance `PC`, add the base count and
the page-cross cycle (R118), run the handler. A handler adds its own extra cycles (branches only). -/
def runRow (r : Row) (handler : Target → M Unit) : M Unit := do
  let pc0 := (← getS).cpu.pc
  let ea ← resolve r.operand pc0
  update fun s => s.setPc (pc0 + BitVec.ofNat 16 r.operand.size)
  update fun s => s.addCycles (r.base + if r.pageFlag && ea.crossed then 1 else 0)
  handler ea.target

/-- The meaning of an instruction of the opcode table with the given handler. -/
def meaning (i : Instr) (handler : Target → M Unit) (s : State) : Host.Outcome State Fault Refusal :=
  (runRow i.row handler).outcome s

/-- Replace the flags by a function of them. -/
def updateFlags (f : Flags → Flags) : M Unit :=
  update fun s => s.setP (f s.cpu.p)

end Sys2Proof.Machine
end

