-- ==== Sys2Proof/Machine/Arithmetic.lean ====
section
/-! DEFINITION. Arithmetic, logic, compare and bit test (42_arithmetic_logic.md R170 to R182).
Each instruction's effect once, over its operand; then the meaning of each opcode. -/

namespace Sys2Proof.Machine

/-! ### The effects -/

/-- Add an operand and the carry into A, the core of ADC and SBC. -/
def addToA (m : Byte) : M Unit := do
  let s ← getS
  let r := addCore s.cpu.a m s.cpu.p.c
  update (·.setA r.result)
  updateFlags (·.ofSum r)

/-- ADC, R170. -/
def opAdc (t : Target) : M Unit := do
  addToA (← t.read)

/-- SBC, R171: the sum with the operand's complement. -/
def opSbc (t : Target) : M Unit := do
  let m ← t.read
  addToA (m ^^^ 0xFF)

/-- Replace A by f(A, M) and set Z and N, the core of AND, ORA and EOR. -/
def combineA (f : Byte → Byte → Byte) (t : Target) : M Unit := do
  let m ← t.read
  let r := f (← getS).cpu.a m
  update (·.setA r)
  updateFlags (·.setZN r)

/-- AND, R172. -/
def opAnd (t : Target) : M Unit := combineA (· &&& ·) t

/-- ORA, R173. -/
def opOra (t : Target) : M Unit := combineA (· ||| ·) t

/-- EOR, R174. -/
def opEor (t : Target) : M Unit := combineA (· ^^^ ·) t

/-- CMP, R175. -/
def opCmp (t : Target) : M Unit := do
  let m ← t.read
  let r := (← getS).cpu.a
  updateFlags (·.compare r m)

/-- CPX, R176. -/
def opCpx (t : Target) : M Unit := do
  let m ← t.read
  let r := (← getS).cpu.x
  updateFlags (·.compare r m)

/-- CPY, R177. -/
def opCpy (t : Target) : M Unit := do
  let m ← t.read
  let r := (← getS).cpu.y
  updateFlags (·.compare r m)

/-- BIT, R178. -/
def opBit (t : Target) : M Unit := do
  let m ← t.read
  let a := (← getS).cpu.a
  updateFlags (·.bitTest a m)

/-! ### The opcodes -/

/-- ADC immediate, opcode 69. -/
def execAdcImmediate (b : Byte) (s : State) : Host.Outcome State Fault Refusal :=
  meaning (.adcImmediate b) opAdc s

/-- ADC zero page, opcode 65. -/
def execAdcZeroPage (b : Byte) (s : State) : Host.Outcome State Fault Refusal :=
  meaning (.adcZeroPage b) opAdc s

/-- ADC zero page,X, opcode 75. -/
def execAdcZeroPageX (b : Byte) (s : State) : Host.Outcome State Fault Refusal :=
  meaning (.adcZeroPageX b) opAdc s

/-- ADC absolute, opcode 6D. -/
def execAdcAbsolute (w : Word) (s : State) : Host.Outcome State Fault Refusal :=
  meaning (.adcAbsolute w) opAdc s

/-- ADC absolute,X, opcode 7D. -/
def execAdcAbsoluteX (w : Word) (s : State) : Host.Outcome State Fault Refusal :=
  meaning (.adcAbsoluteX w) opAdc s

/-- ADC absolute,Y, opcode 79. -/
def execAdcAbsoluteY (w : Word) (s : State) : Host.Outcome State Fault Refusal :=
  meaning (.adcAbsoluteY w) opAdc s

/-- ADC (indirect,X), opcode 61. -/
def execAdcIndirectX (b : Byte) (s : State) : Host.Outcome State Fault Refusal :=
  meaning (.adcIndirectX b) opAdc s

/-- ADC (indirect),Y, opcode 71. -/
def execAdcIndirectY (b : Byte) (s : State) : Host.Outcome State Fault Refusal :=
  meaning (.adcIndirectY b) opAdc s

/-- SBC immediate, opcode E9. -/
def execSbcImmediate (b : Byte) (s : State) : Host.Outcome State Fault Refusal :=
  meaning (.sbcImmediate b) opSbc s

/-- SBC zero page, opcode E5. -/
def execSbcZeroPage (b : Byte) (s : State) : Host.Outcome State Fault Refusal :=
  meaning (.sbcZeroPage b) opSbc s

/-- SBC zero page,X, opcode F5. -/
def execSbcZeroPageX (b : Byte) (s : State) : Host.Outcome State Fault Refusal :=
  meaning (.sbcZeroPageX b) opSbc s

/-- SBC absolute, opcode ED. -/
def execSbcAbsolute (w : Word) (s : State) : Host.Outcome State Fault Refusal :=
  meaning (.sbcAbsolute w) opSbc s

/-- SBC absolute,X, opcode FD. -/
def execSbcAbsoluteX (w : Word) (s : State) : Host.Outcome State Fault Refusal :=
  meaning (.sbcAbsoluteX w) opSbc s

/-- SBC absolute,Y, opcode F9. -/
def execSbcAbsoluteY (w : Word) (s : State) : Host.Outcome State Fault Refusal :=
  meaning (.sbcAbsoluteY w) opSbc s

/-- SBC (indirect,X), opcode E1. -/
def execSbcIndirectX (b : Byte) (s : State) : Host.Outcome State Fault Refusal :=
  meaning (.sbcIndirectX b) opSbc s

/-- SBC (indirect),Y, opcode F1. -/
def execSbcIndirectY (b : Byte) (s : State) : Host.Outcome State Fault Refusal :=
  meaning (.sbcIndirectY b) opSbc s

/-- AND immediate, opcode 29. -/
def execAndImmediate (b : Byte) (s : State) : Host.Outcome State Fault Refusal :=
  meaning (.andImmediate b) opAnd s

/-- AND zero page, opcode 25. -/
def execAndZeroPage (b : Byte) (s : State) : Host.Outcome State Fault Refusal :=
  meaning (.andZeroPage b) opAnd s

/-- AND zero page,X, opcode 35. -/
def execAndZeroPageX (b : Byte) (s : State) : Host.Outcome State Fault Refusal :=
  meaning (.andZeroPageX b) opAnd s

/-- AND absolute, opcode 2D. -/
def execAndAbsolute (w : Word) (s : State) : Host.Outcome State Fault Refusal :=
  meaning (.andAbsolute w) opAnd s

/-- AND absolute,X, opcode 3D. -/
def execAndAbsoluteX (w : Word) (s : State) : Host.Outcome State Fault Refusal :=
  meaning (.andAbsoluteX w) opAnd s

/-- AND absolute,Y, opcode 39. -/
def execAndAbsoluteY (w : Word) (s : State) : Host.Outcome State Fault Refusal :=
  meaning (.andAbsoluteY w) opAnd s

/-- AND (indirect,X), opcode 21. -/
def execAndIndirectX (b : Byte) (s : State) : Host.Outcome State Fault Refusal :=
  meaning (.andIndirectX b) opAnd s

/-- AND (indirect),Y, opcode 31. -/
def execAndIndirectY (b : Byte) (s : State) : Host.Outcome State Fault Refusal :=
  meaning (.andIndirectY b) opAnd s

/-- ORA immediate, opcode 09. -/
def execOraImmediate (b : Byte) (s : State) : Host.Outcome State Fault Refusal :=
  meaning (.oraImmediate b) opOra s

/-- ORA zero page, opcode 05. -/
def execOraZeroPage (b : Byte) (s : State) : Host.Outcome State Fault Refusal :=
  meaning (.oraZeroPage b) opOra s

/-- ORA zero page,X, opcode 15. -/
def execOraZeroPageX (b : Byte) (s : State) : Host.Outcome State Fault Refusal :=
  meaning (.oraZeroPageX b) opOra s

/-- ORA absolute, opcode 0D. -/
def execOraAbsolute (w : Word) (s : State) : Host.Outcome State Fault Refusal :=
  meaning (.oraAbsolute w) opOra s

/-- ORA absolute,X, opcode 1D. -/
def execOraAbsoluteX (w : Word) (s : State) : Host.Outcome State Fault Refusal :=
  meaning (.oraAbsoluteX w) opOra s

/-- ORA absolute,Y, opcode 19. -/
def execOraAbsoluteY (w : Word) (s : State) : Host.Outcome State Fault Refusal :=
  meaning (.oraAbsoluteY w) opOra s

/-- ORA (indirect,X), opcode 01. -/
def execOraIndirectX (b : Byte) (s : State) : Host.Outcome State Fault Refusal :=
  meaning (.oraIndirectX b) opOra s

/-- ORA (indirect),Y, opcode 11. -/
def execOraIndirectY (b : Byte) (s : State) : Host.Outcome State Fault Refusal :=
  meaning (.oraIndirectY b) opOra s

/-- EOR immediate, opcode 49. -/
def execEorImmediate (b : Byte) (s : State) : Host.Outcome State Fault Refusal :=
  meaning (.eorImmediate b) opEor s

/-- EOR zero page, opcode 45. -/
def execEorZeroPage (b : Byte) (s : State) : Host.Outcome State Fault Refusal :=
  meaning (.eorZeroPage b) opEor s

/-- EOR zero page,X, opcode 55. -/
def execEorZeroPageX (b : Byte) (s : State) : Host.Outcome State Fault Refusal :=
  meaning (.eorZeroPageX b) opEor s

/-- EOR absolute, opcode 4D. -/
def execEorAbsolute (w : Word) (s : State) : Host.Outcome State Fault Refusal :=
  meaning (.eorAbsolute w) opEor s

/-- EOR absolute,X, opcode 5D. -/
def execEorAbsoluteX (w : Word) (s : State) : Host.Outcome State Fault Refusal :=
  meaning (.eorAbsoluteX w) opEor s

/-- EOR absolute,Y, opcode 59. -/
def execEorAbsoluteY (w : Word) (s : State) : Host.Outcome State Fault Refusal :=
  meaning (.eorAbsoluteY w) opEor s

/-- EOR (indirect,X), opcode 41. -/
def execEorIndirectX (b : Byte) (s : State) : Host.Outcome State Fault Refusal :=
  meaning (.eorIndirectX b) opEor s

/-- EOR (indirect),Y, opcode 51. -/
def execEorIndirectY (b : Byte) (s : State) : Host.Outcome State Fault Refusal :=
  meaning (.eorIndirectY b) opEor s

/-- CMP immediate, opcode C9. -/
def execCmpImmediate (b : Byte) (s : State) : Host.Outcome State Fault Refusal :=
  meaning (.cmpImmediate b) opCmp s

/-- CMP zero page, opcode C5. -/
def execCmpZeroPage (b : Byte) (s : State) : Host.Outcome State Fault Refusal :=
  meaning (.cmpZeroPage b) opCmp s

/-- CMP zero page,X, opcode D5. -/
def execCmpZeroPageX (b : Byte) (s : State) : Host.Outcome State Fault Refusal :=
  meaning (.cmpZeroPageX b) opCmp s

/-- CMP absolute, opcode CD. -/
def execCmpAbsolute (w : Word) (s : State) : Host.Outcome State Fault Refusal :=
  meaning (.cmpAbsolute w) opCmp s

/-- CMP absolute,X, opcode DD. -/
def execCmpAbsoluteX (w : Word) (s : State) : Host.Outcome State Fault Refusal :=
  meaning (.cmpAbsoluteX w) opCmp s

/-- CMP absolute,Y, opcode D9. -/
def execCmpAbsoluteY (w : Word) (s : State) : Host.Outcome State Fault Refusal :=
  meaning (.cmpAbsoluteY w) opCmp s

/-- CMP (indirect,X), opcode C1. -/
def execCmpIndirectX (b : Byte) (s : State) : Host.Outcome State Fault Refusal :=
  meaning (.cmpIndirectX b) opCmp s

/-- CMP (indirect),Y, opcode D1. -/
def execCmpIndirectY (b : Byte) (s : State) : Host.Outcome State Fault Refusal :=
  meaning (.cmpIndirectY b) opCmp s

/-- CPX immediate, opcode E0. -/
def execCpxImmediate (b : Byte) (s : State) : Host.Outcome State Fault Refusal :=
  meaning (.cpxImmediate b) opCpx s

/-- CPX zero page, opcode E4. -/
def execCpxZeroPage (b : Byte) (s : State) : Host.Outcome State Fault Refusal :=
  meaning (.cpxZeroPage b) opCpx s

/-- CPX absolute, opcode EC. -/
def execCpxAbsolute (w : Word) (s : State) : Host.Outcome State Fault Refusal :=
  meaning (.cpxAbsolute w) opCpx s

/-- CPY immediate, opcode C0. -/
def execCpyImmediate (b : Byte) (s : State) : Host.Outcome State Fault Refusal :=
  meaning (.cpyImmediate b) opCpy s

/-- CPY zero page, opcode C4. -/
def execCpyZeroPage (b : Byte) (s : State) : Host.Outcome State Fault Refusal :=
  meaning (.cpyZeroPage b) opCpy s

/-- CPY absolute, opcode CC. -/
def execCpyAbsolute (w : Word) (s : State) : Host.Outcome State Fault Refusal :=
  meaning (.cpyAbsolute w) opCpy s

/-- BIT zero page, opcode 24. -/
def execBitZeroPage (b : Byte) (s : State) : Host.Outcome State Fault Refusal :=
  meaning (.bitZeroPage b) opBit s

/-- BIT absolute, opcode 2C. -/
def execBitAbsolute (w : Word) (s : State) : Host.Outcome State Fault Refusal :=
  meaning (.bitAbsolute w) opBit s

end Sys2Proof.Machine
end

