-- ==== Sys2Proof/Machine/Control.lean ====
section
/-! DEFINITION. Jumps, subroutines, returns, software interrupt and branches (44_control_flow.md R210 to R223).
Each instruction's effect once, over its operand; then the meaning of each opcode. -/

namespace Sys2Proof.Machine

/-! ### The effects -/

/-- JMP, R210. -/
def opJmp (t : Target) : M Unit := update (·.setPc t.address)

/-- JSR, R211: the pushed address is that of the instruction's last byte, `PC - 1` after the advance. -/
def opJsr (t : Target) : M Unit := do
  push16 ((← getS).cpu.pc - 1)
  update (·.setPc t.address)

/-- RTS, R212. -/
def opRts (_ : Target) : M Unit := do
  let ret ← pull16
  update (·.setPc (ret + 1))

/-- RTI, R213. -/
def opRti (_ : Target) : M Unit := returnFromInterrupt

/-- BRK, R214: the return address is `pc0 + 2`, which is `PC + 1` after the advance; bit 4 of the pushed status is 1. -/
def opBrk (_ : Target) : M Unit := do
  takeBreak ((← getS).cpu.pc + 1)

/-- `Branch(cond, ea, pc0)`, R215: on entry `PC = pc0 + 2`; a taken branch costs one more cycle, and another when the
target is on another page than the following instruction. -/
def branch (cond : Flags → Bool) (t : Target) : M Unit := do
  let cpu := (← getS).cpu
  if cond cpu.p then
    update (·.setPc t.address)
    update (·.addCycles (1 + if pagesDiffer cpu.pc t.address then 1 else 0))
  else
    pure ()

/-- BCC, R216. -/
def opBcc (t : Target) : M Unit := branch (fun p => !p.c) t

/-- BCS, R217. -/
def opBcs (t : Target) : M Unit := branch (fun p => p.c) t

/-- BEQ, R218. -/
def opBeq (t : Target) : M Unit := branch (fun p => p.z) t

/-- BNE, R219. -/
def opBne (t : Target) : M Unit := branch (fun p => !p.z) t

/-- BMI, R220. -/
def opBmi (t : Target) : M Unit := branch (fun p => p.n) t

/-- BPL, R221. -/
def opBpl (t : Target) : M Unit := branch (fun p => !p.n) t

/-- BVC, R222. -/
def opBvc (t : Target) : M Unit := branch (fun p => !p.v) t

/-- BVS, R223. -/
def opBvs (t : Target) : M Unit := branch (fun p => p.v) t

/-! ### The opcodes -/

/-- JMP absolute, opcode 4C. -/
def execJmpAbsolute (w : Word) (s : State) : Host.Outcome State Fault Refusal :=
  meaning (.jmpAbsolute w) opJmp s

/-- JMP indirect, opcode 6C. -/
def execJmpIndirect (w : Word) (s : State) : Host.Outcome State Fault Refusal :=
  meaning (.jmpIndirect w) opJmp s

/-- JSR absolute, opcode 20. -/
def execJsr (w : Word) (s : State) : Host.Outcome State Fault Refusal :=
  meaning (.jsr w) opJsr s

/-- RTS, opcode 60. -/
def execRts (s : State) : Host.Outcome State Fault Refusal :=
  meaning .rts opRts s

/-- RTI, opcode 40. -/
def execRti (s : State) : Host.Outcome State Fault Refusal :=
  meaning .rti opRti s

/-- BRK, opcode 00. -/
def execBrk (s : State) : Host.Outcome State Fault Refusal :=
  meaning .brk opBrk s

/-- BCC, opcode 90. -/
def execBcc (b : Byte) (s : State) : Host.Outcome State Fault Refusal :=
  meaning (.bcc b) opBcc s

/-- BCS, opcode B0. -/
def execBcs (b : Byte) (s : State) : Host.Outcome State Fault Refusal :=
  meaning (.bcs b) opBcs s

/-- BEQ, opcode F0. -/
def execBeq (b : Byte) (s : State) : Host.Outcome State Fault Refusal :=
  meaning (.beq b) opBeq s

/-- BNE, opcode D0. -/
def execBne (b : Byte) (s : State) : Host.Outcome State Fault Refusal :=
  meaning (.bne b) opBne s

/-- BMI, opcode 30. -/
def execBmi (b : Byte) (s : State) : Host.Outcome State Fault Refusal :=
  meaning (.bmi b) opBmi s

/-- BPL, opcode 10. -/
def execBpl (b : Byte) (s : State) : Host.Outcome State Fault Refusal :=
  meaning (.bpl b) opBpl s

/-- BVC, opcode 50. -/
def execBvc (b : Byte) (s : State) : Host.Outcome State Fault Refusal :=
  meaning (.bvc b) opBvc s

/-- BVS, opcode 70. -/
def execBvs (b : Byte) (s : State) : Host.Outcome State Fault Refusal :=
  meaning (.bvs b) opBvs s

end Sys2Proof.Machine
end

