-- ==== Sys2Proof/Machine/FlagOps.lean ====
section
/-! DEFINITION. The flag instructions and NOP (45_flags_nop.md R240 to R247).
Each instruction's effect once, over its operand; then the meaning of each opcode. -/

namespace Sys2Proof.Machine

/-! ### The effects -/

/-- CLC, R240. -/
def opClc (_ : Target) : M Unit := updateFlags fun p => { p with c := false }

/-- SEC, R241. -/
def opSec (_ : Target) : M Unit := updateFlags fun p => { p with c := true }

/-- CLI, R242. -/
def opCli (_ : Target) : M Unit := updateFlags fun p => { p with i := false }

/-- SEI, R243. -/
def opSei (_ : Target) : M Unit := updateFlags fun p => { p with i := true }

/-- CLV, R244. -/
def opClv (_ : Target) : M Unit := updateFlags fun p => { p with v := false }

/-- CLD, R245. -/
def opCld (_ : Target) : M Unit := updateFlags fun p => { p with d := false }

/-- SED, R246. -/
def opSed (_ : Target) : M Unit := updateFlags fun p => { p with d := true }

/-- NOP, R247. -/
def opNop (_ : Target) : M Unit := pure ()

/-! ### The opcodes -/

/-- CLC, opcode 18. -/
def execClc (s : State) : Host.Outcome State Fault Refusal :=
  meaning .clc opClc s

/-- SEC, opcode 38. -/
def execSec (s : State) : Host.Outcome State Fault Refusal :=
  meaning .sec opSec s

/-- CLI, opcode 58. -/
def execCli (s : State) : Host.Outcome State Fault Refusal :=
  meaning .cli opCli s

/-- SEI, opcode 78. -/
def execSei (s : State) : Host.Outcome State Fault Refusal :=
  meaning .sei opSei s

/-- CLV, opcode B8. -/
def execClv (s : State) : Host.Outcome State Fault Refusal :=
  meaning .clv opClv s

/-- CLD, opcode D8. -/
def execCld (s : State) : Host.Outcome State Fault Refusal :=
  meaning .cld opCld s

/-- SED, opcode F8. -/
def execSed (s : State) : Host.Outcome State Fault Refusal :=
  meaning .sed opSed s

/-- NOP, opcode EA. -/
def execNop (s : State) : Host.Outcome State Fault Refusal :=
  meaning .nop opNop s

end Sys2Proof.Machine
end

