-- ==== Sys2Proof/Machine/IncDecShift.lean ====
section
/-! DEFINITION. Increment, decrement, shift and rotate (43_incdec_shift.md R190 to R200).
Each instruction's effect once, over its operand; then the meaning of each opcode. -/

namespace Sys2Proof.Machine

/-! ### The effects -/

/-- The memory forms of INC and DEC: one read, one write of the new value (R200), Z and N from it. -/
def stepMemory (f : Byte → Byte) (t : Target) : M Unit := do
  let m ← t.read
  t.write (f m)
  updateFlags (·.setZN (f m))

/-- INC, R190. -/
def opInc (t : Target) : M Unit := stepMemory (· + 1) t

/-- DEC, R191. -/
def opDec (t : Target) : M Unit := stepMemory (· - 1) t

/-- INX, R192. -/
def opInx (_ : Target) : M Unit := do
  let v := (← getS).cpu.x + 1
  update (·.setX v)
  updateFlags (·.setZN v)

/-- INY, R193. -/
def opIny (_ : Target) : M Unit := do
  let v := (← getS).cpu.y + 1
  update (·.setY v)
  updateFlags (·.setZN v)

/-- DEX, R194. -/
def opDex (_ : Target) : M Unit := do
  let v := (← getS).cpu.x - 1
  update (·.setX v)
  updateFlags (·.setZN v)

/-- DEY, R195. -/
def opDey (_ : Target) : M Unit := do
  let v := (← getS).cpu.y - 1
  update (·.setY v)
  updateFlags (·.setZN v)

/-- The shifts in the accumulator and in memory: read, set C, store the result, set Z and N (R196 to R200). -/
def shiftOperand (f : Byte → Bool → Shifted) (t : Target) : M Unit := do
  let m ← t.read
  let r := f m (← getS).cpu.p.c
  updateFlags fun p => { p with c := r.out }
  t.write r.result
  updateFlags (·.setZN r.result)

/-- ASL, R196. -/
def opAsl (t : Target) : M Unit := shiftOperand shiftLeft t

/-- LSR, R197. -/
def opLsr (t : Target) : M Unit := shiftOperand shiftRight t

/-- ROL, R198. -/
def opRol (t : Target) : M Unit := shiftOperand rotateLeft t

/-- ROR, R199. -/
def opRor (t : Target) : M Unit := shiftOperand rotateRight t

/-! ### The opcodes -/

/-- INC zero page, opcode E6. -/
def execIncZeroPage (b : Byte) (s : State) : Host.Outcome State Fault Refusal :=
  meaning (.incZeroPage b) opInc s

/-- INC zero page,X, opcode F6. -/
def execIncZeroPageX (b : Byte) (s : State) : Host.Outcome State Fault Refusal :=
  meaning (.incZeroPageX b) opInc s

/-- INC absolute, opcode EE. -/
def execIncAbsolute (w : Word) (s : State) : Host.Outcome State Fault Refusal :=
  meaning (.incAbsolute w) opInc s

/-- INC absolute,X, opcode FE. -/
def execIncAbsoluteX (w : Word) (s : State) : Host.Outcome State Fault Refusal :=
  meaning (.incAbsoluteX w) opInc s

/-- DEC zero page, opcode C6. -/
def execDecZeroPage (b : Byte) (s : State) : Host.Outcome State Fault Refusal :=
  meaning (.decZeroPage b) opDec s

/-- DEC zero page,X, opcode D6. -/
def execDecZeroPageX (b : Byte) (s : State) : Host.Outcome State Fault Refusal :=
  meaning (.decZeroPageX b) opDec s

/-- DEC absolute, opcode CE. -/
def execDecAbsolute (w : Word) (s : State) : Host.Outcome State Fault Refusal :=
  meaning (.decAbsolute w) opDec s

/-- DEC absolute,X, opcode DE. -/
def execDecAbsoluteX (w : Word) (s : State) : Host.Outcome State Fault Refusal :=
  meaning (.decAbsoluteX w) opDec s

/-- INX, opcode E8. -/
def execInx (s : State) : Host.Outcome State Fault Refusal :=
  meaning .inx opInx s

/-- INY, opcode C8. -/
def execIny (s : State) : Host.Outcome State Fault Refusal :=
  meaning .iny opIny s

/-- DEX, opcode CA. -/
def execDex (s : State) : Host.Outcome State Fault Refusal :=
  meaning .dex opDex s

/-- DEY, opcode 88. -/
def execDey (s : State) : Host.Outcome State Fault Refusal :=
  meaning .dey opDey s

/-- ASL accumulator, opcode 0A. -/
def execAslAccumulator (s : State) : Host.Outcome State Fault Refusal :=
  meaning .aslAccumulator opAsl s

/-- ASL zero page, opcode 06. -/
def execAslZeroPage (b : Byte) (s : State) : Host.Outcome State Fault Refusal :=
  meaning (.aslZeroPage b) opAsl s

/-- ASL zero page,X, opcode 16. -/
def execAslZeroPageX (b : Byte) (s : State) : Host.Outcome State Fault Refusal :=
  meaning (.aslZeroPageX b) opAsl s

/-- ASL absolute, opcode 0E. -/
def execAslAbsolute (w : Word) (s : State) : Host.Outcome State Fault Refusal :=
  meaning (.aslAbsolute w) opAsl s

/-- ASL absolute,X, opcode 1E. -/
def execAslAbsoluteX (w : Word) (s : State) : Host.Outcome State Fault Refusal :=
  meaning (.aslAbsoluteX w) opAsl s

/-- LSR accumulator, opcode 4A. -/
def execLsrAccumulator (s : State) : Host.Outcome State Fault Refusal :=
  meaning .lsrAccumulator opLsr s

/-- LSR zero page, opcode 46. -/
def execLsrZeroPage (b : Byte) (s : State) : Host.Outcome State Fault Refusal :=
  meaning (.lsrZeroPage b) opLsr s

/-- LSR zero page,X, opcode 56. -/
def execLsrZeroPageX (b : Byte) (s : State) : Host.Outcome State Fault Refusal :=
  meaning (.lsrZeroPageX b) opLsr s

/-- LSR absolute, opcode 4E. -/
def execLsrAbsolute (w : Word) (s : State) : Host.Outcome State Fault Refusal :=
  meaning (.lsrAbsolute w) opLsr s

/-- LSR absolute,X, opcode 5E. -/
def execLsrAbsoluteX (w : Word) (s : State) : Host.Outcome State Fault Refusal :=
  meaning (.lsrAbsoluteX w) opLsr s

/-- ROL accumulator, opcode 2A. -/
def execRolAccumulator (s : State) : Host.Outcome State Fault Refusal :=
  meaning .rolAccumulator opRol s

/-- ROL zero page, opcode 26. -/
def execRolZeroPage (b : Byte) (s : State) : Host.Outcome State Fault Refusal :=
  meaning (.rolZeroPage b) opRol s

/-- ROL zero page,X, opcode 36. -/
def execRolZeroPageX (b : Byte) (s : State) : Host.Outcome State Fault Refusal :=
  meaning (.rolZeroPageX b) opRol s

/-- ROL absolute, opcode 2E. -/
def execRolAbsolute (w : Word) (s : State) : Host.Outcome State Fault Refusal :=
  meaning (.rolAbsolute w) opRol s

/-- ROL absolute,X, opcode 3E. -/
def execRolAbsoluteX (w : Word) (s : State) : Host.Outcome State Fault Refusal :=
  meaning (.rolAbsoluteX w) opRol s

/-- ROR accumulator, opcode 6A. -/
def execRorAccumulator (s : State) : Host.Outcome State Fault Refusal :=
  meaning .rorAccumulator opRor s

/-- ROR zero page, opcode 66. -/
def execRorZeroPage (b : Byte) (s : State) : Host.Outcome State Fault Refusal :=
  meaning (.rorZeroPage b) opRor s

/-- ROR zero page,X, opcode 76. -/
def execRorZeroPageX (b : Byte) (s : State) : Host.Outcome State Fault Refusal :=
  meaning (.rorZeroPageX b) opRor s

/-- ROR absolute, opcode 6E. -/
def execRorAbsolute (w : Word) (s : State) : Host.Outcome State Fault Refusal :=
  meaning (.rorAbsolute w) opRor s

/-- ROR absolute,X, opcode 7E. -/
def execRorAbsoluteX (w : Word) (s : State) : Host.Outcome State Fault Refusal :=
  meaning (.rorAbsoluteX w) opRor s

end Sys2Proof.Machine
end

