-- ==== Sys2Proof/Machine/LoadStore.lean ====
section
/-! DEFINITION. Load, store and register transfer (40_load_store_transfer.md R140 to R151).
Each instruction's effect once, over its operand; then the meaning of each opcode. -/

namespace Sys2Proof.Machine

/-! ### The effects -/

/-- LDA, R140. -/
def opLda (t : Target) : M Unit := do
  let m ← t.read
  update (·.setA m)
  updateFlags (·.setZN m)

/-- LDX, R141. -/
def opLdx (t : Target) : M Unit := do
  let m ← t.read
  update (·.setX m)
  updateFlags (·.setZN m)

/-- LDY, R142. -/
def opLdy (t : Target) : M Unit := do
  let m ← t.read
  update (·.setY m)
  updateFlags (·.setZN m)

/-- STA, R143. -/
def opSta (t : Target) : M Unit := do t.write (← getS).cpu.a

/-- STX, R144. -/
def opStx (t : Target) : M Unit := do t.write (← getS).cpu.x

/-- STY, R145. -/
def opSty (t : Target) : M Unit := do t.write (← getS).cpu.y

/-- TAX, R146. -/
def opTax (_ : Target) : M Unit := do
  let v := (← getS).cpu.a
  update (·.setX v)
  updateFlags (·.setZN v)

/-- TAY, R147. -/
def opTay (_ : Target) : M Unit := do
  let v := (← getS).cpu.a
  update (·.setY v)
  updateFlags (·.setZN v)

/-- TXA, R148. -/
def opTxa (_ : Target) : M Unit := do
  let v := (← getS).cpu.x
  update (·.setA v)
  updateFlags (·.setZN v)

/-- TYA, R149. -/
def opTya (_ : Target) : M Unit := do
  let v := (← getS).cpu.y
  update (·.setA v)
  updateFlags (·.setZN v)

/-- TSX, R150. -/
def opTsx (_ : Target) : M Unit := do
  let v := (← getS).cpu.s
  update (·.setX v)
  updateFlags (·.setZN v)

/-- TXS, R151: no flag changes. -/
def opTxs (_ : Target) : M Unit := update fun s => s.setSp s.cpu.x

/-! ### The opcodes -/

/-- LDA immediate, opcode A9. -/
def execLdaImmediate (b : Byte) (s : State) : Host.Outcome State Fault Refusal :=
  meaning (.ldaImmediate b) opLda s

/-- LDA zero page, opcode A5. -/
def execLdaZeroPage (b : Byte) (s : State) : Host.Outcome State Fault Refusal :=
  meaning (.ldaZeroPage b) opLda s

/-- LDA zero page,X, opcode B5. -/
def execLdaZeroPageX (b : Byte) (s : State) : Host.Outcome State Fault Refusal :=
  meaning (.ldaZeroPageX b) opLda s

/-- LDA absolute, opcode AD. -/
def execLdaAbsolute (w : Word) (s : State) : Host.Outcome State Fault Refusal :=
  meaning (.ldaAbsolute w) opLda s

/-- LDA absolute,X, opcode BD. -/
def execLdaAbsoluteX (w : Word) (s : State) : Host.Outcome State Fault Refusal :=
  meaning (.ldaAbsoluteX w) opLda s

/-- LDA absolute,Y, opcode B9. -/
def execLdaAbsoluteY (w : Word) (s : State) : Host.Outcome State Fault Refusal :=
  meaning (.ldaAbsoluteY w) opLda s

/-- LDA (indirect,X), opcode A1. -/
def execLdaIndirectX (b : Byte) (s : State) : Host.Outcome State Fault Refusal :=
  meaning (.ldaIndirectX b) opLda s

/-- LDA (indirect),Y, opcode B1. -/
def execLdaIndirectY (b : Byte) (s : State) : Host.Outcome State Fault Refusal :=
  meaning (.ldaIndirectY b) opLda s

/-- LDX immediate, opcode A2. -/
def execLdxImmediate (b : Byte) (s : State) : Host.Outcome State Fault Refusal :=
  meaning (.ldxImmediate b) opLdx s

/-- LDX zero page, opcode A6. -/
def execLdxZeroPage (b : Byte) (s : State) : Host.Outcome State Fault Refusal :=
  meaning (.ldxZeroPage b) opLdx s

/-- LDX zero page,Y, opcode B6. -/
def execLdxZeroPageY (b : Byte) (s : State) : Host.Outcome State Fault Refusal :=
  meaning (.ldxZeroPageY b) opLdx s

/-- LDX absolute, opcode AE. -/
def execLdxAbsolute (w : Word) (s : State) : Host.Outcome State Fault Refusal :=
  meaning (.ldxAbsolute w) opLdx s

/-- LDX absolute,Y, opcode BE. -/
def execLdxAbsoluteY (w : Word) (s : State) : Host.Outcome State Fault Refusal :=
  meaning (.ldxAbsoluteY w) opLdx s

/-- LDY immediate, opcode A0. -/
def execLdyImmediate (b : Byte) (s : State) : Host.Outcome State Fault Refusal :=
  meaning (.ldyImmediate b) opLdy s

/-- LDY zero page, opcode A4. -/
def execLdyZeroPage (b : Byte) (s : State) : Host.Outcome State Fault Refusal :=
  meaning (.ldyZeroPage b) opLdy s

/-- LDY zero page,X, opcode B4. -/
def execLdyZeroPageX (b : Byte) (s : State) : Host.Outcome State Fault Refusal :=
  meaning (.ldyZeroPageX b) opLdy s

/-- LDY absolute, opcode AC. -/
def execLdyAbsolute (w : Word) (s : State) : Host.Outcome State Fault Refusal :=
  meaning (.ldyAbsolute w) opLdy s

/-- LDY absolute,X, opcode BC. -/
def execLdyAbsoluteX (w : Word) (s : State) : Host.Outcome State Fault Refusal :=
  meaning (.ldyAbsoluteX w) opLdy s

/-- STA zero page, opcode 85. -/
def execStaZeroPage (b : Byte) (s : State) : Host.Outcome State Fault Refusal :=
  meaning (.staZeroPage b) opSta s

/-- STA zero page,X, opcode 95. -/
def execStaZeroPageX (b : Byte) (s : State) : Host.Outcome State Fault Refusal :=
  meaning (.staZeroPageX b) opSta s

/-- STA absolute, opcode 8D. -/
def execStaAbsolute (w : Word) (s : State) : Host.Outcome State Fault Refusal :=
  meaning (.staAbsolute w) opSta s

/-- STA absolute,X, opcode 9D. -/
def execStaAbsoluteX (w : Word) (s : State) : Host.Outcome State Fault Refusal :=
  meaning (.staAbsoluteX w) opSta s

/-- STA absolute,Y, opcode 99. -/
def execStaAbsoluteY (w : Word) (s : State) : Host.Outcome State Fault Refusal :=
  meaning (.staAbsoluteY w) opSta s

/-- STA (indirect,X), opcode 81. -/
def execStaIndirectX (b : Byte) (s : State) : Host.Outcome State Fault Refusal :=
  meaning (.staIndirectX b) opSta s

/-- STA (indirect),Y, opcode 91. -/
def execStaIndirectY (b : Byte) (s : State) : Host.Outcome State Fault Refusal :=
  meaning (.staIndirectY b) opSta s

/-- STX zero page, opcode 86. -/
def execStxZeroPage (b : Byte) (s : State) : Host.Outcome State Fault Refusal :=
  meaning (.stxZeroPage b) opStx s

/-- STX zero page,Y, opcode 96. -/
def execStxZeroPageY (b : Byte) (s : State) : Host.Outcome State Fault Refusal :=
  meaning (.stxZeroPageY b) opStx s

/-- STX absolute, opcode 8E. -/
def execStxAbsolute (w : Word) (s : State) : Host.Outcome State Fault Refusal :=
  meaning (.stxAbsolute w) opStx s

/-- STY zero page, opcode 84. -/
def execStyZeroPage (b : Byte) (s : State) : Host.Outcome State Fault Refusal :=
  meaning (.styZeroPage b) opSty s

/-- STY zero page,X, opcode 94. -/
def execStyZeroPageX (b : Byte) (s : State) : Host.Outcome State Fault Refusal :=
  meaning (.styZeroPageX b) opSty s

/-- STY absolute, opcode 8C. -/
def execStyAbsolute (w : Word) (s : State) : Host.Outcome State Fault Refusal :=
  meaning (.styAbsolute w) opSty s

/-- TAX, opcode AA. -/
def execTax (s : State) : Host.Outcome State Fault Refusal :=
  meaning .tax opTax s

/-- TAY, opcode A8. -/
def execTay (s : State) : Host.Outcome State Fault Refusal :=
  meaning .tay opTay s

/-- TXA, opcode 8A. -/
def execTxa (s : State) : Host.Outcome State Fault Refusal :=
  meaning .txa opTxa s

/-- TYA, opcode 98. -/
def execTya (s : State) : Host.Outcome State Fault Refusal :=
  meaning .tya opTya s

/-- TSX, opcode BA. -/
def execTsx (s : State) : Host.Outcome State Fault Refusal :=
  meaning .tsx opTsx s

/-- TXS, opcode 9A. -/
def execTxs (s : State) : Host.Outcome State Fault Refusal :=
  meaning .txs opTxs s

end Sys2Proof.Machine
end

