-- ==== Sys2Proof/Machine/Stack.lean ====
section
/-! DEFINITION. The stack instructions (41_stack.md R165 to R168).
Each instruction's effect once, over its operand; then the meaning of each opcode. -/

namespace Sys2Proof.Machine

/-! ### The effects -/

/-- PHA, R165. -/
def opPha (_ : Target) : M Unit := do push (← getS).cpu.a

/-- PHP, R166: bits 5 and 4 of the pushed byte are 1. -/
def opPhp (_ : Target) : M Unit := do push ((← getS).cpu.p.pack true)

/-- PLA, R167. -/
def opPla (_ : Target) : M Unit := do
  let v ← pull
  update (·.setA v)
  updateFlags (·.setZN v)

/-- PLP, R168. -/
def opPlp (_ : Target) : M Unit := do
  let v ← pull
  updateFlags fun _ => Flags.unpack v

/-! ### The opcodes -/

/-- PHA, opcode 48. -/
def execPha (s : State) : Host.Outcome State Fault Refusal :=
  meaning .pha opPha s

/-- PHP, opcode 08. -/
def execPhp (s : State) : Host.Outcome State Fault Refusal :=
  meaning .php opPhp s

/-- PLA, opcode 68. -/
def execPla (s : State) : Host.Outcome State Fault Refusal :=
  meaning .pla opPla s

/-- PLP, opcode 28. -/
def execPlp (s : State) : Host.Outcome State Fault Refusal :=
  meaning .plp opPlp s

end Sys2Proof.Machine
end

