-- ==== Sys2Proof/Machine/PpuStep.lean ====
section
/-! DEFINITION. The picture unit's step, one dot (61_ppu.md R330 to R365). -/

namespace Sys2Proof.Machine

/-- Change the picture unit. -/
def updatePpu (f : Ppu → Ppu) : M Unit := update fun s => s.setPpu (f s.ppu)

/-- `rendering` of 61_ppu.md R301. -/
def Ppu.rendering (p : Ppu) : Bool := p.showBg || p.showSpr

/-! ### Position -/

/-- The start of the next frame: scanline 0 dot 0 with the frame toggle flipped. -/
def Ppu.nextFrame (p : Ppu) : Ppu := { p with dot := 0, scanline := 0, odd := !p.odd }

/-- `Tick()` of 61_ppu.md R331: the position after it and whether `frame_ready` is raised. -/
def Ppu.tick (p : Ppu) : Ppu × Bool :=
  if p.rendering && p.odd && decide (p.scanline = 261) && decide (p.dot = 339) then (p.nextFrame, true)
  else if p.dot + 1 ≤ 340 then ({ p with dot := p.dot + 1 }, false)
  else if p.scanline + 1 ≤ 261 then ({ p with dot := 0, scanline := p.scanline + 1 }, false)
  else (p.nextFrame, true)

/-- `Tick()` on the machine: raising `frame_ready` sets the console's event. -/
def tick : M Unit :=
  update fun s =>
    let t := s.ppu.tick
    let s' := s.setPpu t.1
    if t.2 then s'.setCon { s.con with frameReady := true } else s'

/-! ### Scroll arithmetic -/

/-- `IncX()`, 61_ppu.md R347. -/
def incX (v : BitVec 15) : BitVec 15 :=
  if v &&& 0x001F = 31 then (v &&& ~~~0x001F) ^^^ 0x0400 else v + 1

/-- `IncY()`, 61_ppu.md R348. -/
def incY (v : BitVec 15) : BitVec 15 :=
  if v &&& 0x7000 ≠ 0x7000 then v + 0x1000
  else
    let low := v &&& ~~~0x73E0
    let y := v.extractLsb' 5 5
    if y = 29 then low ^^^ 0x0800
    else if y = 31 then low
    else low ||| ((y + 1).setWidth 15 <<< 5)

/-- `CopyX()`, 61_ppu.md R349: bits 4:0 and 10 of t. -/
def copyX (v t : BitVec 15) : BitVec 15 := (v &&& ~~~0x041F) ||| (t &&& 0x041F)

/-- `CopyY()`, 61_ppu.md R350: bits 9:5, 11 and 14:12 of t. -/
def copyY (v t : BitVec 15) : BitVec 15 := (v &&& ~~~0x7BE0) ||| (t &&& 0x7BE0)

/-! ### Background fetches -/

/-- The nametable address of v, 61_ppu.md R341. -/
def ntAddress (v : BitVec 15) : Word := 0x2000 ||| (v.setWidth 16 &&& 0x0FFF)

/-- The attribute address of v, 61_ppu.md R342. -/
def atAddress (v : BitVec 15) : Word :=
  let v : Word := v.setWidth 16
  0x23C0 ||| (v &&& 0x0C00) ||| ((v >>> 4) &&& 0x38) ||| ((v >>> 2) &&& 0x07)

/-- The attribute shift of v, 61_ppu.md R342. -/
def atShift (v : BitVec 15) : Nat := (((v >>> 4) &&& 4) ||| (v &&& 2)).toNat

/-- The address of a tile row's low plane: `0x1000 * table + 16 * tile + row` (20_memory.md R82). -/
def patternAddress (table : Bool) (tile : Byte) (row : Nat) : Word :=
  BitVec.ofNat 16 ((if table then 0x1000 else 0) + 16 * tile.toNat + row)

/-- The low-plane address of the background tile row v points at, 61_ppu.md R343. -/
def Ppu.bgPatternAddress (p : Ppu) : Word :=
  patternAddress p.bgTable p.ntByte (p.v.extractLsb' 12 3).toNat

/-- `FetchNt()`, R341. -/
def fetchNt : M Unit := do
  let b ← look (ppuRead (ntAddress (← getS).ppu.v))
  updatePpu fun p => { p with ntByte := b }

/-- `FetchAt()`, R342. -/
def fetchAt : M Unit := do
  let v := (← getS).ppu.v
  let b ← look (ppuRead (atAddress v))
  updatePpu fun p => { p with atBits := ((b >>> atShift v) &&& 3).setWidth 4 <<< 2 }

/-- `FetchPatLo()`, R343. -/
def fetchPatLo : M Unit := do
  let b ← look (ppuRead (← getS).ppu.bgPatternAddress)
  updatePpu fun p => { p with patLo := b }

/-- `FetchPatHi()`, R344. -/
def fetchPatHi : M Unit := do
  let b ← look (ppuRead ((← getS).ppu.bgPatternAddress + 8))
  updatePpu fun p => { p with patHi := b }

/-- One 4-bit pixel `(palette, hi, lo)` from bit `bit` of the two planes; `palette` is already in bits 3:2. -/
def pixelNibble (palette : BitVec 4) (hi lo : Byte) (bit : Nat) : BitVec 4 :=
  palette ||| (if hi.getLsbD bit then 2 else 0) ||| (if lo.getLsbD bit then 1 else 0)

/-- The eight pixels of a tile row, the leftmost in bits 31:28; `flip` reads the planes' bits in reverse
(61_ppu.md R345, R352). -/
def pixelRow (palette : BitVec 4) (hi lo : Byte) (flip : Bool) : BitVec 32 :=
  let nib (i : Nat) := pixelNibble palette hi lo (if flip then i else 7 - i)
  nib 0 ++ nib 1 ++ nib 2 ++ nib 3 ++ nib 4 ++ nib 5 ++ nib 6 ++ nib 7

/-- `StoreTile()`, R345. -/
def Ppu.storeTile (p : Ppu) : Ppu :=
  { p with tileShift := p.tileShift ||| (pixelRow p.atBits p.patHi p.patLo false).setWidth 64 }

/-- The shift of a fetch dot (R346), then its fetch action (R330, R340). -/
def fetchAction : M Unit := do
  updatePpu fun p => { p with tileShift := p.tileShift <<< 4 }
  match (← getS).ppu.dot % 8 with
  | 1 => fetchNt
  | 3 => fetchAt
  | 5 => fetchPatLo
  | 7 => fetchPatHi
  | 0 => updatePpu Ppu.storeTile
  | _ => pure ()

/-! ### Sprites -/

/-- The table, tile and row a sprite row is fetched from, 61_ppu.md R352. -/
def Ppu.spritePatternAddress (p : Ppu) (tile attr : Byte) (row : Nat) : Word :=
  if p.sprSize then
    let row := if attr.getLsbD 7 then 15 - row else row
    let base := tile &&& 0xFE
    if 7 < row then patternAddress (tile.getLsbD 0) (base + 1) (row - 8)
    else patternAddress (tile.getLsbD 0) base row
  else
    patternAddress p.sprTable tile (if attr.getLsbD 7 then 7 - row else row)

/-- `SpritePattern(tile, attr, row)`, 61_ppu.md R352. -/
def spritePattern (tile attr : Byte) (row : Nat) : M (BitVec 32) := do
  let addr := (← getS).ppu.spritePatternAddress tile attr row
  let lo ← look (ppuRead addr)
  let hi ← look (ppuRead (addr + 8))
  pure (pixelRow ((attr &&& 3).setWidth 4 <<< 2) hi lo (attr.getLsbD 6))

/-- Sprite height in rows, R351. -/
def Ppu.spriteHeight (p : Ppu) : Nat := if p.sprSize then 16 else 8

/-- Store a slot of the active-sprite buffer. -/
def Ppu.setSlot (p : Ppu) (k : Nat) (s : Slot) : Ppu :=
  { p with slots := p.slots.setIfInBounds k s }

/-- The scan of `EvaluateSprites()` (R351) over the last `left` OAM records with `count` slots filled: the number of
slots filled at its end. The ninth match sets `spr_overflow` and ends the scan. -/
def scanSprites : Nat → Nat → M Nat
  | 0, count => pure count
  | left + 1, count => do
    let p := (← getS).ppu
    let n := 63 - left
    let y := (p.oam.read (4 * n)).toNat
    let tile := p.oam.read (4 * n + 1)
    let attr := p.oam.read (4 * n + 2)
    let xpos := p.oam.read (4 * n + 3)
    if y ≤ p.scanline ∧ p.scanline - y < p.spriteHeight then
      if count < 8 then
        let pattern ← spritePattern tile attr (p.scanline - y)
        updatePpu (·.setSlot count ⟨pattern, xpos, attr.getLsbD 5, BitVec.ofNat 6 n⟩)
        scanSprites left (count + 1)
      else
        updatePpu fun p => { p with sprOverflow := true }
        pure count
    else
      scanSprites left count

/-- `EvaluateSprites()`, R351: from record `oam_addr >> 2` to record 63. -/
def evaluateSprites : M Unit := do
  let first := (← getS).ppu.oamAddr.toNat / 4
  let count ← scanSprites (64 - first) 0
  updatePpu fun p => { p with sprCount := count }

/-! ### Pixels -/

/-- `BackgroundPixel()`, 61_ppu.md R361. -/
def Ppu.backgroundPixel (p : Ppu) : BitVec 4 :=
  if p.showBg then (p.tileShift >>> (32 + 4 * (7 - p.x.toNat))).setWidth 4 else 0

/-- The slot's pixel at column xp, 0 where its span does not cover the column (R362). -/
def Slot.pixel (s : Slot) (xp : Nat) : BitVec 4 :=
  if s.posX.toNat ≤ xp ∧ xp - s.posX.toNat ≤ 7 then (s.pattern >>> (4 * (7 - (xp - s.posX.toNat)))).setWidth 4 else 0

/-- A 4-bit pixel is opaque when its colour bits are not both zero. -/
def opaquePixel (c : BitVec 4) : Bool := c &&& 3 != 0

/-- `SpritePixel()` over a list of active slots (R362): the first opaque pixel with its slot. -/
def firstSpritePixel (xp : Nat) : List Slot → Option (Slot × BitVec 4)
  | [] => none
  | s :: rest => if opaquePixel (s.pixel xp) then some (s, s.pixel xp) else firstSpritePixel xp rest

/-- `SpritePixel()`, R362, with the left-column suppression of R360. -/
def Ppu.spritePixel (p : Ppu) : Option (Slot × BitVec 4) :=
  let xp := p.dot - 1
  if p.showSpr && !(decide (xp < 8) && !p.showSprLeft) then firstSpritePixel xp (p.slots.toList.take p.sprCount)
  else none

/-- The 5-bit palette index of the pixel and whether sprite zero is hit (R360). -/
def Ppu.composePixel (p : Ppu) : BitVec 5 × Bool :=
  let bg := if decide (p.dot - 1 < 8) && !p.showBgLeft then 0 else p.backgroundPixel
  match p.spritePixel with
  | none => (if opaquePixel bg then bg.setWidth 5 else 0, false)
  | some (slot, sp) =>
    let sprite : BitVec 5 := 0x10 ||| sp.setWidth 5
    if opaquePixel bg then (if slot.priority then bg.setWidth 5 else sprite, slot.index == 0)
    else (sprite, false)

/-- Store one byte of the frame buffer. -/
def Ppu.writeFrame (p : Ppu) (y x : Nat) (b : Byte) : Ppu :=
  { p with framebuffer := p.framebuffer.setIfInBounds y ((p.framebuffer[y]?.getD []).write x b) }

/-- `RenderPixel()`, R360, R365: the byte stored is the palette RAM content at the pixel's index. -/
def Ppu.renderPixel (p : Ppu) : Ppu :=
  let c := p.composePixel
  let p' := if c.2 then { p with spr0Hit := true } else p
  p'.writeFrame p.scanline (p.dot - 1) (p.palette.read (palIndex (0x3F00 + c.1.toNat)))

/-! ### The step -/

/-- The scanlines that fetch: visible or pre-render (R330). -/
def Ppu.renderLine (p : Ppu) : Bool := decide (p.scanline ≤ 239) || decide (p.scanline = 261)

/-- `vis_dot` of R330. -/
def Ppu.visDot (p : Ppu) : Bool := decide (1 ≤ p.dot) && decide (p.dot ≤ 256)

/-- `fetch_dot` of R330. -/
def Ppu.fetchDot (p : Ppu) : Bool := p.visDot || (decide (321 ≤ p.dot) && decide (p.dot ≤ 336))

/-- Run an action when a test of the picture unit holds. -/
def whenPpu (test : Ppu → Bool) (action : M Unit) : M Unit := do
  if test (← getS).ppu then action else pure ()

/-- The scroll updates of R330 in its order: CopyY, IncX, IncY, CopyX. -/
def Ppu.scrollUpdates (p : Ppu) : Ppu :=
  let p := if p.scanline = 261 ∧ 280 ≤ p.dot ∧ p.dot ≤ 304 then { p with v := copyY p.v p.t } else p
  if p.renderLine then
    let p := if p.fetchDot && p.dot % 8 == 0 then { p with v := incX p.v } else p
    let p := if p.dot = 256 then { p with v := incY p.v } else p
    if p.dot = 257 then { p with v := copyX p.v p.t } else p
  else p

/-- The actions of a dot while rendering, in the order of R330. -/
def renderActions : M Unit := do
  whenPpu (fun p => decide (p.scanline ≤ 239) && p.visDot) (updatePpu Ppu.renderPixel)
  whenPpu (fun p => p.renderLine && p.fetchDot) fetchAction
  updatePpu Ppu.scrollUpdates
  whenPpu (fun p => p.dot == 257 && decide (p.scanline ≤ 239)) evaluateSprites
  whenPpu (fun p => p.dot == 257 && !decide (p.scanline ≤ 239)) (updatePpu fun p => { p with sprCount := 0 })

/-- `SetVblank()`, R333. -/
def setVblank (s : State) : State :=
  let t := s.setPpu { s.ppu with vblank := true }
  if s.ppu.nmiEnable then t.triggerNmi else t

/-- `ClearFlags()`, R334. -/
def Ppu.clearFlags (p : Ppu) : Ppu := { p with vblank := false, sprOverflow := false, spr0Hit := false }

/-- The two flag events, R333 and R334, rendering or not. -/
def flagEvents (s : State) : State :=
  let s := if s.ppu.scanline = 241 ∧ s.ppu.dot = 1 then setVblank s else s
  if s.ppu.scanline = 261 ∧ s.ppu.dot = 1 then s.setPpu s.ppu.clearFlags else s

/-- `PpuStep()`, R330: the position advances, then the actions of the new position run. -/
def ppuStep : M Unit := do
  tick
  whenPpu Ppu.rendering renderActions
  update flagEvents

end Sys2Proof.Machine
end

