-- ==== Sys2Proof/Machine/Console.lean ====
section
/-! DEFINITION. The fetch, the CPU's step (60_exceptions.md R262), the console's round (63_bus_devices_console.md R460),
and the host's operations: load, reset, frame delivery, inputs between frames, a bounded run
(70_reset_and_hazards.md R470, 63_bus_devices_console.md R461 to R465). -/

namespace Sys2Proof.Machine

/-! ### The CPU's step -/

/-- The read of an immediate operand is the handler's own (30_encoding.md R107), made after `PC` and `cycles` have
advanced (R104): here it is made with the fetch, and one that faults leaves both advanced (60_exceptions.md R254). -/
def fetchImmediate (pc0 : Word) : M Byte := fun s =>
  match memRead (pc0 + 1) s with
  | .ok r => .ok r
  | .error _ => memRead (pc0 + 1) ((s.setPc (pc0 + 2)).addCycles 2)

/-- The byte after the opcode. -/
def fetchOperand (op : Byte) (pc0 : Word) : M Byte :=
  if immediateOp op then fetchImmediate pc0 else memRead (pc0 + 1)

/-- The fetch of 30_encoding.md R104: the opcode byte, then as many operand bytes as it calls for, in ascending address
order; the 105 opcode bytes without a handler raise `IllegalOpcode` (R122) after the opcode read and before any other
change (60_exceptions.md R251). `PC` does not move. -/
def fetch : M Instr := do
  let pc0 := (← getS).cpu.pc
  let op ← memRead pc0
  match opcodeSize op with
  | none => raise (.illegalOpcode pc0 op)
  | some size =>
    let b1 ← if 2 ≤ size then fetchOperand op pc0 else pure 0
    let b2 ← if 3 ≤ size then memRead (pc0 + 2) else pure 0
    match decodeOp op b1 b2 with
    | none => raise (.illegalOpcode pc0 op)
    | some i => pure i

/-- `ExecInstruction()`, 30_encoding.md R104: fetch, decode, run the instruction's meaning. -/
def execInstruction (s : State) : Host.Outcome State Fault Refusal :=
  match fetch s with
  | .ok (i, t) => exec i t
  | .error f => .fault f

/-- `step()` of the CPU, 60_exceptions.md R262: a recorded fault, then idle cycles, then NMI, then an unmasked IRQ, then
an instruction. -/
def cpuStep (s : State) : Host.Outcome State Fault Refusal :=
  match s.fault with
  | some c => .fault (.recorded c)
  | none =>
    if 0 < s.cpu.idle then .next (idleStep s)
    else if s.cpu.nmiPending then takeNmi.outcome s
    else if s.cpu.irqPending && !s.cpu.p.i then takeIrq.outcome s
    else execInstruction s

/-! ### The console's round -/

/-- `DeliverFrame()`, 63_bus_devices_console.md R461: the host is handed the frame buffer as it stands, and the event is
consumed. -/
def deliverFrame (s : State) : State :=
  if s.con.frameReady then
    s.setCon
      { s.con with
        frameReady := false
        frameDelivered := true
        frameCount := s.con.frameCount + 1
        lastFrame := some s.ppu.framebuffer }
  else s

/-- One turn of the loop of R460: a picture-unit step, the mapper's hook, the frame if it became ready. -/
def dotStep : M Unit := do
  ppuStep
  update mapperHook
  update deliverFrame

/-- `n` turns of the loop; a fault ends it. -/
def runDots : Nat → M Unit
  | 0 => pure ()
  | n + 1 => do
    dotStep
    runDots n

/-- The run has ended: the host's stop signal stands between two frames (R465). -/
def State.runEnded (s : State) : Bool := s.con.stop && s.con.frameDelivered

/-- A round begins: no frame has been delivered in it yet. -/
def State.beginRound (s : State) : State := s.setCon { s.con with frameDelivered := false }

/-- `ConsoleRound()`, 63_bus_devices_console.md R460: one CPU step, then three dots for every cycle it consumed; no round
on a faulted machine (60_exceptions.md R254), and none after the run has ended. -/
def consoleRound (s : State) : Host.Outcome State Fault Refusal :=
  match s.fault with
  | some c => .fault (.recorded c)
  | none =>
    if s.runEnded then .refused .runEnded
    else
      match cpuStep s.beginRound with
      | .next t => (runDots (3 * (t.cpu.cycles - s.cpu.cycles))).outcome t
      | .fault f => .fault f
      | .refused r => .refused r

/-! ### Load and reset -/

/-- `cpu.reset()`, 10_state.md R45: `PC` from the reset vector, everything else fixed. -/
def cpuReset : M Unit := do
  let target ← read16 resetVector
  update fun s => { s with cpu := Cpu.reset target }

/-- The picture unit's reset, 61_ppu.md R307: its four memories are kept (10_state.md R46). -/
def Ppu.resetKeepingMemories (p : Ppu) : Ppu :=
  { Ppu.reset with nametable := p.nametable, palette := p.palette, oam := p.oam, framebuffer := p.framebuffer }

/-- The controllers' reset, 63_bus_devices_console.md R453: the host's buttons are kept. -/
def Pads.reset (p : Pads) : Pads := ⟨Pad.reset p.pad0.buttons, Pad.reset p.pad1.buttons, false⟩

/-- `ConsoleReset()`, 70_reset_and_hazards.md R470: picture unit, controllers, console, then the CPU; the mapper and the
memories stay. A reset between frames does not end the window in which the host may act (63_bus_devices_console.md R464:
it lasts until the next round starts). Not available on a faulted machine (60_exceptions.md R254). -/
def consoleReset (s : State) : Host.Outcome State Fault Refusal :=
  match s.fault with
  | some c => .fault (.recorded c)
  | none =>
    cpuReset.outcome
      { s with
        ppu := s.ppu.resetKeepingMemories
        pads := s.pads.reset
        con := { s.con with frameReady := false, stop := false } }

/-- The machine a load leaves before its reset: the cartridge bound, every memory zero, the mapper constructed
(70_reset_and_hazards.md R470). -/
def State.loaded (p : Params) (c : Cartridge) (m : Mapper) (buttons0 buttons1 : Byte) : State where
  params := p
  cart := c
  cpu := Cpu.reset 0
  ram := []
  ppu := Ppu.reset
  map := m
  prgRam := []
  chrRam := []
  pads := ⟨Pad.reset buttons0, Pad.reset buttons1, false⟩
  con := Console.reset
  fault := none
  draws := 0

/-- `Load(cartridge)`, 70_reset_and_hazards.md R470, for the model parameters and the buttons the host holds: none when
the load is refused (60_exceptions.md R255). -/
def load (p : Params) (c : Cartridge) (buttons0 buttons1 : Byte) : Option (Host.Outcome State Fault Refusal) :=
  if c.valid then (Mapper.initial c).map fun m => consoleReset (State.loaded p c m buttons0 buttons1) else none

/-! ### The host between frames -/

/-- What the host writes between frames, 63_bus_devices_console.md R464. -/
structure HostInput where
  buttons0 : Byte
  buttons1 : Byte
  stop : Bool
  deriving DecidableEq, Repr

/-- The host's update of the buttons and the stop signal, R464; it acts only between frames. -/
def hostUpdate (h : HostInput) (s : State) : State :=
  if s.con.frameDelivered then
    { s with
      pads :=
        { s.pads with
          pad0 := { s.pads.pad0 with buttons := h.buttons0 }
          pad1 := { s.pads.pad1 with buttons := h.buttons1 } }
      con := { s.con with stop := h.stop } }
  else s

/-- How a bounded run ended, R465. -/
inductive RunEnd where
  /-- The stop signal was observed between frames. -/
  | stopped (s : State)
  /-- A fault was reported; the state is the one the faulting round leaves (60_exceptions.md R254). -/
  | faulted (s : State)
  /-- The round budget or the host's inputs were exhausted. -/
  | paused (s : State)
  deriving DecidableEq, Repr

/-- `Run()` of R465 for at most `n` rounds; the host's inputs are taken one per delivered frame. -/
def runConsole : Nat → List HostInput → State → RunEnd
  | 0, _, s => .paused s
  | n + 1, inputs, s =>
    match consoleRound s with
    | .fault (.raised _ left) => .faulted left
    | .fault (.recorded _) => .faulted s
    | .refused _ => .stopped s
    | .next t =>
      if t.con.frameDelivered then
        match inputs with
        | [] => .paused t
        | h :: rest =>
          let u := hostUpdate h t
          if u.con.stop then .stopped u else runConsole n rest u
      else runConsole n inputs t

/-! ### Placing an instruction -/

/-- Nothing stands between the state and the fetch of an instruction: no recorded fault, no ended run, no idle cycle, no
pending interrupt. -/
def State.readyToFetch (s : State) : State :=
  { s with
    fault := none
    con := { s.con with stop := false }
    cpu := { s.cpu with idle := 0, nmiPending := false, irqPending := false } }

/-- The machine with bytes stored where the next instruction is fetched (log 2): at `PC` where storage stands behind the
addresses, else in work RAM at 0x0000 with `PC` moved there. -/
def placeInstruction (s : State) (bytes : List Byte) : State :=
  let t := s.readyToFetch
  match pokeAll t t.cpu.pc bytes with
  | some u => u
  | none => (pokeAll (t.setPc 0) 0 bytes).getD t

end Sys2Proof.Machine
end

