-- ==== Sys2Proof/Machine/Step.lean ====
section
/-! DEFINITION. One step of the machine: one round of the console (63_bus_devices_console.md R460, log 1); and the
placing of an instruction where the next step fetches it. -/

namespace Sys2Proof.Machine

/-- One step: `ConsoleRound()`. -/
def step (s : State) : Host.Outcome State Fault Refusal := consoleRound s

/-- The state with an instruction whose first `nbits` bits are those of `w` (bit 0 the least significant bit of the first
byte, every later bit 0, three bytes in all) stored where `step` fetches its next instruction. -/
def State.withFetchWord (s : State) (nbits w : Nat) : State :=
  placeInstruction s (bytesOfTableWord nbits w)

end Sys2Proof.Machine
end

