-- ==== Sys2Proof/Safety.lean ====
section
/-! DEFINITION. What counts as a safe run, and the terms the statements use: the invariant of the machine's states, the
operand of an instruction as a reader of 30_encoding.md finds it, the cycle counts of 70_reset_and_hazards.md R495. -/

namespace Sys2Proof.Machine

/-! ### The invariant -/

/-- Every row of a frame is a canonical memory of 256 bytes. -/
def frameOk (f : Vector Memory 240) : Prop :=
  ∀ (y : Nat) (h : y < 240), (f[y]).wfIn 256 = true

/-- Every memory of the machine is in canonical form and lists nothing outside its array (10_state.md R35 to R37). -/
structure State.MemoriesOk (s : State) : Prop where
  ram : s.ram.wfIn 0x800 = true
  nametable : s.ppu.nametable.wfIn 0x800 = true
  palette : s.ppu.palette.wfIn 32 = true
  oam : s.ppu.oam.wfIn 256 = true
  framebuffer : frameOk s.ppu.framebuffer
  lastFrame : ∀ f, s.con.lastFrame = some f → frameOk f
  prgRam : s.prgRam.wfIn 0x2000 = true
  chrRam : s.chrRam.wfIn (if s.cart.chrBanks = 0 then 0x2000 else 0) = true

/-- The mapper registers are those of the cartridge's variant (62_mappers.md R380), MMC1's count in 0..4 (R404). -/
def mapperOk (number : Nat) : Mapper → Prop
  | .nrom => number = 0
  | .mmc1 m => number = 1 ∧ m.count ≤ 4
  | .uxrom _ => number = 2
  | .mmc3 _ => number = 4

/-- A controller's index is in 0..8 and stands at 0 while the strobe is on (63_bus_devices_console.md R451). -/
def padOk (strobe : Bool) (p : Pad) : Prop :=
  p.index ≤ 8 ∧ (strobe = true → p.index = 0)

/-- The picture unit's fields are in the ranges of 61_ppu.md R303 to R305. -/
structure Ppu.InRange (p : Ppu) : Prop where
  dot : p.dot ≤ 340
  scanline : p.scanline ≤ 261
  sprCount : p.sprCount ≤ 8
  atBits : p.atBits &&& 3 = 0

/-- The states a run goes through: canonical memories, a cartridge the load accepts with its own mapper variant, fields
in range, `P.B` clear (10_state.md R25), no event left over (63_bus_devices_console.md R461), no recorded fault. -/
structure State.Inv (s : State) : Prop where
  memories : s.MemoriesOk
  cart : s.cart.valid = true
  map : mapperOk s.cart.mapperNumber s.map
  ppu : s.ppu.InRange
  pad0 : padOk s.pads.strobe s.pads.pad0
  pad1 : padOk s.pads.strobe s.pads.pad1
  breakFlag : s.cpu.p.b = false
  event : s.con.frameReady = false
  running : s.fault = none

/-- `t` is reached from `s` by steps. -/
inductive Reaches (s : State) : State → Prop where
  | here : Reaches s s
  | next {t u : State} : Reaches s t → step t = .next u → Reaches s u

/-- A safe run from `s`: it never stops with a fault. -/
def SafeFrom (s : State) : Prop :=
  ∀ t, Reaches s t → ∀ f, step t ≠ .fault f

/-! ### Operands -/

/-- The pointer in the zero page at `b`: its high byte comes from `u8(b + 1)` (20_memory.md R71). -/
def State.zeroPagePointer (s : State) (b : Byte) : Word :=
  wordOf (s.ram.read (b + 1).toNat) (s.ram.read b.toNat)

/-- The effective address of a memory operand and whether a page was crossed (30_encoding.md R108 to R113, R115 to
R117), from the registers and the zero page alone; JMP's indirect mode (R114) reads the bus and stands apart. -/
def State.effective (s : State) : Operand → Option (Word × Bool)
  | .zeroPage b => some (zext16 b, false)
  | .zeroPageX b => some (zext16 (b + s.cpu.x), false)
  | .zeroPageY b => some (zext16 (b + s.cpu.y), false)
  | .absolute w => some (w, false)
  | .absoluteX w => some (w + zext16 s.cpu.x, pagesDiffer w (w + zext16 s.cpu.x))
  | .absoluteY w => some (w + zext16 s.cpu.y, pagesDiffer w (w + zext16 s.cpu.y))
  | .indirectX b => some (s.zeroPagePointer (b + s.cpu.x), false)
  | .indirectY b =>
    let base := s.zeroPagePointer b
    some (base + zext16 s.cpu.y, pagesDiffer base (base + zext16 s.cpu.y))
  | .relative b => some (s.cpu.pc + 2 + sext16 b, false)
  | .implied | .accumulator | .immediate _ | .indirect _ => none

/-- The operand reads as `m`, leaving the machine `t` (a device read may change it): the immediate byte, or what a bus
read of the effective address gives. -/
def State.OperandReads (s : State) (o : Operand) (m : Byte) (crossed : Bool) (t : State) : Prop :=
  (o = .immediate m ∧ crossed = false ∧ t = s) ∨ ∃ ea, s.effective o = some (ea, crossed) ∧ memRead ea s = .ok (m, t)

/-- The read of the operand raises a fault. -/
def State.OperandFaults (s : State) (o : Operand) (c : FatalCondition) : Prop :=
  ∃ ea crossed t, s.effective o = some (ea, crossed) ∧ memRead ea s = .error (.raised c t)

/-- The outcome is a stop with this condition (what else the step left in the machine is not said). -/
def StopsWith (c : FatalCondition) (o : Host.Outcome State Fault Refusal) : Prop := ∃ t, o = .fault (.raised c t)

/-- The machine with this condition recorded and nothing else changed (60_exceptions.md R254). -/
def State.stopped (s : State) (c : FatalCondition) : State := { s with fault := some c }

/-! ### Time -/

/-- Cycles of an instruction that reads its operand (30_encoding.md R118, R120). -/
def readCycles (crossed : Bool) : Operand → Nat
  | .immediate _ => 2
  | .zeroPage _ => 3
  | .zeroPageX _ | .zeroPageY _ | .absolute _ => 4
  | .absoluteX _ | .absoluteY _ => 4 + crossed.toNat
  | .indirectX _ => 6
  | .indirectY _ => 5 + crossed.toNat
  | .implied | .accumulator | .indirect _ | .relative _ => 0

/-- Cycles of a store (40_load_store_transfer.md R143 to R145). -/
def storeCycles : Operand → Nat
  | .zeroPage _ => 3
  | .zeroPageX _ | .zeroPageY _ | .absolute _ => 4
  | .absoluteX _ | .absoluteY _ => 5
  | .indirectX _ | .indirectY _ => 6
  | .implied | .accumulator | .immediate _ | .indirect _ | .relative _ => 0

/-- Cycles of a read-modify-write instruction in memory (43_incdec_shift.md R200). -/
def modifyCycles : Operand → Nat
  | .zeroPage _ => 5
  | .zeroPageX _ | .absolute _ => 6
  | .absoluteX _ => 7
  | .zeroPageY _ | .absoluteY _ | .indirectX _ | .indirectY _ | .implied | .accumulator | .immediate _ | .indirect _
  | .relative _ => 0

/-- The CPU after the address computation of an instruction of `size` bytes and `n` cycles (30_encoding.md R104). -/
def Cpu.past (c : Cpu) (size n : Nat) : Cpu :=
  { c with pc := c.pc + BitVec.ofNat 16 size, cycles := c.cycles + n }

/-! ### Flags -/

/-- `SetZN(v)` of 00_scope.md R14 on the value of the byte: Z when it is 0, N when it is at least 128. -/
def Flags.zn (p : Flags) (v : Byte) : Flags :=
  { p with z := decide (v.toNat = 0), n := decide (128 ≤ v.toNat) }

/-! ### What can stop a bus access -/

/-- The parameters under which the bus refuses only what 60_exceptions.md R252 (a) to (c) lists. -/
structure Lenient (p : Params) : Prop where
  absentIo : p.absentIo ≠ .fault
  bankRange : p.bankRange = .modulo

/-- A read of this address is refused: a write-only picture-unit register, or the window no mapper handles
(60_exceptions.md R252 (a), (b)). -/
def readRefused (p : Params) (a : Word) : Prop :=
  (0x2000 ≤ a.toNat ∧ a.toNat < 0x4000 ∧ a.toNat % 8 ∈ [0, 1, 3, 5, 6] ∧ p.ppuWoRead = .fault) ∨
    (0x4020 ≤ a.toNat ∧ a.toNat < 0x6000)

/-- A write to this address outside picture-unit register 7 and OAM DMA is refused: the window no mapper handles, or
NROM's program space (60_exceptions.md R252 (b), (c)). -/
def writeRefused (s : State) (a : Word) : Prop :=
  (0x4020 ≤ a.toNat ∧ a.toNat < 0x6000) ∨
    (0x8000 ≤ a.toNat ∧ s.map = .nrom ∧ s.params.nromPrgWrite = .fault)

end Sys2Proof.Machine
end

