-- ==== Sys2Proof/Certificates/Slice0/Obligations.lean ====
section
/-! DEFINITION. The statements about the model, in the terms of Safety.lean. Each says which rules of spec/ it formalises;
no statement rests on the value of `PAD_EXHAUSTED`, `MMC3_IRQ_DOT` or a free byte, since they are fields of every state.

The shapes used: an instruction's result is the WHOLE next state, so that what is not named in it is unchanged; a device
read may change the machine, and is named `t`. -/

namespace Sys2Proof.Claims

open Sys2Proof.Machine

/-! ### Instructions -/

/-- An instruction that reads its operand and changes only the CPU: where the operand reads as m it completes with
`effect`, where the read faults it stops with that condition. -/
def Reading (mn : Mnemonic) (effect : Cpu → Byte → Cpu) : Prop :=
  ∀ (i : Instr) (s : State), i.row.mnemonic = mn →
    (∀ m crossed t, s.OperandReads i.row.operand m crossed t →
      exec i s = .next { t with cpu := effect (s.cpu.past i.row.operand.size (readCycles crossed i.row.operand)) m }) ∧
    (∀ c, s.OperandFaults i.row.operand c → StopsWith c (exec i s))

/-- ADC by integers (42_arithmetic_logic.md R170, R181). -/
def adc (c : Cpu) (m : Byte) : Cpu :=
  let sum := c.a.toNat + m.toNat + c.p.c.toNat
  let r := BitVec.ofNat 8 sum
  let v := decide ((c.a ^^^ m) &&& 0x80 = 0 ∧ (c.a ^^^ r) &&& 0x80 ≠ 0)
  { c with a := r, p := { c.p with c := decide (255 < sum), v := v }.zn r }

/-- SBC by the integer difference (R171, second formulation). -/
def sbc (c : Cpu) (m : Byte) : Cpu :=
  let d : Int := c.a.toNat - m.toNat - (1 - c.p.c.toNat)
  let r := BitVec.ofInt 8 d
  let v := decide ((c.a ^^^ m) &&& 0x80 ≠ 0 ∧ (c.a ^^^ r) &&& 0x80 ≠ 0)
  { c with a := r, p := { c.p with c := decide (0 ≤ d), v := v }.zn r }

/-- `Compare(r, M)` (R182). -/
def comparison (c : Cpu) (r m : Byte) : Cpu :=
  { c with p := { c.p with c := decide (m.toNat ≤ r.toNat) }.zn (BitVec.ofInt 8 (r.toNat - m.toNat)) }

/-- BIT (R178). -/
def bitTest (c : Cpu) (m : Byte) : Cpu :=
  { c with p := { c.p with z := decide (c.a &&& m = 0), v := m.getLsbD 6, n := m.getLsbD 7 } }

/-- An instruction that stores a register: its outcome is that of the one bus write at its effective address. -/
def Storing (mn : Mnemonic) (reg : Cpu → Byte) : Prop :=
  ∀ (i : Instr) (s : State) (ea : Word) (crossed : Bool), i.row.mnemonic = mn →
    s.effective i.row.operand = some (ea, crossed) →
      let s' := { s with cpu := s.cpu.past i.row.operand.size (storeCycles i.row.operand) }
      (∀ t, memWrite ea (reg s.cpu) s' = .ok ((), t) → exec i s = .next t) ∧
        (∀ f, memWrite ea (reg s.cpu) s' = .error f → exec i s = .fault f)

/-- The register a store instruction stores. -/
def stored (i : Instr) (c : Cpu) : Byte :=
  match i.row.mnemonic with
  | .stx => c.x
  | .sty => c.y
  | _ => c.a

/-- What a read-modify-write instruction makes of its operand and the flags: the byte written and the flags after. -/
abbrev Modification := Flags → Byte → Byte × Flags

/-- The memory forms of a read-modify-write instruction (43_incdec_shift.md R200): one read, one write, then the flags;
a read or a write that faults stops it with that condition. -/
def Modifying (mn : Mnemonic) (f : Modification) : Prop :=
  ∀ (i : Instr) (s : State) (ea : Word) (crossed : Bool), i.row.mnemonic = mn →
    s.effective i.row.operand = some (ea, crossed) →
      let c := s.cpu.past i.row.operand.size (modifyCycles i.row.operand)
      (∀ e u, memRead ea s = .error (.raised e u) → StopsWith e (exec i s)) ∧
        ∀ m t, memRead ea s = .ok (m, t) →
          let r := f s.cpu.p m
          (∀ u, memWrite ea r.1 { t with cpu := c } = .ok ((), u) →
            exec i s = .next { u with cpu := { u.cpu with p := r.2 } }) ∧
          (∀ e u, memWrite ea r.1 { t with cpu := c } = .error (.raised e u) → StopsWith e (exec i s))

/-- The accumulator form of a shift. -/
def ModifyingA (i : Instr) (f : Modification) : Prop :=
  ∀ s : State,
    let r := f s.cpu.p s.cpu.a
    exec i s = .next { s with cpu := { s.cpu.past 1 2 with a := r.1, p := r.2 } }

/-- INC and DEC (R190, R191). -/
def inc : Modification := fun p m => (m + 1, p.zn (m + 1))
def dec : Modification := fun p m => (m - 1, p.zn (m - 1))

/-- ASL, LSR, ROL, ROR by arithmetic on the byte's value (R196 to R199). -/
def asl : Modification := fun p m =>
  let r := BitVec.ofNat 8 (2 * m.toNat)
  (r, { p with c := decide (128 ≤ m.toNat) }.zn r)
def lsr : Modification := fun p m =>
  let r := BitVec.ofNat 8 (m.toNat / 2)
  (r, { p with c := decide (m.toNat % 2 = 1) }.zn r)
def rol : Modification := fun p m =>
  let r := BitVec.ofNat 8 (2 * m.toNat + p.c.toNat)
  (r, { p with c := decide (128 ≤ m.toNat) }.zn r)
def ror : Modification := fun p m =>
  let r := BitVec.ofNat 8 (m.toNat / 2 + 128 * p.c.toNat)
  (r, { p with c := decide (m.toNat % 2 = 1) }.zn r)

/-- What each read-modify-write instruction does to its operand. -/
def modification (i : Instr) : Modification :=
  match i.row.mnemonic with
  | .inc => inc
  | .dec => dec
  | .asl => asl
  | .lsr => lsr
  | .rol => rol
  | _ => ror

/-- An implied instruction of one byte, the opcode given, that changes only the CPU. -/
def CpuOnly (i : Instr) (opcode : Byte) (cycles : Nat) (effect : Cpu → Cpu) : Prop :=
  encode i = [opcode] ∧ ∀ s : State, exec i s = .next { s with cpu := effect (s.cpu.past 1 cycles) }

/-- A branch (44_control_flow.md R215) of the opcode given: the target by integers modulo 65536, the pages by division. -/
def Branching (i : Byte → Instr) (opcode : Byte) (cond : Flags → Bool) : Prop :=
  ∀ (b : Byte) (s : State), encode (i b) = [opcode, b] ∧
    let following := (s.cpu.pc.toNat + 2) % 65536
    let target := ((s.cpu.pc.toNat + 2 + b.toInt) % 65536).toNat
    exec (i b) s = .next
      (if cond s.cpu.p then
        { s with cpu := { s.cpu with
            pc := BitVec.ofNat 16 target
            cycles := s.cpu.cycles + 3 + if following / 256 = target / 256 then 0 else 1 } }
      else
        { s with cpu := { s.cpu with pc := BitVec.ofNat 16 following, cycles := s.cpu.cycles + 2 } })

/-- The index in work RAM of the stack byte a stack pointer addresses (41_stack.md R160). -/
def stackIndex (s : Byte) : Nat := 0x100 + s.toNat

/-- Work RAM with a word pushed from stack pointer s (41_stack.md R162): the high byte first. -/
def pushWord (ram : Memory) (s : Byte) (w : Word) : Memory :=
  (ram.write (stackIndex s) (hiByte w)).write (stackIndex (s - 1)) (loByte w)

/-- The packed status `{N, V, 1, b, D, I, Z, C}` as a number (10_state.md R24). -/
def packed (p : Flags) (b : Bool) : Byte :=
  BitVec.ofNat 8 (128 * p.n.toNat + 64 * p.v.toNat + 32 + 16 * b.toNat + 8 * p.d.toNat + 4 * p.i.toNat + 2 * p.z.toNat +
    p.c.toNat)

/-- The flags of a pulled byte (10_state.md R24): bits 5 and 4 ignored. -/
def unpacked (v : Byte) : Flags :=
  ⟨v.getLsbD 0, v.getLsbD 1, v.getLsbD 2, v.getLsbD 3, false, v.getLsbD 6, v.getLsbD 7⟩

/-- The machine after an interrupt entry of 7 cycles (60_exceptions.md R266): three bytes pushed, `PC` from the vector,
`P.I` set. -/
def entered (s : State) (target : Word) : State :=
  { s with
    ram := (pushWord s.ram s.cpu.s s.cpu.pc).write (stackIndex (s.cpu.s - 2)) (packed s.cpu.p s.params.irqPushB)
    cpu := { s.cpu with
      s := s.cpu.s - 3
      pc := target
      p := { s.cpu.p with i := true }
      cycles := s.cpu.cycles + 7 } }

/-! ### Fetching -/

/-- Bus reads at ascending addresses give these bytes, leaving the machine `t`. -/
def ReadsBytes (s : State) (a : Word) : List Byte → State → Prop
  | [], t => t = s
  | b :: rest, t => ∃ u, memRead a s = .ok (b, u) ∧ ReadsBytes u (a + 1) rest t

/-- What a round does after the CPU's step (63_bus_devices_console.md R460): three dots for every cycle consumed. -/
def roundAfter (s : State) : Host.Outcome State Fault Refusal → Host.Outcome State Fault Refusal
  | .next t => (runDots (3 * (t.cpu.cycles - s.cpu.cycles))).outcome t
  | .fault f => .fault f
  | .refused r => .refused r

/-- Nothing comes before the next instruction (60_exceptions.md R262). -/
structure Ready (s : State) : Prop where
  running : s.fault = none
  idle : s.cpu.idle = 0
  nmi : s.cpu.nmiPending = false
  irq : s.cpu.irqPending = true → s.cpu.p.i = true

/-- The 105 opcode bytes of 30_encoding.md R122, as it lists them. -/
def illegalBytes : List Byte :=
  [[0x02, 0x03, 0x04, 0x07, 0x0B, 0x0C, 0x0F, 0x12, 0x13, 0x14, 0x17, 0x1A, 0x1B, 0x1C, 0x1F],
   [0x22, 0x23, 0x27, 0x2B, 0x2F, 0x32, 0x33, 0x34, 0x37, 0x3A, 0x3B, 0x3C, 0x3F, 0x42, 0x43],
   [0x44, 0x47, 0x4B, 0x4F, 0x52, 0x53, 0x54, 0x57, 0x5A, 0x5B, 0x5C, 0x5F, 0x62, 0x63, 0x64],
   [0x67, 0x6B, 0x6F, 0x72, 0x73, 0x74, 0x77, 0x7A, 0x7B, 0x7C, 0x7F, 0x80, 0x82, 0x83, 0x87],
   [0x89, 0x8B, 0x8F, 0x92, 0x93, 0x97, 0x9B, 0x9C, 0x9E, 0x9F, 0xA3, 0xA7, 0xAB, 0xAF, 0xB2],
   [0xB3, 0xB7, 0xBB, 0xBF, 0xC2, 0xC3, 0xC7, 0xCB, 0xCF, 0xD2, 0xD3, 0xD4, 0xD7, 0xDA, 0xDB],
   [0xDC, 0xDF, 0xE2, 0xE3, 0xE7, 0xEB, 0xEF, 0xF2, 0xF3, 0xF4, 0xF7, 0xFA, 0xFB, 0xFC, 0xFF]].flatten

/-- OAM DMA's turns (63_bus_devices_console.md R440): bus reads at ascending addresses give these bytes, each stored
through `oam_addr` before the next is read, and leave the machine `t`. -/
def Transfers (s : State) (a : Word) : List Byte → State → Prop
  | [], t => t = s
  | b :: rest, t => ∃ u, memRead a s = .ok (b, u) ∧
      Transfers { u with ppu := { u.ppu with
        oam := u.ppu.oam.write u.ppu.oamAddr.toNat b, oamAddr := u.ppu.oamAddr + 1 } } (a + 1) rest t

/-! ### Which instructions write what -/

/-- The mnemonics that write each register (10_state.md R21), the accumulator forms of the shifts apart. -/
def writersA : List Mnemonic := [.lda, .pla, .txa, .tya, .adc, .sbc, .and, .ora, .eor]
def writersX : List Mnemonic := [.ldx, .tax, .tsx, .inx, .dex]
def writersY : List Mnemonic := [.ldy, .tay, .iny, .dey]
def writersS : List Mnemonic := [.txs, .pha, .php, .pla, .plp, .jsr, .rts, .rti, .brk]

/-- The mnemonics that write each flag (10_state.md R23); Z and N are written by the same ones. -/
def writersC : List Mnemonic := [.adc, .sbc, .cmp, .cpx, .cpy, .asl, .lsr, .rol, .ror, .clc, .sec, .plp, .rti]
def writersZN : List Mnemonic :=
  [.lda, .ldx, .ldy, .tax, .tay, .txa, .tya, .tsx, .pla, .adc, .sbc, .and, .ora, .eor, .cmp, .cpx, .cpy, .bit,
   .inc, .dec, .inx, .iny, .dex, .dey, .asl, .lsr, .rol, .ror, .plp, .rti]
def writersI : List Mnemonic := [.sei, .cli, .plp, .rti, .brk]
def writersD : List Mnemonic := [.sed, .cld, .plp, .rti]
def writersB : List Mnemonic := [.plp, .rti]
def writersV : List Mnemonic := [.adc, .sbc, .bit, .clv, .plp, .rti]

/-- The mnemonics that write to the CPU bus: stores, read-modify-write in memory, pushes. -/
def busWriters : List Mnemonic :=
  [.sta, .stx, .sty, .inc, .dec, .asl, .lsr, .rol, .ror, .pha, .php, .jsr, .brk]

/-! ### Devices -/

/-- The half of the nametable RAM each logical table is in (20_memory.md R83). -/
def lookup : Mirroring → List Nat
  | .horizontal => [0, 0, 1, 1]
  | .vertical => [0, 1, 0, 1]
  | .singleLower => [0, 0, 0, 0]
  | .singleUpper => [1, 1, 1, 1]

/-- The step of v after an access to register 7 (61_ppu.md R317, R318). -/
def nextV (p : Ppu) : BitVec 15 := BitVec.ofNat 15 (p.v.toNat + if p.vramInc then 32 else 1)

/-- The dot's number in the frame. -/
def position (p : Ppu) : Nat := p.scanline * 341 + p.dot

/-- The odd-frame skip is taken (61_ppu.md R331). -/
def skips (p : Ppu) : Prop := (p.showBg = true ∨ p.showSpr = true) ∧ p.odd = true ∧ p.scanline = 261 ∧ p.dot = 339

/-- The picture unit on a dot that fetches for the background (R330): dots 1 to 256 and 321 to 336 of the visible
scanlines and the pre-render scanline. -/
def fetches (p : Ppu) : Prop :=
  (p.scanline ≤ 239 ∨ p.scanline = 261) ∧ ((1 ≤ p.dot ∧ p.dot ≤ 256) ∨ (321 ≤ p.dot ∧ p.dot ≤ 336))

/-- The nametable address of v (R341). -/
def nametableAddress (v : BitVec 15) : Word := BitVec.ofNat 16 (0x2000 + v.toNat % 0x1000)

/-- The attribute address of v (R342) by its fields: the nametable, a quarter of coarse Y, a quarter of coarse X. -/
def attributeAddress (v : BitVec 15) : Word :=
  BitVec.ofNat 16 (0x23C0 + 0x400 * (v.toNat / 0x400 % 4) + 8 * (v.toNat / 128 % 8) + v.toNat / 4 % 8)

/-- The place of the palette in the attribute byte (R342): the second bits of coarse Y and coarse X. -/
def attributeShift (v : BitVec 15) : Nat := 4 * (v.toNat / 64 % 2) + 2 * (v.toNat / 2 % 2)

/-- The low-plane address of the background tile row (R343). -/
def tileAddress (p : Ppu) : Word :=
  BitVec.ofNat 16 (4096 * p.bgTable.toNat + 16 * p.ntByte.toNat + p.v.toNat / 4096)

/-- Eight pixels packed as R345 and R352 write it, `{nib_0, ..., nib_7}`: the leftmost in the highest bits. -/
def packed8 (nib : Nat → BitVec 4) : BitVec 32 :=
  nib 0 ++ nib 1 ++ nib 2 ++ nib 3 ++ nib 4 ++ nib 5 ++ nib 6 ++ nib 7

/-- Pixel i of the fetched tile row (R345). -/
def tileNibble (p : Ppu) (i : Nat) : BitVec 4 :=
  p.atBits ||| BitVec.ofNat 4 (2 * (p.patHi.getLsbD (7 - i)).toNat + (p.patLo.getLsbD (7 - i)).toNat)

/-- The low-plane address of a sprite row (R352): its table, tile and row after the vertical flip. -/
def spriteAddress (p : Ppu) (tile attr : Byte) (row : Nat) : Word :=
  BitVec.ofNat 16 (
    if p.sprSize then
      let r := if 128 ≤ attr.toNat then 15 - row else row
      4096 * (tile.toNat % 2) + 16 * (tile.toNat / 2 * 2 + r / 8) + r % 8
    else 4096 * p.sprTable.toNat + 16 * tile.toNat + if 128 ≤ attr.toNat then 7 - row else row)

/-- The pixel of column j of a sprite row from its two planes (R352): bits 1:0 of the attribute, then the planes' bits,
read in reverse when bit 6 is set. -/
def spriteNibble (attr lo hi : Byte) (j : Nat) : BitVec 4 :=
  let k := if attr.getLsbD 6 then j else 7 - j
  BitVec.ofNat 4 (4 * (attr.toNat % 4) + 2 * (hi.getLsbD k).toNat + (lo.getLsbD k).toNat)

/-- The colour index of a pixel from the two layers' pixels and the sprite's priority (61_ppu.md R360): background and
sprite are opaque when their colour bits are not both 0. -/
def colour (bg sp : BitVec 4) (behind : Bool) : BitVec 5 :=
  if bg.toNat % 4 = 0 then
    if sp.toNat % 4 = 0 then 0 else 16 + sp.setWidth 5
  else if sp.toNat % 4 = 0 then bg.setWidth 5
  else if behind then bg.setWidth 5 else 16 + sp.setWidth 5

/-- The background pixel at the current dot after the left-column suppression (R360, R361). -/
def backgroundAt (p : Ppu) : BitVec 4 :=
  if p.showBg = false ∨ (p.dot ≤ 8 ∧ p.showBgLeft = false) then 0
  else BitVec.ofNat 4 (p.tileShift.toNat / 2 ^ (32 + 4 * (7 - p.x.toNat)))

/-- The pixel of a sprite slot at column xp, 0 outside its eight columns (R362). -/
def slotPixel (s : Slot) (xp : Nat) : BitVec 4 :=
  if s.posX.toNat ≤ xp ∧ xp ≤ s.posX.toNat + 7 then
    BitVec.ofNat 4 (s.pattern.toNat / 2 ^ (4 * (7 - (xp - s.posX.toNat))))
  else 0

/-- The sprite shown at the current dot: the first active slot whose pixel there is opaque (R360, R362). -/
def spriteAt (p : Ppu) : Option Slot :=
  if p.showSpr = false ∨ (p.dot ≤ 8 ∧ p.showSprLeft = false) then none
  else (p.slots.toList.take p.sprCount).find? fun s => (slotPixel s (p.dot - 1)).toNat % 4 ≠ 0

/-- The sprite pixel at the current dot, 0 where no sprite shows. -/
def spritePixelAt (p : Ppu) : BitVec 4 :=
  match spriteAt p with
  | some s => slotPixel s (p.dot - 1)
  | none => 0

/-- One byte of a frame, 0 outside it. -/
def frameByte (f : Vector Memory 240) (y x : Nat) : Byte := (f[y]?.getD []).read x

/-- OAM record n covers the scanline (61_ppu.md R351). -/
def covers (p : Ppu) (n : Nat) : Bool :=
  let y := (p.oam.read (4 * n)).toNat
  decide (y ≤ p.scanline ∧ p.scanline < y + if p.sprSize then 16 else 8)

/-- The records `EvaluateSprites` finds, in its order. -/
def found (p : Ppu) : List Nat :=
  (List.range 64).filter fun n => decide (p.oamAddr.toNat / 4 ≤ n) && covers p n

/-- The 16 KB bank MMC1 shows in the lower or upper half of the program space (62_mappers.md R403). -/
def mmc1Program (m : Mmc1) (n16 : Nat) (upper : Bool) : Nat :=
  match m.control.toNat / 4 % 4 with
  | 2 => if upper then m.prgBank.toNat else 0
  | 3 => if upper then n16 - 1 else m.prgBank.toNat
  | _ => m.prgBank.toNat / 2 * 2 + upper.toNat

/-- The 4 KB bank MMC1 shows in the lower or upper pattern table (R403). -/
def mmc1Graphics (m : Mmc1) (upper : Bool) : Nat :=
  if m.control.toNat < 16 then m.chrBank0.toNat / 2 * 2 + upper.toNat
  else if upper then m.chrBank1.toNat else m.chrBank0.toNat

/-- MMC3's row of 8 KB program banks (R417). -/
def mmc3Program (m : Mmc3) (n8 : Nat) : List Nat :=
  if m.prgMode then [n8 - 2, (m.regs[7]).toNat, (m.regs[6]).toNat, n8 - 1]
  else [(m.regs[6]).toNat, (m.regs[7]).toNat, n8 - 2, n8 - 1]

/-- MMC3's row of 1 KB graphics banks (R417). -/
def mmc3Graphics (m : Mmc3) : List Nat :=
  let pairs := [(m.regs[0]).toNat / 2 * 2, (m.regs[0]).toNat / 2 * 2 + 1,
    (m.regs[1]).toNat / 2 * 2, (m.regs[1]).toNat / 2 * 2 + 1]
  let singles := [(m.regs[2]).toNat, (m.regs[3]).toNat, (m.regs[4]).toNat, (m.regs[5]).toNat]
  if m.chrMode then singles ++ pairs else pairs ++ singles

/-- The mapper a load constructs, by mapper number, with its reset values (R386, R393, R401, R416). -/
def loadedMapper (c : Cartridge) : Mapper :=
  match c.mapperNumber with
  | 0 => .nrom
  | 1 => .mmc1 {
      shift := 0, count := 0, control := if c.headerMirroring = .vertical then 0x0E else 0x0F,
      chrBank0 := 0, chrBank1 := 0, prgBank := 0 }
  | 2 => .uxrom { bank := 0 }
  | _ => .mmc3 {
      bankSelect := 0, prgMode := false, chrMode := false, regs := Vector.replicate 8 0,
      mirroring := c.headerMirroring, irqReload := 0, irqCounter := 0, irqEnable := false }

/-- The picture unit after a reset, its four memories given (61_ppu.md R307). -/
def resetPpu (nametable palette oam : Memory) (framebuffer : Vector Memory 240) : Ppu where
  v := 0
  t := 0
  x := 0
  w := false
  vramInc := false
  sprTable := false
  bgTable := false
  sprSize := false
  nmiEnable := false
  grayscale := false
  showBgLeft := false
  showSprLeft := false
  showBg := false
  showSpr := false
  emphasis := 0
  vblank := false
  sprOverflow := false
  spr0Hit := false
  latch := 0
  oamAddr := 0
  readBuffer := 0
  dot := 0
  scanline := 0
  odd := false
  ntByte := 0
  atBits := 0
  patLo := 0
  patHi := 0
  tileShift := 0
  sprCount := 0
  slots := Vector.replicate 8 { pattern := 0, posX := 0, priority := false, index := 0 }
  nametable := nametable
  palette := palette
  oam := oam
  framebuffer := framebuffer

/-- The CPU after a reset (10_state.md R45). -/
def resetCpu (pc : Word) : Cpu where
  a := 0
  x := 0
  y := 0
  s := 0xFD
  pc := pc
  p := ⟨false, false, true, false, false, false, false⟩
  cycles := 0
  idle := 0
  nmiPending := false
  irqPending := false

/-- Five serial writes to MMC1. -/
def fiveWrites (a0 a1 a2 a3 a4 : Word) (d0 d1 d2 d3 d4 : Byte) : M Unit := do
  memWrite a0 d0
  memWrite a1 d1
  memWrite a2 d2
  memWrite a3 d3
  memWrite a4 d4

/-- Nine reads of one controller after the strobe has been set and cleared. -/
def readNine (port : Word) (on off : Byte) : M (List Byte) := do
  memWrite 0x4016 on
  memWrite 0x4016 off
  let b0 ← memRead port
  let b1 ← memRead port
  let b2 ← memRead port
  let b3 ← memRead port
  let b4 ← memRead port
  let b5 ← memRead port
  let b6 ← memRead port
  let b7 ← memRead port
  let b8 ← memRead port
  pure [b0, b1, b2, b3, b4, b5, b6, b7, b8]

/-- The byte of one bit. -/
def bit (b : Bool) : Byte := BitVec.ofNat 8 b.toNat

end Sys2Proof.Claims

section Statements

open Sys2Proof Sys2Proof.Machine

/-! ### Encoding -/

/-- Decoding the encoding of any instruction gives it back with the bytes that follow it, every operand value included
(30_encoding.md R100 to R103, R123). -/
def Obligations.DecodeInvertsEncode : Prop :=
  ∀ (i : Instr) (rest : List Byte), decode (encode i ++ rest) = .ok (i, rest)

/-- Bytes that decode are the encoding of what they decode to: no word has a second reading (30_encoding.md R103). -/
def Obligations.DecodedBytesAreTheEncoding : Prop :=
  ∀ (bytes rest : List Byte) (i : Instr), decode bytes = .ok (i, rest) → bytes = encode i ++ rest

/-- Words written out from the table of 30_encoding.md R120 decode to the rows they stand for. -/
def Obligations.TableWordsDecode : Prop :=
  decodeTableWord 8 0xEA = some .nop ∧
  decodeTableWord 24 0x0200AD = some (.ldaAbsolute 0x0200) ∧
  decodeTableWord 16 0x1091 = some (.staIndirectY 0x10) ∧
  decodeTableWord 24 0x02FF6C = some (.jmpIndirect 0x02FF) ∧
  decodeTableWord 16 0xFED0 = some (.bne 0xFE) ∧
  decodeTableWord 8 0x2A = some .rolAccumulator ∧
  decodeTableWord 8 0x02 = none

/-- The 105 opcode bytes of 30_encoding.md R122 have no instruction, every other byte has one, and an instruction step
that fetches one of them stops with `IllegalOpcode` of its address and the byte: the read of the opcode has happened, its
side effect included, and nothing else has changed but that the fault is recorded (60_exceptions.md R251, R254). -/
def Obligations.IllegalOpcodesStop : Prop :=
  Claims.illegalBytes.length = 105 ∧
  (∀ op : Byte, op ∈ Claims.illegalBytes ↔ ∀ b1 b2, decodeOp op b1 b2 = none) ∧
  ∀ (s t : State) (op : Byte), Claims.Ready s → op ∈ Claims.illegalBytes → memRead s.cpu.pc s = .ok (op, t) →
    cpuStep s = .fault (.raised (.illegalOpcode s.cpu.pc op) (t.stopped (.illegalOpcode s.cpu.pc op)))

/-! ### Instructions: results, frames, completion -/

/-- LDA, LDX, LDY (40_load_store_transfer.md R140 to R142): the register takes the byte, Z and N follow it. -/
def Obligations.LoadsTakeTheOperand : Prop :=
  Claims.Reading .lda (fun c m => { c with a := m, p := c.p.zn m }) ∧
  Claims.Reading .ldx (fun c m => { c with x := m, p := c.p.zn m }) ∧
  Claims.Reading .ldy (fun c m => { c with y := m, p := c.p.zn m })

/-- ADC and SBC (42_arithmetic_logic.md R170, R171): result, C, V, Z, N by integer arithmetic; SBC by the difference. -/
def Obligations.AddAndSubtractWithCarry : Prop :=
  Claims.Reading .adc Claims.adc ∧ Claims.Reading .sbc Claims.sbc

/-- One sum serves both readings of its operands (R180, R181): as unsigned numbers the carry is the ninth bit, as signed
numbers the result is exact unless overflow says otherwise. -/
def Obligations.SumIsUnsignedAndSigned : Prop :=
  ∀ (a b : Byte) (c : Bool),
    let r := addCore a b c
    r.result.toNat + 256 * r.carry.toNat = a.toNat + b.toNat + c.toNat ∧
    (r.overflow = false ↔ r.result.toInt = a.toInt + b.toInt + c.toNat)

/-- AND, ORA, EOR (R172 to R174). -/
def Obligations.LogicCombinesWithA : Prop :=
  Claims.Reading .and (fun c m => { c with a := c.a &&& m, p := c.p.zn (c.a &&& m) }) ∧
  Claims.Reading .ora (fun c m => { c with a := c.a ||| m, p := c.p.zn (c.a ||| m) }) ∧
  Claims.Reading .eor (fun c m => { c with a := c.a ^^^ m, p := c.p.zn (c.a ^^^ m) })

/-- CMP, CPX, CPY (R175 to R177, R182): only C, Z and N change. -/
def Obligations.ComparesSetFlagsOnly : Prop :=
  Claims.Reading .cmp (fun c m => Claims.comparison c c.a m) ∧
  Claims.Reading .cpx (fun c m => Claims.comparison c c.x m) ∧
  Claims.Reading .cpy (fun c m => Claims.comparison c c.y m)

/-- BIT (R178): Z from the conjunction, V and N from the memory byte. -/
def Obligations.BitTestsMemory : Prop := Claims.Reading .bit Claims.bitTest

/-- STA, STX, STY (40_load_store_transfer.md R143 to R145): one bus write of the register at the effective address. -/
def Obligations.StoresWriteTheRegister : Prop :=
  Claims.Storing .sta (·.a) ∧ Claims.Storing .stx (·.x) ∧ Claims.Storing .sty (·.y)

/-- A store whose effective address is work RAM or cartridge RAM completes, changes that one byte and nothing else: the
address reads as the register, every address that is not an alias of it reads as before (20_memory.md R63, 62_mappers.md
R383). -/
def Obligations.StoresToMemoryComplete : Prop :=
  ∀ (i : Instr) (s : State) (ea : Word) (crossed : Bool), i.row.mnemonic ∈ [.sta, .stx, .sty] → s.MemoriesOk →
    s.effective i.row.operand = some (ea, crossed) → ea.toNat < 0x2000 ∨ (0x6000 ≤ ea.toNat ∧ ea.toNat < 0x8000) →
      ∃ t, exec i s = .next t ∧
        t = { s with
          cpu := s.cpu.past i.row.operand.size (storeCycles i.row.operand), ram := t.ram, prgRam := t.prgRam } ∧
        peek t ea = some (Claims.stored i s.cpu) ∧
        ∀ b : Word, b ≠ ea → ¬(ea.toNat < 0x2000 ∧ b.toNat < 0x2000 ∧ b.toNat % 0x800 = ea.toNat % 0x800) →
          peek t b = peek s b

/-- INC, DEC and the memory forms of ASL, LSR, ROL, ROR (43_incdec_shift.md R190, R191, R196 to R200): one read, one
write of the new value, the flags. -/
def Obligations.ModifiesReadThenWrite : Prop :=
  Claims.Modifying .inc Claims.inc ∧ Claims.Modifying .dec Claims.dec ∧ Claims.Modifying .asl Claims.asl ∧
  Claims.Modifying .lsr Claims.lsr ∧ Claims.Modifying .rol Claims.rol ∧ Claims.Modifying .ror Claims.ror

/-- The accumulator forms of the shifts (R196 to R199): A, C, Z, N, two cycles, nothing else. -/
def Obligations.ShiftsOfTheAccumulator : Prop :=
  Claims.ModifyingA .aslAccumulator Claims.asl ∧ Claims.ModifyingA .lsrAccumulator Claims.lsr ∧
  Claims.ModifyingA .rolAccumulator Claims.rol ∧ Claims.ModifyingA .rorAccumulator Claims.ror

/-- A memory form of INC, DEC or a shift whose effective address is work RAM completes and changes that one RAM byte, its
flags, PC and the cycles; every address that is not an alias of the byte reads as before. -/
def Obligations.ModifiesInWorkRamComplete : Prop :=
  ∀ (i : Instr) (s : State) (ea : Word) (crossed : Bool), i.row.mnemonic ∈ [.inc, .dec, .asl, .lsr, .rol, .ror] →
    s.effective i.row.operand = some (ea, crossed) → ea.toNat < 0x2000 →
      let r := Claims.modification i s.cpu.p (s.ram.read (ea.toNat % 0x800))
      ∃ t, exec i s = .next t ∧
        t = { s with
          ram := s.ram.write (ea.toNat % 0x800) r.1
          cpu := { s.cpu.past i.row.operand.size (modifyCycles i.row.operand) with p := r.2 } } ∧
        ∀ b : Word, ¬(b.toNat < 0x2000 ∧ b.toNat % 0x800 = ea.toNat % 0x800) → peek t b = peek s b

/-- The transfers and the register increments (40_load_store_transfer.md R146 to R151, 43_incdec_shift.md R192 to R195):
two cycles, one register, Z and N but for TXS. -/
def Obligations.RegisterInstructions : Prop :=
  Claims.CpuOnly .tax 0xAA 2 (fun c => { c with x := c.a, p := c.p.zn c.a }) ∧
  Claims.CpuOnly .tay 0xA8 2 (fun c => { c with y := c.a, p := c.p.zn c.a }) ∧
  Claims.CpuOnly .txa 0x8A 2 (fun c => { c with a := c.x, p := c.p.zn c.x }) ∧
  Claims.CpuOnly .tya 0x98 2 (fun c => { c with a := c.y, p := c.p.zn c.y }) ∧
  Claims.CpuOnly .tsx 0xBA 2 (fun c => { c with x := c.s, p := c.p.zn c.s }) ∧
  Claims.CpuOnly .txs 0x9A 2 (fun c => { c with s := c.x }) ∧
  Claims.CpuOnly .inx 0xE8 2 (fun c => { c with x := c.x + 1, p := c.p.zn (c.x + 1) }) ∧
  Claims.CpuOnly .iny 0xC8 2 (fun c => { c with y := c.y + 1, p := c.p.zn (c.y + 1) }) ∧
  Claims.CpuOnly .dex 0xCA 2 (fun c => { c with x := c.x - 1, p := c.p.zn (c.x - 1) }) ∧
  Claims.CpuOnly .dey 0x88 2 (fun c => { c with y := c.y - 1, p := c.p.zn (c.y - 1) })

/-- PHA, PHP, PLA, PLP (41_stack.md R160 to R168) in every state: the byte of page 1, S, and for the pulls the register
or all seven flags. -/
def Obligations.StackInstructions : Prop :=
  encode .pha = [0x48] ∧ encode .php = [0x08] ∧ encode .pla = [0x68] ∧ encode .plp = [0x28] ∧
  ∀ s : State,
    let below := Claims.stackIndex (s.cpu.s + 1)
    exec .pha s = .next
      { s with
        ram := s.ram.write (Claims.stackIndex s.cpu.s) s.cpu.a, cpu := { s.cpu.past 1 3 with s := s.cpu.s - 1 } } ∧
    exec .php s = .next
      { s with
        ram := s.ram.write (Claims.stackIndex s.cpu.s) (Claims.packed s.cpu.p true)
        cpu := { s.cpu.past 1 3 with s := s.cpu.s - 1 } } ∧
    exec .pla s = .next
      { s with
        cpu := { s.cpu.past 1 4 with s := s.cpu.s + 1, a := s.ram.read below, p := s.cpu.p.zn (s.ram.read below) } } ∧
    exec .plp s = .next
      { s with cpu := { s.cpu.past 1 4 with s := s.cpu.s + 1, p := Claims.unpacked (s.ram.read below) } }

/-- The flag instructions and NOP (45_flags_nop.md R240 to R247): the one flag named, PC and two cycles. -/
def Obligations.FlagInstructionsAndNop : Prop :=
  Claims.CpuOnly .clc 0x18 2 (fun c => { c with p := { c.p with c := false } }) ∧
  Claims.CpuOnly .sec 0x38 2 (fun c => { c with p := { c.p with c := true } }) ∧
  Claims.CpuOnly .cli 0x58 2 (fun c => { c with p := { c.p with i := false } }) ∧
  Claims.CpuOnly .sei 0x78 2 (fun c => { c with p := { c.p with i := true } }) ∧
  Claims.CpuOnly .clv 0xB8 2 (fun c => { c with p := { c.p with v := false } }) ∧
  Claims.CpuOnly .cld 0xD8 2 (fun c => { c with p := { c.p with d := false } }) ∧
  Claims.CpuOnly .sed 0xF8 2 (fun c => { c with p := { c.p with d := true } }) ∧
  Claims.CpuOnly .nop 0xEA 2 (fun c => c)

/-- JMP (44_control_flow.md R210, 30_encoding.md R114): absolute; indirect with the high byte of the target taken from
the same page as the low byte, stopping where one of the two reads faults. -/
def Obligations.Jumps : Prop :=
  (∀ w : Word, encode (.jmpAbsolute w) = [0x4C, loByte w, hiByte w] ∧
    encode (.jmpIndirect w) = [0x6C, loByte w, hiByte w]) ∧
  (∀ (w : Word) (s : State),
    exec (.jmpAbsolute w) s = .next { s with cpu := { s.cpu with pc := w, cycles := s.cpu.cycles + 3 } }) ∧
  ∀ (w : Word) (s : State),
    let high := BitVec.ofNat 16 (w.toNat / 256 * 256 + (w.toNat + 1) % 256)
    (∀ f, memRead w s = .error f → exec (.jmpIndirect w) s = .fault f) ∧
    ∀ lo t, memRead w s = .ok (lo, t) →
      (∀ f, memRead high t = .error f → exec (.jmpIndirect w) s = .fault f) ∧
      ∀ hi u, memRead high t = .ok (hi, u) →
        exec (.jmpIndirect w) s = .next { u with cpu := { s.cpu with
          pc := BitVec.ofNat 16 (256 * hi.toNat + lo.toNat), cycles := s.cpu.cycles + 5 } }

/-- JSR and RTS (R211, R212) in every state: JSR pushes the address of its last byte, RTS pulls and adds 1. -/
def Obligations.SubroutineCallAndReturn : Prop :=
  encode .rts = [0x60] ∧
  ∀ (w : Word) (s : State), encode (.jsr w) = [0x20, loByte w, hiByte w] ∧
    exec (.jsr w) s = .next
      { s with
        ram := Claims.pushWord s.ram s.cpu.s (s.cpu.pc + 2)
        cpu := { s.cpu with pc := w, s := s.cpu.s - 2, cycles := s.cpu.cycles + 6 } } ∧
    exec .rts s = .next
      { s with cpu := { s.cpu with
          pc := wordOf (s.ram.read (Claims.stackIndex (s.cpu.s + 2))) (s.ram.read (Claims.stackIndex (s.cpu.s + 1))) + 1
          s := s.cpu.s + 2
          cycles := s.cpu.cycles + 6 } }

/-- What the stack saved comes back, wherever S stands (41_stack.md R160: it wraps in page 1): PHP then PLP leaves S and,
the break flag being clear, all seven flags as they were (10_state.md R24, R25, 41_stack.md R168); a subroutine that returns
at once continues after the JSR with S as it was (44_control_flow.md R211, R212); RTI undoes an interrupt entry, A, X, Y, S,
PC and, the break flag being clear, all seven flags being as before it (60_exceptions.md R269). -/
def Obligations.StackRoundTrips : Prop :=
  (∀ s t u : State, s.cpu.p.b = false → s.ram.wf = true → exec .php s = .next t → exec .plp t = .next u →
    u.cpu.p = s.cpu.p ∧ u.cpu.s = s.cpu.s) ∧
  (∀ (w : Word) (s t u : State), s.ram.wf = true → exec (.jsr w) s = .next t → exec .rts t = .next u →
    u.cpu = { s.cpu with pc := s.cpu.pc + 3, cycles := s.cpu.cycles + 12 }) ∧
  ∀ (s u : State) (target : Word), s.ram.wf = true → s.cpu.p.b = false →
    exec .rti (Claims.entered s target) = .next u → u.cpu = { s.cpu with cycles := s.cpu.cycles + 13 }

/-- RTI (R213) in every state: flags, then PC, from the stack. -/
def Obligations.ReturnFromInterrupt : Prop :=
  encode .rti = [0x40] ∧
  ∀ s : State,
    let byte (k : Byte) := s.ram.read (Claims.stackIndex (s.cpu.s + k))
    exec .rti s = .next
      { s with cpu := { s.cpu with
          p := Claims.unpacked (byte 1), pc := wordOf (byte 3) (byte 2), s := s.cpu.s + 3, cycles := s.cpu.cycles + 6 } }

/-- BRK (R214): pushes the address of its opcode plus 2 and the status with bit 4 set, sets I, continues at the IRQ
vector; where the vector cannot be read it stops with the fault of that read, the three pushes done (60_exceptions.md
R254). -/
def Obligations.BreakTakesTheIrqVector : Prop :=
  encode .brk = [0x00] ∧
  ∀ s : State,
    (∀ lo hi, peek s 0xFFFE = some lo → peek s 0xFFFF = some hi →
      exec .brk s = .next
        { s with
          ram := (Claims.pushWord s.ram s.cpu.s (s.cpu.pc + 2)).write (Claims.stackIndex (s.cpu.s - 2))
            (Claims.packed s.cpu.p true)
          cpu := { s.cpu with
            s := s.cpu.s - 3, pc := wordOf hi lo, p := { s.cpu.p with i := true }, cycles := s.cpu.cycles + 7 } }) ∧
    (peek s 0xFFFE = none ∨ peek s 0xFFFF = none →
      let missing := if peek s 0xFFFE = none then 0xFFFE else 0xFFFF
      ∃ t, exec .brk s = .fault (.raised (.invalidAccess .cpu missing .read) t) ∧ t.cpu.s = s.cpu.s - 3 ∧
        t.ram = (Claims.pushWord s.ram s.cpu.s (s.cpu.pc + 2)).write (Claims.stackIndex (s.cpu.s - 2))
          (Claims.packed s.cpu.p true) ∧
        (s.fault = none → t.fault = some (.invalidAccess .cpu missing .read)))

/-- The eight branches (R215 to R223): 2 cycles not taken, 3 taken, 4 taken to another page than the following
instruction's. -/
def Obligations.Branches : Prop :=
  Claims.Branching .bcc 0x90 (fun p => !p.c) ∧ Claims.Branching .bcs 0xB0 (fun p => p.c) ∧
  Claims.Branching .beq 0xF0 (fun p => p.z) ∧ Claims.Branching .bne 0xD0 (fun p => !p.z) ∧
  Claims.Branching .bmi 0x30 (fun p => p.n) ∧ Claims.Branching .bpl 0x10 (fun p => !p.n) ∧
  Claims.Branching .bvc 0x50 (fun p => !p.v) ∧ Claims.Branching .bvs 0x70 (fun p => p.v)

/-- Only the instructions of 10_state.md R21 and R23 write a register or a flag, and an instruction that does not write
to the bus leaves every memory, the mapper and the picture unit's memories as they are. -/
def Obligations.InstructionFrame : Prop :=
  ∀ (i : Instr) (s t : State), exec i s = .next t →
    let mn := i.row.mnemonic
    (mn ∉ Claims.writersA → i.row.operand ≠ .accumulator → t.cpu.a = s.cpu.a) ∧
    (mn ∉ Claims.writersX → t.cpu.x = s.cpu.x) ∧ (mn ∉ Claims.writersY → t.cpu.y = s.cpu.y) ∧
    (mn ∉ Claims.writersS → t.cpu.s = s.cpu.s) ∧ (mn ∉ Claims.writersC → t.cpu.p.c = s.cpu.p.c) ∧
    (mn ∉ Claims.writersZN → t.cpu.p.z = s.cpu.p.z ∧ t.cpu.p.n = s.cpu.p.n) ∧
    (mn ∉ Claims.writersI → t.cpu.p.i = s.cpu.p.i) ∧ (mn ∉ Claims.writersD → t.cpu.p.d = s.cpu.p.d) ∧
    (mn ∉ Claims.writersB → t.cpu.p.b = s.cpu.p.b) ∧ (mn ∉ Claims.writersV → t.cpu.p.v = s.cpu.p.v) ∧
    (mn ∉ Claims.busWriters ∨ i.row.operand = .accumulator →
      (∀ a, peek t a = peek s a) ∧ t.ram = s.ram ∧ t.prgRam = s.prgRam ∧ t.chrRam = s.chrRam ∧ t.map = s.map ∧
      t.cpu.idle = s.cpu.idle ∧
      t.ppu = { s.ppu with v := t.ppu.v, w := t.ppu.w, vblank := t.ppu.vblank, readBuffer := t.ppu.readBuffer })

/-- What no instruction changes: the launch and model parameters, the console's own state, the recorded fault, the pending
interrupts, the picture unit's position, its background pipeline and active-sprite buffer, and the frame buffer
(61_ppu.md R303 to R306: no rule of a register writes them); every instruction consumes 2 to 7 cycles and cancels no idle
cycle (60_exceptions.md R267, 70_reset_and_hazards.md R495, 63_bus_devices_console.md R460). -/
def Obligations.NoInstructionChanges : Prop :=
  ∀ (i : Instr) (s t : State), exec i s = .next t →
    t.params = s.params ∧ t.cart = s.cart ∧ t.con = s.con ∧ t.fault = s.fault ∧
    t.cpu.nmiPending = s.cpu.nmiPending ∧ t.cpu.irqPending = s.cpu.irqPending ∧
    t.ppu.dot = s.ppu.dot ∧ t.ppu.scanline = s.ppu.scanline ∧ t.ppu.odd = s.ppu.odd ∧
    t.ppu.ntByte = s.ppu.ntByte ∧ t.ppu.atBits = s.ppu.atBits ∧ t.ppu.patLo = s.ppu.patLo ∧
    t.ppu.patHi = s.ppu.patHi ∧ t.ppu.tileShift = s.ppu.tileShift ∧ t.ppu.sprCount = s.ppu.sprCount ∧
    t.ppu.slots = s.ppu.slots ∧ t.ppu.framebuffer = s.ppu.framebuffer ∧
    s.cpu.cycles + 2 ≤ t.cpu.cycles ∧ t.cpu.cycles ≤ s.cpu.cycles + 7 ∧ s.cpu.idle ≤ t.cpu.idle

/-- The decimal flag has no effect but on the flag itself and the pushed status (10_state.md R26): with another value of
it, an instruction that neither pushes nor writes it does the same. -/
def Obligations.DecimalFlagIsInert : Prop :=
  ∀ (i : Instr) (s : State) (d : Bool), i.row.mnemonic ∉ [.php, .brk, .plp, .rti, .cld, .sed] →
    let withD (x : State) : State := { x with cpu := { x.cpu with p := { x.cpu.p with d := d } } }
    (∀ t, exec i s = .next t → exec i (withD s) = .next (withD t)) ∧
    (∀ c t, exec i s = .fault (.raised c t) → exec i (withD s) = .fault (.raised c (withD t)))

/-! ### Steps, interrupts, stops -/

/-- A step runs the instruction whose encoding the bus reads at PC, device reads included, and then three dots for every
cycle it took (30_encoding.md R104, 60_exceptions.md R262, 63_bus_devices_console.md R460); that one step is one round is
the model's choice (log 1). -/
def Obligations.StepRunsTheDecodedInstruction : Prop :=
  ∀ (s t : State) (i : Instr), s.runEnded = false → Claims.Ready s →
    Claims.ReadsBytes s.beginRound s.cpu.pc (encode i) t → step s = Claims.roundAfter s (exec i t)

/-- The two steps without a bus access, and the stops: a recorded fault is answered for ever, whatever else is pending
(60_exceptions.md R254: no agent has a step; that the step then answers the recorded fault is the model's choice, log 8), an
idle cycle is consumed with nothing else changed and no interrupt polled (R263), and the host's stop between frames ends
the run (63_bus_devices_console.md R465; that `step` then answers a refusal is the model's choice, log 10). -/
def Obligations.IdleStepsAndStops : Prop :=
  (∀ s c, s.fault = some c → cpuStep s = .fault (.recorded c)) ∧
  (∀ s, s.fault = none → 0 < s.cpu.idle →
    cpuStep s = .next { s with cpu := { s.cpu with idle := s.cpu.idle - 1, cycles := s.cpu.cycles + 1 } }) ∧
  (∀ s, s.fault = none → s.con.stop = true → s.con.frameDelivered = true → step s = .refused .runEnded) ∧
  (∀ s c, s.fault = some c → step s = .fault (.recorded c))

/-- The two interrupt entries (60_exceptions.md R262, R264 to R267): a pending NMI is taken before a pending IRQ and
before the next instruction, whatever P.I, through 0xFFFA; a pending IRQ where no NMI is pending and P.I is clear, through
0xFFFE; each pushes three bytes, sets I and takes seven cycles. With P.I set the step executes an instruction and the
request stays. -/
def Obligations.InterruptEntries : Prop :=
  (∀ (s : State) (lo hi : Byte), s.fault = none → s.cpu.idle = 0 → s.cpu.nmiPending = true →
    peek s 0xFFFA = some lo → peek s 0xFFFB = some hi →
      cpuStep s = .next (Claims.entered { s with cpu := { s.cpu with nmiPending := false } } (wordOf hi lo))) ∧
  (∀ (s : State) (lo hi : Byte), s.fault = none → s.cpu.idle = 0 → s.cpu.nmiPending = false →
    s.cpu.irqPending = true → s.cpu.p.i = false → peek s 0xFFFE = some lo → peek s 0xFFFF = some hi →
      cpuStep s = .next (Claims.entered { s with cpu := { s.cpu with irqPending := false } } (wordOf hi lo))) ∧
  ∀ s t : State, s.fault = none → s.cpu.idle = 0 → s.cpu.nmiPending = false → s.cpu.p.i = true →
    cpuStep s = execInstruction s ∧ (cpuStep s = .next t → t.cpu.irqPending = s.cpu.irqPending)

/-! ### The CPU bus -/

/-- Work RAM answers at four addresses 0x0800 apart (20_memory.md R63): a byte written at one of them is read at every
other, and at every other work-RAM address the byte is the one before. -/
def Obligations.WorkRamMirrors : Prop :=
  ∀ (a b : Word) (v : Byte) (s : State), a.toNat < 0x2000 → b.toNat < 0x2000 → s.ram.wf = true →
    ∃ t, memWrite a v s = .ok ((), t) ∧
      (a.toNat % 0x800 = b.toNat % 0x800 → memRead b t = .ok (v, t)) ∧
      (a.toNat % 0x800 ≠ b.toNat % 0x800 → ∃ w, memRead b s = .ok (w, s) ∧ memRead b t = .ok (w, t))

/-- A bus read changes nothing but what 20_memory.md R72 names: at 0x2002 and 0x2007 with their mirrors, 0x4016 and
0x4017 the device's own fields, at every other address nothing of the machine (under `ABSENT_IO = draw` the count of draws,
which is the model's own field, log 9). -/
def Obligations.ReadSideEffects : Prop :=
  ∀ (a : Word) (s t : State) (b : Byte), memRead a s = .ok (b, t) →
    if 0x2000 ≤ a.toNat ∧ a.toNat < 0x4000 ∧ a.toNat % 8 = 2 then
      t = { s with ppu := { s.ppu with vblank := false, w := false } }
    else if 0x2000 ≤ a.toNat ∧ a.toNat < 0x4000 ∧ a.toNat % 8 = 7 then
      t = { s with ppu := { s.ppu with v := Claims.nextV s.ppu, readBuffer := t.ppu.readBuffer } }
    else if a = 0x4016 then
      t = { s with pads := { s.pads with pad0 := { s.pads.pad0 with index := t.pads.pad0.index } } }
    else if a = 0x4017 then
      t = { s with pads := { s.pads with pad1 := { s.pads.pad1 with index := t.pads.pad1.index } } }
    else if 0x4000 ≤ a.toNat ∧ a.toNat < 0x4020 then
      t = { s with draws := t.draws } ∧ (s.params.absentIo ≠ .draw → t = s)
    else t = s

/-- Which accesses the bus refuses (60_exceptions.md R252 (a) to (c), R253), in a state of a run under the default
parameters that concern the bus. A read completes exactly outside the write-only registers (unless `PPU_WO_READ = latch`)
and the window 0x4020 to 0x5FFF; a write, OAM DMA apart (OamDma), exactly outside that window, NROM's program space, and
register 7 to graphics ROM. A refused one is the fault of its address, recorded (R254). -/
def Obligations.AccessesRefused : Prop :=
  ∀ (a : Word) (v : Byte) (s : State), s.Inv → Lenient s.params →
    let toPattern := 0x2000 ≤ a.toNat ∧ a.toNat < 0x4000 ∧ a.toNat % 8 = 7 ∧ s.ppu.v.toNat % 0x4000 < 0x2000
    let noRead : FatalCondition := .invalidAccess .cpu a .read
    let noWrite : FatalCondition := .invalidAccess .cpu a .write
    let noGraphics : FatalCondition := .chrRomWrite (BitVec.ofNat 16 (s.ppu.v.toNat % 0x4000))
    (readRefused s.params a → memRead a s = .error (.raised noRead (s.stopped noRead))) ∧
    (¬readRefused s.params a → ∃ b t, memRead a s = .ok (b, t)) ∧
    (a ≠ 0x4014 →
      (writeRefused s a → memWrite a v s = .error (.raised noWrite (s.stopped noWrite))) ∧
      (toPattern → s.cart.chrBanks ≠ 0 →
        ∃ t, memWrite a v s = .error (.raised noGraphics t) ∧ t.fault = some noGraphics) ∧
      (¬writeRefused s a → ¬(toPattern ∧ s.cart.chrBanks ≠ 0) → ∃ t, memWrite a v s = .ok ((), t)))

/-- The absent range (20_memory.md R65): zero or an ignored write under the default, `InvalidAccess` under
`ABSENT_IO = fault`; under `draw` a read completes with a byte nothing constrains (the count of draws is the model's own
field, log 9). That a read of 0x4014 and a write of 0x4017 are accesses to the absent range is read from the rule (log 17). -/
def Obligations.AbsentRange : Prop :=
  ∀ (a : Word) (v : Byte) (s : State), 0x4000 ≤ a.toNat → a.toNat < 0x4020 → a ≠ 0x4016 →
    (a ≠ 0x4017 → s.params.absentIo = .zero → memRead a s = .ok (0, s)) ∧
    (a ≠ 0x4017 → s.params.absentIo = .fault → s.fault = none →
      memRead a s = .error (.raised (.invalidAccess .cpu a .read) (s.stopped (.invalidAccess .cpu a .read)))) ∧
    (a ≠ 0x4017 → s.params.absentIo = .draw → ∃ b, memRead a s = .ok (b, { s with draws := s.draws + 1 })) ∧
    (a ≠ 0x4014 → s.params.absentIo ≠ .fault → memWrite a v s = .ok ((), s)) ∧
    (a ≠ 0x4014 → s.params.absentIo = .fault → s.fault = none →
      memWrite a v s = .error (.raised (.invalidAccess .cpu a .write) (s.stopped (.invalidAccess .cpu a .write))))

/-- OAM DMA (63_bus_devices_console.md R440, R441). From a page of storage (work RAM, cartridge RAM, program ROM) OAM, from
`oam_addr` on and wrapping, holds the 256 bytes, `oam_addr` is as before, and 513 or, `cycles` being odd, 514 idle cycles are
scheduled; a work-RAM page is read through its mirrors. From any page the 256 reads are bus reads with their values and side
effects, each byte stored before the next read; the first read that faults ends it. So a page of write-only registers or of
the window no mapper handles is refused at its first byte. -/
def Obligations.OamDma : Prop :=
  ∀ (d : Byte) (s : State),
    let base := 256 * d.toNat
    let cost (n : Nat) : Nat := if n % 2 = 0 then 513 else 514
    let refused : FatalCondition := .invalidAccess .cpu (BitVec.ofNat 16 base) .read
    (s.ppu.oam.wf = true → (∀ k, k < 256 → (peek s (BitVec.ofNat 16 (base + k))).isSome = true) →
      ∃ t, memWrite 0x4014 d s = .ok ((), t) ∧
        t = { s with
          ppu := { s.ppu with oam := t.ppu.oam }
          cpu := { s.cpu with idle := s.cpu.idle + cost s.cpu.cycles } } ∧
        ∀ k, k < 256 →
          peek s (BitVec.ofNat 16 (base + k)) = some (t.ppu.oam.read ((s.ppu.oamAddr.toNat + k) % 256))) ∧
    (d.toNat < 0x20 → ∀ k, k < 256 → peek s (BitVec.ofNat 16 (base + k)) = some (s.ram.read ((base + k) % 0x800))) ∧
    (∀ bytes t, bytes.length = 256 → Claims.Transfers s (BitVec.ofNat 16 base) bytes t →
      memWrite 0x4014 d s =
        .ok ((), { t with cpu := { t.cpu with idle := t.cpu.idle + cost t.cpu.cycles } })) ∧
    (∀ bytes t f, bytes.length < 256 → Claims.Transfers s (BitVec.ofNat 16 base) bytes t →
      memRead (BitVec.ofNat 16 (base + bytes.length)) t = .error f → memWrite 0x4014 d s = .error f) ∧
    (s.fault = none →
      (0x20 ≤ d.toNat ∧ d.toNat < 0x40 ∧ s.params.ppuWoRead = .fault) ∨ (0x41 ≤ d.toNat ∧ d.toNat < 0x60) →
        memWrite 0x4014 d s = .error (.raised refused (s.stopped refused)))

/-- The controllers (R450, R451): after the strobe the eight reads shift out the buttons the host holds, in the order of
the bits, and the ninth gives the exhausted value; while the strobe is on every read gives button 0. -/
def Obligations.ControllersShiftButtons : Prop :=
  ∀ (on off : Byte) (s : State), on.getLsbD 0 = true → off.getLsbD 0 = false →
    (∃ t, Claims.readNine 0x4016 on off s = .ok
      ([Claims.bit (s.pads.pad0.buttons.getLsbD 0), Claims.bit (s.pads.pad0.buttons.getLsbD 1),
        Claims.bit (s.pads.pad0.buttons.getLsbD 2), Claims.bit (s.pads.pad0.buttons.getLsbD 3),
        Claims.bit (s.pads.pad0.buttons.getLsbD 4), Claims.bit (s.pads.pad0.buttons.getLsbD 5),
        Claims.bit (s.pads.pad0.buttons.getLsbD 6), Claims.bit (s.pads.pad0.buttons.getLsbD 7),
        Claims.bit s.params.padExhausted], t)) ∧
    (∃ t, Claims.readNine 0x4017 on off s = .ok
      ([Claims.bit (s.pads.pad1.buttons.getLsbD 0), Claims.bit (s.pads.pad1.buttons.getLsbD 1),
        Claims.bit (s.pads.pad1.buttons.getLsbD 2), Claims.bit (s.pads.pad1.buttons.getLsbD 3),
        Claims.bit (s.pads.pad1.buttons.getLsbD 4), Claims.bit (s.pads.pad1.buttons.getLsbD 5),
        Claims.bit (s.pads.pad1.buttons.getLsbD 6), Claims.bit (s.pads.pad1.buttons.getLsbD 7),
        Claims.bit s.params.padExhausted], t)) ∧
    ∃ t, memWrite 0x4016 on s = .ok ((), t) ∧
      memRead 0x4016 t = .ok (Claims.bit (s.pads.pad0.buttons.getLsbD 0), t) ∧
      memRead 0x4017 t = .ok (Claims.bit (s.pads.pad1.buttons.getLsbD 0), t)

/-! ### The picture unit's registers -/

/-- Registers 0 and 1 written at any of their mirrors (61_ppu.md R308, R310, R311): every field by its bit. -/
def Obligations.ControlAndMaskRegisters : Prop :=
  ∀ (a : Word) (d : Byte) (s : State), 0x2000 ≤ a.toNat → a.toNat < 0x4000 →
    (a.toNat % 8 = 0 → ∃ t, memWrite a d s = .ok ((), t) ∧
      t = { s with ppu := { s.ppu with
        latch := d, t := t.ppu.t, vramInc := d.getLsbD 2, sprTable := d.getLsbD 3, bgTable := d.getLsbD 4,
        sprSize := d.getLsbD 5, nmiEnable := d.getLsbD 7 } } ∧
      ∀ k, k < 15 → t.ppu.t.getLsbD k =
        if k = 10 then d.getLsbD 0 else if k = 11 then d.getLsbD 1 else s.ppu.t.getLsbD k) ∧
    (a.toNat % 8 = 1 →
      memWrite a d s = .ok ((), { s with ppu := { s.ppu with
        latch := d, grayscale := d.getLsbD 0, showBgLeft := d.getLsbD 1, showSprLeft := d.getLsbD 2,
        showBg := d.getLsbD 3, showSpr := d.getLsbD 4, emphasis := BitVec.ofNat 3 (d.toNat / 32) } }))

/-- Registers 2, 3 and 4. A status read returns the three flags over the latch's low bits and clears `vblank` and `w`, so
that a second read returns bit 7 clear; a write there only updates the latch (R312). The OAM address is written (R313), OAM
data read without and written with an increment (R314). -/
def Obligations.StatusAndOamRegisters : Prop :=
  ∀ (a : Word) (d : Byte) (s : State), 0x2000 ≤ a.toNat → a.toNat < 0x4000 →
    (a.toNat % 8 = 2 →
      memWrite a d s = .ok ((), { s with ppu := { s.ppu with latch := d } }) ∧
      ∃ b t, memRead a s = .ok (b, t) ∧ t = { s with ppu := { s.ppu with vblank := false, w := false } } ∧
        b.toNat = 128 * s.ppu.vblank.toNat + 64 * s.ppu.spr0Hit.toNat + 32 * s.ppu.sprOverflow.toNat +
          s.ppu.latch.toNat % 32 ∧
        ∃ b', memRead a t = .ok (b', t) ∧ b'.getLsbD 7 = false) ∧
    (a.toNat % 8 = 3 → memWrite a d s = .ok ((), { s with ppu := { s.ppu with latch := d, oamAddr := d } })) ∧
    (a.toNat % 8 = 4 →
      memRead a s = .ok (s.ppu.oam.read s.ppu.oamAddr.toNat, s) ∧
      memWrite a d s = .ok ((), { s with ppu := { s.ppu with
        latch := d, oam := s.ppu.oam.write s.ppu.oamAddr.toNat d, oamAddr := s.ppu.oamAddr + 1 } }))

/-- Registers 5 and 6 share the toggle `w` (R315, R316): each half of each pair, bit by bit of `t`; the second half of
register 6 also loads `v`. -/
def Obligations.ScrollAndAddressRegisters : Prop :=
  ∀ (a : Word) (d : Byte) (s : State), 0x2000 ≤ a.toNat → a.toNat < 0x4000 →
    (a.toNat % 8 = 5 → s.ppu.w = false → ∃ t', memWrite a d s = .ok ((), { s with ppu := { s.ppu with
        latch := d, t := t', x := BitVec.ofNat 3 d.toNat, w := true } }) ∧
      ∀ k, k < 15 → t'.getLsbD k = if k < 5 then d.getLsbD (k + 3) else s.ppu.t.getLsbD k) ∧
    (a.toNat % 8 = 5 → s.ppu.w = true → ∃ t', memWrite a d s = .ok ((), { s with ppu := { s.ppu with
        latch := d, t := t', w := false } }) ∧
      ∀ k, k < 15 → t'.getLsbD k =
        if 12 ≤ k then d.getLsbD (k - 12) else if 5 ≤ k ∧ k < 10 then d.getLsbD (k - 2) else s.ppu.t.getLsbD k) ∧
    (a.toNat % 8 = 6 → s.ppu.w = false → ∃ t', memWrite a d s = .ok ((), { s with ppu := { s.ppu with
        latch := d, t := t', w := true } }) ∧
      ∀ k, k < 15 → t'.getLsbD k =
        if k = 14 then false else if 8 ≤ k then d.getLsbD (k - 8) else s.ppu.t.getLsbD k) ∧
    (a.toNat % 8 = 6 → s.ppu.w = true → ∃ t', memWrite a d s = .ok ((), { s with ppu := { s.ppu with
        latch := d, t := t', v := t', w := false } }) ∧
      ∀ k, k < 15 → t'.getLsbD k = if k < 8 then d.getLsbD k else s.ppu.t.getLsbD k)

/-- Register 7 (R317, R318): a read below the palette returns the buffer and refills it, a palette read is immediate and
fills the buffer from the nametable under it; a write stores; all three step `v`; an access the picture-unit bus refuses
stops the machine. -/
def Obligations.VramDataRegister : Prop :=
  ∀ (a : Word) (d : Byte) (s : State), 0x2000 ≤ a.toNat → a.toNat < 0x4000 → a.toNat % 8 = 7 →
    let at' := BitVec.ofNat 16 (s.ppu.v.toNat % 0x4000)
    let after (x : State) (buffer : Byte) : State :=
      { x with ppu := { x.ppu with v := Claims.nextV s.ppu, readBuffer := buffer } }
    (at'.toNat < 0x3F00 → ∀ b, ppuRead at' s = .ok b → memRead a s = .ok (s.ppu.readBuffer, after s b)) ∧
    (0x3F00 ≤ at'.toNat → ∀ p b, ppuRead at' s = .ok p → ppuRead (at' - 0x1000) s = .ok b →
      memRead a s = .ok (p, after s b)) ∧
    (∀ c, ppuRead at' s = .error c → ∃ t, memRead a s = .error (.raised c t)) ∧
    (∀ t, ppuWrite at' d { s with ppu := { s.ppu with latch := d } } = .ok ((), t) →
      memWrite a d s = .ok ((), after t t.ppu.readBuffer)) ∧
    (∀ f, ppuWrite at' d { s with ppu := { s.ppu with latch := d } } = .error f → memWrite a d s = .error f)

/-- The picture-unit bus outside the pattern tables (20_memory.md R80, R83, R84, R85): a nametable address through the
mapper's mirroring, a palette address with its four aliases; a write and the read of it. -/
def Obligations.PictureBusRouting : Prop :=
  ∀ (a : Word) (d : Byte) (s : State), s.MemoriesOk → a.toNat < 0x4000 →
    let r := (a.toNat - 0x2000) % 0x1000
    let nt := (Claims.lookup (mirroring s)).getD (r / 0x400) 0 * 0x400 + r % 0x400
    let pal := if a.toNat % 32 ∈ [16, 20, 24, 28] then a.toNat % 32 - 16 else a.toNat % 32
    (0x2000 ≤ a.toNat → a.toNat < 0x3F00 →
      ppuRead a s = .ok (s.ppu.nametable.read nt) ∧
      ppuWrite a d s = .ok ((), { s with ppu := { s.ppu with nametable := s.ppu.nametable.write nt d } })) ∧
    (0x3F00 ≤ a.toNat →
      ppuRead a s = .ok (s.ppu.palette.read pal) ∧
      ppuWrite a d s = .ok ((), { s with ppu := { s.ppu with palette := s.ppu.palette.write pal d } })) ∧
    (0x2000 ≤ a.toNat → ∀ t, ppuWrite a d s = .ok ((), t) → ppuRead a t = .ok d)

/-! ### The picture unit's step -/

/-- The position advances by one dot of 341 x 262, the last dot of an odd rendered frame skipped; at the wrap the frame
toggle flips and the frame is ready (61_ppu.md R331). -/
def Obligations.PositionAdvances : Prop :=
  ∀ s t : State, s.ppu.InRange → ppuStep s = .ok ((), t) →
    t.ppu.dot ≤ 340 ∧ t.ppu.scanline ≤ 261 ∧
    (Claims.skips s.ppu → Claims.position t.ppu = 0 ∧ t.ppu.odd = !s.ppu.odd ∧ t.con.frameReady = true) ∧
    (¬Claims.skips s.ppu →
      Claims.position t.ppu = (Claims.position s.ppu + 1) % 89342 ∧
      (Claims.position s.ppu = 89341 → t.ppu.odd = !s.ppu.odd ∧ t.con.frameReady = true) ∧
      (Claims.position s.ppu ≠ 89341 → t.ppu.odd = s.ppu.odd ∧ t.con.frameReady = s.con.frameReady))

/-- The two flag events (R333, R334), rendering or not: at scanline 241 dot 1 `vblank` is set and, if enabled, an NMI is
requested; at scanline 261 dot 1 the three flags are cleared; at no other dot does `vblank` change or an NMI arise, and
the picture unit requests no IRQ. -/
def Obligations.VblankEvents : Prop :=
  ∀ s t : State, ppuStep s = .ok ((), t) →
    let start := t.ppu.scanline = 241 ∧ t.ppu.dot = 1
    let clear := t.ppu.scanline = 261 ∧ t.ppu.dot = 1
    (start → t.ppu.vblank = true) ∧
    (clear → t.ppu.vblank = false ∧ t.ppu.sprOverflow = false ∧ t.ppu.spr0Hit = false) ∧
    (¬start → ¬clear → t.ppu.vblank = s.ppu.vblank) ∧
    t.cpu = { s.cpu with nmiPending := t.cpu.nmiPending } ∧
    (t.cpu.nmiPending = true ↔ s.cpu.nmiPending = true ∨ (start ∧ s.ppu.nmiEnable = true))

/-- With rendering off a dot changes the position, the frame toggle and event, and at the two flag events the flags and
the NMI request: nothing else (R330: nothing but Tick, SetVblank and ClearFlags happens). -/
def Obligations.RenderingOffDot : Prop :=
  ∀ s : State, s.ppu.showBg = false → s.ppu.showSpr = false →
    ∃ t, ppuStep s = .ok ((), t) ∧
      t = { s with
        cpu := { s.cpu with nmiPending := t.cpu.nmiPending }
        con := { s.con with frameReady := t.con.frameReady }
        ppu := { s.ppu with
          dot := t.ppu.dot, scanline := t.ppu.scanline, odd := t.ppu.odd, vblank := t.ppu.vblank,
          spr0Hit := t.ppu.spr0Hit, sprOverflow := t.ppu.sprOverflow } } ∧
      let start := t.ppu.scanline = 241 ∧ t.ppu.dot = 1
      let clear := t.ppu.scanline = 261 ∧ t.ppu.dot = 1
      (¬start → ¬clear → t.ppu.vblank = s.ppu.vblank) ∧ (¬start → t.cpu.nmiPending = s.cpu.nmiPending) ∧
      (¬clear → t.ppu.spr0Hit = s.ppu.spr0Hit ∧ t.ppu.sprOverflow = s.ppu.sprOverflow)

/-- With rendering on, the background pipeline (61_ppu.md R330, R340 to R346): on a fetch dot of a render line the register
shifts by one pixel and, by the dot modulo 8, the nametable byte, the attribute bits, the low and the high plane are read
from the addresses `v` gives, or the fetched tile is packed into the register; at no other dot does any of them change. -/
def Obligations.BackgroundFetches : Prop :=
  ∀ s t : State, s.ppu.showBg = true ∨ s.ppu.showSpr = true → ppuStep s = .ok ((), t) →
    let p := s.ppu
    let q := t.ppu
    let phase (k : Nat) := Claims.fetches q ∧ q.dot % 8 = k
    (phase 1 → ppuRead (Claims.nametableAddress p.v) s = .ok q.ntByte) ∧ (¬phase 1 → q.ntByte = p.ntByte) ∧
    (phase 3 → ∃ b, ppuRead (Claims.attributeAddress p.v) s = .ok b ∧
      q.atBits = BitVec.ofNat 4 (4 * (b.toNat / 2 ^ Claims.attributeShift p.v % 4))) ∧
    (¬phase 3 → q.atBits = p.atBits) ∧
    (phase 5 → ppuRead (Claims.tileAddress p) s = .ok q.patLo) ∧ (¬phase 5 → q.patLo = p.patLo) ∧
    (phase 7 → ppuRead (Claims.tileAddress p + 8) s = .ok q.patHi) ∧ (¬phase 7 → q.patHi = p.patHi) ∧
    (phase 0 → q.tileShift = (p.tileShift <<< 4) ||| (Claims.packed8 (Claims.tileNibble p)).setWidth 64) ∧
    (Claims.fetches q → q.dot % 8 ≠ 0 → q.tileShift = p.tileShift <<< 4) ∧
    (¬Claims.fetches q → q.tileShift = p.tileShift)

/-- With rendering on, what else a dot does (R330, R347 to R351, R360): `v` takes its increments and copies at their dots,
the pixel of the new position is drawn from the registers before their shift, sprites are evaluated at dot 257 of a visible
scanline and the buffer is emptied at dot 257 of any other; nothing else changes but the position, the flag events and the
background pipeline. In a state of a run, bank numbers being reduced, every dot completes. -/
def Obligations.RenderingOnDot : Prop :=
  (∀ s : State, s.Inv → s.params.bankRange = .modulo → ∃ t, ppuStep s = .ok ((), t)) ∧
  ∀ s t : State, s.ppu.showBg = true ∨ s.ppu.showSpr = true → ppuStep s = .ok ((), t) →
    let p := s.ppu
    let q := t.ppu
    let here := { p with dot := q.dot, scanline := q.scanline, odd := q.odd }
    let visible := q.scanline ≤ 239
    let line := q.scanline ≤ 239 ∨ q.scanline = 261
    let drawn := visible ∧ 1 ≤ q.dot ∧ q.dot ≤ 256
    let copies := q.scanline = 261 ∧ 280 ≤ q.dot ∧ q.dot ≤ 304
    let packs := Claims.fetches q ∧ q.dot % 8 = 0
    let clear := q.scanline = 261 ∧ q.dot = 1
    (copies → q.v = copyY p.v p.t) ∧ (line → q.dot = 257 → q.v = copyX p.v p.t) ∧
    (line → q.dot = 256 → q.v = incY (incX p.v)) ∧ (packs → q.dot ≠ 256 → q.v = incX p.v) ∧
    (¬copies → ¬(line ∧ q.dot = 257) → ¬packs → q.v = p.v) ∧
    (drawn → q.framebuffer = here.renderPixel.framebuffer ∧ q.spr0Hit = here.renderPixel.spr0Hit) ∧
    (¬drawn → q.framebuffer = p.framebuffer ∧ (¬clear → q.spr0Hit = p.spr0Hit)) ∧
    (visible → q.dot = 257 → ∃ u, evaluateSprites { s with ppu := { here with v := q.v } } = .ok ((), u) ∧
      q.slots = u.ppu.slots ∧ q.sprCount = u.ppu.sprCount ∧ q.sprOverflow = u.ppu.sprOverflow) ∧
    (¬visible → q.dot = 257 → q.sprCount = 0 ∧ q.slots = p.slots) ∧
    (q.dot ≠ 257 → q.sprCount = p.sprCount ∧ q.slots = p.slots) ∧
    (¬(visible ∧ q.dot = 257) → ¬clear → q.sprOverflow = p.sprOverflow) ∧
    t = { s with
      cpu := { s.cpu with nmiPending := t.cpu.nmiPending }
      con := { s.con with frameReady := t.con.frameReady }
      ppu := { here with
        v := q.v, ntByte := q.ntByte, atBits := q.atBits, patLo := q.patLo, patHi := q.patHi, tileShift := q.tileShift,
        sprCount := q.sprCount, slots := q.slots, sprOverflow := q.sprOverflow, spr0Hit := q.spr0Hit,
        vblank := q.vblank, framebuffer := q.framebuffer } }

/-- A frame with rendering off is 89342 dots from any dot of the frame (70_reset_and_hazards.md R496): no fault, the
position is back, the frame toggle has flipped, exactly one frame has been delivered and it is the frame buffer (the
count and the copy of the frame are the model's own fields, log 11). -/
def Obligations.FrameWithRenderingOff : Prop :=
  ∀ s : State, s.ppu.InRange → s.ppu.showBg = false → s.ppu.showSpr = false → s.con.frameReady = false →
    ∃ t, runDots 89342 s = .ok ((), t) ∧
      t.ppu.dot = s.ppu.dot ∧ t.ppu.scanline = s.ppu.scanline ∧ (t.ppu.odd = !s.ppu.odd) ∧
      t.con.frameCount = s.con.frameCount + 1 ∧ t.con.lastFrame = some s.ppu.framebuffer ∧
      t.con.frameReady = false ∧ t.ppu.framebuffer = s.ppu.framebuffer

/-- The scroll arithmetic (61_ppu.md R347 to R350) by the fields of `v`: coarse X, coarse Y, the two nametable bits,
fine Y. -/
def Obligations.ScrollIncrements : Prop :=
  (∀ v : BitVec 15, incX v =
    if v.toNat % 32 = 31 then (v &&& 0x7FE0) ^^^ 0x0400 else BitVec.ofNat 15 (v.toNat + 1)) ∧
  (∀ v : BitVec 15, ∃ y : Nat, ∃ flip : Bool,
    (v.toNat < 0x7000 → incY v = BitVec.ofNat 15 (v.toNat + 0x1000)) ∧
    (0x7000 ≤ v.toNat →
      incY v = BitVec.ofNat 15 (v.toNat % 32 + 32 * y + 0x400 * (v.toNat / 0x400 % 2) +
        0x800 * ((v.toNat / 0x800 + flip.toNat) % 2))) ∧
    (v.toNat / 32 % 32 = 29 → y = 0 ∧ flip = true) ∧ (v.toNat / 32 % 32 = 31 → y = 0 ∧ flip = false) ∧
    (v.toNat / 32 % 32 ≠ 29 → v.toNat / 32 % 32 ≠ 31 → y = v.toNat / 32 % 32 + 1 ∧ flip = false)) ∧
  ∀ (v t : BitVec 15) (k : Nat), k < 15 →
    (copyX v t).getLsbD k = (if k < 5 ∨ k = 10 then t.getLsbD k else v.getLsbD k) ∧
    (copyY v t).getLsbD k = (if k < 5 ∨ k = 10 then v.getLsbD k else t.getLsbD k)

/-- The pixel of a visible dot (R360 to R362, R365): the frame buffer's byte at that place is the palette's content for
the colour the two layers give, every other byte stays, and sprite 0 is hit exactly where both layers are opaque and the
sprite shown is record 0. -/
def Obligations.PixelOutput : Prop :=
  ∀ p : Ppu, 1 ≤ p.dot → p.dot ≤ 256 → p.scanline ≤ 239 → frameOk p.framebuffer →
    let bg := Claims.backgroundAt p
    let sp := Claims.spritePixelAt p
    let behind := match Claims.spriteAt p with | some s => s.priority | none => false
    let index := (0x3F00 + (Claims.colour bg sp behind).toNat)
    let q := p.renderPixel
    q = { p with framebuffer := q.framebuffer, spr0Hit := q.spr0Hit } ∧
    Claims.frameByte q.framebuffer p.scanline (p.dot - 1) = p.palette.read (palIndex index) ∧
    (∀ y x, y < 240 → ¬(y = p.scanline ∧ x = p.dot - 1) →
      Claims.frameByte q.framebuffer y x = Claims.frameByte p.framebuffer y x) ∧
    (q.spr0Hit = true ↔ p.spr0Hit = true ∨
      (bg.toNat % 4 ≠ 0 ∧ sp.toNat % 4 ≠ 0 ∧ ∃ s, Claims.spriteAt p = some s ∧ s.index = 0))

/-- Sprite evaluation (R351, R352): the slots are the first eight records from `oam_addr >> 2` on that cover the scanline,
with their columns and priorities and the eight pixels of the row the scanline crosses, read from the table, tile and row
the size and the flips select; a ninth sets the overflow flag and nothing else clears or sets it; `oam_addr` stays. -/
def Obligations.SpriteEvaluation : Prop :=
  ∀ s t : State, evaluateSprites s = .ok ((), t) →
    let records := Claims.found s.ppu
    t = { s with ppu := { s.ppu with
      slots := t.ppu.slots, sprCount := min 8 records.length, sprOverflow := t.ppu.sprOverflow } } ∧
    (t.ppu.sprOverflow = true ↔ s.ppu.sprOverflow = true ∨ 8 < records.length) ∧
    ∀ (k : Nat) (h : k < 8), k < records.length → ∃ n lo hi, records[k]? = some n ∧
      let tile := s.ppu.oam.read (4 * n + 1)
      let attr := s.ppu.oam.read (4 * n + 2)
      let address := Claims.spriteAddress s.ppu tile attr (s.ppu.scanline - (s.ppu.oam.read (4 * n)).toNat)
      let slot := t.ppu.slots[k]
      slot.index = BitVec.ofNat 6 n ∧ slot.posX = s.ppu.oam.read (4 * n + 3) ∧ slot.priority = attr.getLsbD 5 ∧
      ppuRead address s = .ok lo ∧ ppuRead (address + 8) s = .ok hi ∧
      slot.pattern = Claims.packed8 (Claims.spriteNibble attr lo hi)

/-! ### Mappers -/

/-- MMC1's serial register (62_mappers.md R400): five writes with bit 7 clear commit their five low bits, the first the
least significant, to the register the FIFTH address selects; a write with bit 7 set only discards the partial value (and,
under `MMC1_RESET_FIXES_LAST`, sets control bits 3:2). -/
def Obligations.Mmc1SerialWrites : Prop :=
  ∀ (s : State) (m : Mmc1), s.map = .mmc1 m →
    (∀ (a : Word) (d : Byte), 0x8000 ≤ a.toNat → d.getLsbD 7 = true →
      memWrite a d s = .ok ((), { s with map := .mmc1 { m with
        shift := 0, count := 0
        control := if s.params.mmc1ResetFixesLast then m.control ||| 0x0C else m.control } })) ∧
    ∀ (a0 a1 a2 a3 a4 : Word) (d0 d1 d2 d3 d4 : Byte), m.count = 0 →
      0x8000 ≤ a0.toNat → 0x8000 ≤ a1.toNat → 0x8000 ≤ a2.toNat → 0x8000 ≤ a3.toNat → 0x8000 ≤ a4.toNat →
      d0.toNat < 128 → d1.toNat < 128 → d2.toNat < 128 → d3.toNat < 128 → d4.toNat < 128 →
        let n := d0.toNat % 2 + 2 * (d1.toNat % 2) + 4 * (d2.toNat % 2) + 8 * (d3.toNat % 2) + 16 * (d4.toNat % 2)
        let done := { m with shift := 0, count := 0 }
        Claims.fiveWrites a0 a1 a2 a3 a4 d0 d1 d2 d3 d4 s = .ok ((), { s with map := .mmc1 (
          if a4.toNat < 0xA000 then { done with control := BitVec.ofNat 5 n }
          else if a4.toNat < 0xC000 then { done with chrBank0 := BitVec.ofNat 5 n }
          else if a4.toNat < 0xE000 then { done with chrBank1 := BitVec.ofNat 5 n }
          else { done with prgBank := BitVec.ofNat 4 n }) })

/-- The translations of the four mappers with bank numbers reduced (62_mappers.md R380, R387, R391 to R393, R402, R403, R417,
R420): which byte of program memory a CPU address shows, which byte of the graphics memory a pattern address shows, and the
mirroring. NROM wraps by the array's size, so one bank shows in both halves; UxROM shows the selected bank below 0xC000 and
the last one above, and a write selects; MMC1 by its control register; MMC3 by its two mode bits and its table. -/
def Obligations.MapperWindows : Prop :=
  ∀ (a : Word) (s : State), s.cart.valid = true → s.params.bankRange = .modulo →
    let n16 := s.cart.prgBanks
    let chrSize := 8192 * max s.cart.chrBanks 1
    let program := 0x8000 ≤ a.toNat
    let pattern := a.toNat < 0x2000
    let shows (k : Nat) := memRead a s = .ok (s.cart.prg.read k, s)
    let draws (k : Nat) := ppuRead a s = .ok (if s.cart.chrBanks = 0 then s.chrRam.read k else s.cart.chr.read k)
    (s.map = .nrom →
      (program → shows ((a.toNat - 0x8000) % (16384 * n16))) ∧ (pattern → draws a.toNat) ∧
      mirroring s = s.cart.headerMirroring) ∧
    (∀ m, s.map = .uxrom m →
      (program → a.toNat < 0xC000 → shows (m.bank.toNat % n16 * 16384 + (a.toNat - 0x8000))) ∧
      (0xC000 ≤ a.toNat → shows ((n16 - 1) * 16384 + (a.toNat - 0xC000))) ∧
      (program → ∀ d, memWrite a d s = .ok ((), { s with map := .uxrom ⟨d⟩ })) ∧
      (pattern → draws a.toNat) ∧ mirroring s = s.cart.headerMirroring) ∧
    (∀ m, s.map = .mmc1 m →
      (program → shows (Claims.mmc1Program m n16 (decide (0xC000 ≤ a.toNat)) % n16 * 16384 + a.toNat % 0x4000)) ∧
      (pattern → draws (Claims.mmc1Graphics m (decide (0x1000 ≤ a.toNat)) % (chrSize / 4096) * 4096 + a.toNat % 0x1000)) ∧
      some (mirroring s) = [Mirroring.singleLower, .singleUpper, .vertical, .horizontal][m.control.toNat % 4]?) ∧
    (∀ m, s.map = .mmc3 m →
      (program → ∃ bank, (Claims.mmc3Program m (2 * n16))[(a.toNat - 0x8000) / 0x2000]? = some bank ∧
        shows (bank % (2 * n16) * 8192 + a.toNat % 0x2000)) ∧
      (pattern → ∃ bank, (Claims.mmc3Graphics m)[a.toNat / 0x400]? = some bank ∧
        draws (bank % (chrSize / 1024) * 1024 + a.toNat % 0x400)) ∧
      mirroring s = m.mirroring)

/-- MMC3's registers (62_mappers.md R415) by address range and parity. -/
def Obligations.Mmc3Registers : Prop :=
  ∀ (a : Word) (d : Byte) (s : State) (m : Mmc3), 0x8000 ≤ a.toNat → s.map = .mmc3 m →
    ∃ m', memWrite a d s = .ok ((), { s with map := .mmc3 m' }) ∧
      m' =
        if a.toNat < 0xA000 then
          if a.toNat % 2 = 0 then
            { m with bankSelect := BitVec.ofNat 3 d.toNat, prgMode := d.getLsbD 6, chrMode := d.getLsbD 7 }
          else { m with regs := m.regs.set m.bankSelect.toNat d m.bankSelect.isLt }
        else if a.toNat < 0xC000 then
          if a.toNat % 2 = 0 then { m with mirroring := if d.toNat % 2 = 0 then .vertical else .horizontal } else m
        else if a.toNat < 0xE000 then
          if a.toNat % 2 = 0 then { m with irqReload := d } else { m with irqCounter := 0 }
        else { m with irqEnable := decide (a.toNat % 2 = 1) }

/-- The mapper hook (62_mappers.md R430, R431, 10_state.md R33): nothing but at MMC3's count event, where a zero counter
reloads and any other counts down, and reaching zero with the enable set requests an IRQ, which P.I drops. -/
def Obligations.MapperHook : Prop :=
  (∀ s, (∀ m, s.map ≠ .mmc3 m) → mapperHook s = s) ∧
  ∀ (s : State) (m : Mmc3), s.map = .mmc3 m →
    let event := s.ppu.dot = s.params.mmc3IrqDot.val ∧ (s.ppu.scanline ≤ 239 ∨ s.ppu.scanline = 261) ∧
      (s.ppu.showBg = true ∨ s.ppu.showSpr = true)
    (¬event → mapperHook s = s) ∧
    (event → m.irqCounter = 0 → mapperHook s = { s with map := .mmc3 { m with irqCounter := m.irqReload } }) ∧
    (event → m.irqCounter ≠ 0 →
      mapperHook s = { s with
        map := .mmc3 { m with irqCounter := m.irqCounter - 1 }
        cpu := { s.cpu with
          irqPending :=
            s.cpu.irqPending || (decide (m.irqCounter.toNat = 1) && m.irqEnable && !s.cpu.p.i) } })

/-- Every index a mapper forms lies inside its array (62_mappers.md R380, R389): with the bank numbers reduced, every
program address has a byte of `prg` and every pattern address a byte of the graphics memory, whatever the registers. -/
def Obligations.BanksStayInRange : Prop :=
  ∀ (s : State) (a : Nat), s.cart.valid = true → s.params.bankRange = .modulo →
    (0x8000 ≤ a → a < 0x10000 → ∃ k, prgIndex s a = some k ∧ k < 16384 * s.cart.prgBanks) ∧
    (a < 0x2000 → ∃ k, chrIndex s a = some k ∧ k < 8192 * max s.cart.chrBanks 1)

/-! ### Runs -/

/-- Every step keeps the invariant of Safety.lean, from every state that has it: canonical memories, fields in range,
the mapper's variant, the break flag clear, no event left over. -/
def Obligations.StepKeepsInvariant : Prop :=
  ∀ s t : State, s.Inv → step s = .next t → t.Inv

/-- The reset state has the invariant. Its cartridge and its buttons are the model's choice (logs 2, 7). -/
def Obligations.ResetHasInvariant : Prop := State.reset.Inv

/-- In a state of a run, under the parameters that concern the bus at their defaults, a step can stop with a fault only as
60_exceptions.md R250 to R253 list: an illegal opcode byte at PC, a refused CPU-bus access, a write to graphics ROM of a
cartridge that has it; and the fault is recorded in the machine it leaves (R254). The picture unit's own accesses never
fault. -/
def Obligations.StepFaultsAreListed : Prop :=
  ∀ (s : State) (f : Fault), s.Inv → Lenient s.params → step s = .fault f →
    ∃ c t, f = .raised c t ∧ t.fault = some c ∧
      ((∃ op, c = .illegalOpcode s.cpu.pc op ∧ op ∈ Claims.illegalBytes) ∨
        (∃ a, c = .invalidAccess .cpu a .read ∧ readRefused s.params a) ∨
        (∃ a, c = .invalidAccess .cpu a .write ∧ writeRefused s a) ∨
        (∃ a, c = .chrRomWrite a ∧ a.toNat < 0x2000 ∧ s.cart.chrBanks ≠ 0))

/-- A load (70_reset_and_hazards.md R470, R472, 10_state.md R45, R46, 61_ppu.md R307, 62_mappers.md R386, R393, R401, R416,
60_exceptions.md R255): a cartridge with an unsupported mapper number is refused; an accepted one starts with every
register, flag and memory at its reset value, the mapper's registers at those of its number, PC from the reset vector, and
the invariant. Which cartridge is accepted besides, `Cartridge.valid`, is read from the rules (log 21). The count of draws
and the record of delivered frames are the model's own fields (logs 9, 11); the buttons are the host's. -/
def Obligations.LoadEstablishesReset : Prop :=
  ∀ (p : Params) (c : Cartridge) (b0 b1 : Byte),
    (c.mapperNumber ∉ [0, 1, 2, 4] → load p c b0 b1 = none) ∧
    (c.valid = true → ∃ s lo hi, load p c b0 b1 = some (.next s) ∧ s.Inv ∧
      peek s 0xFFFC = some lo ∧ peek s 0xFFFD = some hi ∧
      s = {
        params := p, cart := c, ram := [], prgRam := [], chrRam := [], fault := none, draws := 0
        map := Claims.loadedMapper c
        cpu := Claims.resetCpu (wordOf hi lo)
        ppu := Claims.resetPpu [] [] [] (Vector.replicate 240 [])
        pads := ⟨⟨b0, 0, 0⟩, ⟨b1, 0, 0⟩, false⟩
        con := ⟨false, false, false, 0, none⟩ })

/-- A reset of a running machine (70_reset_and_hazards.md R470, R471, 10_state.md R45, 61_ppu.md R307): CPU, picture unit and
controllers start again, PC from the vector seen through the current banking, the frame event and the stop signal are
cleared; the mapper's registers, every memory and the host's buttons stay, and the window in which the host may act, which
lasts until the next round starts (63_bus_devices_console.md R464), is not ended (how the model records it is log 11). -/
def Obligations.ResetKeepsMemories : Prop :=
  ∀ (s : State) (lo hi : Byte), s.fault = none → peek s 0xFFFC = some lo → peek s 0xFFFD = some hi →
    consoleReset s = .next { s with
      cpu := Claims.resetCpu (wordOf hi lo)
      ppu := Claims.resetPpu s.ppu.nametable s.ppu.palette s.ppu.oam s.ppu.framebuffer
      pads := ⟨⟨s.pads.pad0.buttons, 0, 0⟩, ⟨s.pads.pad1.buttons, 0, 0⟩, false⟩
      con := { s.con with frameReady := false, stop := false } }

end Statements
end

