-- ==== Sys2Proof/Laws/Memory.lean ====
section
/-! SUPPORT. The laws of a memory: a read after a write to the same index gives the byte written, a write leaves every
other index alone, and every write keeps the canonical form and the array's bound. -/

namespace Sys2Proof.Machine

@[simp] theorem Memory.read_nil (a : Nat) : Memory.read [] a = 0 := rfl

theorem Memory.read_cons (k : Nat) (v : Byte) (m : Memory) (a : Nat) :
    Memory.read ((k, v) :: m) a = if a = k then v else Memory.read m a := rfl

/-- No index below the lower bound of a canonical list is listed. -/
theorem Memory.read_of_lt {lo a : Nat} : ∀ {m : Memory}, Memory.wfFrom lo m = true → a < lo → Memory.read m a = 0
  | [], _, _ => rfl
  | (k, v) :: m, h, ha => by
    simp only [wfFrom, Bool.and_eq_true, decide_eq_true_eq] at h
    rw [read_cons, if_neg (by omega)]
    exact read_of_lt h.2 (by omega)

/-- A write leaves every other index alone, in any list. -/
theorem Memory.read_write_other {a b : Nat} (v : Byte) (h : b ≠ a) :
    ∀ m : Memory, Memory.read (Memory.write m a v) b = Memory.read m b
  | [] => by
    unfold write
    split
    · rfl
    · rw [read_cons, if_neg h]
  | (k, w) :: m => by
    unfold write
    split
    · split
      · rfl
      · rw [read_cons, if_neg h]
    · split
      · next hk =>
        subst hk
        rw [read_cons, if_neg h]
        split
        · rfl
        · rw [read_cons, if_neg h]
      · rw [read_cons, read_cons, read_write_other v h m]

/-- A read after a write to the same index, from a lower bound on. -/
theorem Memory.read_write_same_from {lo a : Nat} (v : Byte) :
    ∀ {m : Memory}, Memory.wfFrom lo m = true → Memory.read (Memory.write m a v) a = v
  | [], _ => by
    unfold write
    split
    · next h => exact h.symm
    · rw [read_cons, if_pos rfl]
  | (k, w) :: m, h => by
    have h' := h
    simp only [wfFrom, Bool.and_eq_true, decide_eq_true_eq] at h
    unfold write
    split
    · next hlt =>
      split
      · next hv =>
        rw [read_cons, if_neg (by omega), hv]
        exact read_of_lt h.2 (by omega)
      · rw [read_cons, if_pos rfl]
    · split
      · next hk =>
        subst hk
        split
        · next hv =>
          rw [hv]
          exact read_of_lt h.2 (by omega)
        · rw [read_cons, if_pos rfl]
      · next hk =>
        rw [read_cons, if_neg hk]
        exact read_write_same_from v h.2

/-- A read after a write to the same index gives the byte written. -/
theorem Memory.read_write_same {m : Memory} (a : Nat) (v : Byte) (h : m.wf = true) :
    Memory.read (Memory.write m a v) a = v :=
  read_write_same_from v h

/-- A weaker lower bound still holds. -/
theorem Memory.wfFrom_mono {lo lo' : Nat} (h : lo' ≤ lo) : ∀ {m : Memory}, Memory.wfFrom lo m = true → Memory.wfFrom lo' m = true
  | [], _ => rfl
  | (k, v) :: m, hm => by
    simp only [wfFrom, Bool.and_eq_true, decide_eq_true_eq] at hm ⊢
    exact ⟨⟨by omega, hm.1.2⟩, hm.2⟩

/-- A write at or above the lower bound keeps the canonical form. -/
theorem Memory.wfFrom_write {a : Nat} (v : Byte) :
    ∀ {lo : Nat} {m : Memory}, lo ≤ a → Memory.wfFrom lo m = true → Memory.wfFrom lo (Memory.write m a v) = true
  | lo, [], ha, _ => by
    unfold write
    split
    · rfl
    · next hv => simp [wfFrom, ha, hv]
  | lo, (k, w) :: m, ha, h => by
    have h' := h
    simp only [wfFrom, Bool.and_eq_true, decide_eq_true_eq] at h
    unfold write
    split
    · split
      · exact h'
      · next hlt hv =>
        simp only [wfFrom, Bool.and_eq_true, decide_eq_true_eq]
        exact ⟨⟨ha, hv⟩, ⟨by omega, h.1.2⟩, h.2⟩
    · split
      · next hk =>
        subst hk
        split
        · exact wfFrom_mono (by omega) h.2
        · next hv =>
          simp only [wfFrom, Bool.and_eq_true, decide_eq_true_eq]
          exact ⟨⟨h.1.1, hv⟩, h.2⟩
      · next hlt hk =>
        simp only [wfFrom, Bool.and_eq_true, decide_eq_true_eq]
        exact ⟨h.1, wfFrom_write v (by omega) h.2⟩

/-- Every write keeps the canonical form. -/
theorem Memory.wf_write {m : Memory} (a : Nat) (v : Byte) (h : m.wf = true) : (m.write a v).wf = true :=
  wfFrom_write v (Nat.zero_le a) h

/-- A write inside the array keeps the array's bound. -/
theorem Memory.below_write {size a : Nat} (v : Byte) (ha : a < size) :
    ∀ {m : Memory}, Memory.below size m = true → Memory.below size (Memory.write m a v) = true
  | [], _ => by
    unfold write
    split
    · rfl
    · simp [below, ha]
  | (k, w) :: m, h => by
    have h' := h
    simp only [below, List.all_cons, Bool.and_eq_true, decide_eq_true_eq] at h
    unfold write
    split
    · split
      · exact h'
      · simp only [below, List.all_cons, Bool.and_eq_true, decide_eq_true_eq]
        exact ⟨ha, h⟩
    · split
      · split
        · exact h.2
        · simp only [below, List.all_cons, Bool.and_eq_true, decide_eq_true_eq]
          exact ⟨ha, h.2⟩
      · simp only [below, List.all_cons, Bool.and_eq_true, decide_eq_true_eq]
        exact ⟨h.1, below_write v ha h.2⟩

/-- A write inside the array keeps a canonical memory of that array. -/
theorem Memory.wfIn_write {size a : Nat} {m : Memory} (v : Byte) (ha : a < size) (h : m.wfIn size = true) :
    (m.write a v).wfIn size = true := by
  simp only [wfIn, Bool.and_eq_true] at h ⊢
  exact ⟨wf_write a v h.1, below_write v ha h.2⟩

@[simp] theorem Memory.wfIn_nil (size : Nat) : Memory.wfIn size [] = true := rfl

/-- Two canonical lists from one lower bound that read alike are equal. -/
theorem Memory.ext_from {lo : Nat} : ∀ {m n : Memory}, Memory.wfFrom lo m = true → Memory.wfFrom lo n = true →
    (∀ a, Memory.read m a = Memory.read n a) → m = n
  | [], [], _, _, _ => rfl
  | [], (k, v) :: n, _, hn, h => by
    simp only [wfFrom, Bool.and_eq_true, decide_eq_true_eq] at hn
    have := h k
    rw [read_nil, read_cons, if_pos rfl] at this
    exact absurd this.symm hn.1.2
  | (k, v) :: m, [], hm, _, h => by
    simp only [wfFrom, Bool.and_eq_true, decide_eq_true_eq] at hm
    have := h k
    rw [read_nil, read_cons, if_pos rfl] at this
    exact absurd this hm.1.2
  | (k, v) :: m, (k', v') :: n, hm, hn, h => by
    simp only [wfFrom, Bool.and_eq_true, decide_eq_true_eq] at hm hn
    have hk : k = k' := by
      rcases Nat.lt_trichotomy k k' with hlt | heq | hgt
      · have := h k
        rw [read_cons, if_pos rfl, read_cons, if_neg (by omega), read_of_lt hn.2 (by omega)] at this
        exact absurd this hm.1.2
      · exact heq
      · have := h k'
        rw [read_cons, if_neg (by omega), read_of_lt hm.2 (by omega), read_cons, if_pos rfl] at this
        exact absurd this.symm hn.1.2
    subst hk
    have hv : v = v' := by simpa [read_cons] using h k
    subst hv
    congr 1
    refine ext_from hm.2 hn.2 fun a => ?_
    by_cases ha : a = k
    · subst ha
      rw [read_of_lt hm.2 (by omega), read_of_lt hn.2 (by omega)]
    · simpa [read_cons, ha] using h a

/-- Equal memories are equal data. -/
theorem Memory.ext_of_read {m n : Memory} (hm : m.wf = true) (hn : n.wf = true)
    (h : ∀ a, Memory.read m a = Memory.read n a) : m = n :=
  ext_from hm hn h

end Sys2Proof.Machine
end

