-- ==== Sys2Proof/Laws/Monad.lean ====
section
/-! SUPPORT. How a computation of the machine runs, primitive by primitive, and the package for invariants: a property
that every primitive of a computation keeps is kept by the computation. -/

namespace Sys2Proof.Machine

variable {α β : Type}

@[simp] theorem M.pure_apply (a : α) (s : State) : (pure a : M α) s = .ok (a, s) := rfl

theorem M.bind_apply (x : M α) (f : α → M β) (s : State) :
    (x >>= f) s = (match x s with | .ok r => f r.1 r.2 | .error e => .error e) := by
  show (x s >>= fun r => f r.1 r.2) = _
  cases x s <;> rfl

/-- Running a bind whose first part succeeds. -/
theorem M.bind_of_ok {x : M α} {f : α → M β} {s t : State} {a : α} (h : x s = .ok (a, t)) : (x >>= f) s = f a t := by
  rw [M.bind_apply, h]

/-- Running a bind whose first part faults. -/
theorem M.bind_of_error {x : M α} {f : α → M β} {s : State} {e : Fault} (h : x s = .error e) :
    (x >>= f) s = .error e := by
  rw [M.bind_apply, h]

/-- A bind that succeeds: both parts do. -/
theorem M.bind_ok {x : M α} {f : α → M β} {s u : State} {b : β} :
    (x >>= f) s = .ok (b, u) ↔ ∃ a t, x s = .ok (a, t) ∧ f a t = .ok (b, u) := by
  rw [M.bind_apply]
  cases h : x s with
  | error e => simp
  | ok r => obtain ⟨a, t⟩ := r; simp

/-- A bind that faults: its first part does, or the second after it. -/
theorem M.bind_error {x : M α} {f : α → M β} {s : State} {e : Fault} :
    (x >>= f) s = .error e ↔ x s = .error e ∨ ∃ a t, x s = .ok (a, t) ∧ f a t = .error e := by
  rw [M.bind_apply]
  cases h : x s with
  | error e' => simp
  | ok r => obtain ⟨a, t⟩ := r; simp

@[simp] theorem getS_apply (s : State) : getS s = .ok (s, s) := rfl
@[simp] theorem update_apply (f : State → State) (s : State) : update f s = .ok ((), f s) := rfl
@[simp] theorem raise_apply (c : FatalCondition) (s : State) :
    (raise c : M α) s = .error (.raised c (s.recordFault c)) := rfl

theorem look_apply (f : State → Except FatalCondition α) (s : State) :
    look f s = (match f s with | .ok a => .ok (a, s) | .error c => raise c s) := rfl

theorem look_of_ok {f : State → Except FatalCondition α} {s : State} {a : α} (h : f s = .ok a) : look f s = .ok (a, s) := by
  simp [look, h]

theorem look_of_error {f : State → Except FatalCondition α} {s : State} {c : FatalCondition} (h : f s = .error c) :
    look f s = .error (.raised c (s.recordFault c)) := by
  simp [look, h]

/-- A read that succeeds gives its value and changes nothing. -/
theorem look_ok {f : State → Except FatalCondition α} {s t : State} {a : α} :
    look f s = .ok (a, t) ↔ f s = .ok a ∧ t = s := by
  unfold look
  cases f s with
  | error e => simp
  | ok b => simp [eq_comm]

@[simp] theorem M.getS_bind (f : State → M β) (s : State) : (getS >>= f) s = f s s := rfl
@[simp] theorem M.update_bind (g : State → State) (f : Unit → M β) (s : State) : (update g >>= f) s = f () (g s) := rfl
@[simp] theorem M.pure_bind_apply (a : α) (f : α → M β) (s : State) : ((pure a : M α) >>= f) s = f a s := rfl
@[simp] theorem M.raise_bind (c : FatalCondition) (f : α → M β) (s : State) :
    ((raise c : M α) >>= f) s = .error (.raised c (s.recordFault c)) := rfl

theorem M.outcome_of_ok {x : M Unit} {s t : State} (h : x s = .ok ((), t)) : x.outcome s = .next t := by
  simp [M.outcome, h]

theorem M.outcome_of_error {x : M Unit} {s : State} {e : Fault} (h : x s = .error e) : x.outcome s = .fault e := by
  simp [M.outcome, h]

theorem M.outcome_next {x : M Unit} {s t : State} : x.outcome s = .next t ↔ x s = .ok ((), t) := by
  unfold M.outcome
  cases x s with
  | error e => simp
  | ok r => obtain ⟨u, v⟩ := r; simp

theorem M.outcome_fault {x : M Unit} {s : State} {e : Fault} : x.outcome s = .fault e ↔ x s = .error e := by
  unfold M.outcome
  cases x s with
  | error e => simp
  | ok r => obtain ⟨u, v⟩ := r; simp

/-- The outcome of a bind whose first part succeeds is that of the rest. -/
theorem M.outcome_bind_of_ok {x : M α} {f : α → M Unit} {s t : State} {a : α} (h : x s = .ok (a, t)) :
    (x >>= f).outcome s = (f a).outcome t := by
  unfold M.outcome
  rw [M.bind_of_ok h]

theorem M.outcome_bind_of_error {x : M α} {f : α → M Unit} {s : State} {e : Fault} (h : x s = .error e) :
    (x >>= f).outcome s = .fault e :=
  M.outcome_of_error (M.bind_of_error h)

@[simp] theorem M.outcome_update (f : State → State) (s : State) : (update f).outcome s = .next (f s) := rfl
@[simp] theorem M.outcome_update_bind (g : State → State) (f : Unit → M Unit) (s : State) :
    (update g >>= f).outcome s = (f ()).outcome (g s) := rfl
@[simp] theorem M.outcome_getS_bind (f : State → M Unit) (s : State) : (Machine.getS >>= f).outcome s = (f s).outcome s := rfl
@[simp] theorem M.outcome_pure (s : State) : (pure () : M Unit).outcome s = .next s := rfl

/-! ### Invariants -/

/-- A computation keeps a relation to a starting point: from a state related to it, it only reaches such states. With a
property of one state it says that the computation keeps the property. -/
def M.Keeps (p : State → Prop) (x : M α) : Prop :=
  ∀ s a t, p s → x s = .ok (a, t) → p t

theorem M.Keeps.pure {p : State → Prop} (a : α) : M.Keeps p (pure a) := by
  intro s b t hs h
  cases h
  exact hs

theorem M.Keeps.getS {p : State → Prop} : M.Keeps p getS := by
  intro s b t hs h
  cases h
  exact hs

theorem M.Keeps.raise {p : State → Prop} (e : FatalCondition) : M.Keeps p (raise e : M α) := by
  intro s b t _ h
  cases h

theorem M.Keeps.look {p : State → Prop} (f : State → Except FatalCondition α) : M.Keeps p (look f) := by
  intro s b t hs h
  rw [(look_ok.mp h).2]
  exact hs

theorem M.Keeps.update {p : State → Prop} {f : State → State} (h : ∀ s, p s → p (f s)) : M.Keeps p (update f) := by
  intro s b t hs e
  cases e
  exact h s hs

theorem M.Keeps.bind {p : State → Prop} {x : M α} {f : α → M β} (hx : x.Keeps p) (hf : ∀ a, (f a).Keeps p) :
    M.Keeps p (x >>= f) := by
  intro s b u hs h
  obtain ⟨a, t, h1, h2⟩ := M.bind_ok.mp h
  exact hf a t b u (hx s a t hs h1) h2

/-- The continuation may use that the value read is the current state. -/
theorem M.Keeps.getS_bind {p : State → Prop} {f : State → M β} (hf : ∀ s b t, p s → f s s = .ok (b, t) → p t) :
    M.Keeps p (Machine.getS >>= f) := by
  intro s b t hs h
  exact hf s b t hs h

theorem M.Keeps.ite {p : State → Prop} {c : Prop} [Decidable c] {x y : M α} (hx : x.Keeps p) (hy : y.Keeps p) :
    M.Keeps p (if c then x else y) := by
  split
  · exact hx
  · exact hy

/-- From a step of a computation to its outcome. -/
theorem M.Keeps.outcome {p : State → Prop} {x : M Unit} (hx : x.Keeps p) {s t : State} (hs : p s)
    (h : x.outcome s = .next t) : p t :=
  hx s () t hs (M.outcome_next.mp h)

end Sys2Proof.Machine
end

