-- ==== Sys2Proof/Laws/State.lean ====
section
/-! SUPPORT. One lemma per field of State per named update: the field written, and every other field unchanged. -/

namespace Sys2Proof.Machine

variable (s : State)

@[simp] theorem State.setA_params (v : Byte) : (s.setA v).params = s.params := rfl
@[simp] theorem State.setA_cart (v : Byte) : (s.setA v).cart = s.cart := rfl
@[simp] theorem State.setA_cpu (v : Byte) : (s.setA v).cpu = { s.cpu with a := v } := rfl
@[simp] theorem State.setA_ram (v : Byte) : (s.setA v).ram = s.ram := rfl
@[simp] theorem State.setA_ppu (v : Byte) : (s.setA v).ppu = s.ppu := rfl
@[simp] theorem State.setA_map (v : Byte) : (s.setA v).map = s.map := rfl
@[simp] theorem State.setA_prgRam (v : Byte) : (s.setA v).prgRam = s.prgRam := rfl
@[simp] theorem State.setA_chrRam (v : Byte) : (s.setA v).chrRam = s.chrRam := rfl
@[simp] theorem State.setA_pads (v : Byte) : (s.setA v).pads = s.pads := rfl
@[simp] theorem State.setA_con (v : Byte) : (s.setA v).con = s.con := rfl
@[simp] theorem State.setA_fault (v : Byte) : (s.setA v).fault = s.fault := rfl
@[simp] theorem State.setA_draws (v : Byte) : (s.setA v).draws = s.draws := rfl

@[simp] theorem State.setX_params (v : Byte) : (s.setX v).params = s.params := rfl
@[simp] theorem State.setX_cart (v : Byte) : (s.setX v).cart = s.cart := rfl
@[simp] theorem State.setX_cpu (v : Byte) : (s.setX v).cpu = { s.cpu with x := v } := rfl
@[simp] theorem State.setX_ram (v : Byte) : (s.setX v).ram = s.ram := rfl
@[simp] theorem State.setX_ppu (v : Byte) : (s.setX v).ppu = s.ppu := rfl
@[simp] theorem State.setX_map (v : Byte) : (s.setX v).map = s.map := rfl
@[simp] theorem State.setX_prgRam (v : Byte) : (s.setX v).prgRam = s.prgRam := rfl
@[simp] theorem State.setX_chrRam (v : Byte) : (s.setX v).chrRam = s.chrRam := rfl
@[simp] theorem State.setX_pads (v : Byte) : (s.setX v).pads = s.pads := rfl
@[simp] theorem State.setX_con (v : Byte) : (s.setX v).con = s.con := rfl
@[simp] theorem State.setX_fault (v : Byte) : (s.setX v).fault = s.fault := rfl
@[simp] theorem State.setX_draws (v : Byte) : (s.setX v).draws = s.draws := rfl

@[simp] theorem State.setY_params (v : Byte) : (s.setY v).params = s.params := rfl
@[simp] theorem State.setY_cart (v : Byte) : (s.setY v).cart = s.cart := rfl
@[simp] theorem State.setY_cpu (v : Byte) : (s.setY v).cpu = { s.cpu with y := v } := rfl
@[simp] theorem State.setY_ram (v : Byte) : (s.setY v).ram = s.ram := rfl
@[simp] theorem State.setY_ppu (v : Byte) : (s.setY v).ppu = s.ppu := rfl
@[simp] theorem State.setY_map (v : Byte) : (s.setY v).map = s.map := rfl
@[simp] theorem State.setY_prgRam (v : Byte) : (s.setY v).prgRam = s.prgRam := rfl
@[simp] theorem State.setY_chrRam (v : Byte) : (s.setY v).chrRam = s.chrRam := rfl
@[simp] theorem State.setY_pads (v : Byte) : (s.setY v).pads = s.pads := rfl
@[simp] theorem State.setY_con (v : Byte) : (s.setY v).con = s.con := rfl
@[simp] theorem State.setY_fault (v : Byte) : (s.setY v).fault = s.fault := rfl
@[simp] theorem State.setY_draws (v : Byte) : (s.setY v).draws = s.draws := rfl

@[simp] theorem State.setSp_params (v : Byte) : (s.setSp v).params = s.params := rfl
@[simp] theorem State.setSp_cart (v : Byte) : (s.setSp v).cart = s.cart := rfl
@[simp] theorem State.setSp_cpu (v : Byte) : (s.setSp v).cpu = { s.cpu with s := v } := rfl
@[simp] theorem State.setSp_ram (v : Byte) : (s.setSp v).ram = s.ram := rfl
@[simp] theorem State.setSp_ppu (v : Byte) : (s.setSp v).ppu = s.ppu := rfl
@[simp] theorem State.setSp_map (v : Byte) : (s.setSp v).map = s.map := rfl
@[simp] theorem State.setSp_prgRam (v : Byte) : (s.setSp v).prgRam = s.prgRam := rfl
@[simp] theorem State.setSp_chrRam (v : Byte) : (s.setSp v).chrRam = s.chrRam := rfl
@[simp] theorem State.setSp_pads (v : Byte) : (s.setSp v).pads = s.pads := rfl
@[simp] theorem State.setSp_con (v : Byte) : (s.setSp v).con = s.con := rfl
@[simp] theorem State.setSp_fault (v : Byte) : (s.setSp v).fault = s.fault := rfl
@[simp] theorem State.setSp_draws (v : Byte) : (s.setSp v).draws = s.draws := rfl

@[simp] theorem State.setPc_params (w : Word) : (s.setPc w).params = s.params := rfl
@[simp] theorem State.setPc_cart (w : Word) : (s.setPc w).cart = s.cart := rfl
@[simp] theorem State.setPc_cpu (w : Word) : (s.setPc w).cpu = { s.cpu with pc := w } := rfl
@[simp] theorem State.setPc_ram (w : Word) : (s.setPc w).ram = s.ram := rfl
@[simp] theorem State.setPc_ppu (w : Word) : (s.setPc w).ppu = s.ppu := rfl
@[simp] theorem State.setPc_map (w : Word) : (s.setPc w).map = s.map := rfl
@[simp] theorem State.setPc_prgRam (w : Word) : (s.setPc w).prgRam = s.prgRam := rfl
@[simp] theorem State.setPc_chrRam (w : Word) : (s.setPc w).chrRam = s.chrRam := rfl
@[simp] theorem State.setPc_pads (w : Word) : (s.setPc w).pads = s.pads := rfl
@[simp] theorem State.setPc_con (w : Word) : (s.setPc w).con = s.con := rfl
@[simp] theorem State.setPc_fault (w : Word) : (s.setPc w).fault = s.fault := rfl
@[simp] theorem State.setPc_draws (w : Word) : (s.setPc w).draws = s.draws := rfl

@[simp] theorem State.setP_params (p : Flags) : (s.setP p).params = s.params := rfl
@[simp] theorem State.setP_cart (p : Flags) : (s.setP p).cart = s.cart := rfl
@[simp] theorem State.setP_cpu (p : Flags) : (s.setP p).cpu = { s.cpu with p := p } := rfl
@[simp] theorem State.setP_ram (p : Flags) : (s.setP p).ram = s.ram := rfl
@[simp] theorem State.setP_ppu (p : Flags) : (s.setP p).ppu = s.ppu := rfl
@[simp] theorem State.setP_map (p : Flags) : (s.setP p).map = s.map := rfl
@[simp] theorem State.setP_prgRam (p : Flags) : (s.setP p).prgRam = s.prgRam := rfl
@[simp] theorem State.setP_chrRam (p : Flags) : (s.setP p).chrRam = s.chrRam := rfl
@[simp] theorem State.setP_pads (p : Flags) : (s.setP p).pads = s.pads := rfl
@[simp] theorem State.setP_con (p : Flags) : (s.setP p).con = s.con := rfl
@[simp] theorem State.setP_fault (p : Flags) : (s.setP p).fault = s.fault := rfl
@[simp] theorem State.setP_draws (p : Flags) : (s.setP p).draws = s.draws := rfl

@[simp] theorem State.addCycles_params (n : Nat) : (s.addCycles n).params = s.params := rfl
@[simp] theorem State.addCycles_cart (n : Nat) : (s.addCycles n).cart = s.cart := rfl
@[simp] theorem State.addCycles_cpu (n : Nat) : (s.addCycles n).cpu = { s.cpu with cycles := s.cpu.cycles + n } := rfl
@[simp] theorem State.addCycles_ram (n : Nat) : (s.addCycles n).ram = s.ram := rfl
@[simp] theorem State.addCycles_ppu (n : Nat) : (s.addCycles n).ppu = s.ppu := rfl
@[simp] theorem State.addCycles_map (n : Nat) : (s.addCycles n).map = s.map := rfl
@[simp] theorem State.addCycles_prgRam (n : Nat) : (s.addCycles n).prgRam = s.prgRam := rfl
@[simp] theorem State.addCycles_chrRam (n : Nat) : (s.addCycles n).chrRam = s.chrRam := rfl
@[simp] theorem State.addCycles_pads (n : Nat) : (s.addCycles n).pads = s.pads := rfl
@[simp] theorem State.addCycles_con (n : Nat) : (s.addCycles n).con = s.con := rfl
@[simp] theorem State.addCycles_fault (n : Nat) : (s.addCycles n).fault = s.fault := rfl
@[simp] theorem State.addCycles_draws (n : Nat) : (s.addCycles n).draws = s.draws := rfl

@[simp] theorem State.addIdleCycles_params (n : Nat) : (s.addIdleCycles n).params = s.params := rfl
@[simp] theorem State.addIdleCycles_cart (n : Nat) : (s.addIdleCycles n).cart = s.cart := rfl
@[simp] theorem State.addIdleCycles_cpu (n : Nat) : (s.addIdleCycles n).cpu = { s.cpu with idle := s.cpu.idle + n } := rfl
@[simp] theorem State.addIdleCycles_ram (n : Nat) : (s.addIdleCycles n).ram = s.ram := rfl
@[simp] theorem State.addIdleCycles_ppu (n : Nat) : (s.addIdleCycles n).ppu = s.ppu := rfl
@[simp] theorem State.addIdleCycles_map (n : Nat) : (s.addIdleCycles n).map = s.map := rfl
@[simp] theorem State.addIdleCycles_prgRam (n : Nat) : (s.addIdleCycles n).prgRam = s.prgRam := rfl
@[simp] theorem State.addIdleCycles_chrRam (n : Nat) : (s.addIdleCycles n).chrRam = s.chrRam := rfl
@[simp] theorem State.addIdleCycles_pads (n : Nat) : (s.addIdleCycles n).pads = s.pads := rfl
@[simp] theorem State.addIdleCycles_con (n : Nat) : (s.addIdleCycles n).con = s.con := rfl
@[simp] theorem State.addIdleCycles_fault (n : Nat) : (s.addIdleCycles n).fault = s.fault := rfl
@[simp] theorem State.addIdleCycles_draws (n : Nat) : (s.addIdleCycles n).draws = s.draws := rfl

@[simp] theorem State.triggerNmi_params : (s.triggerNmi).params = s.params := rfl
@[simp] theorem State.triggerNmi_cart : (s.triggerNmi).cart = s.cart := rfl
@[simp] theorem State.triggerNmi_cpu : (s.triggerNmi).cpu = { s.cpu with nmiPending := true } := rfl
@[simp] theorem State.triggerNmi_ram : (s.triggerNmi).ram = s.ram := rfl
@[simp] theorem State.triggerNmi_ppu : (s.triggerNmi).ppu = s.ppu := rfl
@[simp] theorem State.triggerNmi_map : (s.triggerNmi).map = s.map := rfl
@[simp] theorem State.triggerNmi_prgRam : (s.triggerNmi).prgRam = s.prgRam := rfl
@[simp] theorem State.triggerNmi_chrRam : (s.triggerNmi).chrRam = s.chrRam := rfl
@[simp] theorem State.triggerNmi_pads : (s.triggerNmi).pads = s.pads := rfl
@[simp] theorem State.triggerNmi_con : (s.triggerNmi).con = s.con := rfl
@[simp] theorem State.triggerNmi_fault : (s.triggerNmi).fault = s.fault := rfl
@[simp] theorem State.triggerNmi_draws : (s.triggerNmi).draws = s.draws := rfl

@[simp] theorem State.setPpu_params (p : Ppu) : (s.setPpu p).params = s.params := rfl
@[simp] theorem State.setPpu_cart (p : Ppu) : (s.setPpu p).cart = s.cart := rfl
@[simp] theorem State.setPpu_cpu (p : Ppu) : (s.setPpu p).cpu = s.cpu := rfl
@[simp] theorem State.setPpu_ram (p : Ppu) : (s.setPpu p).ram = s.ram := rfl
@[simp] theorem State.setPpu_ppu (p : Ppu) : (s.setPpu p).ppu = p := rfl
@[simp] theorem State.setPpu_map (p : Ppu) : (s.setPpu p).map = s.map := rfl
@[simp] theorem State.setPpu_prgRam (p : Ppu) : (s.setPpu p).prgRam = s.prgRam := rfl
@[simp] theorem State.setPpu_chrRam (p : Ppu) : (s.setPpu p).chrRam = s.chrRam := rfl
@[simp] theorem State.setPpu_pads (p : Ppu) : (s.setPpu p).pads = s.pads := rfl
@[simp] theorem State.setPpu_con (p : Ppu) : (s.setPpu p).con = s.con := rfl
@[simp] theorem State.setPpu_fault (p : Ppu) : (s.setPpu p).fault = s.fault := rfl
@[simp] theorem State.setPpu_draws (p : Ppu) : (s.setPpu p).draws = s.draws := rfl

@[simp] theorem State.setMap_params (m : Mapper) : (s.setMap m).params = s.params := rfl
@[simp] theorem State.setMap_cart (m : Mapper) : (s.setMap m).cart = s.cart := rfl
@[simp] theorem State.setMap_cpu (m : Mapper) : (s.setMap m).cpu = s.cpu := rfl
@[simp] theorem State.setMap_ram (m : Mapper) : (s.setMap m).ram = s.ram := rfl
@[simp] theorem State.setMap_ppu (m : Mapper) : (s.setMap m).ppu = s.ppu := rfl
@[simp] theorem State.setMap_map (m : Mapper) : (s.setMap m).map = m := rfl
@[simp] theorem State.setMap_prgRam (m : Mapper) : (s.setMap m).prgRam = s.prgRam := rfl
@[simp] theorem State.setMap_chrRam (m : Mapper) : (s.setMap m).chrRam = s.chrRam := rfl
@[simp] theorem State.setMap_pads (m : Mapper) : (s.setMap m).pads = s.pads := rfl
@[simp] theorem State.setMap_con (m : Mapper) : (s.setMap m).con = s.con := rfl
@[simp] theorem State.setMap_fault (m : Mapper) : (s.setMap m).fault = s.fault := rfl
@[simp] theorem State.setMap_draws (m : Mapper) : (s.setMap m).draws = s.draws := rfl

@[simp] theorem State.setPads_params (p : Pads) : (s.setPads p).params = s.params := rfl
@[simp] theorem State.setPads_cart (p : Pads) : (s.setPads p).cart = s.cart := rfl
@[simp] theorem State.setPads_cpu (p : Pads) : (s.setPads p).cpu = s.cpu := rfl
@[simp] theorem State.setPads_ram (p : Pads) : (s.setPads p).ram = s.ram := rfl
@[simp] theorem State.setPads_ppu (p : Pads) : (s.setPads p).ppu = s.ppu := rfl
@[simp] theorem State.setPads_map (p : Pads) : (s.setPads p).map = s.map := rfl
@[simp] theorem State.setPads_prgRam (p : Pads) : (s.setPads p).prgRam = s.prgRam := rfl
@[simp] theorem State.setPads_chrRam (p : Pads) : (s.setPads p).chrRam = s.chrRam := rfl
@[simp] theorem State.setPads_pads (p : Pads) : (s.setPads p).pads = p := rfl
@[simp] theorem State.setPads_con (p : Pads) : (s.setPads p).con = s.con := rfl
@[simp] theorem State.setPads_fault (p : Pads) : (s.setPads p).fault = s.fault := rfl
@[simp] theorem State.setPads_draws (p : Pads) : (s.setPads p).draws = s.draws := rfl

@[simp] theorem State.setCon_params (c : Console) : (s.setCon c).params = s.params := rfl
@[simp] theorem State.setCon_cart (c : Console) : (s.setCon c).cart = s.cart := rfl
@[simp] theorem State.setCon_cpu (c : Console) : (s.setCon c).cpu = s.cpu := rfl
@[simp] theorem State.setCon_ram (c : Console) : (s.setCon c).ram = s.ram := rfl
@[simp] theorem State.setCon_ppu (c : Console) : (s.setCon c).ppu = s.ppu := rfl
@[simp] theorem State.setCon_map (c : Console) : (s.setCon c).map = s.map := rfl
@[simp] theorem State.setCon_prgRam (c : Console) : (s.setCon c).prgRam = s.prgRam := rfl
@[simp] theorem State.setCon_chrRam (c : Console) : (s.setCon c).chrRam = s.chrRam := rfl
@[simp] theorem State.setCon_pads (c : Console) : (s.setCon c).pads = s.pads := rfl
@[simp] theorem State.setCon_con (c : Console) : (s.setCon c).con = c := rfl
@[simp] theorem State.setCon_fault (c : Console) : (s.setCon c).fault = s.fault := rfl
@[simp] theorem State.setCon_draws (c : Console) : (s.setCon c).draws = s.draws := rfl

@[simp] theorem State.writeRam_params (k : Nat) (v : Byte) : (s.writeRam k v).params = s.params := rfl
@[simp] theorem State.writeRam_cart (k : Nat) (v : Byte) : (s.writeRam k v).cart = s.cart := rfl
@[simp] theorem State.writeRam_cpu (k : Nat) (v : Byte) : (s.writeRam k v).cpu = s.cpu := rfl
@[simp] theorem State.writeRam_ram (k : Nat) (v : Byte) : (s.writeRam k v).ram = s.ram.write k v := rfl
@[simp] theorem State.writeRam_ppu (k : Nat) (v : Byte) : (s.writeRam k v).ppu = s.ppu := rfl
@[simp] theorem State.writeRam_map (k : Nat) (v : Byte) : (s.writeRam k v).map = s.map := rfl
@[simp] theorem State.writeRam_prgRam (k : Nat) (v : Byte) : (s.writeRam k v).prgRam = s.prgRam := rfl
@[simp] theorem State.writeRam_chrRam (k : Nat) (v : Byte) : (s.writeRam k v).chrRam = s.chrRam := rfl
@[simp] theorem State.writeRam_pads (k : Nat) (v : Byte) : (s.writeRam k v).pads = s.pads := rfl
@[simp] theorem State.writeRam_con (k : Nat) (v : Byte) : (s.writeRam k v).con = s.con := rfl
@[simp] theorem State.writeRam_fault (k : Nat) (v : Byte) : (s.writeRam k v).fault = s.fault := rfl
@[simp] theorem State.writeRam_draws (k : Nat) (v : Byte) : (s.writeRam k v).draws = s.draws := rfl

@[simp] theorem State.writePrgRam_params (k : Nat) (v : Byte) : (s.writePrgRam k v).params = s.params := rfl
@[simp] theorem State.writePrgRam_cart (k : Nat) (v : Byte) : (s.writePrgRam k v).cart = s.cart := rfl
@[simp] theorem State.writePrgRam_cpu (k : Nat) (v : Byte) : (s.writePrgRam k v).cpu = s.cpu := rfl
@[simp] theorem State.writePrgRam_ram (k : Nat) (v : Byte) : (s.writePrgRam k v).ram = s.ram := rfl
@[simp] theorem State.writePrgRam_ppu (k : Nat) (v : Byte) : (s.writePrgRam k v).ppu = s.ppu := rfl
@[simp] theorem State.writePrgRam_map (k : Nat) (v : Byte) : (s.writePrgRam k v).map = s.map := rfl
@[simp] theorem State.writePrgRam_prgRam (k : Nat) (v : Byte) : (s.writePrgRam k v).prgRam = s.prgRam.write k v := rfl
@[simp] theorem State.writePrgRam_chrRam (k : Nat) (v : Byte) : (s.writePrgRam k v).chrRam = s.chrRam := rfl
@[simp] theorem State.writePrgRam_pads (k : Nat) (v : Byte) : (s.writePrgRam k v).pads = s.pads := rfl
@[simp] theorem State.writePrgRam_con (k : Nat) (v : Byte) : (s.writePrgRam k v).con = s.con := rfl
@[simp] theorem State.writePrgRam_fault (k : Nat) (v : Byte) : (s.writePrgRam k v).fault = s.fault := rfl
@[simp] theorem State.writePrgRam_draws (k : Nat) (v : Byte) : (s.writePrgRam k v).draws = s.draws := rfl

@[simp] theorem State.writeChrRam_params (k : Nat) (v : Byte) : (s.writeChrRam k v).params = s.params := rfl
@[simp] theorem State.writeChrRam_cart (k : Nat) (v : Byte) : (s.writeChrRam k v).cart = s.cart := rfl
@[simp] theorem State.writeChrRam_cpu (k : Nat) (v : Byte) : (s.writeChrRam k v).cpu = s.cpu := rfl
@[simp] theorem State.writeChrRam_ram (k : Nat) (v : Byte) : (s.writeChrRam k v).ram = s.ram := rfl
@[simp] theorem State.writeChrRam_ppu (k : Nat) (v : Byte) : (s.writeChrRam k v).ppu = s.ppu := rfl
@[simp] theorem State.writeChrRam_map (k : Nat) (v : Byte) : (s.writeChrRam k v).map = s.map := rfl
@[simp] theorem State.writeChrRam_prgRam (k : Nat) (v : Byte) : (s.writeChrRam k v).prgRam = s.prgRam := rfl
@[simp] theorem State.writeChrRam_chrRam (k : Nat) (v : Byte) : (s.writeChrRam k v).chrRam = s.chrRam.write k v := rfl
@[simp] theorem State.writeChrRam_pads (k : Nat) (v : Byte) : (s.writeChrRam k v).pads = s.pads := rfl
@[simp] theorem State.writeChrRam_con (k : Nat) (v : Byte) : (s.writeChrRam k v).con = s.con := rfl
@[simp] theorem State.writeChrRam_fault (k : Nat) (v : Byte) : (s.writeChrRam k v).fault = s.fault := rfl
@[simp] theorem State.writeChrRam_draws (k : Nat) (v : Byte) : (s.writeChrRam k v).draws = s.draws := rfl

@[simp] theorem State.countDraw_params : (s.countDraw).params = s.params := rfl
@[simp] theorem State.countDraw_cart : (s.countDraw).cart = s.cart := rfl
@[simp] theorem State.countDraw_cpu : (s.countDraw).cpu = s.cpu := rfl
@[simp] theorem State.countDraw_ram : (s.countDraw).ram = s.ram := rfl
@[simp] theorem State.countDraw_ppu : (s.countDraw).ppu = s.ppu := rfl
@[simp] theorem State.countDraw_map : (s.countDraw).map = s.map := rfl
@[simp] theorem State.countDraw_prgRam : (s.countDraw).prgRam = s.prgRam := rfl
@[simp] theorem State.countDraw_chrRam : (s.countDraw).chrRam = s.chrRam := rfl
@[simp] theorem State.countDraw_pads : (s.countDraw).pads = s.pads := rfl
@[simp] theorem State.countDraw_con : (s.countDraw).con = s.con := rfl
@[simp] theorem State.countDraw_fault : (s.countDraw).fault = s.fault := rfl
@[simp] theorem State.countDraw_draws : (s.countDraw).draws = s.draws + 1 := rfl

/-- `triggerIrq()` touches only the CPU, and there only the pending bit. -/
theorem State.triggerIrq_eq :
    s.triggerIrq = { s with cpu := { s.cpu with irqPending := s.cpu.irqPending || !s.cpu.p.i } } := by
  obtain ⟨_, _, ⟨_, _, _, _, _, ⟨_, _, i, _, _, _, _⟩, _, _, _, irq⟩, _, _, _, _, _, _, _, _, _⟩ := s
  cases i <;> cases irq <;> rfl

@[simp] theorem State.triggerIrq_params : s.triggerIrq.params = s.params := by
  rw [State.triggerIrq_eq]
@[simp] theorem State.triggerIrq_cart : s.triggerIrq.cart = s.cart := by
  rw [State.triggerIrq_eq]
@[simp] theorem State.triggerIrq_cpu : s.triggerIrq.cpu = { s.cpu with irqPending := s.cpu.irqPending || !s.cpu.p.i } := by
  rw [State.triggerIrq_eq]
@[simp] theorem State.triggerIrq_ram : s.triggerIrq.ram = s.ram := by
  rw [State.triggerIrq_eq]
@[simp] theorem State.triggerIrq_ppu : s.triggerIrq.ppu = s.ppu := by
  rw [State.triggerIrq_eq]
@[simp] theorem State.triggerIrq_map : s.triggerIrq.map = s.map := by
  rw [State.triggerIrq_eq]
@[simp] theorem State.triggerIrq_prgRam : s.triggerIrq.prgRam = s.prgRam := by
  rw [State.triggerIrq_eq]
@[simp] theorem State.triggerIrq_chrRam : s.triggerIrq.chrRam = s.chrRam := by
  rw [State.triggerIrq_eq]
@[simp] theorem State.triggerIrq_pads : s.triggerIrq.pads = s.pads := by
  rw [State.triggerIrq_eq]
@[simp] theorem State.triggerIrq_con : s.triggerIrq.con = s.con := by
  rw [State.triggerIrq_eq]
@[simp] theorem State.triggerIrq_fault : s.triggerIrq.fault = s.fault := by
  rw [State.triggerIrq_eq]
@[simp] theorem State.triggerIrq_draws : s.triggerIrq.draws = s.draws := by
  rw [State.triggerIrq_eq]

@[simp] theorem State.recordFault_params (c : FatalCondition) : (s.recordFault c).params = s.params := rfl
@[simp] theorem State.recordFault_cart (c : FatalCondition) : (s.recordFault c).cart = s.cart := rfl
@[simp] theorem State.recordFault_cpu (c : FatalCondition) : (s.recordFault c).cpu = s.cpu := rfl
@[simp] theorem State.recordFault_ram (c : FatalCondition) : (s.recordFault c).ram = s.ram := rfl
@[simp] theorem State.recordFault_ppu (c : FatalCondition) : (s.recordFault c).ppu = s.ppu := rfl
@[simp] theorem State.recordFault_map (c : FatalCondition) : (s.recordFault c).map = s.map := rfl
@[simp] theorem State.recordFault_prgRam (c : FatalCondition) : (s.recordFault c).prgRam = s.prgRam := rfl
@[simp] theorem State.recordFault_chrRam (c : FatalCondition) : (s.recordFault c).chrRam = s.chrRam := rfl
@[simp] theorem State.recordFault_pads (c : FatalCondition) : (s.recordFault c).pads = s.pads := rfl
@[simp] theorem State.recordFault_con (c : FatalCondition) : (s.recordFault c).con = s.con := rfl
@[simp] theorem State.recordFault_draws (c : FatalCondition) : (s.recordFault c).draws = s.draws := rfl
@[simp] theorem State.recordFault_fault (c : FatalCondition) : (s.recordFault c).fault = some (s.fault.getD c) := rfl

/-- A fault is recorded where none is. -/
theorem State.recordFault_of_none (c : FatalCondition) (h : s.fault = none) : s.recordFault c = { s with fault := some c } := by
  simp [State.recordFault, h]

/-- A recorded fault stays. -/
theorem State.recordFault_of_some (c : FatalCondition) {d : FatalCondition} (h : s.fault = some d) : s.recordFault c = s := by
  rw [State.recordFault, h, Option.getD_some, ← h]

end Sys2Proof.Machine
end

