-- ==== Sys2Proof/Laws/Bus.lean ====
section
/-! SUPPORT. What the two buses can do, said once: a read depends on nothing of the CPU and changes only what
20_memory.md R72 names; a write changes nothing of the CPU but the scheduled idle cycles; work RAM, the stack and the
zero page answer plainly. -/

namespace Sys2Proof.Machine

/-! ### Address arithmetic -/

theorem zext16_toNat (b : Byte) : (zext16 b).toNat = b.toNat := by
  have := b.isLt
  simp only [zext16, BitVec.toNat_setWidth]
  omega

theorem stackAddress_toNat (s : Byte) : (stackAddress s).toNat = 0x100 + s.toNat := by
  have := s.isLt
  have e : (0x0100 : Word).toNat = 0x100 := rfl
  simp only [stackAddress, BitVec.toNat_add, zext16_toNat, e]
  omega

theorem hiByte_toNat (w : Word) : (hiByte w).toNat = w.toNat / 256 := by
  have := w.isLt
  simp only [hiByte, BitVec.extractLsb'_toNat, Nat.shiftRight_eq_div_pow]
  omega

theorem loByte_toNat (w : Word) : (loByte w).toNat = w.toNat % 256 := by
  simp only [loByte, BitVec.extractLsb'_toNat, Nat.shiftRight_eq_div_pow]
  omega

theorem wordOf_toNat (hi lo : Byte) : (wordOf hi lo).toNat = hi.toNat * 256 + lo.toNat := by
  have := lo.isLt
  simp only [wordOf, BitVec.toNat_append]
  rw [Nat.shiftLeft_eq, Nat.or_comm, Nat.lor_comm]
  exact (Nat.mul_comm _ _ ▸ Nat.two_pow_add_eq_or_of_lt (i := 8) (by omega) hi.toNat).symm

/-- A word is its two bytes. -/
@[simp] theorem wordOf_hiByte_loByte (w : Word) : wordOf (hiByte w) (loByte w) = w := by
  apply BitVec.eq_of_toNat_eq
  rw [wordOf_toNat, hiByte_toNat, loByte_toNat]
  omega

@[simp] theorem hiByte_wordOf (hi lo : Byte) : hiByte (wordOf hi lo) = hi := by
  apply BitVec.eq_of_toNat_eq
  have := lo.isLt
  rw [hiByte_toNat, wordOf_toNat]
  omega

@[simp] theorem loByte_wordOf (hi lo : Byte) : loByte (wordOf hi lo) = lo := by
  apply BitVec.eq_of_toNat_eq
  have := lo.isLt
  rw [loByte_toNat, wordOf_toNat]
  omega

/-! ### Work RAM -/

theorem memRead_ram {a : Word} (h : a.toNat < 0x2000) (s : State) : memRead a s = .ok (s.ram.read (ramIndex a), s) := by
  simp [memRead, h, look]

theorem memWrite_ram {a : Word} (h : a.toNat < 0x2000) (v : Byte) (s : State) :
    memWrite a v s = .ok ((), s.writeRam (ramIndex a) v) := by
  simp [memWrite, h]

/-- The storage behind an address is what a read returns, and reading it changes nothing (20_memory.md R72). -/
theorem memRead_of_peek {a : Word} {s : State} {b : Byte} (h : peek s a = some b) : memRead a s = .ok (b, s) := by
  unfold peek at h
  split at h
  · next hr =>
    rw [memRead_ram hr]
    cases h
    rfl
  · next hr =>
    split at h
    · cases h
    · next h6 =>
      have e16 : a ≠ 0x4016 := by rintro rfl; simp at h6
      have e17 : a ≠ 0x4017 := by rintro rfl; simp at h6
      have : memRead a s = look (mapCpuRead a) s := by
        unfold memRead
        rw [if_neg hr, if_neg (by omega), if_neg e16, if_neg e17, if_neg (by omega)]
      rw [this]
      apply look_of_ok
      unfold mapCpuRead
      rw [if_neg h6]
      split at h
      · next h8 =>
        rw [if_pos h8]
        cases h
        rfl
      · next h8 =>
        rw [if_neg h8]
        cases hk : prgIndex s a.toNat with
        | none => simp [hk] at h
        | some k =>
          simp only [hk, Option.map_some, Option.some.injEq] at h
          simp [h]

/-! ### Reads and the CPU -/

/-- The machine with another CPU. -/
def State.withCpu (s : State) (c : Cpu) : State := { s with cpu := c }

/-- A fault with another CPU in the machine it leaves. -/
def Fault.withCpu (c : Cpu) : Fault → Fault
  | .raised k t => .raised k (t.withCpu c)
  | .recorded k => .recorded k

/-- The result of a read carried to another CPU. -/
def readWithCpu {α : Type} (c : Cpu) : Except Fault (α × State) → Except Fault (α × State)
  | .ok (b, t) => .ok (b, t.withCpu c)
  | .error e => .error (e.withCpu c)

theorem look_withCpu {α : Type} {f : State → Except FatalCondition α} (c : Cpu) (s : State) (h : f (s.withCpu c) = f s) :
    look f (s.withCpu c) = readWithCpu c (look f s) := by
  simp only [look, h]
  cases f s <;> rfl

theorem ppuRead_withCpu (a : Word) (c : Cpu) (s : State) : ppuRead a (s.withCpu c) = ppuRead a s := rfl

theorem mapCpuRead_withCpu (a : Word) (c : Cpu) (s : State) : mapCpuRead a (s.withCpu c) = mapCpuRead a s := rfl

theorem peek_withCpu (a : Word) (c : Cpu) (s : State) : peek (s.withCpu c) a = peek s a := rfl

theorem readVramData_withCpu (c : Cpu) (s : State) : readVramData (s.withCpu c) = readWithCpu c (readVramData s) := by
  unfold readVramData
  simp only [M.getS_bind]
  have hp : (s.withCpu c).ppu = s.ppu := rfl
  rw [hp]
  split
  · simp only [M.bind_apply, look, ppuRead_withCpu]
    cases ppuRead s.ppu.busAddress s <;> rfl
  · simp only [M.bind_apply, look, ppuRead_withCpu]
    cases ppuRead s.ppu.busAddress s with
    | error e => rfl
    | ok b =>
      simp only [ppuRead_withCpu]
      cases ppuRead (s.ppu.busAddress - 0x1000) s <;> rfl

theorem readWriteOnly_withCpu (a : Word) (c : Cpu) (s : State) :
    readWriteOnly a (s.withCpu c) = readWithCpu c (readWriteOnly a s) := by
  unfold readWriteOnly
  simp only [M.getS_bind]
  have hp : (s.withCpu c).params = s.params := rfl
  rw [hp]
  cases s.params.ppuWoRead <;> rfl

theorem readPpuRegister_withCpu (a : Word) (c : Cpu) (s : State) :
    readPpuRegister a (s.withCpu c) = readWithCpu c (readPpuRegister a s) := by
  unfold readPpuRegister
  simp only [M.getS_bind]
  generalize a.toNat % 8 = n
  split
  · rfl
  · rfl
  · exact readVramData_withCpu c s
  · exact readWriteOnly_withCpu a c s

/-- A bus read does not depend on the CPU, and carries it along. -/
theorem memRead_withCpu (a : Word) (c : Cpu) (s : State) : memRead a (s.withCpu c) = readWithCpu c (memRead a s) := by
  unfold memRead
  split
  · rfl
  · split
    · exact readPpuRegister_withCpu a c s
    · split
      · rfl
      · split
        · rfl
        · split
          · unfold readAbsent
            simp only [M.getS_bind]
            have hp : (s.withCpu c).params = s.params := rfl
            rw [hp]
            cases s.params.absentIo <;> rfl
          · exact look_withCpu c s rfl

/-- What a bus read may change (20_memory.md R72): of the picture unit `v`, `w`, `vblank` and the read buffer, the
controllers' shift indices, and the count of free bytes drawn. -/
structure ReadFrame (s t : State) : Prop where
  ppu : t.ppu = { s.ppu with v := t.ppu.v, w := t.ppu.w, vblank := t.ppu.vblank, readBuffer := t.ppu.readBuffer }
  pads : t.pads =
    { s.pads with
      pad0 := { s.pads.pad0 with index := t.pads.pad0.index }
      pad1 := { s.pads.pad1 with index := t.pads.pad1.index } }
  rest : t = { s with ppu := t.ppu, pads := t.pads, draws := t.draws }

theorem ReadFrame.refl (s : State) : ReadFrame s s := ⟨rfl, rfl, rfl⟩

theorem ReadFrame.trans {s t u : State} (h : ReadFrame s t) (k : ReadFrame t u) : ReadFrame s u := by
  refine ⟨?_, ?_, ?_⟩
  · rw [k.ppu, h.ppu]
  · rw [k.pads, h.pads]
  · rw [k.rest, h.rest]

theorem ReadFrame.look {α : Type} {f : State → Except FatalCondition α} {s t : State} {a : α} (h : look f s = .ok (a, t)) :
    ReadFrame s t := by
  rw [(look_ok.mp h).2]
  exact .refl s

theorem Pad.read_snd (e st : Bool) (p : Pad) : (p.read e st).2 = { p with index := (p.read e st).2.index } := by
  unfold Pad.read
  split
  · rfl
  · split <;> rfl

theorem readVramData_frame {s t : State} {b : Byte} (h : readVramData s = .ok (b, t)) : ReadFrame s t := by
  unfold readVramData at h
  simp only [M.getS_bind] at h
  split at h
  · obtain ⟨x, u, h1, h2⟩ := M.bind_ok.mp h
    rw [(look_ok.mp h1).2] at h2
    cases h2
    exact ⟨rfl, rfl, rfl⟩
  · obtain ⟨x, u, h1, h2⟩ := M.bind_ok.mp h
    rw [(look_ok.mp h1).2] at h2
    obtain ⟨y, v, h3, h4⟩ := M.bind_ok.mp h2
    rw [(look_ok.mp h3).2] at h4
    cases h4
    exact ⟨rfl, rfl, rfl⟩

theorem readWriteOnly_frame {a : Word} {s t : State} {b : Byte} (h : readWriteOnly a s = .ok (b, t)) :
    ReadFrame s t := by
  unfold readWriteOnly at h
  simp only [M.getS_bind] at h
  cases hw : s.params.ppuWoRead <;> rw [hw] at h <;> cases h
  exact .refl s

theorem readPpuRegister_frame {a : Word} {s t : State} {b : Byte} (h : readPpuRegister a s = .ok (b, t)) :
    ReadFrame s t := by
  unfold readPpuRegister at h
  simp only [M.getS_bind] at h
  generalize a.toNat % 8 = n at h
  split at h
  · cases h
    exact ⟨rfl, rfl, rfl⟩
  · cases h
    exact .refl s
  · exact readVramData_frame h
  · exact readWriteOnly_frame h

/-- A bus read changes nothing but what R72 names. -/
theorem memRead_frame {a : Word} {s t : State} {b : Byte} (h : memRead a s = .ok (b, t)) : ReadFrame s t := by
  unfold memRead at h
  split at h
  · exact .look h
  · split at h
    · exact readPpuRegister_frame h
    · split at h
      · cases h
        refine ⟨rfl, ?_, rfl⟩
        simp only [State.setPads_pads]
        rw [← Pad.read_snd]
      · split at h
        · cases h
          refine ⟨rfl, ?_, rfl⟩
          simp only [State.setPads_pads]
          rw [← Pad.read_snd]
        · split at h
          · unfold readAbsent at h
            simp only [M.getS_bind] at h
            cases hw : s.params.absentIo <;> rw [hw] at h <;> cases h
            · exact .refl s
            · exact ⟨rfl, rfl, rfl⟩
          · exact .look h

/-- A bus read leaves the CPU alone. -/
theorem memRead_cpu {a : Word} {s t : State} {b : Byte} (h : memRead a s = .ok (b, t)) : t.cpu = s.cpu := by
  rw [(memRead_frame h).rest]

/-! ### The stack and the zero page -/

/-- `Push(v)` in full: the byte lands in page 1 of work RAM (41_stack.md R160, R161). -/
theorem push_apply (v : Byte) (s : State) :
    push v s = .ok ((), (s.writeRam (0x100 + s.cpu.s.toNat) v).setSp (s.cpu.s - 1)) := by
  have hlt := s.cpu.s.isLt
  have ha : (stackAddress s.cpu.s).toNat = 0x100 + s.cpu.s.toNat := stackAddress_toNat _
  have hi : ramIndex (stackAddress s.cpu.s) = 0x100 + s.cpu.s.toNat := by
    unfold ramIndex
    omega
  unfold push
  rw [M.getS_bind, M.bind_of_ok (memWrite_ram (by omega) v s), hi]
  rfl

/-- `Pull()` in full (R163). -/
theorem pull_apply (s : State) :
    pull s = .ok (s.ram.read (0x100 + (s.cpu.s + 1).toNat), s.setSp (s.cpu.s + 1)) := by
  have hlt := (s.cpu.s + 1).isLt
  have ha : (stackAddress (s.cpu.s + 1)).toNat = 0x100 + (s.cpu.s + 1).toNat := stackAddress_toNat _
  have hi : ramIndex (stackAddress (s.cpu.s + 1)) = 0x100 + (s.cpu.s + 1).toNat := by
    unfold ramIndex
    omega
  unfold pull
  rw [M.update_bind, M.getS_bind]
  simp only [State.setSp_cpu]
  rw [memRead_ram (by omega), hi]
  rfl

theorem push16_apply (w : Word) (s : State) :
    push16 w s = .ok ((), ((s.writeRam (0x100 + s.cpu.s.toNat) (hiByte w)).writeRam
      (0x100 + (s.cpu.s - 1).toNat) (loByte w)).setSp (s.cpu.s - 2)) := by
  unfold push16
  rw [M.bind_of_ok (push_apply _ _), push_apply]
  simp only [State.setSp_cpu, State.writeRam_cpu, BitVec.sub_sub]
  rfl

theorem pull16_apply (s : State) :
    pull16 s = .ok (wordOf (s.ram.read (0x100 + (s.cpu.s + 2).toNat)) (s.ram.read (0x100 + (s.cpu.s + 1).toNat)),
      s.setSp (s.cpu.s + 2)) := by
  unfold pull16
  rw [M.bind_of_ok (pull_apply _), M.bind_of_ok (pull_apply _)]
  simp only [State.setSp_cpu, State.setSp_ram, BitVec.add_assoc]
  rfl

/-- A two-byte pointer in the zero page (20_memory.md R71). -/
theorem read16Bug_zeroPage (b : Byte) (s : State) :
    read16Bug (zext16 b) s = .ok (wordOf (s.ram.read (b + 1).toNat) (s.ram.read b.toNat), s) := by
  have h1 := b.isLt
  have h2 := (b + 1).isLt
  have hlo : (zext16 b).toNat = b.toNat := zext16_toNat b
  have e : wordOf (hiByte (zext16 b)) (loByte (zext16 b) + 1) = zext16 (b + 1) := by
    apply BitVec.eq_of_toNat_eq
    rw [wordOf_toNat, hiByte_toNat, hlo, zext16_toNat, BitVec.toNat_add, BitVec.toNat_add, loByte_toNat, hlo]
    simp
    omega
  have hhi : (zext16 (b + 1)).toNat = (b + 1).toNat := zext16_toNat _
  unfold read16Bug
  rw [M.bind_of_ok (memRead_ram (by omega) s), e, M.bind_of_ok (memRead_ram (by omega) s)]
  simp only [M.pure_apply, ramIndex, hlo, hhi]
  rw [Nat.mod_eq_of_lt (by omega), Nat.mod_eq_of_lt (by omega)]

/-- A vector or other 16-bit read of storage. -/
theorem read16_of_peek {a : Word} {s : State} {lo hi : Byte} (h1 : peek s a = some lo) (h2 : peek s (a + 1) = some hi) :
    read16 a s = .ok (wordOf hi lo, s) := by
  unfold read16
  rw [M.bind_of_ok (memRead_of_peek h1), M.bind_of_ok (memRead_of_peek h2)]
  rfl

end Sys2Proof.Machine
end

