-- ==== Sys2Proof/Laws/Exec.lean ====
section
/-! SUPPORT. How an instruction runs, said once: `exec` is the handler of the instruction's mnemonic over its resolved
operand, after PC and `cycles` have advanced; the operand of every mode; the cycle counts of the table. -/

namespace Sys2Proof.Machine

/-- The handler of each mnemonic. -/
def handlerOf : Mnemonic → Target → M Unit
  | .lda => opLda
  | .ldx => opLdx
  | .ldy => opLdy
  | .sta => opSta
  | .stx => opStx
  | .sty => opSty
  | .tax => opTax
  | .tay => opTay
  | .txa => opTxa
  | .tya => opTya
  | .tsx => opTsx
  | .txs => opTxs
  | .pha => opPha
  | .php => opPhp
  | .pla => opPla
  | .plp => opPlp
  | .adc => opAdc
  | .sbc => opSbc
  | .and => opAnd
  | .ora => opOra
  | .eor => opEor
  | .cmp => opCmp
  | .cpx => opCpx
  | .cpy => opCpy
  | .bit => opBit
  | .inc => opInc
  | .dec => opDec
  | .inx => opInx
  | .iny => opIny
  | .dex => opDex
  | .dey => opDey
  | .asl => opAsl
  | .lsr => opLsr
  | .rol => opRol
  | .ror => opRor
  | .jmp => opJmp
  | .jsr => opJsr
  | .rts => opRts
  | .rti => opRti
  | .brk => opBrk
  | .bcc => opBcc
  | .bcs => opBcs
  | .beq => opBeq
  | .bne => opBne
  | .bmi => opBmi
  | .bpl => opBpl
  | .bvc => opBvc
  | .bvs => opBvs
  | .clc => opClc
  | .sec => opSec
  | .cli => opCli
  | .sei => opSei
  | .clv => opClv
  | .cld => opCld
  | .sed => opSed
  | .nop => opNop

/-- Every meaning is the instruction's row run with the handler of its mnemonic. -/
theorem exec_eq (i : Instr) (s : State) : exec i s = (runRow i.row (handlerOf i.row.mnemonic)).outcome s := by
  cases i <;> rfl

/-! ### Operands -/

theorem resolve_effective {s : State} {o : Operand} {ea : Word} {crossed : Bool}
    (h : s.effective o = some (ea, crossed)) : resolve o s.cpu.pc s = .ok (⟨.memory ea, crossed⟩, s) := by
  cases o <;> simp only [State.effective, reduceCtorEq, Option.some.injEq, Prod.mk.injEq] at h <;>
    obtain ⟨rfl, rfl⟩ := h <;> unfold resolve <;> simp only [M.getS_bind] <;> first
      | rfl
      | (rw [M.bind_of_ok (read16Bug_zeroPage _ s)]; rfl)

/-- The CPU between the address computation and the handler. -/
def State.advanced (s : State) (size n : Nat) : State := s.withCpu (s.cpu.past size n)

theorem runRow_of_resolve {r : Row} {handler : Target → M Unit} {s t : State} {target : Target} {crossed : Bool}
    (h : resolve r.operand s.cpu.pc s = .ok (⟨target, crossed⟩, t)) :
    runRow r handler s = handler target
      ((t.setPc (s.cpu.pc + BitVec.ofNat 16 r.operand.size)).addCycles
        (r.base + if r.pageFlag && crossed then 1 else 0)) := by
  unfold runRow
  rw [M.getS_bind, M.bind_of_ok h, M.update_bind, M.update_bind]

/-- An instruction with an effective address. -/
theorem exec_memory {i : Instr} {s : State} {ea : Word} {crossed : Bool}
    (h : s.effective i.row.operand = some (ea, crossed)) :
    exec i s = (handlerOf i.row.mnemonic (.memory ea)).outcome
      (s.advanced i.row.operand.size (i.row.base + if i.row.pageFlag && crossed then 1 else 0)) := by
  rw [exec_eq]
  unfold M.outcome
  rw [runRow_of_resolve (resolve_effective h)]
  rfl

/-- An instruction with an immediate operand. -/
theorem exec_immediate {i : Instr} {s : State} {b : Byte} (h : i.row.operand = .immediate b) :
    exec i s = (handlerOf i.row.mnemonic (.immediate b)).outcome (s.advanced 2 i.row.base) := by
  rw [exec_eq]
  unfold M.outcome
  rw [runRow_of_resolve (target := .immediate b) (crossed := false) (t := s) (by rw [h]; rfl), h]
  simp only [Bool.and_false]
  rfl

/-- An instruction without an operand. -/
theorem exec_implied {i : Instr} {s : State} (h : i.row.operand = .implied) :
    exec i s = (handlerOf i.row.mnemonic .none).outcome (s.advanced 1 i.row.base) := by
  rw [exec_eq]
  unfold M.outcome
  rw [runRow_of_resolve (target := .none) (crossed := false) (t := s) (by rw [h]; rfl), h]
  simp only [Bool.and_false]
  rfl

/-- An instruction on the accumulator. -/
theorem exec_accumulator {i : Instr} {s : State} (h : i.row.operand = .accumulator) :
    exec i s = (handlerOf i.row.mnemonic .accumulator).outcome (s.advanced 1 i.row.base) := by
  rw [exec_eq]
  unfold M.outcome
  rw [runRow_of_resolve (target := .accumulator) (crossed := false) (t := s) (by rw [h]; rfl), h]
  simp only [Bool.and_false]
  rfl

/-! ### Advancing -/

@[simp] theorem State.withCpu_cpu (s : State) (c : Cpu) : (s.withCpu c).cpu = c := rfl
@[simp] theorem State.withCpu_withCpu (s : State) (c d : Cpu) : (s.withCpu c).withCpu d = s.withCpu d := rfl
@[simp] theorem State.withCpu_ram (s : State) (c : Cpu) : (s.withCpu c).ram = s.ram := rfl
@[simp] theorem State.withCpu_self (s : State) : s.withCpu s.cpu = s := rfl
@[simp] theorem State.advanced_cpu (s : State) (size n : Nat) : (s.advanced size n).cpu = s.cpu.past size n := rfl
@[simp] theorem State.advanced_ram (s : State) (size n : Nat) : (s.advanced size n).ram = s.ram := rfl
@[simp] theorem Cpu.past_a (c : Cpu) (size n : Nat) : (c.past size n).a = c.a := rfl
@[simp] theorem Cpu.past_x (c : Cpu) (size n : Nat) : (c.past size n).x = c.x := rfl
@[simp] theorem Cpu.past_y (c : Cpu) (size n : Nat) : (c.past size n).y = c.y := rfl
@[simp] theorem Cpu.past_s (c : Cpu) (size n : Nat) : (c.past size n).s = c.s := rfl
@[simp] theorem Cpu.past_p (c : Cpu) (size n : Nat) : (c.past size n).p = c.p := rfl
@[simp] theorem Cpu.past_pc (c : Cpu) (size n : Nat) : (c.past size n).pc = c.pc + BitVec.ofNat 16 size := rfl
@[simp] theorem Cpu.past_cycles (c : Cpu) (size n : Nat) : (c.past size n).cycles = c.cycles + n := rfl
@[simp] theorem Cpu.past_idle (c : Cpu) (size n : Nat) : (c.past size n).idle = c.idle := rfl

/-- A bus read after the advance is the same read carried along. -/
theorem memRead_advanced {a : Word} {s t : State} {b : Byte} (size n : Nat) (h : memRead a s = .ok (b, t)) :
    memRead a (s.advanced size n) = .ok (b, t.withCpu (s.cpu.past size n)) := by
  rw [State.advanced, memRead_withCpu, h]
  rfl

theorem memRead_advanced_error {a : Word} {s t : State} {c : FatalCondition} (size n : Nat)
    (h : memRead a s = .error (.raised c t)) :
    memRead a (s.advanced size n) = .error (.raised c (t.withCpu (s.cpu.past size n))) := by
  rw [State.advanced, memRead_withCpu, h]
  rfl

/-- The fetch of an immediate byte succeeds as the read does. -/
theorem fetchImmediate_ok {pc0 : Word} {s t : State} {b : Byte} :
    fetchImmediate pc0 s = .ok (b, t) ↔ memRead (pc0 + 1) s = .ok (b, t) := by
  unfold fetchImmediate
  cases h : memRead (pc0 + 1) s with
  | ok r => rfl
  | error f =>
    have e : memRead (pc0 + 1) ((s.setPc (pc0 + 2)).addCycles 2) =
        readWithCpu ((s.setPc (pc0 + 2)).addCycles 2).cpu (memRead (pc0 + 1) s) := memRead_withCpu _ _ s
    dsimp only
    rw [e, h]
    simp [readWithCpu]

theorem fetchOperand_ok {op : Byte} {pc0 : Word} {s t : State} {b : Byte} :
    fetchOperand op pc0 s = .ok (b, t) ↔ memRead (pc0 + 1) s = .ok (b, t) := by
  unfold fetchOperand
  split
  · exact fetchImmediate_ok
  · rfl

/-! ### Cycle counts -/

/-- The mnemonics that read their operand and write no memory. -/
def readMnemonics : List Mnemonic := [.lda, .ldx, .ldy, .adc, .sbc, .and, .ora, .eor, .cmp, .cpx, .cpy, .bit]

theorem cycles_of_read {i : Instr} (h : i.row.mnemonic ∈ readMnemonics) (crossed : Bool) :
    (i.row.base + if i.row.pageFlag && crossed then 1 else 0) = readCycles crossed i.row.operand := by
  cases i <;> first
    | (cases crossed <;> rfl)
    | simp [Instr.row, readMnemonics] at h

theorem cycles_of_store {i : Instr} (h : i.row.mnemonic ∈ [.sta, .stx, .sty]) (crossed : Bool) :
    (i.row.base + if i.row.pageFlag && crossed then 1 else 0) = storeCycles i.row.operand := by
  cases i <;> first
    | rfl
    | simp [Instr.row] at h

theorem cycles_of_modify {i : Instr} (h : i.row.mnemonic ∈ [.inc, .dec, .asl, .lsr, .rol, .ror])
    (ha : i.row.operand ≠ .accumulator) (crossed : Bool) :
    (i.row.base + if i.row.pageFlag && crossed then 1 else 0) = modifyCycles i.row.operand := by
  cases i <;> first
    | rfl
    | exact absurd rfl ha
    | simp [Instr.row] at h

/-- A reading instruction whose operand reads as m: its handler runs on m. -/
theorem exec_read {i : Instr} {s t : State} {m : Byte} {crossed : Bool} {effect : Byte → M Unit}
    (hr : i.row.mnemonic ∈ readMnemonics) (hh : ∀ target, handlerOf i.row.mnemonic target = target.read >>= effect)
    (h : s.OperandReads i.row.operand m crossed t) :
    exec i s = (effect m).outcome
      (t.withCpu (s.cpu.past i.row.operand.size (readCycles crossed i.row.operand))) := by
  rcases h with ⟨ho, rfl, rfl⟩ | ⟨ea, he, hm⟩
  · have hc := cycles_of_read hr false
    simp only [Bool.and_false, Bool.false_eq_true, if_false, Nat.add_zero] at hc
    rw [exec_immediate ho, hh, hc, ho]
    rfl
  · rw [exec_memory he, hh, cycles_of_read hr]
    exact M.outcome_bind_of_ok (memRead_advanced _ _ hm)

/-- A reading instruction whose operand cannot be read stops with that condition. -/
theorem exec_read_fault {i : Instr} {s : State} {c : FatalCondition} {effect : Byte → M Unit}
    (hh : ∀ target, handlerOf i.row.mnemonic target = target.read >>= effect) (h : s.OperandFaults i.row.operand c) :
    StopsWith c (exec i s) := by
  obtain ⟨ea, crossed, t, he, hm⟩ := h
  rw [exec_memory he, hh]
  exact ⟨_, M.outcome_bind_of_error (memRead_advanced_error _ _ hm)⟩

/-! ### Flags -/

theorem Flags.setZN_eq (p : Flags) (v : Byte) : p.setZN v = p.zn v := by
  have h1 : (v == 0) = decide (v.toNat = 0) := by
    rw [Bool.eq_iff_iff, beq_iff_eq, decide_eq_true_eq, BitVec.toNat_eq]
    rfl
  have h2 : v.getLsbD 7 = decide (128 ≤ v.toNat) := by
    rw [BitVec.getLsbD, Nat.testBit_eq_decide_div_mod_eq]
    have := v.isLt
    rw [decide_eq_decide]
    omega
  rw [setZN, zn, h1, h2]

end Sys2Proof.Machine
end

