-- ==== Sys2Proof/Laws/Write.lean ====
section
/-! SUPPORT. What a bus write may change, and how it depends on the CPU: only OAM DMA looks at the CPU (the parity of
`cycles`, 63_bus_devices_console.md R441), and only the scheduled idle cycles of the CPU change. -/

namespace Sys2Proof.Machine

/-- The picture unit's registers of `q` with the position, pipeline, sprite slots, sprite flags and frame buffer of
`p`. -/
def Ppu.scanOf (p q : Ppu) : Ppu :=
  { q with
    dot := p.dot, scanline := p.scanline, odd := p.odd, ntByte := p.ntByte, atBits := p.atBits, patLo := p.patLo
    patHi := p.patHi, tileShift := p.tileShift, sprCount := p.sprCount, slots := p.slots, framebuffer := p.framebuffer
    sprOverflow := p.sprOverflow, spr0Hit := p.spr0Hit }

/-- What a bus write may change: of the CPU the idle cycles, of the picture unit everything but the position, the
pipeline, the sprite slots and the sprite flags, the mapper's registers, the memories, the controllers. -/
structure WriteFrame (s t : State) : Prop where
  cpu : t.cpu = { s.cpu with idle := t.cpu.idle }
  ppu : t.ppu = s.ppu.scanOf t.ppu
  idle : s.cpu.idle ≤ t.cpu.idle
  rest : t = { s with cpu := t.cpu, ram := t.ram, ppu := t.ppu, map := t.map, prgRam := t.prgRam, chrRam := t.chrRam,
                      pads := t.pads, draws := t.draws }

theorem WriteFrame.refl (s : State) : WriteFrame s s := ⟨rfl, rfl, Nat.le_refl _, rfl⟩

theorem WriteFrame.trans {s t u : State} (h : WriteFrame s t) (k : WriteFrame t u) : WriteFrame s u := by
  refine ⟨?_, ?_, Nat.le_trans h.idle k.idle, ?_⟩
  · rw [k.cpu, h.cpu]
  · rw [k.ppu, h.ppu]
    rfl
  · rw [k.rest, h.rest]

theorem ReadFrame.toWrite {s t : State} (h : ReadFrame s t) : WriteFrame s t := by
  refine ⟨?_, ?_, ?_, ?_⟩
  · rw [h.rest]
  · rw [h.ppu]
    rfl
  · rw [h.rest]
  · rw [h.rest]

/-! ### The frame -/

/-- A computation that stays in the frame of a write. -/
def M.InFrame {α : Type} (x : M α) : Prop := ∀ s a t, x s = .ok (a, t) → WriteFrame s t

theorem M.InFrame.bind {α β : Type} {x : M α} {f : α → M β} (hx : x.InFrame) (hf : ∀ a, (f a).InFrame) :
    (x >>= f).InFrame := by
  intro s b u h
  obtain ⟨a, t, h1, h2⟩ := M.bind_ok.mp h
  exact (hx s a t h1).trans (hf a t b u h2)

theorem M.InFrame.getS : M.InFrame Machine.getS := by
  intro s a t h
  cases h
  exact .refl s

theorem M.InFrame.pure {α : Type} (a : α) : M.InFrame (Pure.pure a : M α) := by
  intro s b t h
  cases h
  exact .refl s

theorem M.InFrame.raise {α : Type} (e : FatalCondition) : M.InFrame (Machine.raise e : M α) := by
  intro s b t h
  cases h

theorem M.InFrame.update {f : State → State} (h : ∀ s, WriteFrame s (f s)) : M.InFrame (Machine.update f) := by
  intro s b t e
  cases e
  exact h s

theorem setPpu_inFrame (f : State → Ppu) (h : ∀ s, f s = s.ppu.scanOf (f s)) :
    M.InFrame (update fun s => s.setPpu (f s)) :=
  .update fun s => ⟨rfl, h s, Nat.le_refl _, rfl⟩

theorem setMap_inFrame (m : Mapper) : M.InFrame (update fun s => s.setMap m) :=
  .update fun _ => ⟨rfl, rfl, Nat.le_refl _, rfl⟩

theorem memRead_inFrame (a : Word) : M.InFrame (memRead a) := fun _ _ _ h => (memRead_frame h).toWrite

theorem mapPpuWrite_inFrame (a : Word) (d : Byte) : M.InFrame (mapPpuWrite a d) := by
  refine M.InFrame.getS.bind fun s => ?_
  split
  · split
    · exact .update fun _ => ⟨rfl, rfl, Nat.le_refl _, rfl⟩
    · exact .raise _
  · exact .raise _

theorem ppuWrite_inFrame (a : Word) (d : Byte) : M.InFrame (ppuWrite a d) := by
  intro s b t h
  unfold ppuWrite at h
  rw [M.getS_bind] at h
  cases hp : ppuAddress s.params a with
  | none =>
    rw [hp] at h
    cases h
  | some a' =>
    simp only [hp] at h
    split at h
    · exact mapPpuWrite_inFrame _ _ s b t h
    · split at h
      · cases h
        exact ⟨rfl, rfl, Nat.le_refl _, rfl⟩
      · cases h
        exact ⟨rfl, rfl, Nat.le_refl _, rfl⟩

theorem writeVramData_inFrame (d : Byte) : M.InFrame (writeVramData d) :=
  M.InFrame.getS.bind fun _ => (ppuWrite_inFrame _ _).bind fun _ => setPpu_inFrame _ fun _ => rfl

theorem writePpuRegister_inFrame (a : Word) (d : Byte) : M.InFrame (writePpuRegister a d) := by
  refine (setPpu_inFrame _ fun _ => rfl).bind fun _ => ?_
  generalize a.toNat % 8 = n
  split
  · exact setPpu_inFrame _ fun _ => rfl
  · exact setPpu_inFrame _ fun _ => rfl
  · exact .pure _
  · exact setPpu_inFrame _ fun _ => rfl
  · exact setPpu_inFrame _ fun _ => rfl
  · refine setPpu_inFrame _ fun s => ?_
    unfold Ppu.writeScroll
    split <;> rfl
  · refine setPpu_inFrame _ fun s => ?_
    unfold Ppu.writeAddress
    split <;> rfl
  · exact writeVramData_inFrame d

theorem mapperWrite_inFrame (a : Word) (d : Byte) : M.InFrame (mapperWrite a d) := by
  refine M.InFrame.getS.bind fun s => ?_
  split
  · split
    · exact .raise _
    · exact .pure _
  · exact setMap_inFrame _
  · exact setMap_inFrame _
  · exact setMap_inFrame _

theorem mapCpuWrite_inFrame (a : Word) (d : Byte) : M.InFrame (mapCpuWrite a d) := by
  unfold mapCpuWrite
  split
  · exact .raise _
  · split
    · exact .update fun _ => ⟨rfl, rfl, Nat.le_refl _, rfl⟩
    · exact mapperWrite_inFrame a d

theorem dmaCopy_inFrame (base : Word) : ∀ n, M.InFrame (dmaCopy base n)
  | 0 => .pure _
  | n + 1 => (memRead_inFrame _).bind fun _ => (setPpu_inFrame _ fun _ => rfl).bind fun _ => dmaCopy_inFrame base n

theorem oamDma_inFrame (d : Byte) : M.InFrame (oamDma d) :=
  (dmaCopy_inFrame _ _).bind fun _ => .update fun _ => ⟨rfl, rfl, Nat.le_add_right _ _, rfl⟩

theorem writeAbsent_inFrame (a : Word) : M.InFrame (writeAbsent a) := by
  refine M.InFrame.getS.bind fun s => ?_
  split
  · exact .raise _
  · exact .pure _
  · exact .pure _

/-- A bus write changes nothing but what `WriteFrame` names. -/
theorem memWrite_inFrame (a : Word) (v : Byte) : M.InFrame (memWrite a v) := by
  unfold memWrite
  split
  · exact .update fun _ => ⟨rfl, rfl, Nat.le_refl _, rfl⟩
  · split
    · exact writePpuRegister_inFrame a v
    · split
      · exact oamDma_inFrame v
      · split
        · exact .update fun _ => ⟨rfl, rfl, Nat.le_refl _, rfl⟩
        · split
          · exact writeAbsent_inFrame a
          · exact mapCpuWrite_inFrame a v

theorem memWrite_frame {a : Word} {v : Byte} {s t : State} (h : memWrite a v s = .ok ((), t)) : WriteFrame s t :=
  memWrite_inFrame a v s () t h

/-! ### The CPU carried along -/

/-- A computation that neither looks at the CPU nor changes it. -/
def M.CpuBlind {α : Type} (x : M α) : Prop := ∀ c s, x (s.withCpu c) = readWithCpu c (x s)

theorem M.CpuBlind.bind {α β : Type} {x : M α} {f : α → M β} (hx : x.CpuBlind) (hf : ∀ a, (f a).CpuBlind) :
    (x >>= f).CpuBlind := by
  intro c s
  rw [M.bind_apply, M.bind_apply, hx]
  cases x s with
  | error e => rfl
  | ok r => exact hf r.1 c r.2

theorem M.CpuBlind.getS_bind {β : Type} {f : State → M β} (hf : ∀ c s, f (s.withCpu c) (s.withCpu c) = readWithCpu c (f s s)) :
    M.CpuBlind (Machine.getS >>= f) := fun c s => hf c s

theorem M.CpuBlind.pure {α : Type} (a : α) : M.CpuBlind (Pure.pure a : M α) := fun _ _ => rfl

theorem M.CpuBlind.raise {α : Type} (e : FatalCondition) : M.CpuBlind (Machine.raise e : M α) := fun _ _ => rfl

theorem memRead_cpuBlind (a : Word) : M.CpuBlind (memRead a) := fun c s => memRead_withCpu a c s

theorem mapPpuWrite_cpuBlind (a : Word) (d : Byte) : M.CpuBlind (mapPpuWrite a d) := by
  refine .getS_bind fun c s => ?_
  have h1 : (s.withCpu c).cart = s.cart := rfl
  have h2 : chrIndex (s.withCpu c) a.toNat = chrIndex s a.toNat := rfl
  rw [h1, h2]
  split
  · cases chrIndex s a.toNat <;> rfl
  · rfl

theorem ppuWrite_cpuBlind (a : Word) (d : Byte) : M.CpuBlind (ppuWrite a d) := by
  refine .getS_bind fun c s => ?_
  have h1 : (s.withCpu c).params = s.params := rfl
  rw [h1]
  cases ppuAddress s.params a with
  | none => rfl
  | some a' =>
    dsimp only
    split
    · exact mapPpuWrite_cpuBlind _ _ c s
    · split <;> rfl

theorem writeVramData_cpuBlind (d : Byte) : M.CpuBlind (writeVramData d) := by
  refine .getS_bind fun c s => ?_
  exact (ppuWrite_cpuBlind _ _).bind (f := fun _ => update fun s => s.setPpu s.ppu.stepAddress) (fun _ _ _ => rfl) c s

theorem writePpuRegister_cpuBlind (a : Word) (d : Byte) : M.CpuBlind (writePpuRegister a d) := by
  refine M.CpuBlind.bind (fun _ _ => rfl) fun _ => ?_
  generalize a.toNat % 8 = n
  split
  · exact fun _ _ => rfl
  · exact fun _ _ => rfl
  · exact .pure _
  · exact fun _ _ => rfl
  · exact fun _ _ => rfl
  · exact fun _ _ => rfl
  · exact fun _ _ => rfl
  · exact writeVramData_cpuBlind d

theorem mapperWrite_cpuBlind (a : Word) (d : Byte) : M.CpuBlind (mapperWrite a d) := by
  refine .getS_bind fun c s => ?_
  have h1 : (s.withCpu c).params = s.params := rfl
  have h2 : (s.withCpu c).map = s.map := rfl
  rw [h1, h2]
  cases s.map with
  | nrom => cases s.params.nromPrgWrite <;> rfl
  | uxrom m => rfl
  | mmc1 m => rfl
  | mmc3 m => rfl

theorem mapCpuWrite_cpuBlind (a : Word) (d : Byte) : M.CpuBlind (mapCpuWrite a d) := by
  unfold mapCpuWrite
  split
  · exact .raise _
  · split
    · exact fun _ _ => rfl
    · exact mapperWrite_cpuBlind a d

theorem writeAbsent_cpuBlind (a : Word) : M.CpuBlind (writeAbsent a) := by
  refine .getS_bind fun c s => ?_
  have h1 : (s.withCpu c).params = s.params := rfl
  rw [h1]
  cases s.params.absentIo <;> rfl

theorem dmaCopy_cpuBlind (base : Word) : ∀ n, M.CpuBlind (dmaCopy base n)
  | 0 => .pure _
  | n + 1 => (memRead_cpuBlind _).bind fun _ => M.CpuBlind.bind (fun _ _ => rfl) fun _ => dmaCopy_cpuBlind base n

/-- A bus write anywhere but 0x4014 neither looks at the CPU nor changes it. -/
theorem memWrite_cpuBlind {a : Word} (h : a ≠ 0x4014) (v : Byte) : M.CpuBlind (memWrite a v) := by
  unfold memWrite
  rw [if_neg h]
  split
  · exact fun _ _ => rfl
  · split
    · exact writePpuRegister_cpuBlind a v
    · split
      · exact fun _ _ => rfl
      · split
        · exact writeAbsent_cpuBlind a
        · exact mapCpuWrite_cpuBlind a v

theorem memWrite_dma (v : Byte) : memWrite 0x4014 v = oamDma v := rfl

/-- OAM DMA in full: the copy, then the idle cycles by the parity of `cycles`. -/
theorem oamDma_apply (d : Byte) (s : State) :
    oamDma d s = (match dmaCopy (wordOf d 0) 256 s with
      | .ok (_, t) => .ok ((), t.withCpu { s.cpu with idle := s.cpu.idle + (513 + s.cpu.cycles % 2) })
      | .error e => .error e) := by
  unfold oamDma
  rw [M.bind_apply]
  cases h : dmaCopy (wordOf d 0) 256 s with
  | error e => rfl
  | ok r =>
    have hc : r.2.cpu = s.cpu := by
      have e := dmaCopy_cpuBlind (wordOf d 0) 256 s.cpu s
      rw [State.withCpu] at e
      rw [show ({ s with cpu := s.cpu } : State) = s from rfl, h] at e
      have := (Except.ok.inj e)
      rw [show r.2 = (r.2.withCpu s.cpu) from congrArg Prod.snd this]
      rfl
    show Except.ok ((), r.2.addIdleCycles (513 + r.2.cpu.cycles % 2)) = _
    rw [hc]
    unfold State.addIdleCycles
    rw [hc]
    rfl

/-- The idle cycles a write schedules. -/
def dmaCycles (a : Word) (cycles : Nat) : Nat := if a = 0x4014 then 513 + cycles % 2 else 0

/-- A bus write with another CPU of the same `cycles` parity. -/
theorem memWrite_withCpu (a : Word) (v : Byte) (c : Cpu) (s : State) :
    memWrite a v (s.withCpu c) = (match memWrite a v s with
      | .ok (_, t) => .ok ((), t.withCpu { c with idle := c.idle + dmaCycles a c.cycles })
      | .error e => .error (e.withCpu c)) := by
  by_cases h : a = 0x4014
  · subst h
    rw [memWrite_dma, oamDma_apply, oamDma_apply, dmaCopy_cpuBlind]
    cases dmaCopy (wordOf v 0) 256 s <;> rfl
  · rw [memWrite_cpuBlind h]
    cases memWrite a v s with
    | error e => rfl
    | ok r =>
      unfold dmaCycles
      rw [if_neg h]
      rfl

/-- The CPU after a bus write. -/
theorem memWrite_cpu {a : Word} {v : Byte} {s t : State} (h : memWrite a v s = .ok ((), t)) :
    t.cpu = { s.cpu with idle := s.cpu.idle + dmaCycles a s.cpu.cycles } := by
  have e := memWrite_withCpu a v s.cpu s
  rw [show s.withCpu s.cpu = s from rfl, h] at e
  have := congrArg Prod.snd (Except.ok.inj e)
  exact congrArg State.cpu this

end Sys2Proof.Machine
end

