-- ==== Sys2Proof/Laws/Frame.lean ====
section
/-! SUPPORT. What an instruction may change, by permits: a permit names the registers and flags a computation may write and
whether it may write to the bus; each handler stays within the permit of its mnemonic. -/

namespace Sys2Proof.Machine

/-- What a computation may write. -/
structure Permit where
  regA : Bool := false
  regX : Bool := false
  regY : Bool := false
  regS : Bool := false
  flagC : Bool := false
  flagZN : Bool := false
  flagI : Bool := false
  flagD : Bool := false
  flagB : Bool := false
  flagV : Bool := false
  cycles : Bool := false
  bus : Bool := false

/-- The CPU's registers differ only where the permit allows, and in PC and the idle cycles. -/
structure Permit.AllowsCpu (p : Permit) (c d : Cpu) : Prop where
  regA : p.regA = false → d.a = c.a
  regX : p.regX = false → d.x = c.x
  regY : p.regY = false → d.y = c.y
  regS : p.regS = false → d.s = c.s
  flagC : p.flagC = false → d.p.c = c.p.c
  flagZN : p.flagZN = false → d.p.z = c.p.z ∧ d.p.n = c.p.n
  flagI : p.flagI = false → d.p.i = c.p.i
  flagD : p.flagD = false → d.p.d = c.p.d
  flagB : p.flagB = false → d.p.b = c.p.b
  flagV : p.flagV = false → d.p.v = c.p.v
  cycles : p.cycles = false → d.cycles = c.cycles
  nmi : d.nmiPending = c.nmiPending
  irq : d.irqPending = c.irqPending

/-- The machine differs only where the permit allows and in what a device read changes. -/
structure Permit.Allows (p : Permit) (s t : State) : Prop where
  cpu : p.AllowsCpu s.cpu t.cpu
  idle : s.cpu.idle ≤ t.cpu.idle
  quiet : p.bus = false → t.cpu.idle = s.cpu.idle ∧
    t.ppu = { s.ppu with v := t.ppu.v, w := t.ppu.w, vblank := t.ppu.vblank, readBuffer := t.ppu.readBuffer } ∧
    t = { s with cpu := t.cpu, ppu := t.ppu, pads := t.pads, draws := t.draws }
  ppu : t.ppu = s.ppu.scanOf t.ppu
  rest : t = { s with cpu := t.cpu, ram := t.ram, ppu := t.ppu, map := t.map, prgRam := t.prgRam, chrRam := t.chrRam,
                      pads := t.pads, draws := t.draws }

theorem Permit.AllowsCpu.refl (p : Permit) (c : Cpu) : p.AllowsCpu c c := by
  constructor <;> simp

theorem Permit.AllowsCpu.trans {p : Permit} {c d e : Cpu} (h : p.AllowsCpu c d) (k : p.AllowsCpu d e) :
    p.AllowsCpu c e where
  regA q := (k.regA q).trans (h.regA q)
  regX q := (k.regX q).trans (h.regX q)
  regY q := (k.regY q).trans (h.regY q)
  regS q := (k.regS q).trans (h.regS q)
  flagC q := (k.flagC q).trans (h.flagC q)
  flagZN q := ⟨(k.flagZN q).1.trans (h.flagZN q).1, (k.flagZN q).2.trans (h.flagZN q).2⟩
  flagI q := (k.flagI q).trans (h.flagI q)
  flagD q := (k.flagD q).trans (h.flagD q)
  flagB q := (k.flagB q).trans (h.flagB q)
  flagV q := (k.flagV q).trans (h.flagV q)
  cycles q := (k.cycles q).trans (h.cycles q)
  nmi := k.nmi.trans h.nmi
  irq := k.irq.trans h.irq

theorem Permit.Allows.refl (p : Permit) (s : State) : p.Allows s s :=
  ⟨.refl p _, Nat.le_refl _, fun _ => ⟨rfl, rfl, rfl⟩, rfl, rfl⟩

theorem Permit.Allows.trans {p : Permit} {s t u : State} (h : p.Allows s t) (k : p.Allows t u) : p.Allows s u where
  cpu := h.cpu.trans k.cpu
  idle := Nat.le_trans h.idle k.idle
  quiet q := by
    obtain ⟨h1, h2, h3⟩ := h.quiet q
    obtain ⟨k1, k2, k3⟩ := k.quiet q
    refine ⟨k1.trans h1, ?_, ?_⟩
    · rw [k2, h2]
    · rw [k3, h3]
  ppu := by
    rw [k.ppu, h.ppu]
    rfl
  rest := by rw [k.rest, h.rest]

/-! ### Computations within a permit -/

/-- A computation stays within a permit. -/
def M.Within {α : Type} (p : Permit) (x : M α) : Prop := ∀ s a t, x s = .ok (a, t) → p.Allows s t

theorem M.Within.bind {α β : Type} {p : Permit} {x : M α} {f : α → M β} (hx : x.Within p) (hf : ∀ a, (f a).Within p) :
    (x >>= f).Within p := by
  intro s b u h
  obtain ⟨a, t, h1, h2⟩ := M.bind_ok.mp h
  exact (hx s a t h1).trans (hf a t b u h2)

theorem M.Within.getS {p : Permit} : M.Within p Machine.getS := by
  intro s a t h
  cases h
  exact .refl p s

theorem M.Within.pure {α : Type} {p : Permit} (a : α) : M.Within p (Pure.pure a : M α) := by
  intro s b t h
  cases h
  exact .refl p s

theorem M.Within.ite {α : Type} {p : Permit} {c : Prop} [Decidable c] {x y : M α} (hx : x.Within p) (hy : y.Within p) :
    M.Within p (if c then x else y) := by
  split
  · exact hx
  · exact hy

/-- A change of the CPU alone. -/
theorem M.Within.cpu {p : Permit} {f : State → State} (g : Cpu → Cpu) (hf : ∀ s, f s = { s with cpu := g s.cpu })
    (hi : ∀ c, (g c).idle = c.idle) (hg : ∀ c, p.AllowsCpu c (g c)) : M.Within p (Machine.update f) := by
  intro s b t e
  cases e
  rw [hf]
  exact ⟨hg _, Nat.le_of_eq (hi _).symm, fun _ => ⟨hi _, rfl, rfl⟩, rfl, rfl⟩

theorem memRead_within {p : Permit} (a : Word) : M.Within p (memRead a) := by
  intro s b t h
  have hr := memRead_frame h
  have hc := memRead_cpu h
  refine ⟨?_, ?_, fun _ => ⟨by rw [hc], hr.ppu, ?_⟩, hr.toWrite.ppu, hr.toWrite.rest⟩
  · rw [hc]
    exact .refl p _
  · rw [hc]
  · rw [hr.rest]

theorem memWrite_within {p : Permit} (hp : p.bus = true) (a : Word) (v : Byte) : M.Within p (memWrite a v) := by
  intro s b t h
  have hw := memWrite_frame h
  have hc := memWrite_cpu h
  refine ⟨?_, ?_, fun q => ?_, hw.ppu, hw.rest⟩
  · rw [hc]
    constructor <;> simp
  · rw [hc]
    exact Nat.le_add_right _ _
  · rw [hp] at q
    cases q

theorem setA_within {p : Permit} (h : p.regA = true) (v : Byte) : M.Within p (update (·.setA v)) :=
  .cpu (fun c => { c with a := v }) (fun _ => rfl) (fun _ => rfl) fun _ => by constructor <;> simp [h]

theorem setX_within {p : Permit} (h : p.regX = true) (v : Byte) : M.Within p (update (·.setX v)) :=
  .cpu (fun c => { c with x := v }) (fun _ => rfl) (fun _ => rfl) fun _ => by constructor <;> simp [h]

theorem setY_within {p : Permit} (h : p.regY = true) (v : Byte) : M.Within p (update (·.setY v)) :=
  .cpu (fun c => { c with y := v }) (fun _ => rfl) (fun _ => rfl) fun _ => by constructor <;> simp [h]

theorem setPc_within {p : Permit} (v : Word) : M.Within p (update (·.setPc v)) :=
  .cpu (fun c => { c with pc := v }) (fun _ => rfl) (fun _ => rfl) fun _ => by constructor <;> simp

theorem addCycles_within {p : Permit} (h : p.cycles = true) (n : Nat) : M.Within p (update (·.addCycles n)) :=
  .cpu (fun c => { c with cycles := c.cycles + n }) (fun _ => rfl) (fun _ => rfl) fun _ => by constructor <;> simp [h]

theorem moveSp_within {p : Permit} (h : p.regS = true) (f : Cpu → Byte) :
    M.Within p (update fun s => s.setSp (f s.cpu)) :=
  .cpu (fun c => { c with s := f c }) (fun _ => rfl) (fun _ => rfl) fun _ => by constructor <;> simp [h]

theorem updateFlags_within {p : Permit} {f : Flags → Flags} (hc : p.flagC = false → ∀ q, (f q).c = q.c)
    (hzn : p.flagZN = false → ∀ q, (f q).z = q.z ∧ (f q).n = q.n) (hi : p.flagI = false → ∀ q, (f q).i = q.i)
    (hd : p.flagD = false → ∀ q, (f q).d = q.d) (hb : p.flagB = false → ∀ q, (f q).b = q.b)
    (hv : p.flagV = false → ∀ q, (f q).v = q.v) : M.Within p (updateFlags f) :=
  .cpu (fun c => { c with p := f c.p }) (fun _ => rfl) (fun _ => rfl) fun _ =>
    ⟨fun _ => rfl, fun _ => rfl, fun _ => rfl, fun _ => rfl, fun q => hc q _, fun q => hzn q _, fun q => hi q _,
      fun q => hd q _, fun q => hb q _, fun q => hv q _, fun _ => rfl, rfl, rfl⟩

theorem setZN_within {p : Permit} (h : p.flagZN = true) (v : Byte) : M.Within p (updateFlags (·.setZN v)) :=
  updateFlags_within (fun _ _ => rfl) (by simp [h]) (fun _ _ => rfl) (fun _ _ => rfl) (fun _ _ => rfl) (fun _ _ => rfl)

theorem push_within {p : Permit} (hb : p.bus = true) (hs : p.regS = true) (v : Byte) : M.Within p (push v) :=
  M.Within.getS.bind fun _ => (memWrite_within hb _ _).bind fun _ => moveSp_within hs fun c => c.s - 1

theorem push16_within {p : Permit} (hb : p.bus = true) (hs : p.regS = true) (w : Word) : M.Within p (push16 w) :=
  (push_within hb hs _).bind fun _ => push_within hb hs _

theorem pull_within {p : Permit} (hs : p.regS = true) : M.Within p pull :=
  (moveSp_within hs fun c => c.s + 1).bind fun _ => M.Within.getS.bind fun _ => memRead_within _

theorem pull16_within {p : Permit} (hs : p.regS = true) : M.Within p pull16 :=
  (pull_within hs).bind fun _ => (pull_within hs).bind fun _ => .pure _

theorem read16_within {p : Permit} (a : Word) : M.Within p (read16 a) :=
  (memRead_within _).bind fun _ => (memRead_within _).bind fun _ => .pure _

theorem read16Bug_within {p : Permit} (a : Word) : M.Within p (read16Bug a) :=
  (memRead_within _).bind fun _ => (memRead_within _).bind fun _ => .pure _

theorem resolve_within {p : Permit} (o : Operand) (pc0 : Word) : M.Within p (resolve o pc0) := by
  refine M.Within.getS.bind fun s => ?_
  cases o with
  | indirect w => exact (read16Bug_within _).bind fun _ => .pure _
  | indirectX b => exact (read16Bug_within _).bind fun _ => .pure _
  | indirectY b => exact (read16Bug_within _).bind fun _ => .pure _
  | _ => exact .pure _

theorem Target.read_within {p : Permit} (t : Target) : M.Within p t.read := by
  cases t with
  | memory ea => exact memRead_within ea
  | accumulator => exact M.Within.getS.bind fun _ => .pure _
  | _ => exact .pure _

theorem Target.write_within {p : Permit} {t : Target} (ha : t = .accumulator → p.regA = true)
    (hb : t ≠ .accumulator → p.bus = true) (v : Byte) : M.Within p (t.write v) := by
  cases t with
  | memory ea => exact memWrite_within (hb (by simp)) ea v
  | accumulator => exact setA_within (ha rfl) v
  | _ => exact .pure _

/-! ### The handlers -/

/-- The permit of each mnemonic; `inA` for the accumulator forms of the shifts. -/
def permitOf (inA : Bool) : Mnemonic → Permit
  | .lda | .and | .ora | .eor | .txa | .tya => { regA := true, flagZN := true }
  | .ldx | .tax | .inx | .dex | .tsx => { regX := true, flagZN := true }
  | .ldy | .tay | .iny | .dey => { regY := true, flagZN := true }
  | .sta | .stx | .sty => { bus := true }
  | .txs => { regS := true }
  | .pha | .php => { regS := true, bus := true }
  | .pla => { regA := true, regS := true, flagZN := true }
  | .plp | .rti =>
    { regS := true, flagC := true, flagZN := true, flagI := true, flagD := true, flagB := true, flagV := true }
  | .adc | .sbc => { regA := true, flagC := true, flagZN := true, flagV := true }
  | .cmp | .cpx | .cpy => { flagC := true, flagZN := true }
  | .bit => { flagZN := true, flagV := true }
  | .inc | .dec => { flagZN := true, bus := true }
  | .asl | .lsr | .rol | .ror => { regA := inA, flagC := true, flagZN := true, bus := !inA }
  | .jmp | .nop => {}
  | .jsr => { regS := true, bus := true }
  | .rts => { regS := true }
  | .brk => { regS := true, flagI := true, bus := true }
  | .bcc | .bcs | .beq | .bne | .bmi | .bpl | .bvc | .bvs => { cycles := true }
  | .clc | .sec => { flagC := true }
  | .cli | .sei => { flagI := true }
  | .clv => { flagV := true }
  | .cld | .sed => { flagD := true }

/-- A flag instruction. -/
theorem flag_within {p : Permit} (f : Flags → Flags) (h : ∀ c : Cpu, p.AllowsCpu c { c with p := f c.p }) :
    M.Within p (updateFlags f) :=
  .cpu (fun c => { c with p := f c.p }) (fun _ => rfl) (fun _ => rfl) h

theorem branch_within {p : Permit} (h : p.cycles = true) (cond : Flags → Bool) (t : Target) : M.Within p (branch cond t) :=
  M.Within.getS.bind fun _ => .ite ((setPc_within _).bind fun _ => addCycles_within h _) (.pure _)

theorem addToA_within {p : Permit} (ha : p.regA = true) (hc : p.flagC = true) (hz : p.flagZN = true)
    (hv : p.flagV = true) (m : Byte) : M.Within p (addToA m) :=
  M.Within.getS.bind fun _ => (setA_within ha _).bind fun _ =>
    updateFlags_within (by simp [hc]) (by simp [hz]) (fun _ _ => rfl) (fun _ _ => rfl) (fun _ _ => rfl) (by simp [hv])

theorem combineA_within {p : Permit} (ha : p.regA = true) (hz : p.flagZN = true) (f : Byte → Byte → Byte) (t : Target) :
    M.Within p (combineA f t) :=
  t.read_within.bind fun _ => M.Within.getS.bind fun _ => (setA_within ha _).bind fun _ => setZN_within hz _

theorem compare_within {p : Permit} (hc : p.flagC = true) (hz : p.flagZN = true) (r m : Byte) :
    M.Within p (updateFlags (·.compare r m)) :=
  updateFlags_within (by simp [hc]) (by simp [hz]) (fun _ _ => rfl) (fun _ _ => rfl) (fun _ _ => rfl) (fun _ _ => rfl)

theorem stepMemory_within {p : Permit} {t : Target} (hz : p.flagZN = true) (ha : t = .accumulator → p.regA = true)
    (hb : t ≠ .accumulator → p.bus = true) (f : Byte → Byte) : M.Within p (stepMemory f t) :=
  t.read_within.bind fun _ => (Target.write_within ha hb _).bind fun _ => setZN_within hz _

theorem shiftOperand_within {p : Permit} {t : Target} (hc : p.flagC = true) (hz : p.flagZN = true)
    (ha : t = .accumulator → p.regA = true) (hb : t ≠ .accumulator → p.bus = true) (f : Byte → Bool → Shifted) :
    M.Within p (shiftOperand f t) :=
  t.read_within.bind fun m => M.Within.getS.bind fun s =>
    (updateFlags_within (f := fun q => { q with c := (f m s.cpu.p.c).out }) (by simp [hc]) (fun _ _ => ⟨rfl, rfl⟩) (fun _ _ => rfl) (fun _ _ => rfl) (fun _ _ => rfl)
      (fun _ _ => rfl)).bind fun _ => (Target.write_within ha hb _).bind fun _ => setZN_within hz _

theorem unpack_within {p : Permit} (hc : p.flagC = true) (hz : p.flagZN = true) (hi : p.flagI = true)
    (hd : p.flagD = true) (hb : p.flagB = true) (hv : p.flagV = true) (v : Byte) :
    M.Within p (updateFlags fun _ => Flags.unpack v) :=
  updateFlags_within (by simp [hc]) (by simp [hz]) (by simp [hi]) (by simp [hd]) (by simp [hb]) (by simp [hv])

theorem saveFrame_within {p : Permit} (hb : p.bus = true) (hs : p.regS = true) (ret : Word) (b : Bool) :
    M.Within p (saveFrame ret b) :=
  (push16_within hb hs _).bind fun _ => M.Within.getS.bind fun _ => push_within hb hs _

theorem loadVector_within {p : Permit} (vec : Word) : M.Within p (loadVector vec) :=
  (read16_within _).bind fun target =>
    .cpu (fun c => { c with pc := target }) (fun _ => rfl) (fun _ => rfl) fun _ => by constructor <;> simp

theorem disableInterrupts_within {p : Permit} (hi : p.flagI = true) : M.Within p disableInterrupts :=
  .cpu (fun c => { c with p := { c.p with i := true } }) (fun _ => rfl) (fun _ => rfl) fun _ => by constructor <;> simp [hi]

theorem takeBreak_within {p : Permit} (hb : p.bus = true) (hs : p.regS = true) (hi : p.flagI = true) (ret : Word) :
    M.Within p (takeBreak ret) :=
  (saveFrame_within hb hs _ _).bind fun _ => (disableInterrupts_within hi).bind fun _ => loadVector_within _

/-- Every handler stays within the permit of its mnemonic. -/
theorem handler_within (mn : Mnemonic) (t : Target) (ht : t = .accumulator → mn ∉ [.sta, .stx, .sty, .inc, .dec]) :
    M.Within (permitOf (decide (t = .accumulator)) mn) (handlerOf mn t) := by
  have shA : ∀ q : Bool, t = .accumulator → (permitOf (decide (t = .accumulator)) .asl).regA = true := by
    intro _ h
    simp [permitOf, h]
  have shB : t ≠ .accumulator → (permitOf (decide (t = .accumulator)) .asl).bus = true := by
    intro h
    simp [permitOf, h]
  cases mn with
  | lda => exact t.read_within.bind fun _ => (setA_within rfl _).bind fun _ => setZN_within rfl _
  | ldx => exact t.read_within.bind fun _ => (setX_within rfl _).bind fun _ => setZN_within rfl _
  | ldy => exact t.read_within.bind fun _ => (setY_within rfl _).bind fun _ => setZN_within rfl _
  | sta => exact M.Within.getS.bind fun _ => Target.write_within (fun h => absurd (by simp) (ht h)) (fun _ => rfl) _
  | stx => exact M.Within.getS.bind fun _ => Target.write_within (fun h => absurd (by simp) (ht h)) (fun _ => rfl) _
  | sty => exact M.Within.getS.bind fun _ => Target.write_within (fun h => absurd (by simp) (ht h)) (fun _ => rfl) _
  | tax => exact M.Within.getS.bind fun _ => (setX_within rfl _).bind fun _ => setZN_within rfl _
  | tay => exact M.Within.getS.bind fun _ => (setY_within rfl _).bind fun _ => setZN_within rfl _
  | txa => exact M.Within.getS.bind fun _ => (setA_within rfl _).bind fun _ => setZN_within rfl _
  | tya => exact M.Within.getS.bind fun _ => (setA_within rfl _).bind fun _ => setZN_within rfl _
  | tsx => exact M.Within.getS.bind fun _ => (setX_within rfl _).bind fun _ => setZN_within rfl _
  | txs => exact moveSp_within rfl fun c => c.x
  | pha => exact M.Within.getS.bind fun _ => push_within rfl rfl _
  | php => exact M.Within.getS.bind fun _ => push_within rfl rfl _
  | pla => exact (pull_within rfl).bind fun _ => (setA_within rfl _).bind fun _ => setZN_within rfl _
  | plp => exact (pull_within rfl).bind fun _ => unpack_within rfl rfl rfl rfl rfl rfl _
  | adc => exact t.read_within.bind fun _ => addToA_within rfl rfl rfl rfl _
  | sbc => exact t.read_within.bind fun _ => addToA_within rfl rfl rfl rfl _
  | and => exact combineA_within rfl rfl _ t
  | ora => exact combineA_within rfl rfl _ t
  | eor => exact combineA_within rfl rfl _ t
  | cmp => exact t.read_within.bind fun _ => M.Within.getS.bind fun _ => compare_within rfl rfl _ _
  | cpx => exact t.read_within.bind fun _ => M.Within.getS.bind fun _ => compare_within rfl rfl _ _
  | cpy => exact t.read_within.bind fun _ => M.Within.getS.bind fun _ => compare_within rfl rfl _ _
  | bit =>
    exact t.read_within.bind fun _ => M.Within.getS.bind fun _ =>
      flag_within (p := permitOf _ .bit) (fun q => q.bitTest _ _) fun _ => by
        constructor <;> simp [permitOf, Flags.bitTest]
  | inc => exact stepMemory_within rfl (fun h => absurd (by simp) (ht h)) (fun _ => rfl) _
  | dec => exact stepMemory_within rfl (fun h => absurd (by simp) (ht h)) (fun _ => rfl) _
  | inx => exact M.Within.getS.bind fun _ => (setX_within rfl _).bind fun _ => setZN_within rfl _
  | iny => exact M.Within.getS.bind fun _ => (setY_within rfl _).bind fun _ => setZN_within rfl _
  | dex => exact M.Within.getS.bind fun _ => (setX_within rfl _).bind fun _ => setZN_within rfl _
  | dey => exact M.Within.getS.bind fun _ => (setY_within rfl _).bind fun _ => setZN_within rfl _
  | asl => exact shiftOperand_within rfl rfl (shA true) shB _
  | lsr => exact shiftOperand_within rfl rfl (shA true) shB _
  | rol => exact shiftOperand_within rfl rfl (shA true) shB _
  | ror => exact shiftOperand_within rfl rfl (shA true) shB _
  | jmp => exact setPc_within _
  | jsr => exact M.Within.getS.bind fun _ => (push16_within rfl rfl _).bind fun _ => setPc_within _
  | rts => exact (pull16_within rfl).bind fun _ => setPc_within _
  | rti =>
    exact (pull_within rfl).bind fun _ => (unpack_within rfl rfl rfl rfl rfl rfl _).bind fun _ =>
      (pull16_within rfl).bind fun _ => setPc_within _
  | brk => exact M.Within.getS.bind fun _ => takeBreak_within rfl rfl rfl _
  | bcc => exact branch_within (p := permitOf _ .bcc) rfl (fun q => !q.c) t
  | bcs => exact branch_within (p := permitOf _ .bcs) rfl (fun q => q.c) t
  | beq => exact branch_within (p := permitOf _ .beq) rfl (fun q => q.z) t
  | bne => exact branch_within (p := permitOf _ .bne) rfl (fun q => !q.z) t
  | bmi => exact branch_within (p := permitOf _ .bmi) rfl (fun q => q.n) t
  | bpl => exact branch_within (p := permitOf _ .bpl) rfl (fun q => !q.n) t
  | bvc => exact branch_within (p := permitOf _ .bvc) rfl (fun q => !q.v) t
  | bvs => exact branch_within (p := permitOf _ .bvs) rfl (fun q => q.v) t
  | clc => exact flag_within (p := permitOf _ .clc) (fun q => { q with c := false }) (fun _ => by constructor <;> simp [permitOf])
  | sec => exact flag_within (p := permitOf _ .sec) (fun q => { q with c := true }) (fun _ => by constructor <;> simp [permitOf])
  | cli => exact flag_within (p := permitOf _ .cli) (fun q => { q with i := false }) (fun _ => by constructor <;> simp [permitOf])
  | sei => exact flag_within (p := permitOf _ .sei) (fun q => { q with i := true }) (fun _ => by constructor <;> simp [permitOf])
  | clv => exact flag_within (p := permitOf _ .clv) (fun q => { q with v := false }) (fun _ => by constructor <;> simp [permitOf])
  | cld => exact flag_within (p := permitOf _ .cld) (fun q => { q with d := false }) (fun _ => by constructor <;> simp [permitOf])
  | sed => exact flag_within (p := permitOf _ .sed) (fun q => { q with d := true }) (fun _ => by constructor <;> simp [permitOf])
  | nop => exact .pure _

/-! ### Instructions -/

/-- The same permit with the cycle count free. -/
def Permit.timed (p : Permit) : Permit := { p with cycles := true }

theorem Permit.Allows.timed {p : Permit} {s t : State} (h : p.Allows s t) : p.timed.Allows s t :=
  ⟨⟨h.cpu.regA, h.cpu.regX, h.cpu.regY, h.cpu.regS, h.cpu.flagC, h.cpu.flagZN, h.cpu.flagI, h.cpu.flagD, h.cpu.flagB,
    h.cpu.flagV, nofun, h.cpu.nmi, h.cpu.irq⟩, h.idle, h.quiet, h.ppu, h.rest⟩

/-- An operand resolves to the accumulator exactly in the accumulator mode. -/
theorem resolve_target {o : Operand} {pc0 : Word} {s t : State} {r : Resolved} (h : resolve o pc0 s = .ok (r, t)) :
    r.target = .accumulator ↔ o = .accumulator := by
  unfold resolve at h
  rw [M.getS_bind] at h
  cases o with
  | indirect w =>
    obtain ⟨x, u, _, h2⟩ := M.bind_ok.mp h
    cases h2
    simp [Resolved.at]
  | indirectX b =>
    obtain ⟨x, u, _, h2⟩ := M.bind_ok.mp h
    cases h2
    simp [Resolved.at]
  | indirectY b =>
    obtain ⟨x, u, _, h2⟩ := M.bind_ok.mp h
    cases h2
    simp [Resolved.indexed]
  | _ =>
    cases h
    simp [Resolved.at, Resolved.indexed]

/-- Only the shifts have an accumulator form. -/
theorem accumulator_mnemonic {i : Instr} (h : i.row.operand = .accumulator) :
    i.row.mnemonic ∉ [.sta, .stx, .sty, .inc, .dec] := by
  cases i <;> first
    | decide
    | exact absurd h (by simp [Instr.row])

/-- An instruction that completes: its operand resolved to r in u, and its handler ran from the advanced state to t. -/
theorem exec_next {i : Instr} {s t : State} (h : exec i s = .next t) :
    ∃ r u, resolve i.row.operand s.cpu.pc s = .ok (r, u) ∧
      handlerOf i.row.mnemonic r.target ((u.setPc (s.cpu.pc + BitVec.ofNat 16 i.row.operand.size)).addCycles
        (i.row.base + if i.row.pageFlag && r.crossed then 1 else 0)) = .ok ((), t) := by
  rw [exec_eq, M.outcome_next] at h
  unfold runRow at h
  rw [M.getS_bind] at h
  obtain ⟨r, u, h1, h2⟩ := M.bind_ok.mp h
  exact ⟨r, u, h1, h2⟩

/-- What an instruction may change. -/
theorem exec_allows {i : Instr} {s t : State} (h : exec i s = .next t) :
    (permitOf (decide (i.row.operand = .accumulator)) i.row.mnemonic).timed.Allows s t := by
  obtain ⟨r, u, h1, h2⟩ := exec_next h
  have hr := resolve_target h1
  have hw := handler_within i.row.mnemonic r.target (fun e => accumulator_mnemonic (hr.mp e)) _ _ _ h2
  have e : decide (r.target = .accumulator) = decide (i.row.operand = .accumulator) := by
    rw [decide_eq_decide]
    exact hr
  rw [e] at hw
  refine (resolve_within _ _ _ _ _ h1).trans (.trans ?_ hw.timed)
  exact (setPc_within _ u () _ rfl).trans (addCycles_within rfl _ _ () _ rfl)

/-- Cycles of the instruction's row: 2 to 7, a branch 2. -/
theorem row_cycles (i : Instr) (crossed : Bool) :
    2 ≤ (i.row.base + if i.row.pageFlag && crossed then 1 else 0) ∧
      (i.row.base + if i.row.pageFlag && crossed then 1 else 0) ≤ 7 ∧
      ((permitOf false i.row.mnemonic).cycles = true →
        (i.row.base + if i.row.pageFlag && crossed then 1 else 0) = 2) := by
  cases i <;> cases crossed <;> simp [Instr.row, permitOf]

theorem branch_cycles {cond : Flags → Bool} {t : Target} {s u : State} (h : branch cond t s = .ok ((), u)) :
    s.cpu.cycles ≤ u.cpu.cycles ∧ u.cpu.cycles ≤ s.cpu.cycles + 2 := by
  unfold branch at h
  rw [M.getS_bind] at h
  split at h
  · rw [M.update_bind] at h
    cases h
    simp only [State.addCycles_cpu, State.setPc_cpu]
    split <;> omega
  · cases h
    omega

/-- Every instruction takes 2 to 7 cycles. -/
theorem exec_cycles {i : Instr} {s t : State} (h : exec i s = .next t) :
    s.cpu.cycles + 2 ≤ t.cpu.cycles ∧ t.cpu.cycles ≤ s.cpu.cycles + 7 := by
  obtain ⟨r, u, h1, h2⟩ := exec_next h
  have hu : u.cpu.cycles = s.cpu.cycles := (resolve_within (p := {}) _ _ _ _ _ h1).cpu.cycles rfl
  have hw := handler_within i.row.mnemonic r.target
    (fun e => accumulator_mnemonic ((resolve_target h1).mp e)) _ _ _ h2
  obtain ⟨l, k, hb⟩ := row_cycles i r.crossed
  cases hc : (permitOf (decide (r.target = .accumulator)) i.row.mnemonic).cycles with
  | false =>
    have := hw.cpu.cycles hc
    simp only [State.addCycles_cpu, State.setPc_cpu, hu] at this
    omega
  | true =>
    have hb' : ∃ cond, handlerOf i.row.mnemonic = branch cond := by
      revert hc
      cases i.row.mnemonic <;> intro hc <;> first
        | exact ⟨_, rfl⟩
        | exact ⟨fun q => !q.c, rfl⟩
        | exact ⟨fun q => !q.z, rfl⟩
        | exact ⟨fun q => !q.n, rfl⟩
        | exact ⟨fun q => !q.v, rfl⟩
        | cases hc
    have hc' : (permitOf false i.row.mnemonic).cycles = true := by
      revert hc
      cases i.row.mnemonic <;> intro hc <;> first
        | rfl
        | cases hc
    obtain ⟨cond, e⟩ := hb'
    rw [e] at h2
    have := branch_cycles h2
    have hb2 := hb hc'
    simp only [State.addCycles_cpu, State.setPc_cpu, hu] at this
    omega

end Sys2Proof.Machine
end

