-- ==== Sys2Proof/Laws/Interrupt.lean ====
section
/-! SUPPORT. Taking an exception and returning from one, said once: the frame pushed on the stack, the vector read through
the program window, the registers after. -/

namespace Sys2Proof.Machine

/-- Storage in the program window depends on the cartridge, the parameters and the mapper alone. -/
theorem peek_program_congr {s t : State} {a : Word} (ha : 0x8000 ≤ a.toNat) (hp : t.params = s.params)
    (hc : t.cart = s.cart) (hm : t.map = s.map) : peek t a = peek s a := by
  unfold peek
  rw [if_neg (by omega), if_neg (by omega), if_neg (by omega), if_neg (by omega), if_neg (by omega), if_neg (by omega)]
  unfold prgIndex
  rw [hp, hc, hm]

/-- An address of the program window with no byte behind it is refused. -/
theorem memRead_of_no_program {a : Word} {s : State} (ha : 0x8000 ≤ a.toNat) (h : peek s a = none) :
    memRead a s =
      .error (.raised (.invalidAccess .cpu a .read) (s.recordFault (.invalidAccess .cpu a .read))) := by
  unfold peek at h
  rw [if_neg (by omega), if_neg (by omega), if_neg (by omega)] at h
  have hk : prgIndex s a.toNat = none := by simpa using h
  have e16 : a ≠ 0x4016 := by rintro rfl; simp at ha
  have e17 : a ≠ 0x4017 := by rintro rfl; simp at ha
  unfold memRead
  rw [if_neg (by omega), if_neg (by omega), if_neg e16, if_neg e17, if_neg (by omega)]
  apply look_of_error
  unfold mapCpuRead
  rw [if_neg (by omega), if_neg (by omega), hk]

/-- The machine with the three bytes of an exception's frame pushed. -/
def State.withFrame (s : State) (ret : Word) (b : Bool) : State :=
  (((s.writeRam (0x100 + s.cpu.s.toNat) (hiByte ret)).writeRam (0x100 + (s.cpu.s - 1).toNat) (loByte ret)).writeRam
    (0x100 + (s.cpu.s - 2).toNat) (s.cpu.p.pack b)).setSp (s.cpu.s - 3)

theorem saveFrame_apply (ret : Word) (b : Bool) (s : State) : saveFrame ret b s = .ok ((), s.withFrame ret b) := by
  unfold saveFrame
  rw [M.bind_of_ok (push16_apply _ _), M.getS_bind, push_apply]
  simp only [State.setSp_cpu, State.writeRam_cpu, BitVec.sub_sub]
  rfl

/-- The load of PC from a vector: from the two bytes storage holds, or it stops at the first byte that is missing. -/
theorem loadVector_next {vec : Word} {s : State} {lo hi : Byte} (hlo : peek s vec = some lo)
    (hhi : peek s (vec + 1) = some hi) : loadVector vec s = .ok ((), s.setPc (wordOf hi lo)) := by
  unfold loadVector
  rw [M.bind_of_ok (read16_of_peek hlo hhi)]
  rfl

theorem loadVector_low_fault {vec : Word} {s : State} (h1 : 0x8000 ≤ vec.toNat) (hlo : peek s vec = none) :
    loadVector vec s =
      .error (.raised (.invalidAccess .cpu vec .read) (s.recordFault (.invalidAccess .cpu vec .read))) :=
  M.bind_of_error (M.bind_of_error (memRead_of_no_program h1 hlo))

theorem loadVector_high_fault {vec : Word} {s : State} {lo : Byte} (h2 : 0x8000 ≤ (vec + 1).toNat)
    (hlo : peek s vec = some lo) (hhi : peek s (vec + 1) = none) :
    loadVector vec s =
      .error (.raised (.invalidAccess .cpu (vec + 1) .read) (s.recordFault (.invalidAccess .cpu (vec + 1) .read))) := by
  refine M.bind_of_error ?_
  unfold read16
  rw [M.bind_of_ok (memRead_of_peek hlo)]
  exact M.bind_of_error (memRead_of_no_program h2 hhi)

/-- Saving changes no program byte. -/
theorem peek_withFrame (s : State) (ret : Word) (b : Bool) {a : Word} (ha : 0x8000 ≤ a.toNat) :
    peek (s.withFrame ret b) a = peek s a := peek_program_congr ha rfl rfl rfl

theorem takeVector_eq (ret vec : Word) (b : Bool) (s : State) :
    takeVector ret b vec s = (loadVector vec >>= fun _ => disableInterrupts) (s.withFrame ret b) :=
  M.bind_of_ok (saveFrame_apply ret b s)

/-- BRK after the save: `P.I` is set whether or not the vector can be read. -/
theorem takeBreak_eq (ret : Word) (s : State) :
    takeBreak ret s = loadVector irqVector ((s.withFrame ret true).setP { s.cpu.p with i := true }) :=
  M.bind_of_ok (saveFrame_apply ret true s)

/-- Taking an interrupt through a vector that storage holds. -/
theorem takeVector_next {ret vec : Word} {b : Bool} {s : State} {lo hi : Byte} (h1 : 0x8000 ≤ vec.toNat)
    (h2 : 0x8000 ≤ (vec + 1).toNat) (hlo : peek s vec = some lo) (hhi : peek s (vec + 1) = some hi) :
    takeVector ret b vec s =
      .ok ((), ((s.withFrame ret b).setPc (wordOf hi lo)).setP { s.cpu.p with i := true }) := by
  rw [takeVector_eq, M.bind_of_ok (loadVector_next ((peek_withFrame s ret b h1).trans hlo)
    ((peek_withFrame s ret b h2).trans hhi))]
  rfl

/-- The return from an interrupt in full. -/
theorem returnFromInterrupt_apply (s : State) :
    returnFromInterrupt s = .ok ((), ((s.setSp (s.cpu.s + 3)).setP
      (Flags.unpack (s.ram.read (0x100 + (s.cpu.s + 1).toNat)))).setPc
        (wordOf (s.ram.read (0x100 + (s.cpu.s + 3).toNat)) (s.ram.read (0x100 + (s.cpu.s + 2).toNat)))) := by
  unfold returnFromInterrupt
  rw [M.bind_of_ok (pull_apply _), M.update_bind, M.bind_of_ok (pull16_apply _)]
  simp only [State.setP_cpu, State.setSp_cpu, BitVec.add_assoc]
  rfl

/-- The frame in canonical work RAM reads back: status, return address. -/
theorem stack_ne {s : Byte} {m n : Byte} (h : s - m ≠ s - n) : 0x100 + (s - m).toNat ≠ 0x100 + (s - n).toNat := by
  intro e
  exact h (BitVec.eq_of_toNat_eq (Nat.add_left_cancel e))

/-! ### The CPU's step -/

theorem cpuStep_nmi {s : State} (hf : s.fault = none) (hi : s.cpu.idle = 0) (hn : s.cpu.nmiPending = true) :
    cpuStep s = takeNmi.outcome s := by
  unfold cpuStep
  rw [hf]
  simp [hi, hn]

theorem cpuStep_irq {s : State} (hf : s.fault = none) (hi : s.cpu.idle = 0) (hn : s.cpu.nmiPending = false)
    (hq : s.cpu.irqPending = true) (hm : s.cpu.p.i = false) : cpuStep s = takeIrq.outcome s := by
  unfold cpuStep
  rw [hf]
  simp [hi, hn, hq, hm]

theorem cpuStep_instruction {s : State} (hf : s.fault = none) (hi : s.cpu.idle = 0) (hn : s.cpu.nmiPending = false)
    (hq : s.cpu.irqPending = true → s.cpu.p.i = true) : cpuStep s = execInstruction s := by
  unfold cpuStep
  rw [hf]
  cases hp : s.cpu.irqPending <;> simp_all

end Sys2Proof.Machine
end

