-- ==== Sys2Proof/Laws/Routing.lean ====
section
/-! SUPPORT. Which device answers an address, and where a mapper's window lies: one equation per row of the bus routing
(20_memory.md R62) and per mapper (62_mappers.md R387, R391, R403, R417). -/

namespace Sys2Proof.Machine

/-! ### The rows of the bus routing -/

theorem memRead_register {a : Word} (h1 : 0x2000 ≤ a.toNat) (h2 : a.toNat < 0x4000) : memRead a = readPpuRegister a := by
  unfold memRead
  rw [if_neg (by omega), if_pos h2]

theorem memWrite_register {a : Word} (h1 : 0x2000 ≤ a.toNat) (h2 : a.toNat < 0x4000) (d : Byte) :
    memWrite a d = writePpuRegister a d := by
  unfold memWrite
  rw [if_neg (by omega), if_pos h2]

theorem memRead_absent {a : Word} (h1 : 0x4000 ≤ a.toNat) (h2 : a.toNat < 0x4020) (h3 : a ≠ 0x4016) (h4 : a ≠ 0x4017) :
    memRead a = readAbsent a := by
  unfold memRead
  rw [if_neg (by omega), if_neg (by omega), if_neg h3, if_neg h4, if_pos h2]

theorem memWrite_absent {a : Word} (h1 : 0x4000 ≤ a.toNat) (h2 : a.toNat < 0x4020) (h3 : a ≠ 0x4014) (h4 : a ≠ 0x4016)
    (d : Byte) : memWrite a d = writeAbsent a := by
  unfold memWrite
  rw [if_neg (by omega), if_neg (by omega), if_neg h3, if_neg h4, if_pos h2]

/-- An address at or above 0x4020 is none of the device registers. -/
theorem ne_devices {a : Word} (h : 0x4020 ≤ a.toNat) : a ≠ 0x4014 ∧ a ≠ 0x4016 ∧ a ≠ 0x4017 := by
  refine ⟨?_, ?_, ?_⟩ <;> rintro rfl <;> simp at h

theorem memRead_mapper {a : Word} (h : 0x4020 ≤ a.toNat) : memRead a = look (mapCpuRead a) := by
  obtain ⟨_, e16, e17⟩ := ne_devices h
  unfold memRead
  rw [if_neg (by omega), if_neg (by omega), if_neg e16, if_neg e17, if_neg (by omega)]

theorem memWrite_mapper {a : Word} (h : 0x4020 ≤ a.toNat) (d : Byte) : memWrite a d = mapCpuWrite a d := by
  obtain ⟨e14, e16, _⟩ := ne_devices h
  unfold memWrite
  rw [if_neg (by omega), if_neg (by omega), if_neg e14, if_neg e16, if_neg (by omega)]

theorem memWrite_program {a : Word} (h : 0x8000 ≤ a.toNat) (d : Byte) : memWrite a d = mapperWrite a d := by
  rw [memWrite_mapper (by omega)]
  unfold mapCpuWrite
  rw [if_neg (by omega), if_neg (by omega)]

theorem memRead_program {a : Word} (h : 0x8000 ≤ a.toNat) {s : State} {k : Nat} (hk : prgIndex s a.toNat = some k) :
    memRead a s = .ok (s.cart.prg.read k, s) := by
  apply memRead_of_peek
  unfold peek
  rw [if_neg (by omega), if_neg (by omega), if_neg (by omega), hk]
  rfl

theorem memWrite_prgRam {a : Word} (h1 : 0x6000 ≤ a.toNat) (h2 : a.toNat < 0x8000) (d : Byte) (s : State) :
    memWrite a d s = .ok ((), s.writePrgRam (a.toNat - 0x6000) d) := by
  rw [memWrite_mapper (by omega)]
  unfold mapCpuWrite
  rw [if_neg (by omega), if_pos h2]
  rfl

/-! ### Indices -/

theorem inArray_of_lt {size k : Nat} (h : k < size) : inArray size (some k) = some k := by
  simp [inArray, h]

theorem inArray_some {size k : Nat} {i : Option Nat} (h : inArray size i = some k) : i = some k ∧ k < size := by
  unfold inArray at h
  cases i with
  | none => cases h
  | some j =>
    simp only [Option.bind_some, Option.ite_none_right_eq_some, Option.some.injEq] at h
    exact ⟨congrArg some h.2, h.2 ▸ h.1⟩

theorem bankOf_modulo {p : Params} (h : p.bankRange = .modulo) (bank n : Nat) : bankOf p bank n = some (bank % n) := by
  unfold bankOf
  rw [h]

theorem Cartridge.banks_of_valid {c : Cartridge} (h : c.valid = true) : 1 ≤ c.prgBanks := by
  simp only [valid, Bool.and_eq_true, decide_eq_true_eq] at h
  exact h.1.1.1.2

theorem Cartridge.chrSize_pos (c : Cartridge) : 8192 ≤ c.chrSize :=
  Nat.le_mul_of_pos_right 8192 (Nat.lt_of_lt_of_le Nat.zero_lt_one (Nat.le_max_right _ _))

theorem prgIndex_nrom {s : State} (h : s.map = .nrom) (a : Nat) :
    prgIndex s a = inArray s.cart.prgSize (some ((a - 0x8000) % s.cart.prgSize)) := by
  obtain ⟨_, _, _, _, _, _, _, _, _, _, _, _⟩ := s
  cases h
  rfl

theorem prgIndex_uxrom {s : State} {m : Uxrom} (h : s.map = .uxrom m) (a : Nat) :
    prgIndex s a = inArray s.cart.prgSize
      (if a < 0xC000 then
        (bankOf s.params m.bank.toNat s.cart.prgBanks).map fun b => b * 16384 + (a - 0x8000)
      else some ((s.cart.prgBanks - 1) * 16384 + (a - 0xC000))) := by
  obtain ⟨_, _, _, _, _, _, _, _, _, _, _, _⟩ := s
  cases h
  rfl

theorem prgIndex_mmc1 {s : State} {m : Mmc1} (h : s.map = .mmc1 m) (a : Nat) :
    prgIndex s a = inArray s.cart.prgSize
      ((bankOf s.params (m.prgBankAt s.cart.prgBanks a) s.cart.prgBanks).map fun b => b * 16384 + a % 0x4000) := by
  obtain ⟨_, _, _, _, _, _, _, _, _, _, _, _⟩ := s
  cases h
  rfl

theorem prgIndex_mmc3 {s : State} {m : Mmc3} (h : s.map = .mmc3 m) (a : Nat) :
    prgIndex s a = inArray s.cart.prgSize
      ((bankOf s.params (m.prgBankAt (2 * s.cart.prgBanks) a) (2 * s.cart.prgBanks)).map fun b =>
        b * 8192 + a % 0x2000) := by
  obtain ⟨_, _, _, _, _, _, _, _, _, _, _, _⟩ := s
  cases h
  rfl

theorem chrIndex_nrom {s : State} (h : s.map = .nrom) (a : Nat) : chrIndex s a = inArray s.cart.chrSize (some a) := by
  obtain ⟨_, _, _, _, _, _, _, _, _, _, _, _⟩ := s
  cases h
  rfl

theorem chrIndex_uxrom {s : State} {m : Uxrom} (h : s.map = .uxrom m) (a : Nat) :
    chrIndex s a = inArray s.cart.chrSize (some a) := by
  obtain ⟨_, _, _, _, _, _, _, _, _, _, _, _⟩ := s
  cases h
  rfl

theorem chrIndex_mmc1 {s : State} {m : Mmc1} (h : s.map = .mmc1 m) (a : Nat) :
    chrIndex s a = inArray s.cart.chrSize
      ((bankOf s.params (m.chrBankAt a) (s.cart.chrSize / 4096)).map fun b => b * 4096 + a % 0x1000) := by
  obtain ⟨_, _, _, _, _, _, _, _, _, _, _, _⟩ := s
  cases h
  rfl

theorem chrIndex_mmc3 {s : State} {m : Mmc3} (h : s.map = .mmc3 m) (a : Nat) :
    chrIndex s a = inArray s.cart.chrSize
      ((bankOf s.params (m.chrBankAt a) (s.cart.chrSize / 1024)).map fun b => b * 1024 + a % 0x400) := by
  obtain ⟨_, _, _, _, _, _, _, _, _, _, _, _⟩ := s
  cases h
  rfl

/-- An index a mapper answers lies in its array. -/
theorem prgIndex_lt {s : State} {a k : Nat} (h : prgIndex s a = some k) : k < s.cart.prgSize :=
  (inArray_some h).2

theorem chrIndex_lt {s : State} {a k : Nat} (h : chrIndex s a = some k) : k < s.cart.chrSize :=
  (inArray_some h).2

/-! ### The picture-unit bus -/

/-- `v mod 0x4000` as a number (61_ppu.md R317). -/
theorem Ppu.busAddress_toNat (p : Ppu) : p.busAddress.toNat = p.v.toNat % 0x4000 := by
  have e : (0x3FFF : Word).toNat = 2 ^ 14 - 1 := rfl
  have := p.v.isLt
  rw [busAddress, BitVec.toNat_and, e, Nat.and_two_pow_sub_one_eq_mod, BitVec.toNat_setWidth]
  omega

/-- An address below 0x4000 is routed as it stands, whatever `PPU_ADDR_HIGH`. -/
theorem ppuAddress_of_lt (p : Params) {a : Word} (h : a.toNat < 0x4000) : ppuAddress p a = some a := by
  have e : (0x3FFF : Word).toNat = 2 ^ 14 - 1 := rfl
  unfold ppuAddress
  rw [if_neg (by omega)]
  congr 1
  apply BitVec.eq_of_toNat_eq
  rw [BitVec.toNat_and, e, Nat.and_two_pow_sub_one_eq_mod]
  omega

theorem ppuRead_pattern {a : Word} (h : a.toNat < 0x2000) (s : State) : ppuRead a s = mapPpuRead a s := by
  simp only [ppuRead, ppuAddress_of_lt s.params (show a.toNat < 0x4000 by omega)]
  rw [if_pos h]

theorem ppuRead_nametable {a : Word} (h1 : 0x2000 ≤ a.toNat) (h2 : a.toNat < 0x3F00) (s : State) :
    ppuRead a s = .ok (s.ppu.nametable.read (ntIndex (mirroring s) a.toNat)) := by
  simp only [ppuRead, ppuAddress_of_lt s.params (show a.toNat < 0x4000 by omega)]
  rw [if_neg (by omega), if_pos h2]

theorem ppuRead_palette {a : Word} (h1 : 0x3F00 ≤ a.toNat) (h2 : a.toNat < 0x4000) (s : State) :
    ppuRead a s = .ok (s.ppu.palette.read (palIndex a.toNat)) := by
  simp only [ppuRead, ppuAddress_of_lt s.params h2]
  rw [if_neg (by omega), if_neg (by omega)]

theorem ppuWrite_apply {a : Word} (h : a.toNat < 0x4000) (v : Byte) (s : State) :
    ppuWrite a v s =
      if a.toNat < 0x2000 then mapPpuWrite a v s
      else if a.toNat < 0x3F00 then
        .ok ((), s.setPpu { s.ppu with nametable := s.ppu.nametable.write (ntIndex (mirroring s) a.toNat) v })
      else .ok ((), s.setPpu { s.ppu with palette := s.ppu.palette.write (palIndex a.toNat) v }) := by
  unfold ppuWrite
  rw [M.getS_bind]
  simp only [ppuAddress_of_lt s.params h]
  split
  · rfl
  · split <;> rfl

theorem mapPpuRead_apply {s : State} {a : Word} {k : Nat} (h : chrIndex s a.toNat = some k) :
    mapPpuRead a s = .ok (if s.cart.chrBanks = 0 then s.chrRam.read k else s.cart.chr.read k) := by
  unfold mapPpuRead
  rw [h]

/-- Every nametable index lies in the 2 KB of nametable RAM. -/
theorem ntIndex_lt (m : Mirroring) (a : Nat) : ntIndex m a < 0x800 := by
  unfold ntIndex nametableHalf
  cases m <;> dsimp only <;> omega

/-- Every palette index lies in the 32 bytes of palette RAM. -/
theorem palIndex_lt (a : Nat) : palIndex a < 32 := by
  unfold palIndex
  dsimp only
  split <;> omega

end Sys2Proof.Machine
end

