-- ==== Sys2Proof/Laws/PpuStep.lean ====
section
/-! SUPPORT. One dot of the picture unit, said once: `Tick` moves the position, the rendering actions change only the
pipeline, the sprite slots and flags, `v` and the frame buffer, the flag events `vblank`, the sprite flags and the pending
NMI; and no action of a dot faults while every pattern address has a byte. -/

namespace Sys2Proof.Machine

/-! ### What rendering may change -/

/-- Of `q` the fields that rendering writes, of `p` all the others. -/
def Ppu.rendered (p q : Ppu) : Ppu :=
  { p with
    v := q.v, ntByte := q.ntByte, atBits := q.atBits, patLo := q.patLo, patHi := q.patHi, tileShift := q.tileShift
    sprCount := q.sprCount, slots := q.slots, sprOverflow := q.sprOverflow, spr0Hit := q.spr0Hit
    framebuffer := q.framebuffer }

/-- Rendering changes the picture unit only, and of it only the fields of `Ppu.rendered`. -/
structure RenderFrame (s t : State) : Prop where
  ppu : t.ppu = s.ppu.rendered t.ppu
  rest : t = s.setPpu t.ppu

theorem RenderFrame.refl (s : State) : RenderFrame s s := ⟨rfl, rfl⟩

theorem RenderFrame.trans {s t u : State} (h : RenderFrame s t) (k : RenderFrame t u) : RenderFrame s u := by
  refine ⟨?_, ?_⟩
  · rw [k.ppu, h.ppu]
    rfl
  · rw [k.rest, h.rest]
    rfl

/-- A computation that stays in the frame of rendering. -/
def M.Renders {α : Type} (x : M α) : Prop := ∀ s a t, x s = .ok (a, t) → RenderFrame s t

theorem M.Renders.bind {α β : Type} {x : M α} {f : α → M β} (hx : x.Renders) (hf : ∀ a, (f a).Renders) :
    (x >>= f).Renders := by
  intro s b u h
  obtain ⟨a, t, h1, h2⟩ := M.bind_ok.mp h
  exact (hx s a t h1).trans (hf a t b u h2)

theorem M.Renders.getS : M.Renders Machine.getS := by
  intro s a t h
  cases h
  exact .refl s

theorem M.Renders.pure {α : Type} (a : α) : M.Renders (Pure.pure a : M α) := by
  intro s b t h
  cases h
  exact .refl s

theorem M.Renders.look {α : Type} (f : State → Except FatalCondition α) : M.Renders (Machine.look f) := by
  intro s b t h
  rw [(look_ok.mp h).2]
  exact .refl s

theorem M.Renders.ite {α : Type} {c : Prop} [Decidable c] {x y : M α} (hx : x.Renders) (hy : y.Renders) :
    M.Renders (if c then x else y) := by
  split
  · exact hx
  · exact hy

theorem updatePpu_renders {f : Ppu → Ppu} (h : ∀ p, f p = p.rendered (f p)) : M.Renders (updatePpu f) := by
  intro s b t e
  cases e
  exact ⟨h s.ppu, rfl⟩

theorem whenPpu_renders {test : Ppu → Bool} {x : M Unit} (hx : x.Renders) : M.Renders (whenPpu test x) :=
  M.Renders.getS.bind fun _ => .ite hx (.pure _)

theorem Ppu.renderPixel_rendered (p : Ppu) : p.renderPixel = p.rendered p.renderPixel := by
  unfold renderPixel
  dsimp only
  split <;> rfl

theorem Ppu.scrollUpdates_v (p : Ppu) : p.scrollUpdates = { p with v := p.scrollUpdates.v } := by
  unfold scrollUpdates
  dsimp only
  repeat' split
  all_goals rfl

theorem Ppu.scrollUpdates_rendered (p : Ppu) : p.scrollUpdates = p.rendered p.scrollUpdates := by
  rw [scrollUpdates_v]
  rfl

theorem fetchAction_renders : M.Renders fetchAction := by
  refine (updatePpu_renders fun _ => rfl).bind fun _ => M.Renders.getS.bind fun s => ?_
  generalize s.ppu.dot % 8 = n
  split
  · exact M.Renders.getS.bind fun _ => (M.Renders.look _).bind fun _ => updatePpu_renders fun _ => rfl
  · exact M.Renders.getS.bind fun _ => (M.Renders.look _).bind fun _ => updatePpu_renders fun _ => rfl
  · exact M.Renders.getS.bind fun _ => (M.Renders.look _).bind fun _ => updatePpu_renders fun _ => rfl
  · exact M.Renders.getS.bind fun _ => (M.Renders.look _).bind fun _ => updatePpu_renders fun _ => rfl
  · exact updatePpu_renders fun _ => rfl
  · exact .pure _

theorem spritePattern_renders (tile attr : Byte) (row : Nat) : M.Renders (spritePattern tile attr row) :=
  M.Renders.getS.bind fun _ => (M.Renders.look _).bind fun _ => (M.Renders.look _).bind fun _ => .pure _

theorem scanSprites_renders : ∀ left count, M.Renders (scanSprites left count)
  | 0, _ => .pure _
  | left + 1, count => by
    unfold scanSprites
    refine M.Renders.getS.bind fun s => .ite (.ite ?_ ?_) (scanSprites_renders left count)
    · exact (spritePattern_renders _ _ _).bind fun _ => (updatePpu_renders fun _ => rfl).bind fun _ =>
        scanSprites_renders left (count + 1)
    · exact (updatePpu_renders fun _ => rfl).bind fun _ => .pure _

theorem evaluateSprites_renders : M.Renders evaluateSprites :=
  M.Renders.getS.bind fun _ => (scanSprites_renders _ _).bind fun _ => updatePpu_renders fun _ => rfl

/-- The actions of a dot stay in the frame of rendering. -/
theorem renderActions_renders : M.Renders renderActions :=
  (whenPpu_renders (updatePpu_renders Ppu.renderPixel_rendered)).bind fun _ =>
    (whenPpu_renders fetchAction_renders).bind fun _ => (updatePpu_renders Ppu.scrollUpdates_rendered).bind fun _ =>
      (whenPpu_renders evaluateSprites_renders).bind fun _ => whenPpu_renders (updatePpu_renders fun _ => rfl)

/-! ### The parts of a dot -/

/-- `Tick()` on the machine. -/
def State.ticked (s : State) : State :=
  let t := s.ppu.tick
  if t.2 then (s.setPpu t.1).setCon { s.con with frameReady := true } else s.setPpu t.1

theorem tick_apply (s : State) : tick s = .ok ((), s.ticked) := rfl

theorem State.ticked_ppu (s : State) : s.ticked.ppu = s.ppu.tick.1 := by
  unfold ticked
  dsimp only
  split <;> rfl

theorem State.ticked_con (s : State) :
    s.ticked.con = { s.con with frameReady := s.con.frameReady || s.ppu.tick.2 } := by
  unfold ticked
  dsimp only
  cases s.ppu.tick.2
  · rw [Bool.or_false]
    rfl
  · rw [Bool.or_true]
    rfl

theorem State.ticked_rest (s : State) : s.ticked = { s with ppu := s.ppu.tick.1, con := s.ticked.con } := by
  unfold ticked
  dsimp only
  split <;> rfl

/-- `Tick()` moves the position and the frame toggle, nothing else of the picture unit. -/
theorem Ppu.tick_frame (p : Ppu) :
    p.tick.1 = { p with dot := p.tick.1.dot, scanline := p.tick.1.scanline, odd := p.tick.1.odd } := by
  unfold tick
  repeat' split
  all_goals rfl

/-- One dot: the tick, then rendering if a layer is shown, then the flag events. -/
theorem ppuStep_ok {s t : State} (h : ppuStep s = .ok ((), t)) :
    ∃ u, RenderFrame s.ticked u ∧ (s.ticked.ppu.rendering = false → u = s.ticked) ∧ t = flagEvents u := by
  unfold ppuStep at h
  rw [M.bind_of_ok (tick_apply s)] at h
  obtain ⟨_, u, h1, h2⟩ := M.bind_ok.mp h
  cases h2
  unfold whenPpu at h1
  rw [M.getS_bind] at h1
  cases hr : s.ticked.ppu.rendering with
  | true =>
    rw [hr, if_pos rfl] at h1
    exact ⟨u, renderActions_renders _ _ _ h1, nofun, rfl⟩
  | false =>
    rw [hr, if_neg Bool.false_ne_true] at h1
    cases h1
    exact ⟨_, .refl _, fun _ => rfl, rfl⟩

/-- With rendering off a dot is the tick and the flag events. -/
theorem ppuStep_off {s : State} (h : s.ppu.rendering = false) : ppuStep s = .ok ((), flagEvents s.ticked) := by
  have hr : s.ticked.ppu.rendering = false := by
    rw [State.ticked_ppu, Ppu.tick_frame]
    exact h
  unfold ppuStep
  rw [M.bind_of_ok (tick_apply s)]
  unfold whenPpu
  rw [M.bind_of_ok (t := s.ticked) (a := ())]
  · rfl
  · rw [M.getS_bind, hr]
    rfl

/-- The flag events: `vblank`, the sprite flags and the pending NMI, nothing else. -/
theorem flagEvents_frame (s : State) : flagEvents s =
    { s with
      cpu := { s.cpu with nmiPending := (flagEvents s).cpu.nmiPending }
      ppu := { s.ppu with
        vblank := (flagEvents s).ppu.vblank, sprOverflow := (flagEvents s).ppu.sprOverflow
        spr0Hit := (flagEvents s).ppu.spr0Hit } } := by
  unfold flagEvents setVblank
  dsimp only
  repeat' split
  all_goals rfl

/-! ### No fault while every pattern address has a byte -/

/-- Every picture-unit address of the pattern tables has a byte behind it. -/
def State.PatternsOk (s : State) : Prop := ∀ a, a < 0x2000 → ∃ k, chrIndex s a = some k

theorem RenderFrame.patternsOk {s t : State} (h : RenderFrame s t) (k : s.PatternsOk) : t.PatternsOk := by
  intro a ha
  rw [h.rest]
  exact k a ha

theorem ppuRead_total {s : State} (h : s.PatternsOk) {a : Word} (ha : a.toNat < 0x4000) : ∃ b, ppuRead a s = .ok b := by
  by_cases h1 : a.toNat < 0x2000
  · obtain ⟨k, hk⟩ := h _ h1
    exact ⟨_, (ppuRead_pattern h1 s).trans (mapPpuRead_apply hk)⟩
  · by_cases h2 : a.toNat < 0x3F00
    · exact ⟨_, ppuRead_nametable (by omega) h2 s⟩
    · exact ⟨_, ppuRead_palette (by omega) ha s⟩

theorem ntAddress_lt (v : BitVec 15) : (ntAddress v).toNat < 0x4000 := by
  have h : (ntAddress v).toNat ≤ 0x3FFF := by
    unfold ntAddress
    have e : (0x2000 : Word) ||| (v.setWidth 16 &&& 0x0FFF) = ((0x2000 : Word) ||| (v.setWidth 16 &&& 0x0FFF)) &&& 0x3FFF := by
      ext k hk
      have : k = 0 ∨ k = 1 ∨ k = 2 ∨ k = 3 ∨ k = 4 ∨ k = 5 ∨ k = 6 ∨ k = 7 ∨ k = 8 ∨ k = 9 ∨ k = 10 ∨ k = 11 ∨ k = 12 ∨
        k = 13 ∨ k = 14 ∨ k = 15 := by omega
      rcases this with rfl | rfl | rfl | rfl | rfl | rfl | rfl | rfl | rfl | rfl | rfl | rfl | rfl | rfl | rfl | rfl <;> simp
    rw [e, BitVec.toNat_and]
    exact Nat.and_le_right
  omega

theorem atAddress_lt (v : BitVec 15) : (atAddress v).toNat < 0x4000 := by
  have h : (atAddress v).toNat ≤ 0x3FFF := by
    have e : atAddress v = atAddress v &&& 0x3FFF := by
      unfold atAddress
      ext k hk
      have : k = 0 ∨ k = 1 ∨ k = 2 ∨ k = 3 ∨ k = 4 ∨ k = 5 ∨ k = 6 ∨ k = 7 ∨ k = 8 ∨ k = 9 ∨ k = 10 ∨ k = 11 ∨ k = 12 ∨
        k = 13 ∨ k = 14 ∨ k = 15 := by omega
      rcases this with rfl | rfl | rfl | rfl | rfl | rfl | rfl | rfl | rfl | rfl | rfl | rfl | rfl | rfl | rfl | rfl <;> simp
    rw [e, BitVec.toNat_and]
    exact Nat.and_le_right
  omega

theorem patternAddress_toNat (table : Bool) (tile : Byte) {row : Nat} (h : row < 8) :
    (patternAddress table tile row).toNat < 0x1FF8 := by
  have := tile.isLt
  unfold patternAddress
  rw [BitVec.toNat_ofNat]
  split <;> omega

theorem add8_lt {a : Word} (h : a.toNat < 0x1FF8) : (a + 8).toNat < 0x4000 := by
  rw [BitVec.toNat_add]
  have : (8 : Word).toNat = 8 := rfl
  omega

theorem Ppu.bgPatternAddress_lt (p : Ppu) : p.bgPatternAddress.toNat < 0x1FF8 := by
  refine patternAddress_toNat _ _ ?_
  exact (p.v.extractLsb' 12 3).isLt

theorem Ppu.spritePatternAddress_lt (p : Ppu) (tile attr : Byte) {row : Nat} (h : row < p.spriteHeight) :
    (p.spritePatternAddress tile attr row).toNat < 0x1FF8 := by
  unfold spriteHeight at h
  unfold spritePatternAddress
  cases hs : p.sprSize
  · rw [hs, if_neg Bool.false_ne_true] at h
    rw [if_neg Bool.false_ne_true]
    refine patternAddress_toNat _ _ ?_
    split <;> omega
  · rw [hs, if_pos rfl] at h
    rw [if_pos rfl]
    dsimp only
    have h15 : (if attr.getLsbD 7 = true then 15 - row else row) < 16 := by split <;> omega
    generalize (if attr.getLsbD 7 = true then 15 - row else row) = r at h15
    split
    · exact patternAddress_toNat _ _ (by omega)
    · exact patternAddress_toNat _ _ (by omega)

/-- A computation that completes wherever every pattern address has a byte, staying in the frame of rendering. -/
def M.Completes {α : Type} (x : M α) : Prop := ∀ s : State, s.PatternsOk → ∃ a t, x s = .ok (a, t)

theorem M.Completes.bind {α β : Type} {x : M α} {f : α → M β} (hx : x.Completes) (hr : x.Renders)
    (hf : ∀ a, (f a).Completes) : (x >>= f).Completes := by
  intro s h
  obtain ⟨a, t, e⟩ := hx s h
  rw [M.bind_of_ok e]
  exact hf a t ((hr s a t e).patternsOk h)

theorem M.Completes.getS_bind {β : Type} {f : State → M β} (hf : ∀ s : State, s.PatternsOk → ∃ b t, f s s = .ok (b, t)) :
    M.Completes (Machine.getS >>= f) := fun s h => hf s h

theorem M.Completes.pure {α : Type} (a : α) : M.Completes (Pure.pure a : M α) := fun s _ => ⟨a, s, rfl⟩

theorem M.Completes.update (f : State → State) : M.Completes (Machine.update f) := fun s _ => ⟨(), f s, rfl⟩

theorem whenPpu_completes {test : Ppu → Bool} {x : M Unit} (hx : x.Completes) : M.Completes (whenPpu test x) := by
  refine .getS_bind fun s h => ?_
  split
  · exact hx s h
  · exact ⟨(), s, rfl⟩

/-- A fetch from an address of the picture-unit bus, then a change of the picture unit. -/
theorem fetch_completes {s : State} (h : s.PatternsOk) {a : Word} (ha : a.toNat < 0x4000) (f : Byte → Ppu → Ppu) :
    ∃ b t, (look (ppuRead a) >>= fun x => updatePpu (f x)) s = .ok (b, t) := by
  obtain ⟨b, hb⟩ := ppuRead_total h ha
  rw [M.bind_of_ok (look_of_ok hb)]
  exact ⟨(), _, rfl⟩

theorem fetchAction_completes : M.Completes fetchAction := by
  refine M.Completes.bind (.update _) (updatePpu_renders fun _ => rfl) fun _ => .getS_bind fun s h => ?_
  generalize s.ppu.dot % 8 = n
  split
  · exact fetch_completes h (ntAddress_lt _) fun b p => { p with ntByte := b }
  · exact fetch_completes h (atAddress_lt _) fun b p => { p with atBits := ((b >>> atShift s.ppu.v) &&& 3).setWidth 4 <<< 2 }
  · exact fetch_completes h (Nat.lt_trans s.ppu.bgPatternAddress_lt (by decide)) fun b p => { p with patLo := b }
  · exact fetch_completes h (add8_lt s.ppu.bgPatternAddress_lt) fun b p => { p with patHi := b }
  · exact ⟨(), _, rfl⟩
  · exact ⟨(), _, rfl⟩

theorem spritePattern_completes {s : State} (h : s.PatternsOk) (tile attr : Byte) {row : Nat}
    (hr : row < s.ppu.spriteHeight) : ∃ p, spritePattern tile attr row s = .ok (p, s) := by
  have ha := s.ppu.spritePatternAddress_lt tile attr hr
  obtain ⟨lo, hlo⟩ := ppuRead_total h (Nat.lt_trans ha (by decide))
  obtain ⟨hi, hhi⟩ := ppuRead_total h (add8_lt ha)
  unfold spritePattern
  rw [M.getS_bind, M.bind_of_ok (look_of_ok hlo), M.bind_of_ok (look_of_ok hhi)]
  exact ⟨_, rfl⟩

theorem scanSprites_completes : ∀ left count, M.Completes (scanSprites left count)
  | 0, _ => .pure _
  | left + 1, count => by
    unfold scanSprites
    refine .getS_bind fun s h => ?_
    by_cases hc : (s.ppu.oam.read (4 * (63 - left))).toNat ≤ s.ppu.scanline ∧
        s.ppu.scanline - (s.ppu.oam.read (4 * (63 - left))).toNat < s.ppu.spriteHeight
    · rw [if_pos hc]
      by_cases h8 : count < 8
      · rw [if_pos h8]
        obtain ⟨p, hp⟩ := spritePattern_completes h (s.ppu.oam.read (4 * (63 - left) + 1))
          (s.ppu.oam.read (4 * (63 - left) + 2)) hc.2
        rw [M.bind_of_ok hp]
        have hk : s.PatternsOk := h
        exact scanSprites_completes left (count + 1) (s.setPpu (s.ppu.setSlot count _)) hk
      · rw [if_neg h8]
        exact ⟨_, _, rfl⟩
    · rw [if_neg hc]
      exact scanSprites_completes left count s h

theorem evaluateSprites_completes : M.Completes evaluateSprites :=
  .getS_bind fun s h => M.Completes.bind (f := fun count => updatePpu fun p => { p with sprCount := count })
    (scanSprites_completes _ _) (scanSprites_renders _ _) (fun _ => .update _) s h

theorem renderActions_completes : M.Completes renderActions :=
  .bind (whenPpu_completes (.update _)) (whenPpu_renders (updatePpu_renders Ppu.renderPixel_rendered)) fun _ =>
    .bind (whenPpu_completes fetchAction_completes) (whenPpu_renders fetchAction_renders) fun _ =>
      .bind (.update _) (updatePpu_renders Ppu.scrollUpdates_rendered) fun _ =>
        .bind (whenPpu_completes evaluateSprites_completes) (whenPpu_renders evaluateSprites_renders) fun _ =>
          whenPpu_completes (.update _)

/-- A dot never faults while every pattern address has a byte. -/
theorem ppuStep_completes : M.Completes ppuStep := by
  intro s h
  have ht : s.ticked.PatternsOk := by
    intro a ha
    rw [State.ticked_rest]
    exact h a ha
  obtain ⟨a, u, e⟩ := whenPpu_completes (test := Ppu.rendering) renderActions_completes _ ht
  unfold ppuStep
  rw [M.bind_of_ok (tick_apply s), M.bind_of_ok e]
  exact ⟨(), _, rfl⟩

end Sys2Proof.Machine
end

