-- ==== Sys2Proof/Laws/Invariant.lean ====
section
/-! SUPPORT. What keeps the invariant of Safety.lean, piece by piece: every bus access, every handler, every dot. The
invariant without its clause on the frame event, which stands inside a dot, is `State.Sound`. -/

namespace Sys2Proof.Machine

/-- The invariant without its clauses on the frame event and the break flag. -/
structure State.Sound (s : State) : Prop where
  memories : s.MemoriesOk
  cart : s.cart.valid = true
  map : mapperOk s.cart.mapperNumber s.map
  ppu : s.ppu.InRange
  pad0 : padOk s.pads.strobe s.pads.pad0
  pad1 : padOk s.pads.strobe s.pads.pad1
  running : s.fault = none

theorem State.inv_iff (s : State) : s.Inv ↔ s.Sound ∧ s.cpu.p.b = false ∧ s.con.frameReady = false :=
  ⟨fun h => ⟨⟨h.memories, h.cart, h.map, h.ppu, h.pad0, h.pad1, h.running⟩, h.breakFlag, h.event⟩,
    fun ⟨h, b, e⟩ => ⟨h.memories, h.cart, h.map, h.ppu, h.pad0, h.pad1, b, e, h.running⟩⟩

/-! ### Updates that keep it -/

theorem State.Sound.withCpu {s : State} (h : s.Sound) (c : Cpu) : (s.withCpu c).Sound :=
  ⟨⟨h.memories.ram, h.memories.nametable, h.memories.palette, h.memories.oam, h.memories.framebuffer,
    h.memories.lastFrame, h.memories.prgRam, h.memories.chrRam⟩, h.cart, h.map, h.ppu, h.pad0, h.pad1, h.running⟩

theorem State.Sound.writeRam {s : State} (h : s.Sound) {k : Nat} (hk : k < 0x800) (v : Byte) : (s.writeRam k v).Sound :=
  ⟨⟨Memory.wfIn_write v hk h.memories.ram, h.memories.nametable, h.memories.palette, h.memories.oam,
    h.memories.framebuffer, h.memories.lastFrame, h.memories.prgRam, h.memories.chrRam⟩, h.cart, h.map, h.ppu, h.pad0,
    h.pad1, h.running⟩

theorem State.Sound.writePrgRam {s : State} (h : s.Sound) {k : Nat} (hk : k < 0x2000) (v : Byte) :
    (s.writePrgRam k v).Sound :=
  ⟨⟨h.memories.ram, h.memories.nametable, h.memories.palette, h.memories.oam, h.memories.framebuffer,
    h.memories.lastFrame, Memory.wfIn_write v hk h.memories.prgRam, h.memories.chrRam⟩, h.cart, h.map, h.ppu, h.pad0,
    h.pad1, h.running⟩

theorem State.Sound.writeChrRam {s : State} (h : s.Sound) (hc : s.cart.chrBanks = 0) {k : Nat} (hk : k < 0x2000)
    (v : Byte) : (s.writeChrRam k v).Sound :=
  ⟨⟨h.memories.ram, h.memories.nametable, h.memories.palette, h.memories.oam, h.memories.framebuffer,
    h.memories.lastFrame, h.memories.prgRam, Memory.wfIn_write v (by rwa [State.writeChrRam_cart, if_pos hc])
      h.memories.chrRam⟩, h.cart, h.map, h.ppu, h.pad0, h.pad1, h.running⟩

theorem State.Sound.setMap {s : State} (h : s.Sound) {m : Mapper} (hm : mapperOk s.cart.mapperNumber m) :
    (s.setMap m).Sound :=
  ⟨⟨h.memories.ram, h.memories.nametable, h.memories.palette, h.memories.oam, h.memories.framebuffer,
    h.memories.lastFrame, h.memories.prgRam, h.memories.chrRam⟩, h.cart, hm, h.ppu, h.pad0, h.pad1, h.running⟩

theorem State.Sound.setPads {s : State} (h : s.Sound) {p : Pads} (h0 : padOk p.strobe p.pad0) (h1 : padOk p.strobe p.pad1) :
    (s.setPads p).Sound :=
  ⟨⟨h.memories.ram, h.memories.nametable, h.memories.palette, h.memories.oam, h.memories.framebuffer,
    h.memories.lastFrame, h.memories.prgRam, h.memories.chrRam⟩, h.cart, h.map, h.ppu, h0, h1, h.running⟩

theorem State.Sound.countDraw {s : State} (h : s.Sound) : s.countDraw.Sound :=
  ⟨⟨h.memories.ram, h.memories.nametable, h.memories.palette, h.memories.oam, h.memories.framebuffer,
    h.memories.lastFrame, h.memories.prgRam, h.memories.chrRam⟩, h.cart, h.map, h.ppu, h.pad0, h.pad1, h.running⟩

theorem State.Sound.setPpu {s : State} (h : s.Sound) {q : Ppu} (hr : q.InRange) (hn : q.nametable.wfIn 0x800 = true)
    (hp : q.palette.wfIn 32 = true) (ho : q.oam.wfIn 256 = true) (hf : frameOk q.framebuffer) : (s.setPpu q).Sound :=
  ⟨⟨h.memories.ram, hn, hp, ho, hf, h.memories.lastFrame, h.memories.prgRam, h.memories.chrRam⟩, h.cart, h.map, hr,
    h.pad0, h.pad1, h.running⟩

/-- A change of the registers of the picture unit that leaves its scan and its memories alone. -/
theorem State.Sound.setRegisters {s : State} (h : s.Sound) {q : Ppu} (hs : q = s.ppu.scanOf q)
    (hn : q.nametable = s.ppu.nametable) (hp : q.palette = s.ppu.palette) (ho : q.oam.wfIn 256 = true) :
    (s.setPpu q).Sound := by
  refine h.setPpu ?_ ?_ ?_ ho ?_
  · rw [hs]
    exact ⟨h.ppu.dot, h.ppu.scanline, h.ppu.sprCount, h.ppu.atBits⟩
  · rw [hn]
    exact h.memories.nametable
  · rw [hp]
    exact h.memories.palette
  · rw [hs]
    exact h.memories.framebuffer

/-! ### Bus reads -/

theorem Pad.read_ok {e st : Bool} {p : Pad} (h : padOk st p) : padOk st (p.read e st).2 := by
  unfold Pad.read
  split
  · exact h
  · next hs =>
    split
    · next h8 => exact ⟨h8, fun e => absurd e hs⟩
    · exact h

theorem readVramData_sound : M.Keeps State.Sound readVramData := by
  refine .getS_bind fun s b t hs h => ?_
  dsimp only at h
  split at h
  · obtain ⟨x, u, h1, h2⟩ := M.bind_ok.mp h
    rw [(look_ok.mp h1).2] at h2
    cases h2
    exact hs.setRegisters rfl rfl rfl hs.memories.oam
  · obtain ⟨x, u, h1, h2⟩ := M.bind_ok.mp h
    rw [(look_ok.mp h1).2] at h2
    obtain ⟨y, v, h3, h4⟩ := M.bind_ok.mp h2
    rw [(look_ok.mp h3).2] at h4
    cases h4
    exact hs.setRegisters rfl rfl rfl hs.memories.oam

theorem readPpuRegister_sound (a : Word) : M.Keeps State.Sound (readPpuRegister a) := by
  refine .getS_bind fun s b t hs h => ?_
  generalize a.toNat % 8 = n at h
  split at h
  · cases h
    exact hs.setRegisters rfl rfl rfl hs.memories.oam
  · cases h
    exact hs
  · exact readVramData_sound s b t hs h
  · rw [show t = s from ?_]
    · exact hs
    · unfold readWriteOnly at h
      rw [M.getS_bind] at h
      cases hw : s.params.ppuWoRead <;> rw [hw] at h <;> cases h
      rfl

/-- A bus read keeps the invariant. -/
theorem memRead_sound (a : Word) : M.Keeps State.Sound (memRead a) := by
  unfold memRead
  refine .ite (.look _) (.ite (readPpuRegister_sound a) (.ite ?_ (.ite ?_ (.ite ?_ (.look _)))))
  · intro s b t hs h
    cases h
    exact hs.setPads (Pad.read_ok hs.pad0) hs.pad1
  · intro s b t hs h
    cases h
    exact hs.setPads hs.pad0 (Pad.read_ok hs.pad1)
  · refine .getS_bind fun s b t hs h => ?_
    cases hw : s.params.absentIo <;> rw [hw] at h <;> cases h
    · exact hs
    · exact hs.countDraw

/-! ### Bus writes -/

theorem ppuWrite_sound (a : Word) (d : Byte) : M.Keeps State.Sound (ppuWrite a d) := by
  refine .getS_bind fun s b t hs h => ?_
  cases hp : ppuAddress s.params a with
  | none =>
    rw [hp] at h
    cases h
  | some a' =>
    simp only [hp] at h
    split at h
    · unfold mapPpuWrite at h
      rw [M.getS_bind] at h
      by_cases hc : s.cart.chrBanks = 0
      · rw [if_pos hc] at h
        cases hk : chrIndex s a'.toNat with
        | none =>
          rw [hk] at h
          cases h
        | some k =>
          rw [hk] at h
          cases h
          have hz : s.cart.chrSize = 0x2000 := by rw [Cartridge.chrSize, hc]; rfl
          exact hs.writeChrRam hc (hz ▸ chrIndex_lt hk) d
      · rw [if_neg hc] at h
        cases h
    · split at h
      · cases h
        exact hs.setPpu ⟨hs.ppu.dot, hs.ppu.scanline, hs.ppu.sprCount, hs.ppu.atBits⟩
          (Memory.wfIn_write d (ntIndex_lt _ _) hs.memories.nametable) hs.memories.palette hs.memories.oam
          hs.memories.framebuffer
      · cases h
        exact hs.setPpu ⟨hs.ppu.dot, hs.ppu.scanline, hs.ppu.sprCount, hs.ppu.atBits⟩ hs.memories.nametable
          (Memory.wfIn_write d (palIndex_lt _) hs.memories.palette) hs.memories.oam hs.memories.framebuffer

theorem Ppu.writeScroll_frame (p : Ppu) (d : Byte) :
    p.writeScroll d = { p with t := (p.writeScroll d).t, x := (p.writeScroll d).x, w := (p.writeScroll d).w } := by
  unfold writeScroll
  split <;> rfl

theorem Ppu.writeAddress_frame (p : Ppu) (d : Byte) :
    p.writeAddress d = { p with t := (p.writeAddress d).t, v := (p.writeAddress d).v, w := (p.writeAddress d).w } := by
  unfold writeAddress
  split <;> rfl

theorem State.Sound.writeOam {s : State} (h : s.Sound) (d : Byte) : (s.setPpu (s.ppu.writeOam d)).Sound :=
  h.setRegisters rfl rfl rfl (Memory.wfIn_write d s.ppu.oamAddr.isLt h.memories.oam)

theorem writePpuRegister_sound (a : Word) (d : Byte) : M.Keeps State.Sound (writePpuRegister a d) := by
  refine M.Keeps.bind (.update fun s hs => hs.setRegisters rfl rfl rfl hs.memories.oam) fun _ => ?_
  generalize a.toNat % 8 = n
  split
  · exact .update fun s hs => hs.setRegisters rfl rfl rfl hs.memories.oam
  · exact .update fun s hs => hs.setRegisters rfl rfl rfl hs.memories.oam
  · exact .pure _
  · exact .update fun s hs => hs.setRegisters rfl rfl rfl hs.memories.oam
  · exact .update fun s hs => hs.writeOam d
  · refine .update fun s hs => ?_
    rw [Ppu.writeScroll_frame]
    exact hs.setRegisters rfl rfl rfl hs.memories.oam
  · refine .update fun s hs => ?_
    rw [Ppu.writeAddress_frame]
    exact hs.setRegisters rfl rfl rfl hs.memories.oam
  · refine .getS_bind fun s b t hs h => ?_
    obtain ⟨_, u, h1, h2⟩ := M.bind_ok.mp h
    cases h2
    have hu := ppuWrite_sound _ _ _ _ _ hs h1
    exact hu.setRegisters rfl rfl rfl hu.memories.oam

theorem Mmc1.write_count {m : Mmc1} (h : m.count ≤ 4) (p : Params) (a : Nat) (d : Byte) : (m.write p a d).count ≤ 4 := by
  unfold write
  split
  · exact Nat.zero_le 4
  · dsimp only
    split
    · split <;> exact Nat.zero_le 4
    · next hn =>
      show m.count + 1 ≤ 4
      omega

theorem mapperWrite_sound (a : Word) (d : Byte) : M.Keeps State.Sound (mapperWrite a d) := by
  refine .getS_bind fun s b t hs h => ?_
  have hm := hs.map
  cases he : s.map with
  | nrom =>
    simp only [he] at h
    cases hw : s.params.nromPrgWrite <;> rw [hw] at h <;> cases h
    exact hs
  | uxrom m =>
    simp only [he] at h hm
    cases h
    exact hs.setMap hm
  | mmc1 m =>
    simp only [he] at h hm
    cases h
    exact hs.setMap ⟨hm.1, Mmc1.write_count hm.2 _ _ _⟩
  | mmc3 m =>
    simp only [he] at h hm
    cases h
    exact hs.setMap hm

theorem dmaCopy_sound (base : Word) : ∀ n, M.Keeps State.Sound (dmaCopy base n)
  | 0 => .pure _
  | n + 1 => (memRead_sound _).bind fun b => M.Keeps.bind (.update fun _ hs => hs.writeOam b) fun _ => dmaCopy_sound base n

theorem Pads.writeStrobe_ok {p : Pads} (h0 : padOk p.strobe p.pad0) (h1 : padOk p.strobe p.pad1) (d : Byte) :
    padOk (p.writeStrobe d).strobe (p.writeStrobe d).pad0 ∧ padOk (p.writeStrobe d).strobe (p.writeStrobe d).pad1 := by
  unfold writeStrobe
  split
  · exact ⟨⟨Nat.zero_le 8, fun _ => rfl⟩, ⟨Nat.zero_le 8, fun _ => rfl⟩⟩
  · exact ⟨⟨h0.1, nofun⟩, ⟨h1.1, nofun⟩⟩

/-- A bus write keeps the invariant. -/
theorem memWrite_sound (a : Word) (v : Byte) : M.Keeps State.Sound (memWrite a v) := by
  unfold memWrite
  refine .ite ?_ (.ite (writePpuRegister_sound a v) (.ite ?_ (.ite ?_ (.ite ?_ ?_))))
  · exact .update fun s hs => hs.writeRam (Nat.mod_lt _ (by decide)) v
  · exact (dmaCopy_sound _ _).bind fun _ => .update fun s hs => hs.withCpu _
  · exact .update fun s hs => hs.setPads (Pads.writeStrobe_ok hs.pad0 hs.pad1 v).1 (Pads.writeStrobe_ok hs.pad0 hs.pad1 v).2
  · refine .getS_bind fun s b t hs h => ?_
    cases hw : s.params.absentIo <;> rw [hw] at h <;> cases h
    · exact hs
    · exact hs
  · unfold mapCpuWrite
    by_cases h6 : a.toNat < 0x6000
    · rw [if_pos h6]
      exact .raise _
    · rw [if_neg h6]
      by_cases h8 : a.toNat < 0x8000
      · rw [if_pos h8]
        exact .update fun s hs => hs.writePrgRam (by omega) v
      · rw [if_neg h8]
        exact mapperWrite_sound a v

/-! ### Instructions -/

/-- A change of the CPU keeps the invariant. -/
theorem cpu_sound {f : State → State} (h : ∀ s, ∃ c, f s = s.withCpu c) : M.Keeps State.Sound (update f) :=
  .update fun s hs => by
    obtain ⟨c, e⟩ := h s
    rw [e]
    exact hs.withCpu c

theorem push_sound (v : Byte) : M.Keeps State.Sound (push v) :=
  M.Keeps.getS.bind fun _ => (memWrite_sound _ _).bind fun _ => cpu_sound fun _ => ⟨_, rfl⟩

theorem push16_sound (w : Word) : M.Keeps State.Sound (push16 w) :=
  (push_sound _).bind fun _ => push_sound _

theorem pull_sound : M.Keeps State.Sound pull :=
  (cpu_sound fun _ => ⟨_, rfl⟩).bind fun _ => M.Keeps.getS.bind fun _ => memRead_sound _

theorem pull16_sound : M.Keeps State.Sound pull16 :=
  pull_sound.bind fun _ => pull_sound.bind fun _ => .pure _

theorem read16_sound (a : Word) : M.Keeps State.Sound (read16 a) :=
  (memRead_sound _).bind fun _ => (memRead_sound _).bind fun _ => .pure _

theorem read16Bug_sound (a : Word) : M.Keeps State.Sound (read16Bug a) :=
  (memRead_sound _).bind fun _ => (memRead_sound _).bind fun _ => .pure _

theorem saveFrame_sound (ret : Word) (b : Bool) : M.Keeps State.Sound (saveFrame ret b) :=
  (push16_sound _).bind fun _ => M.Keeps.getS.bind fun _ => push_sound _

theorem loadVector_sound (vec : Word) : M.Keeps State.Sound (loadVector vec) :=
  (read16_sound _).bind fun _ => cpu_sound fun _ => ⟨_, rfl⟩

theorem disableInterrupts_sound : M.Keeps State.Sound disableInterrupts := cpu_sound fun _ => ⟨_, rfl⟩

theorem takeVector_sound (ret vec : Word) (b : Bool) : M.Keeps State.Sound (takeVector ret b vec) :=
  (saveFrame_sound _ _).bind fun _ => (loadVector_sound _).bind fun _ => disableInterrupts_sound

theorem takeBreak_sound (ret : Word) : M.Keeps State.Sound (takeBreak ret) :=
  (saveFrame_sound _ _).bind fun _ => disableInterrupts_sound.bind fun _ => loadVector_sound _

theorem interruptEntry_sound (vec : Word) : M.Keeps State.Sound (interruptEntry vec) :=
  M.Keeps.getS.bind fun _ => (takeVector_sound _ _ _).bind fun _ => cpu_sound fun _ => ⟨_, rfl⟩

theorem Target.read_sound (t : Target) : M.Keeps State.Sound t.read := by
  cases t with
  | memory ea => exact memRead_sound ea
  | accumulator => exact M.Keeps.getS.bind fun _ => .pure _
  | _ => exact .pure _

theorem Target.write_sound (t : Target) (v : Byte) : M.Keeps State.Sound (t.write v) := by
  cases t with
  | memory ea => exact memWrite_sound ea v
  | accumulator => exact cpu_sound fun _ => ⟨_, rfl⟩
  | _ => exact .pure _

theorem updateFlags_sound (f : Flags → Flags) : M.Keeps State.Sound (updateFlags f) :=
  cpu_sound fun _ => ⟨_, rfl⟩

theorem resolve_sound (o : Operand) (pc0 : Word) : M.Keeps State.Sound (resolve o pc0) := by
  refine M.Keeps.getS.bind fun s => ?_
  cases o with
  | indirect w => exact (read16Bug_sound _).bind fun _ => .pure _
  | indirectX b => exact (read16Bug_sound _).bind fun _ => .pure _
  | indirectY b => exact (read16Bug_sound _).bind fun _ => .pure _
  | _ => exact .pure _

theorem stepMemory_sound (f : Byte → Byte) (t : Target) : M.Keeps State.Sound (stepMemory f t) :=
  t.read_sound.bind fun _ => (t.write_sound _).bind fun _ => updateFlags_sound _

theorem shiftOperand_sound (f : Byte → Bool → Shifted) (t : Target) : M.Keeps State.Sound (shiftOperand f t) :=
  t.read_sound.bind fun _ => M.Keeps.getS.bind fun _ => (updateFlags_sound _).bind fun _ => (t.write_sound _).bind fun _ =>
    updateFlags_sound _

theorem addToA_sound (m : Byte) : M.Keeps State.Sound (addToA m) :=
  M.Keeps.getS.bind fun _ => (cpu_sound fun _ => ⟨_, rfl⟩).bind fun _ => updateFlags_sound _

theorem combineA_sound (f : Byte → Byte → Byte) (t : Target) : M.Keeps State.Sound (combineA f t) :=
  t.read_sound.bind fun _ => M.Keeps.getS.bind fun _ => (cpu_sound fun _ => ⟨_, rfl⟩).bind fun _ => updateFlags_sound _

theorem branch_sound (cond : Flags → Bool) (t : Target) : M.Keeps State.Sound (branch cond t) :=
  M.Keeps.getS.bind fun _ => .ite ((cpu_sound fun _ => ⟨_, rfl⟩).bind fun _ => cpu_sound fun _ => ⟨_, rfl⟩) (.pure _)

/-- A register loaded and the flags set from it. -/
theorem load_sound {x : M Byte} (hx : x.Keeps State.Sound) {f : Byte → State → State}
    (hf : ∀ v s, ∃ c, f v s = s.withCpu c) (g : Byte → Flags → Flags) :
    M.Keeps State.Sound (x >>= fun v => update (f v) >>= fun _ => updateFlags (g v)) :=
  hx.bind fun v => (cpu_sound (hf v)).bind fun _ => updateFlags_sound _

/-- Every handler keeps the invariant. -/
theorem handler_sound (mn : Mnemonic) (t : Target) : M.Keeps State.Sound (handlerOf mn t) := by
  cases mn with
  | lda => exact load_sound t.read_sound (f := fun v s => s.setA v) (fun _ _ => ⟨_, rfl⟩) _
  | ldx => exact load_sound t.read_sound (f := fun v s => s.setX v) (fun _ _ => ⟨_, rfl⟩) _
  | ldy => exact load_sound t.read_sound (f := fun v s => s.setY v) (fun _ _ => ⟨_, rfl⟩) _
  | sta => exact M.Keeps.getS.bind fun _ => t.write_sound _
  | stx => exact M.Keeps.getS.bind fun _ => t.write_sound _
  | sty => exact M.Keeps.getS.bind fun _ => t.write_sound _
  | tax | tay | txa | tya | tsx | inx | iny | dex | dey =>
    exact M.Keeps.getS.bind fun _ => (cpu_sound fun _ => ⟨_, rfl⟩).bind fun _ => updateFlags_sound _
  | txs => exact cpu_sound fun _ => ⟨_, rfl⟩
  | pha => exact M.Keeps.getS.bind fun _ => push_sound _
  | php => exact M.Keeps.getS.bind fun _ => push_sound _
  | pla => exact load_sound pull_sound (f := fun v s => s.setA v) (fun _ _ => ⟨_, rfl⟩) _
  | plp => exact pull_sound.bind fun _ => updateFlags_sound _
  | adc => exact t.read_sound.bind fun _ => addToA_sound _
  | sbc => exact t.read_sound.bind fun _ => addToA_sound _
  | and => exact combineA_sound _ t
  | ora => exact combineA_sound _ t
  | eor => exact combineA_sound _ t
  | cmp | cpx | cpy | bit => exact t.read_sound.bind fun _ => M.Keeps.getS.bind fun _ => updateFlags_sound _
  | inc => exact stepMemory_sound _ t
  | dec => exact stepMemory_sound _ t
  | asl => exact shiftOperand_sound _ t
  | lsr => exact shiftOperand_sound _ t
  | rol => exact shiftOperand_sound _ t
  | ror => exact shiftOperand_sound _ t
  | jmp => exact cpu_sound fun _ => ⟨_, rfl⟩
  | jsr => exact M.Keeps.getS.bind fun _ => (push16_sound _).bind fun _ => cpu_sound fun _ => ⟨_, rfl⟩
  | rts => exact pull16_sound.bind fun _ => cpu_sound fun _ => ⟨_, rfl⟩
  | rti =>
    exact pull_sound.bind fun _ => (cpu_sound fun _ => ⟨_, rfl⟩).bind fun _ => pull16_sound.bind fun _ =>
      cpu_sound fun _ => ⟨_, rfl⟩
  | brk => exact M.Keeps.getS.bind fun _ => takeBreak_sound _
  | bcc => exact branch_sound (fun q => !q.c) t
  | bcs => exact branch_sound (fun q => q.c) t
  | beq => exact branch_sound (fun q => q.z) t
  | bne => exact branch_sound (fun q => !q.z) t
  | bmi => exact branch_sound (fun q => q.n) t
  | bpl => exact branch_sound (fun q => !q.n) t
  | bvc => exact branch_sound (fun q => !q.v) t
  | bvs => exact branch_sound (fun q => q.v) t
  | clc => exact updateFlags_sound fun q => { q with c := false }
  | sec => exact updateFlags_sound fun q => { q with c := true }
  | cli => exact updateFlags_sound fun q => { q with i := false }
  | sei => exact updateFlags_sound fun q => { q with i := true }
  | clv => exact updateFlags_sound fun q => { q with v := false }
  | cld => exact updateFlags_sound fun q => { q with d := false }
  | sed => exact updateFlags_sound fun q => { q with d := true }
  | nop => exact .pure _

/-- Every instruction keeps the invariant. -/
theorem exec_sound {i : Instr} {s t : State} (hs : s.Sound) (h : exec i s = .next t) : t.Sound := by
  obtain ⟨r, u, h1, h2⟩ := exec_next h
  exact handler_sound _ _ _ _ _ (((resolve_sound _ _ _ _ _ hs h1).withCpu _).withCpu _) h2

theorem fetchOperand_sound (op : Byte) (pc0 : Word) : M.Keeps State.Sound (fetchOperand op pc0) :=
  fun _ _ _ hs h => memRead_sound _ _ _ _ hs (fetchOperand_ok.mp h)

theorem fetch_sound : M.Keeps State.Sound fetch := by
  refine M.Keeps.getS.bind fun s => (memRead_sound _).bind fun op => ?_
  cases opcodeSize op with
  | none => exact .raise _
  | some size =>
    have last : ∀ b1 b2 : Byte, M.Keeps State.Sound
        (match decodeOp op b1 b2 with
          | none => raise (.illegalOpcode s.cpu.pc op)
          | some i => pure i : M Instr) := by
      intro b1 b2
      cases decodeOp op b1 b2 with
      | none => exact .raise _
      | some i => exact .pure _
    dsimp only
    exact .ite
      ((fetchOperand_sound _ _).bind fun b1 => .ite ((memRead_sound _).bind fun b2 => last b1 b2) ((M.Keeps.pure 0).bind fun b2 => last b1 b2))
      ((M.Keeps.pure 0).bind fun b1 => .ite ((memRead_sound _).bind fun b2 => last b1 b2) ((M.Keeps.pure 0).bind fun b2 => last b1 b2))

/-! ### Dots -/

theorem Ppu.tick_inRange {p : Ppu} (h : p.InRange) : p.tick.1.InRange := by
  have h1 := h.dot
  have h2 := h.scanline
  unfold tick nextFrame
  split
  · exact ⟨Nat.zero_le _, Nat.zero_le _, h.sprCount, h.atBits⟩
  · split
    · next hd => exact ⟨hd, h2, h.sprCount, h.atBits⟩
    · split
      · next hl => exact ⟨Nat.zero_le _, hl, h.sprCount, h.atBits⟩
      · exact ⟨Nat.zero_le _, Nat.zero_le _, h.sprCount, h.atBits⟩

/-- The part of the invariant that rendering touches: the count of slots, the attribute bits, the frame buffer. -/
structure Ppu.RenderOk (p : Ppu) : Prop where
  sprCount : p.sprCount ≤ 8
  atBits : p.atBits &&& 3 = 0
  framebuffer : frameOk p.framebuffer

theorem frameOk_write {f : Vector Memory 240} (h : frameOk f) (y : Nat) {x : Nat} (hx : x < 256) (b : Byte) :
    frameOk (f.setIfInBounds y ((f[y]?.getD []).write x b)) := by
  intro k hk
  rw [Vector.getElem_setIfInBounds]
  split
  · next e =>
    subst e
    rw [Vector.getElem?_eq_getElem hk]
    exact Memory.wfIn_write b hx (h _ hk)
  · exact h k hk

theorem Ppu.renderPixel_ok {p : Ppu} (h : p.RenderOk) (hd : p.dot ≤ 256) : p.renderPixel.RenderOk := by
  have hx : p.dot - 1 < 256 := by omega
  unfold renderPixel writeFrame
  dsimp only
  split <;> exact ⟨h.sprCount, h.atBits, frameOk_write h.framebuffer _ hx _⟩

/-- A change of the picture unit that keeps the rendered part of the invariant. -/
theorem updatePpu_ok {f : Ppu → Ppu} (h : ∀ p : Ppu, p.RenderOk → (f p).RenderOk) :
    M.Keeps (fun s => s.ppu.RenderOk) (updatePpu f) := .update fun s hs => h s.ppu hs

theorem whenPpu_ok {test : Ppu → Bool} {x : M Unit} (hx : x.Keeps fun s => s.ppu.RenderOk) :
    M.Keeps (fun s => s.ppu.RenderOk) (whenPpu test x) := M.Keeps.getS.bind fun _ => .ite hx (.pure _)

theorem atBits_ok (x : BitVec 4) : (x <<< 2) &&& 3 = 0 := by
  revert x
  decide

theorem fetchAction_ok : M.Keeps (fun s => s.ppu.RenderOk) fetchAction := by
  refine M.Keeps.bind (updatePpu_ok fun p h => ⟨h.sprCount, h.atBits, h.framebuffer⟩) fun _ => M.Keeps.getS.bind fun s => ?_
  generalize s.ppu.dot % 8 = n
  split
  · exact M.Keeps.getS.bind fun _ => (M.Keeps.look _).bind fun _ => updatePpu_ok fun p h => ⟨h.sprCount, h.atBits, h.framebuffer⟩
  · exact M.Keeps.getS.bind fun _ => (M.Keeps.look _).bind fun _ => updatePpu_ok fun p h => ⟨h.sprCount, atBits_ok _, h.framebuffer⟩
  · exact M.Keeps.getS.bind fun _ => (M.Keeps.look _).bind fun _ => updatePpu_ok fun p h => ⟨h.sprCount, h.atBits, h.framebuffer⟩
  · exact M.Keeps.getS.bind fun _ => (M.Keeps.look _).bind fun _ => updatePpu_ok fun p h => ⟨h.sprCount, h.atBits, h.framebuffer⟩
  · exact updatePpu_ok fun p h => ⟨h.sprCount, h.atBits, h.framebuffer⟩
  · exact .pure _

theorem spritePattern_ok (tile attr : Byte) (row : Nat) :
    M.Keeps (fun s => s.ppu.RenderOk) (spritePattern tile attr row) :=
  M.Keeps.getS.bind fun _ => (M.Keeps.look _).bind fun _ => (M.Keeps.look _).bind fun _ => .pure _

/-- The scan fills at most eight slots. -/
theorem scanSprites_count : ∀ (left count : Nat) (s t : State) (n : Nat), count ≤ 8 →
    scanSprites left count s = .ok (n, t) → n ≤ 8
  | 0, count, s, t, n, hc, h => by
    cases h
    exact hc
  | left + 1, count, s, t, n, hc, h => by
    unfold scanSprites at h
    rw [M.getS_bind] at h
    by_cases hy : (s.ppu.oam.read (4 * (63 - left))).toNat ≤ s.ppu.scanline ∧
        s.ppu.scanline - (s.ppu.oam.read (4 * (63 - left))).toNat < s.ppu.spriteHeight
    · rw [if_pos hy] at h
      by_cases h8 : count < 8
      · rw [if_pos h8] at h
        obtain ⟨_, _, _, h2⟩ := M.bind_ok.mp h
        exact scanSprites_count left (count + 1) _ t n h8 h2
      · rw [if_neg h8] at h
        cases h
        exact hc
    · rw [if_neg hy] at h
      exact scanSprites_count left count s t n hc h

theorem scanSprites_ok : ∀ left count, M.Keeps (fun s => s.ppu.RenderOk) (scanSprites left count)
  | 0, _ => .pure _
  | left + 1, count => by
    unfold scanSprites
    refine M.Keeps.getS.bind fun s => .ite (.ite ?_ ?_) (scanSprites_ok left count)
    · exact (spritePattern_ok _ _ _).bind fun _ =>
        M.Keeps.bind (updatePpu_ok fun p h => ⟨h.sprCount, h.atBits, h.framebuffer⟩) fun _ => scanSprites_ok left (count + 1)
    · exact M.Keeps.bind (updatePpu_ok fun p h => ⟨h.sprCount, h.atBits, h.framebuffer⟩) fun _ => .pure _

theorem evaluateSprites_ok : M.Keeps (fun s => s.ppu.RenderOk) evaluateSprites := by
  refine .getS_bind fun s b t hs h => ?_
  obtain ⟨n, u, h1, h2⟩ := M.bind_ok.mp h
  cases h2
  have hu := scanSprites_ok _ _ _ _ _ hs h1
  exact ⟨scanSprites_count _ 0 s u n (Nat.zero_le 8) h1, hu.atBits, hu.framebuffer⟩

theorem Ppu.scrollUpdates_ok {p : Ppu} (h : p.RenderOk) : p.scrollUpdates.RenderOk := by
  rw [scrollUpdates_v]
  exact ⟨h.sprCount, h.atBits, h.framebuffer⟩

theorem renderActions_ok : M.Keeps (fun s => s.ppu.RenderOk) renderActions := by
  refine M.Keeps.bind ?_ fun _ => (whenPpu_ok fetchAction_ok).bind fun _ =>
    M.Keeps.bind (updatePpu_ok fun p h => Ppu.scrollUpdates_ok h) fun _ => (whenPpu_ok evaluateSprites_ok).bind fun _ =>
      whenPpu_ok (updatePpu_ok fun p h => ⟨Nat.zero_le 8, h.atBits, h.framebuffer⟩)
  refine .getS_bind fun s b t hs h => ?_
  dsimp only at h
  split at h
  · next hv =>
    cases h
    simp only [Ppu.visDot, Bool.and_eq_true, decide_eq_true_eq] at hv
    exact Ppu.renderPixel_ok hs hv.2.2
  · cases h
    exact hs

/-- A dot keeps the invariant, the frame event apart. -/
theorem ppuStep_sound : M.Keeps State.Sound ppuStep := by
  intro s a t hs h
  have ht := Ppu.tick_inRange hs.ppu
  have hok : s.ticked.ppu.RenderOk := by
    rw [State.ticked_ppu]
    refine ⟨ht.sprCount, ht.atBits, ?_⟩
    rw [Ppu.tick_frame]
    exact hs.memories.framebuffer
  have htick : s.ticked.Sound := by
    have h1 : (s.setPpu s.ppu.tick.1).Sound := by
      refine hs.setPpu ht ?_ ?_ ?_ ?_ <;> rw [Ppu.tick_frame]
      · exact hs.memories.nametable
      · exact hs.memories.palette
      · exact hs.memories.oam
      · exact hs.memories.framebuffer
    rw [State.ticked_rest, State.ticked_con]
    exact ⟨⟨h1.memories.ram, h1.memories.nametable, h1.memories.palette, h1.memories.oam, h1.memories.framebuffer,
      h1.memories.lastFrame, h1.memories.prgRam, h1.memories.chrRam⟩, h1.cart, h1.map, h1.ppu, h1.pad0, h1.pad1,
      h1.running⟩
  unfold ppuStep at h
  rw [M.bind_of_ok (tick_apply s)] at h
  obtain ⟨_, u, h1, h2⟩ := M.bind_ok.mp h
  cases h2
  have hr := whenPpu_renders (test := Ppu.rendering) renderActions_renders _ _ _ h1
  have ho := whenPpu_ok (test := Ppu.rendering) renderActions_ok _ _ _ hok h1
  have hu : u.Sound := by
    rw [hr.rest]
    refine htick.setPpu ⟨?_, ?_, ho.sprCount, ho.atBits⟩ ?_ ?_ ?_ ho.framebuffer <;> rw [hr.ppu]
    · exact htick.ppu.dot
    · exact htick.ppu.scanline
    · exact htick.memories.nametable
    · exact htick.memories.palette
    · exact htick.memories.oam
  rw [flagEvents_frame]
  exact ⟨⟨hu.memories.ram, hu.memories.nametable, hu.memories.palette, hu.memories.oam, hu.memories.framebuffer,
    hu.memories.lastFrame, hu.memories.prgRam, hu.memories.chrRam⟩, hu.cart, hu.map,
    ⟨hu.ppu.dot, hu.ppu.scanline, hu.ppu.sprCount, hu.ppu.atBits⟩, hu.pad0, hu.pad1, hu.running⟩

theorem mapperHook_sound {s : State} (hs : s.Sound) : (mapperHook s).Sound := by
  have hm := hs.map
  unfold mapperHook
  cases he : s.map with
  | nrom => exact hs
  | uxrom m => exact hs
  | mmc1 m => exact hs
  | mmc3 m =>
    rw [he] at hm
    dsimp only
    have h3 : (s.setMap (.mmc3 m.count.1)).Sound := hs.setMap hm
    split
    · split
      · unfold State.triggerIrq
        split
        · exact h3
        · exact h3.withCpu _
      · exact h3
    · exact hs

/-- Delivering the frame keeps the invariant and consumes the event. -/
theorem deliverFrame_sound {s : State} (hs : s.Sound) :
    (deliverFrame s).Sound ∧ (deliverFrame s).con.frameReady = false := by
  unfold deliverFrame
  split
  · refine ⟨⟨⟨hs.memories.ram, hs.memories.nametable, hs.memories.palette, hs.memories.oam, hs.memories.framebuffer, ?_,
      hs.memories.prgRam, hs.memories.chrRam⟩, hs.cart, hs.map, hs.ppu, hs.pad0, hs.pad1, hs.running⟩, rfl⟩
    intro f hf
    cases hf
    exact hs.memories.framebuffer
  · next h => exact ⟨hs, by simpa using h⟩

end Sys2Proof.Machine
end

