-- ==== Sys2Proof/Laws/PerInstr.lean ====
section
/-! SUPPORT. What holds of every instruction as syntax, one lemma per constructor: its form is one of the table's, its
encoding has its length, and its opcode byte alone gives that length (30_encoding.md R100, R101, R120). -/

namespace Sys2Proof.Laws.Sizes

/-- The instruction's form is well-formed, its encoding has as many bytes as its format, and the opcode says so. -/
def Statement (i : Instr) : Prop :=
  i.wellFormed = true ∧ (encode i).length = i.size ∧ opcodeSize i.row.opcode = some i.size

theorem ldaImmediate (v : Byte) : Statement (.ldaImmediate v) := ⟨rfl, rfl, rfl⟩
theorem ldaZeroPage (v : Byte) : Statement (.ldaZeroPage v) := ⟨rfl, rfl, rfl⟩
theorem ldaZeroPageX (v : Byte) : Statement (.ldaZeroPageX v) := ⟨rfl, rfl, rfl⟩
theorem ldaAbsolute (v : Word) : Statement (.ldaAbsolute v) := ⟨rfl, rfl, rfl⟩
theorem ldaAbsoluteX (v : Word) : Statement (.ldaAbsoluteX v) := ⟨rfl, rfl, rfl⟩
theorem ldaAbsoluteY (v : Word) : Statement (.ldaAbsoluteY v) := ⟨rfl, rfl, rfl⟩
theorem ldaIndirectX (v : Byte) : Statement (.ldaIndirectX v) := ⟨rfl, rfl, rfl⟩
theorem ldaIndirectY (v : Byte) : Statement (.ldaIndirectY v) := ⟨rfl, rfl, rfl⟩
theorem ldxImmediate (v : Byte) : Statement (.ldxImmediate v) := ⟨rfl, rfl, rfl⟩
theorem ldxZeroPage (v : Byte) : Statement (.ldxZeroPage v) := ⟨rfl, rfl, rfl⟩
theorem ldxZeroPageY (v : Byte) : Statement (.ldxZeroPageY v) := ⟨rfl, rfl, rfl⟩
theorem ldxAbsolute (v : Word) : Statement (.ldxAbsolute v) := ⟨rfl, rfl, rfl⟩
theorem ldxAbsoluteY (v : Word) : Statement (.ldxAbsoluteY v) := ⟨rfl, rfl, rfl⟩
theorem ldyImmediate (v : Byte) : Statement (.ldyImmediate v) := ⟨rfl, rfl, rfl⟩
theorem ldyZeroPage (v : Byte) : Statement (.ldyZeroPage v) := ⟨rfl, rfl, rfl⟩
theorem ldyZeroPageX (v : Byte) : Statement (.ldyZeroPageX v) := ⟨rfl, rfl, rfl⟩
theorem ldyAbsolute (v : Word) : Statement (.ldyAbsolute v) := ⟨rfl, rfl, rfl⟩
theorem ldyAbsoluteX (v : Word) : Statement (.ldyAbsoluteX v) := ⟨rfl, rfl, rfl⟩
theorem staZeroPage (v : Byte) : Statement (.staZeroPage v) := ⟨rfl, rfl, rfl⟩
theorem staZeroPageX (v : Byte) : Statement (.staZeroPageX v) := ⟨rfl, rfl, rfl⟩
theorem staAbsolute (v : Word) : Statement (.staAbsolute v) := ⟨rfl, rfl, rfl⟩
theorem staAbsoluteX (v : Word) : Statement (.staAbsoluteX v) := ⟨rfl, rfl, rfl⟩
theorem staAbsoluteY (v : Word) : Statement (.staAbsoluteY v) := ⟨rfl, rfl, rfl⟩
theorem staIndirectX (v : Byte) : Statement (.staIndirectX v) := ⟨rfl, rfl, rfl⟩
theorem staIndirectY (v : Byte) : Statement (.staIndirectY v) := ⟨rfl, rfl, rfl⟩
theorem stxZeroPage (v : Byte) : Statement (.stxZeroPage v) := ⟨rfl, rfl, rfl⟩
theorem stxZeroPageY (v : Byte) : Statement (.stxZeroPageY v) := ⟨rfl, rfl, rfl⟩
theorem stxAbsolute (v : Word) : Statement (.stxAbsolute v) := ⟨rfl, rfl, rfl⟩
theorem styZeroPage (v : Byte) : Statement (.styZeroPage v) := ⟨rfl, rfl, rfl⟩
theorem styZeroPageX (v : Byte) : Statement (.styZeroPageX v) := ⟨rfl, rfl, rfl⟩
theorem styAbsolute (v : Word) : Statement (.styAbsolute v) := ⟨rfl, rfl, rfl⟩
theorem tax : Statement .tax := ⟨rfl, rfl, rfl⟩
theorem tay : Statement .tay := ⟨rfl, rfl, rfl⟩
theorem txa : Statement .txa := ⟨rfl, rfl, rfl⟩
theorem tya : Statement .tya := ⟨rfl, rfl, rfl⟩
theorem tsx : Statement .tsx := ⟨rfl, rfl, rfl⟩
theorem txs : Statement .txs := ⟨rfl, rfl, rfl⟩
theorem pha : Statement .pha := ⟨rfl, rfl, rfl⟩
theorem php : Statement .php := ⟨rfl, rfl, rfl⟩
theorem pla : Statement .pla := ⟨rfl, rfl, rfl⟩
theorem plp : Statement .plp := ⟨rfl, rfl, rfl⟩
theorem adcImmediate (v : Byte) : Statement (.adcImmediate v) := ⟨rfl, rfl, rfl⟩
theorem adcZeroPage (v : Byte) : Statement (.adcZeroPage v) := ⟨rfl, rfl, rfl⟩
theorem adcZeroPageX (v : Byte) : Statement (.adcZeroPageX v) := ⟨rfl, rfl, rfl⟩
theorem adcAbsolute (v : Word) : Statement (.adcAbsolute v) := ⟨rfl, rfl, rfl⟩
theorem adcAbsoluteX (v : Word) : Statement (.adcAbsoluteX v) := ⟨rfl, rfl, rfl⟩
theorem adcAbsoluteY (v : Word) : Statement (.adcAbsoluteY v) := ⟨rfl, rfl, rfl⟩
theorem adcIndirectX (v : Byte) : Statement (.adcIndirectX v) := ⟨rfl, rfl, rfl⟩
theorem adcIndirectY (v : Byte) : Statement (.adcIndirectY v) := ⟨rfl, rfl, rfl⟩
theorem sbcImmediate (v : Byte) : Statement (.sbcImmediate v) := ⟨rfl, rfl, rfl⟩
theorem sbcZeroPage (v : Byte) : Statement (.sbcZeroPage v) := ⟨rfl, rfl, rfl⟩
theorem sbcZeroPageX (v : Byte) : Statement (.sbcZeroPageX v) := ⟨rfl, rfl, rfl⟩
theorem sbcAbsolute (v : Word) : Statement (.sbcAbsolute v) := ⟨rfl, rfl, rfl⟩
theorem sbcAbsoluteX (v : Word) : Statement (.sbcAbsoluteX v) := ⟨rfl, rfl, rfl⟩
theorem sbcAbsoluteY (v : Word) : Statement (.sbcAbsoluteY v) := ⟨rfl, rfl, rfl⟩
theorem sbcIndirectX (v : Byte) : Statement (.sbcIndirectX v) := ⟨rfl, rfl, rfl⟩
theorem sbcIndirectY (v : Byte) : Statement (.sbcIndirectY v) := ⟨rfl, rfl, rfl⟩
theorem andImmediate (v : Byte) : Statement (.andImmediate v) := ⟨rfl, rfl, rfl⟩
theorem andZeroPage (v : Byte) : Statement (.andZeroPage v) := ⟨rfl, rfl, rfl⟩
theorem andZeroPageX (v : Byte) : Statement (.andZeroPageX v) := ⟨rfl, rfl, rfl⟩
theorem andAbsolute (v : Word) : Statement (.andAbsolute v) := ⟨rfl, rfl, rfl⟩
theorem andAbsoluteX (v : Word) : Statement (.andAbsoluteX v) := ⟨rfl, rfl, rfl⟩
theorem andAbsoluteY (v : Word) : Statement (.andAbsoluteY v) := ⟨rfl, rfl, rfl⟩
theorem andIndirectX (v : Byte) : Statement (.andIndirectX v) := ⟨rfl, rfl, rfl⟩
theorem andIndirectY (v : Byte) : Statement (.andIndirectY v) := ⟨rfl, rfl, rfl⟩
theorem oraImmediate (v : Byte) : Statement (.oraImmediate v) := ⟨rfl, rfl, rfl⟩
theorem oraZeroPage (v : Byte) : Statement (.oraZeroPage v) := ⟨rfl, rfl, rfl⟩
theorem oraZeroPageX (v : Byte) : Statement (.oraZeroPageX v) := ⟨rfl, rfl, rfl⟩
theorem oraAbsolute (v : Word) : Statement (.oraAbsolute v) := ⟨rfl, rfl, rfl⟩
theorem oraAbsoluteX (v : Word) : Statement (.oraAbsoluteX v) := ⟨rfl, rfl, rfl⟩
theorem oraAbsoluteY (v : Word) : Statement (.oraAbsoluteY v) := ⟨rfl, rfl, rfl⟩
theorem oraIndirectX (v : Byte) : Statement (.oraIndirectX v) := ⟨rfl, rfl, rfl⟩
theorem oraIndirectY (v : Byte) : Statement (.oraIndirectY v) := ⟨rfl, rfl, rfl⟩
theorem eorImmediate (v : Byte) : Statement (.eorImmediate v) := ⟨rfl, rfl, rfl⟩
theorem eorZeroPage (v : Byte) : Statement (.eorZeroPage v) := ⟨rfl, rfl, rfl⟩
theorem eorZeroPageX (v : Byte) : Statement (.eorZeroPageX v) := ⟨rfl, rfl, rfl⟩
theorem eorAbsolute (v : Word) : Statement (.eorAbsolute v) := ⟨rfl, rfl, rfl⟩
theorem eorAbsoluteX (v : Word) : Statement (.eorAbsoluteX v) := ⟨rfl, rfl, rfl⟩
theorem eorAbsoluteY (v : Word) : Statement (.eorAbsoluteY v) := ⟨rfl, rfl, rfl⟩
theorem eorIndirectX (v : Byte) : Statement (.eorIndirectX v) := ⟨rfl, rfl, rfl⟩
theorem eorIndirectY (v : Byte) : Statement (.eorIndirectY v) := ⟨rfl, rfl, rfl⟩
theorem cmpImmediate (v : Byte) : Statement (.cmpImmediate v) := ⟨rfl, rfl, rfl⟩
theorem cmpZeroPage (v : Byte) : Statement (.cmpZeroPage v) := ⟨rfl, rfl, rfl⟩
theorem cmpZeroPageX (v : Byte) : Statement (.cmpZeroPageX v) := ⟨rfl, rfl, rfl⟩
theorem cmpAbsolute (v : Word) : Statement (.cmpAbsolute v) := ⟨rfl, rfl, rfl⟩
theorem cmpAbsoluteX (v : Word) : Statement (.cmpAbsoluteX v) := ⟨rfl, rfl, rfl⟩
theorem cmpAbsoluteY (v : Word) : Statement (.cmpAbsoluteY v) := ⟨rfl, rfl, rfl⟩
theorem cmpIndirectX (v : Byte) : Statement (.cmpIndirectX v) := ⟨rfl, rfl, rfl⟩
theorem cmpIndirectY (v : Byte) : Statement (.cmpIndirectY v) := ⟨rfl, rfl, rfl⟩
theorem cpxImmediate (v : Byte) : Statement (.cpxImmediate v) := ⟨rfl, rfl, rfl⟩
theorem cpxZeroPage (v : Byte) : Statement (.cpxZeroPage v) := ⟨rfl, rfl, rfl⟩
theorem cpxAbsolute (v : Word) : Statement (.cpxAbsolute v) := ⟨rfl, rfl, rfl⟩
theorem cpyImmediate (v : Byte) : Statement (.cpyImmediate v) := ⟨rfl, rfl, rfl⟩
theorem cpyZeroPage (v : Byte) : Statement (.cpyZeroPage v) := ⟨rfl, rfl, rfl⟩
theorem cpyAbsolute (v : Word) : Statement (.cpyAbsolute v) := ⟨rfl, rfl, rfl⟩
theorem bitZeroPage (v : Byte) : Statement (.bitZeroPage v) := ⟨rfl, rfl, rfl⟩
theorem bitAbsolute (v : Word) : Statement (.bitAbsolute v) := ⟨rfl, rfl, rfl⟩
theorem incZeroPage (v : Byte) : Statement (.incZeroPage v) := ⟨rfl, rfl, rfl⟩
theorem incZeroPageX (v : Byte) : Statement (.incZeroPageX v) := ⟨rfl, rfl, rfl⟩
theorem incAbsolute (v : Word) : Statement (.incAbsolute v) := ⟨rfl, rfl, rfl⟩
theorem incAbsoluteX (v : Word) : Statement (.incAbsoluteX v) := ⟨rfl, rfl, rfl⟩
theorem decZeroPage (v : Byte) : Statement (.decZeroPage v) := ⟨rfl, rfl, rfl⟩
theorem decZeroPageX (v : Byte) : Statement (.decZeroPageX v) := ⟨rfl, rfl, rfl⟩
theorem decAbsolute (v : Word) : Statement (.decAbsolute v) := ⟨rfl, rfl, rfl⟩
theorem decAbsoluteX (v : Word) : Statement (.decAbsoluteX v) := ⟨rfl, rfl, rfl⟩
theorem inx : Statement .inx := ⟨rfl, rfl, rfl⟩
theorem iny : Statement .iny := ⟨rfl, rfl, rfl⟩
theorem dex : Statement .dex := ⟨rfl, rfl, rfl⟩
theorem dey : Statement .dey := ⟨rfl, rfl, rfl⟩
theorem aslAccumulator : Statement .aslAccumulator := ⟨rfl, rfl, rfl⟩
theorem aslZeroPage (v : Byte) : Statement (.aslZeroPage v) := ⟨rfl, rfl, rfl⟩
theorem aslZeroPageX (v : Byte) : Statement (.aslZeroPageX v) := ⟨rfl, rfl, rfl⟩
theorem aslAbsolute (v : Word) : Statement (.aslAbsolute v) := ⟨rfl, rfl, rfl⟩
theorem aslAbsoluteX (v : Word) : Statement (.aslAbsoluteX v) := ⟨rfl, rfl, rfl⟩
theorem lsrAccumulator : Statement .lsrAccumulator := ⟨rfl, rfl, rfl⟩
theorem lsrZeroPage (v : Byte) : Statement (.lsrZeroPage v) := ⟨rfl, rfl, rfl⟩
theorem lsrZeroPageX (v : Byte) : Statement (.lsrZeroPageX v) := ⟨rfl, rfl, rfl⟩
theorem lsrAbsolute (v : Word) : Statement (.lsrAbsolute v) := ⟨rfl, rfl, rfl⟩
theorem lsrAbsoluteX (v : Word) : Statement (.lsrAbsoluteX v) := ⟨rfl, rfl, rfl⟩
theorem rolAccumulator : Statement .rolAccumulator := ⟨rfl, rfl, rfl⟩
theorem rolZeroPage (v : Byte) : Statement (.rolZeroPage v) := ⟨rfl, rfl, rfl⟩
theorem rolZeroPageX (v : Byte) : Statement (.rolZeroPageX v) := ⟨rfl, rfl, rfl⟩
theorem rolAbsolute (v : Word) : Statement (.rolAbsolute v) := ⟨rfl, rfl, rfl⟩
theorem rolAbsoluteX (v : Word) : Statement (.rolAbsoluteX v) := ⟨rfl, rfl, rfl⟩
theorem rorAccumulator : Statement .rorAccumulator := ⟨rfl, rfl, rfl⟩
theorem rorZeroPage (v : Byte) : Statement (.rorZeroPage v) := ⟨rfl, rfl, rfl⟩
theorem rorZeroPageX (v : Byte) : Statement (.rorZeroPageX v) := ⟨rfl, rfl, rfl⟩
theorem rorAbsolute (v : Word) : Statement (.rorAbsolute v) := ⟨rfl, rfl, rfl⟩
theorem rorAbsoluteX (v : Word) : Statement (.rorAbsoluteX v) := ⟨rfl, rfl, rfl⟩
theorem jmpAbsolute (v : Word) : Statement (.jmpAbsolute v) := ⟨rfl, rfl, rfl⟩
theorem jmpIndirect (v : Word) : Statement (.jmpIndirect v) := ⟨rfl, rfl, rfl⟩
theorem jsr (v : Word) : Statement (.jsr v) := ⟨rfl, rfl, rfl⟩
theorem rts : Statement .rts := ⟨rfl, rfl, rfl⟩
theorem rti : Statement .rti := ⟨rfl, rfl, rfl⟩
theorem brk : Statement .brk := ⟨rfl, rfl, rfl⟩
theorem bcc (v : Byte) : Statement (.bcc v) := ⟨rfl, rfl, rfl⟩
theorem bcs (v : Byte) : Statement (.bcs v) := ⟨rfl, rfl, rfl⟩
theorem beq (v : Byte) : Statement (.beq v) := ⟨rfl, rfl, rfl⟩
theorem bne (v : Byte) : Statement (.bne v) := ⟨rfl, rfl, rfl⟩
theorem bmi (v : Byte) : Statement (.bmi v) := ⟨rfl, rfl, rfl⟩
theorem bpl (v : Byte) : Statement (.bpl v) := ⟨rfl, rfl, rfl⟩
theorem bvc (v : Byte) : Statement (.bvc v) := ⟨rfl, rfl, rfl⟩
theorem bvs (v : Byte) : Statement (.bvs v) := ⟨rfl, rfl, rfl⟩
theorem clc : Statement .clc := ⟨rfl, rfl, rfl⟩
theorem sec : Statement .sec := ⟨rfl, rfl, rfl⟩
theorem cli : Statement .cli := ⟨rfl, rfl, rfl⟩
theorem sei : Statement .sei := ⟨rfl, rfl, rfl⟩
theorem clv : Statement .clv := ⟨rfl, rfl, rfl⟩
theorem cld : Statement .cld := ⟨rfl, rfl, rfl⟩
theorem sed : Statement .sed := ⟨rfl, rfl, rfl⟩
theorem nop : Statement .nop := ⟨rfl, rfl, rfl⟩

end Sys2Proof.Laws.Sizes
end

