-- ==== Sys2Proof/Tests/Slice0.lean ====
section
/-! SUPPORT. The model's own tests: the well-formedness check, the decoding of every opcode, single steps of
95_test_vectors.md (the number of a theorem is the row's), and for every statement with hypotheses a state and operands
that meet them. -/

namespace Sys2Proof.Tests

open Sys2Proof Sys2Proof.Machine

-- One theorem at a time: each one checked beside the others takes a thread with a large stack of its own.
set_option Elab.async false

/-! ### Well-formed forms -/

theorem test_refused_sta_immediate : Form.wellFormed ⟨.sta, .immediate 0⟩ = false := by decide
theorem test_refused_ldx_zero_page_x : Form.wellFormed ⟨.ldx, .zeroPageX 0⟩ = false := by decide
theorem test_refused_lda_zero_page_y : Form.wellFormed ⟨.lda, .zeroPageY 0⟩ = false := by decide
theorem test_refused_ldy_absolute_y : Form.wellFormed ⟨.ldy, .absoluteY 0⟩ = false := by decide
theorem test_refused_bit_immediate : Form.wellFormed ⟨.bit, .immediate 0⟩ = false := by decide
theorem test_refused_inc_accumulator : Form.wellFormed ⟨.inc, .accumulator⟩ = false := by decide
theorem test_refused_jmp_indirect_x : Form.wellFormed ⟨.jmp, .indirectX 0⟩ = false := by decide
theorem test_refused_jsr_indirect : Form.wellFormed ⟨.jsr, .indirect 0⟩ = false := by decide
theorem test_refused_ldx_indirect_y : Form.wellFormed ⟨.ldx, .indirectY 0⟩ = false := by decide
theorem test_refused_bne_absolute : Form.wellFormed ⟨.bne, .absolute 0⟩ = false := by decide
theorem test_refused_lda_relative : Form.wellFormed ⟨.lda, .relative 0⟩ = false := by decide
theorem test_refused_tax_absolute_x : Form.wellFormed ⟨.tax, .absoluteX 0⟩ = false := by decide
theorem test_refused_adc_implied : Form.wellFormed ⟨.adc, .implied⟩ = false := by decide
theorem test_accepted : Form.wellFormed ⟨.stx, .zeroPageY 0xFF⟩ = true := by decide
theorem test_accepted_jmp : Form.wellFormed ⟨.jmp, .indirect 0xFFFF⟩ = true := by decide

/-! ### Decoding: the words of 30_encoding.md R120, the operand 0x34 or 0x1234 -/

/-- The bytes decode to the instruction, all of them read. -/
def reads (row : List Byte × Instr) : Bool :=
  match decode row.1 with
  | .ok (i, []) => i == row.2
  | _ => false

def words_loads_and_stores : List (List Byte × Instr) :=
  [([0xA9, 0x34], .ldaImmediate 0x34), ([0xA5, 0x34], .ldaZeroPage 0x34), ([0xB5, 0x34], .ldaZeroPageX 0x34),
   ([0xAD, 0x34, 0x12], .ldaAbsolute 0x1234), ([0xBD, 0x34, 0x12], .ldaAbsoluteX 0x1234),
   ([0xB9, 0x34, 0x12], .ldaAbsoluteY 0x1234), ([0xA1, 0x34], .ldaIndirectX 0x34),
   ([0xB1, 0x34], .ldaIndirectY 0x34), ([0xA2, 0x34], .ldxImmediate 0x34), ([0xA6, 0x34], .ldxZeroPage 0x34),
   ([0xB6, 0x34], .ldxZeroPageY 0x34), ([0xAE, 0x34, 0x12], .ldxAbsolute 0x1234),
   ([0xBE, 0x34, 0x12], .ldxAbsoluteY 0x1234), ([0xA0, 0x34], .ldyImmediate 0x34),
   ([0xA4, 0x34], .ldyZeroPage 0x34), ([0xB4, 0x34], .ldyZeroPageX 0x34),
   ([0xAC, 0x34, 0x12], .ldyAbsolute 0x1234), ([0xBC, 0x34, 0x12], .ldyAbsoluteX 0x1234),
   ([0x85, 0x34], .staZeroPage 0x34), ([0x95, 0x34], .staZeroPageX 0x34),
   ([0x8D, 0x34, 0x12], .staAbsolute 0x1234), ([0x9D, 0x34, 0x12], .staAbsoluteX 0x1234),
   ([0x99, 0x34, 0x12], .staAbsoluteY 0x1234), ([0x81, 0x34], .staIndirectX 0x34),
   ([0x91, 0x34], .staIndirectY 0x34), ([0x86, 0x34], .stxZeroPage 0x34), ([0x96, 0x34], .stxZeroPageY 0x34),
   ([0x8E, 0x34, 0x12], .stxAbsolute 0x1234), ([0x84, 0x34], .styZeroPage 0x34),
   ([0x94, 0x34], .styZeroPageX 0x34), ([0x8C, 0x34, 0x12], .styAbsolute 0x1234)]

theorem test_decode_loads_and_stores : words_loads_and_stores.all reads = true := by decide +kernel

def words_transfers_and_stack : List (List Byte × Instr) :=
  [([0xAA], .tax), ([0xA8], .tay), ([0x8A], .txa), ([0x98], .tya), ([0xBA], .tsx), ([0x9A], .txs), ([0x48], .pha),
   ([0x08], .php), ([0x68], .pla), ([0x28], .plp)]

theorem test_decode_transfers_and_stack : words_transfers_and_stack.all reads = true := by decide +kernel

def words_arithmetic : List (List Byte × Instr) :=
  [([0x69, 0x34], .adcImmediate 0x34), ([0x65, 0x34], .adcZeroPage 0x34), ([0x75, 0x34], .adcZeroPageX 0x34),
   ([0x6D, 0x34, 0x12], .adcAbsolute 0x1234), ([0x7D, 0x34, 0x12], .adcAbsoluteX 0x1234),
   ([0x79, 0x34, 0x12], .adcAbsoluteY 0x1234), ([0x61, 0x34], .adcIndirectX 0x34),
   ([0x71, 0x34], .adcIndirectY 0x34), ([0xE9, 0x34], .sbcImmediate 0x34), ([0xE5, 0x34], .sbcZeroPage 0x34),
   ([0xF5, 0x34], .sbcZeroPageX 0x34), ([0xED, 0x34, 0x12], .sbcAbsolute 0x1234),
   ([0xFD, 0x34, 0x12], .sbcAbsoluteX 0x1234), ([0xF9, 0x34, 0x12], .sbcAbsoluteY 0x1234),
   ([0xE1, 0x34], .sbcIndirectX 0x34), ([0xF1, 0x34], .sbcIndirectY 0x34), ([0xC9, 0x34], .cmpImmediate 0x34),
   ([0xC5, 0x34], .cmpZeroPage 0x34), ([0xD5, 0x34], .cmpZeroPageX 0x34),
   ([0xCD, 0x34, 0x12], .cmpAbsolute 0x1234), ([0xDD, 0x34, 0x12], .cmpAbsoluteX 0x1234),
   ([0xD9, 0x34, 0x12], .cmpAbsoluteY 0x1234), ([0xC1, 0x34], .cmpIndirectX 0x34),
   ([0xD1, 0x34], .cmpIndirectY 0x34), ([0xE0, 0x34], .cpxImmediate 0x34), ([0xE4, 0x34], .cpxZeroPage 0x34),
   ([0xEC, 0x34, 0x12], .cpxAbsolute 0x1234), ([0xC0, 0x34], .cpyImmediate 0x34),
   ([0xC4, 0x34], .cpyZeroPage 0x34), ([0xCC, 0x34, 0x12], .cpyAbsolute 0x1234)]

theorem test_decode_arithmetic : words_arithmetic.all reads = true := by decide +kernel

def words_logic : List (List Byte × Instr) :=
  [([0x29, 0x34], .andImmediate 0x34), ([0x25, 0x34], .andZeroPage 0x34), ([0x35, 0x34], .andZeroPageX 0x34),
   ([0x2D, 0x34, 0x12], .andAbsolute 0x1234), ([0x3D, 0x34, 0x12], .andAbsoluteX 0x1234),
   ([0x39, 0x34, 0x12], .andAbsoluteY 0x1234), ([0x21, 0x34], .andIndirectX 0x34),
   ([0x31, 0x34], .andIndirectY 0x34), ([0x09, 0x34], .oraImmediate 0x34), ([0x05, 0x34], .oraZeroPage 0x34),
   ([0x15, 0x34], .oraZeroPageX 0x34), ([0x0D, 0x34, 0x12], .oraAbsolute 0x1234),
   ([0x1D, 0x34, 0x12], .oraAbsoluteX 0x1234), ([0x19, 0x34, 0x12], .oraAbsoluteY 0x1234),
   ([0x01, 0x34], .oraIndirectX 0x34), ([0x11, 0x34], .oraIndirectY 0x34), ([0x49, 0x34], .eorImmediate 0x34),
   ([0x45, 0x34], .eorZeroPage 0x34), ([0x55, 0x34], .eorZeroPageX 0x34),
   ([0x4D, 0x34, 0x12], .eorAbsolute 0x1234), ([0x5D, 0x34, 0x12], .eorAbsoluteX 0x1234),
   ([0x59, 0x34, 0x12], .eorAbsoluteY 0x1234), ([0x41, 0x34], .eorIndirectX 0x34),
   ([0x51, 0x34], .eorIndirectY 0x34), ([0x24, 0x34], .bitZeroPage 0x34), ([0x2C, 0x34, 0x12], .bitAbsolute 0x1234)]

theorem test_decode_logic : words_logic.all reads = true := by decide +kernel

def words_increments : List (List Byte × Instr) :=
  [([0xE6, 0x34], .incZeroPage 0x34), ([0xF6, 0x34], .incZeroPageX 0x34),
   ([0xEE, 0x34, 0x12], .incAbsolute 0x1234), ([0xFE, 0x34, 0x12], .incAbsoluteX 0x1234),
   ([0xC6, 0x34], .decZeroPage 0x34), ([0xD6, 0x34], .decZeroPageX 0x34),
   ([0xCE, 0x34, 0x12], .decAbsolute 0x1234), ([0xDE, 0x34, 0x12], .decAbsoluteX 0x1234), ([0xE8], .inx),
   ([0xC8], .iny), ([0xCA], .dex), ([0x88], .dey)]

theorem test_decode_increments : words_increments.all reads = true := by decide +kernel

def words_shifts : List (List Byte × Instr) :=
  [([0x0A], .aslAccumulator), ([0x06, 0x34], .aslZeroPage 0x34), ([0x16, 0x34], .aslZeroPageX 0x34),
   ([0x0E, 0x34, 0x12], .aslAbsolute 0x1234), ([0x1E, 0x34, 0x12], .aslAbsoluteX 0x1234),
   ([0x4A], .lsrAccumulator), ([0x46, 0x34], .lsrZeroPage 0x34), ([0x56, 0x34], .lsrZeroPageX 0x34),
   ([0x4E, 0x34, 0x12], .lsrAbsolute 0x1234), ([0x5E, 0x34, 0x12], .lsrAbsoluteX 0x1234),
   ([0x2A], .rolAccumulator), ([0x26, 0x34], .rolZeroPage 0x34), ([0x36, 0x34], .rolZeroPageX 0x34),
   ([0x2E, 0x34, 0x12], .rolAbsolute 0x1234), ([0x3E, 0x34, 0x12], .rolAbsoluteX 0x1234),
   ([0x6A], .rorAccumulator), ([0x66, 0x34], .rorZeroPage 0x34), ([0x76, 0x34], .rorZeroPageX 0x34),
   ([0x6E, 0x34, 0x12], .rorAbsolute 0x1234), ([0x7E, 0x34, 0x12], .rorAbsoluteX 0x1234)]

theorem test_decode_shifts : words_shifts.all reads = true := by decide +kernel

def words_jumps_and_branches : List (List Byte × Instr) :=
  [([0x4C, 0x34, 0x12], .jmpAbsolute 0x1234), ([0x6C, 0x34, 0x12], .jmpIndirect 0x1234),
   ([0x20, 0x34, 0x12], .jsr 0x1234), ([0x60], .rts), ([0x40], .rti), ([0x00], .brk), ([0x90, 0x34], .bcc 0x34),
   ([0xB0, 0x34], .bcs 0x34), ([0xF0, 0x34], .beq 0x34), ([0xD0, 0x34], .bne 0x34), ([0x30, 0x34], .bmi 0x34),
   ([0x10, 0x34], .bpl 0x34), ([0x50, 0x34], .bvc 0x34), ([0x70, 0x34], .bvs 0x34)]

theorem test_decode_jumps_and_branches : words_jumps_and_branches.all reads = true := by decide +kernel

def words_flags_and_nop : List (List Byte × Instr) :=
  [([0x18], .clc), ([0x38], .sec), ([0x58], .cli), ([0x78], .sei), ([0xB8], .clv), ([0xD8], .cld), ([0xF8], .sed),
   ([0xEA], .nop)]

theorem test_decode_flags_and_nop : words_flags_and_nop.all reads = true := by decide +kernel

theorem test_decode_illegal : decode [0xEB, 0x00, 0x00] = .error (.illegalOpcode 0xEB) := by decide
theorem test_decode_truncated : decode [0xAD, 0x00] = .error .truncated := by decide

/-! ### Single steps -/

/-- The default machine of 95_test_vectors.md section 0 with bytes placed at an address of the program ROM: one program
bank, graphics RAM, vectors 0x9000, 0x8000, 0x9800. -/
def rom (pc : Word) (bytes : List Byte) : State :=
  { State.reset with
    cart :=
      { Cartridge.blank with
        prg := Memory.writeAll (Memory.writeAll [] 0x3FFA [0x00, 0x90, 0x00, 0x80, 0x00, 0x98]) (pc.toNat - 0x8000) bytes }
    cpu := Cpu.reset pc }

/-- Bytes placed in work RAM. -/
def fill (m : Memory) (cells : List (Nat × Byte)) : Memory := cells.foldl (fun m c => m.write c.1 c.2) m

/-- From the default machine with `before` made of the CPU and these bytes in work RAM, one CPU step gives exactly the CPU
that `after` makes of the start and the bytes named besides in work RAM. -/
def runs (pc : Word) (bytes : List Byte) (before : Cpu → Cpu) (ram : List (Nat × Byte)) (after : Cpu → Cpu)
    (stored : List (Nat × Byte)) : Bool :=
  let s := { rom pc bytes with cpu := before (Cpu.reset pc), ram := fill [] ram }
  match cpuStep s with
  | .next t => decide (t.cpu = after s.cpu ∧ t.ram = fill s.ram stored)
  | _ => false

/-- One CPU step of the machine stops with this condition recorded, and the machine it leaves has the property. -/
def stopsIn (s : State) (c : FatalCondition) (p : State → Bool) : Bool :=
  match cpuStep s with
  | .fault (.raised k t) => decide (k = c ∧ t.fault = some c) && p t
  | _ => false

/-- One CPU step of the default machine stops with this condition. -/
def stops (bytes : List Byte) (c : FatalCondition) : Bool := stopsIn (rom 0x8000 bytes) c fun _ => true

theorem test_L1_lda_imm :
    runs 0x8000 [0xA9, 0x00] id []
      (fun c => { c with pc := 0x8002, cycles := 2, p := { c.p with z := true } }) [] = true := by
  decide +kernel
theorem test_L4_lda_zp_x :
    runs 0x8000 [0xB5, 0x80] (fun c => { c with x := 0xFF }) [(0x7F, 0x11), (0x17F, 0x22)]
      (fun c => { c with a := 0x11, pc := 0x8002, cycles := 4 }) [] = true := by
  decide +kernel
theorem test_L5_ldx_zp_y :
    runs 0x8000 [0xB6, 0xFF] (fun c => { c with y := 0x02 }) [(0x1, 0x33)]
      (fun c => { c with x := 0x33, pc := 0x8002, cycles := 4 }) [] = true := by
  decide +kernel
theorem test_L11_ldx_abs_y :
    runs 0x8000 [0xBE, 0xFF, 0x00] (fun c => { c with y := 0x01 }) [(0x100, 0x88)]
      (fun c => { c with x := 0x88, pc := 0x8003, cycles := 5, p := { c.p with n := true } }) [] = true := by
  decide +kernel
theorem test_L12_ldy_abs_x :
    runs 0x8000 [0xBC, 0x00, 0x03] (fun c => { c with x := 0xFF }) [(0x3FF, 0x01)]
      (fun c => { c with y := 0x01, pc := 0x8003, cycles := 4 }) [] = true := by
  decide +kernel
theorem test_L22_sta_zp_x :
    runs 0x8000 [0x81, 0x00] (fun c => { c with a := 0x5F, x := 0x04 }) [(0x4, 0x00), (0x5, 0x07)]
      (fun c => { c with pc := 0x8002, cycles := 6 }) [(0x700, 0x5F)] = true := by
  decide +kernel
theorem test_L23_sta_zp_y :
    runs 0x8000 [0x91, 0x04] (fun c => { c with a := 0x60, y := 0xFF }) [(0x4, 0x01), (0x5, 0x06)]
      (fun c => { c with pc := 0x8002, cycles := 6 }) [(0x700, 0x60)] = true := by
  decide +kernel
theorem test_L25_stx_zp_y :
    runs 0x8000 [0x96, 0x10] (fun c => { c with x := 0x62, y := 0xF1 }) []
      (fun c => { c with pc := 0x8002, cycles := 4 }) [(0x1, 0x62)] = true := by
  decide +kernel
theorem test_L27_sty_abs :
    runs 0x8000 [0x8C, 0xFF, 0x07] (fun c => { c with y := 0x64 }) []
      (fun c => { c with pc := 0x8003, cycles := 4 }) [(0x7FF, 0x64)] = true := by
  decide +kernel
theorem test_L28_tax_impl :
    runs 0x8000 [0xAA] (fun c => { c with a := 0x80 }) []
      (fun c => { c with x := 0x80, pc := 0x8001, cycles := 2, p := { c.p with n := true } }) [] = true := by
  decide +kernel
theorem test_L29_tay_impl :
    runs 0x8000 [0xA8] (fun c => { c with a := 0x00, y := 0x05 }) []
      (fun c => { c with y := 0x00, pc := 0x8001, cycles := 2, p := { c.p with z := true } }) [] = true := by
  decide +kernel
theorem test_L30_txa_impl :
    runs 0x8000 [0x8A] (fun c => { c with x := 0x7F, a := 0xFF, p := { c.p with n := true } }) []
      (fun c => { c with a := 0x7F, pc := 0x8001, cycles := 2, p := { c.p with n := false } }) [] = true := by
  decide +kernel
theorem test_L31_tya_impl :
    runs 0x8000 [0x98] (fun c => { c with y := 0x00, a := 0x01 }) []
      (fun c => { c with a := 0x00, pc := 0x8001, cycles := 2, p := { c.p with z := true } }) [] = true := by
  decide +kernel
theorem test_L32_tsx_impl :
    runs 0x8000 [0xBA] id []
      (fun c => { c with x := 0xFD, pc := 0x8001, cycles := 2, p := { c.p with n := true } }) [] = true := by
  decide +kernel
theorem test_L33_txs_impl :
    runs 0x8000 [0x9A] (fun c => { c with x := 0x00 }) []
      (fun c => { c with s := 0x00, pc := 0x8001, cycles := 2 }) [] = true := by
  decide +kernel
theorem test_S2_pha_impl :
    runs 0x8000 [0x48] (fun c => { c with a := 0x43, s := 0x00 }) []
      (fun c => { c with s := 0xFF, pc := 0x8001, cycles := 3 }) [(0x100, 0x43)] = true := by
  decide +kernel
theorem test_S3_pla_impl :
    runs 0x8000 [0x68] (fun c => { c with s := 0xFF }) [(0x100, 0x80)]
      (fun c => { c with a := 0x80, s := 0x00, pc := 0x8001, cycles := 4, p := { c.p with n := true } })
      [] = true := by
  decide +kernel
theorem test_S6_php_impl :
    runs 0x8000 [0x08] (fun c => { c with p := { c.p with c := true, z := true, n := true, v := true, d := true } })
      []
      (fun c => { c with s := 0xFC, pc := 0x8001, cycles := 3 }) [(0x1FD, 0xFF)] = true := by
  decide +kernel
theorem test_S7_plp_impl :
    runs 0x8000 [0x28] (fun c => { c with s := 0xFC }) [(0x1FD, 0xFF)]
      (fun c => { c with
        s := 0xFD, pc := 0x8001, cycles := 4, p := { c.p with c := true, z := true, d := true, v := true, n := true } })
      [] = true := by
  decide +kernel
theorem test_A3_adc_imm :
    runs 0x8000 [0x69, 0x00] (fun c => { c with a := 0x7F, p := { c.p with c := true } }) []
      (fun c => { c with a := 0x80, pc := 0x8002, cycles := 2, p := { c.p with c := false, v := true, n := true } })
      [] = true := by
  decide +kernel
theorem test_A4_adc_imm :
    runs 0x8000 [0x69, 0x80] (fun c => { c with a := 0x80 }) []
      (fun c => { c with a := 0x00, pc := 0x8002, cycles := 2, p := { c.p with c := true, z := true, v := true } })
      [] = true := by
  decide +kernel
theorem test_A11_sbc_imm :
    runs 0x8000 [0xE9, 0xB0] (fun c => { c with a := 0x50, p := { c.p with c := true } }) []
      (fun c => { c with a := 0xA0, pc := 0x8002, cycles := 2, p := { c.p with c := false, v := true, n := true } })
      [] = true := by
  decide +kernel
theorem test_A18_sbc_zp_y :
    runs 0x8000 [0xF1, 0x10] (fun c => { c with a := 0x40, y := 0x01, p := { c.p with c := true } })
      [(0x10, 0xFF), (0x11, 0x02), (0x300, 0x3F)]
      (fun c => { c with a := 0x01, pc := 0x8002, cycles := 6 }) [] = true := by
  decide +kernel
theorem test_A25_and_zp_y :
    runs 0x8000 [0x31, 0x20] (fun c => { c with a := 0xFF, y := 0x00 }) [(0x20, 0x00), (0x21, 0x04), (0x400, 0x3C)]
      (fun c => { c with a := 0x3C, pc := 0x8002, cycles := 5 }) [] = true := by
  decide +kernel
theorem test_A22_ora_imm :
    runs 0x8000 [0x09, 0x80] (fun c => { c with a := 0x01 }) []
      (fun c => { c with a := 0x81, pc := 0x8002, cycles := 2, p := { c.p with n := true } }) [] = true := by
  decide +kernel
theorem test_A24_eor_imm :
    runs 0x8000 [0x49, 0xFF] (fun c => { c with a := 0x0F }) []
      (fun c => { c with a := 0xF0, pc := 0x8002, cycles := 2, p := { c.p with n := true } }) [] = true := by
  decide +kernel
theorem test_A26_cmp_imm :
    runs 0x8000 [0xC9, 0x40] (fun c => { c with a := 0x40 }) []
      (fun c => { c with pc := 0x8002, cycles := 2, p := { c.p with c := true, z := true } }) [] = true := by
  decide +kernel
theorem test_A30_cmp_imm :
    runs 0x8000 [0xC9, 0xFF] (fun c => { c with a := 0x00, p := { c.p with v := true } }) []
      (fun c => { c with pc := 0x8002, cycles := 2 }) [] = true := by
  decide +kernel
theorem test_A32_cpx_zp :
    runs 0x8000 [0xE4, 0x10] (fun c => { c with x := 0x00 }) [(0x10, 0x01)]
      (fun c => { c with pc := 0x8002, cycles := 3, p := { c.p with n := true } }) [] = true := by
  decide +kernel
theorem test_A34_cpy_abs :
    runs 0x8000 [0xCC, 0x00, 0x02] (fun c => { c with y := 0x7F }) [(0x200, 0x80)]
      (fun c => { c with pc := 0x8003, cycles := 4, p := { c.p with n := true } }) [] = true := by
  decide +kernel
theorem test_A35_bit_zp :
    runs 0x8000 [0x24, 0x10] (fun c => { c with a := 0x01 }) [(0x10, 0xC0)]
      (fun c => { c with pc := 0x8002, cycles := 3, p := { c.p with z := true, v := true, n := true } })
      [] = true := by
  decide +kernel
theorem test_A36_bit_zp :
    runs 0x8000 [0x24, 0x10] (fun c => { c with a := 0xFF, p := { c.p with n := true, v := true } }) [(0x10, 0x3F)]
      (fun c => { c with pc := 0x8002, cycles := 3, p := { c.p with v := false, n := false } }) [] = true := by
  decide +kernel
theorem test_M1_inc_zp :
    runs 0x8000 [0xE6, 0x10] id [(0x10, 0xFF)]
      (fun c => { c with pc := 0x8002, cycles := 5, p := { c.p with z := true } }) [(0x10, 0x00)] = true := by
  decide +kernel
theorem test_M5_inc_abs_x :
    runs 0x8000 [0xFE, 0xFF, 0x02] (fun c => { c with x := 0x01 }) [(0x300, 0x0F)]
      (fun c => { c with pc := 0x8003, cycles := 7 }) [(0x300, 0x10)] = true := by
  decide +kernel
theorem test_M7_dec_zp_x :
    runs 0x8000 [0xD6, 0xFF] (fun c => { c with x := 0x01 }) [(0x0, 0x80)]
      (fun c => { c with pc := 0x8002, cycles := 6 }) [(0x0, 0x7F)] = true := by
  decide +kernel
theorem test_M8_inx_impl :
    runs 0x8000 [0xE8] (fun c => { c with x := 0xFF }) []
      (fun c => { c with x := 0x00, pc := 0x8001, cycles := 2, p := { c.p with z := true } }) [] = true := by
  decide +kernel
theorem test_M9_iny_impl :
    runs 0x8000 [0xC8] (fun c => { c with y := 0x7F }) []
      (fun c => { c with y := 0x80, pc := 0x8001, cycles := 2, p := { c.p with n := true } }) [] = true := by
  decide +kernel
theorem test_M10_dex_impl :
    runs 0x8000 [0xCA] (fun c => { c with x := 0x00 }) []
      (fun c => { c with x := 0xFF, pc := 0x8001, cycles := 2, p := { c.p with n := true } }) [] = true := by
  decide +kernel
theorem test_M11_dey_impl :
    runs 0x8000 [0x88] (fun c => { c with y := 0x01 }) []
      (fun c => { c with y := 0x00, pc := 0x8001, cycles := 2, p := { c.p with z := true } }) [] = true := by
  decide +kernel
theorem test_M13_asl_acc :
    runs 0x8000 [0x0A] (fun c => { c with a := 0x41, p := { c.p with c := true } }) []
      (fun c => { c with a := 0x82, pc := 0x8001, cycles := 2, p := { c.p with c := false, n := true } })
      [] = true := by
  decide +kernel
theorem test_M20_asl_zp :
    runs 0x8000 [0x06, 0x10] (fun c => { c with a := 0x55 }) [(0x10, 0xC0)]
      (fun c => { c with pc := 0x8002, cycles := 5, p := { c.p with c := true, n := true } })
      [(0x10, 0x80)] = true := by
  decide +kernel
theorem test_M15_lsr_acc :
    runs 0x8000 [0x4A] (fun c => { c with a := 0x80, p := { c.p with n := true, c := true } }) []
      (fun c => { c with a := 0x40, pc := 0x8001, cycles := 2, p := { c.p with c := false, n := false } })
      [] = true := by
  decide +kernel
theorem test_M26_lsr_zp_x :
    runs 0x8000 [0x56, 0xF0] (fun c => { c with x := 0x20 }) [(0x10, 0x02)]
      (fun c => { c with pc := 0x8002, cycles := 6 }) [(0x10, 0x01)] = true := by
  decide +kernel
theorem test_M16_rol_acc :
    runs 0x8000 [0x2A] (fun c => { c with a := 0x80, p := { c.p with c := true } }) []
      (fun c => { c with a := 0x01, pc := 0x8001, cycles := 2 }) [] = true := by
  decide +kernel
theorem test_M22_rol_zp :
    runs 0x8000 [0x26, 0x10] (fun c => { c with p := { c.p with c := true } }) [(0x10, 0x00)]
      (fun c => { c with pc := 0x8002, cycles := 5, p := { c.p with c := false } }) [(0x10, 0x01)] = true := by
  decide +kernel
theorem test_M18_ror_acc :
    runs 0x8000 [0x6A] (fun c => { c with a := 0x01, p := { c.p with c := true } }) []
      (fun c => { c with a := 0x80, pc := 0x8001, cycles := 2, p := { c.p with n := true } }) [] = true := by
  decide +kernel
theorem test_M24_ror_abs_x :
    runs 0x8000 [0x7E, 0xFF, 0x02] (fun c => { c with x := 0x01, p := { c.p with c := false } }) [(0x300, 0x01)]
      (fun c => { c with pc := 0x8003, cycles := 7, p := { c.p with c := true, z := true } })
      [(0x300, 0x00)] = true := by
  decide +kernel
theorem test_J1_jmp_abs :
    runs 0x8000 [0x4C, 0x34, 0x12] id [] (fun c => { c with pc := 0x1234, cycles := 3 }) [] = true := by
  decide +kernel
theorem test_J3_jmp_abs :
    runs 0x8000 [0x6C, 0xFF, 0x02] id [(0x2FF, 0x34), (0x200, 0x12), (0x300, 0x56)]
      (fun c => { c with pc := 0x1234, cycles := 5 }) [] = true := by
  decide +kernel
theorem test_J6_jsr_abs :
    runs 0x8000 [0x20, 0x00, 0x90] (fun c => { c with s := 0x00 }) []
      (fun c => { c with s := 0xFE, pc := 0x9000, cycles := 6 }) [(0x100, 0x80), (0x1FF, 0x02)] = true := by
  decide +kernel
theorem test_J9_rts_impl :
    runs 0x8000 [0x60] (fun c => { c with s := 0xFE }) [(0x1FF, 0x10), (0x100, 0x20)]
      (fun c => { c with s := 0x00, pc := 0x2011, cycles := 6 }) [] = true := by
  decide +kernel
theorem test_J11_rti_impl :
    runs 0x8000 [0x40] (fun c => { c with s := 0xFA }) [(0x1FB, 0xDF), (0x1FC, 0xFF), (0x1FD, 0xFF)]
      (fun c => { c with
        s := 0xFD, pc := 0xFFFF, cycles := 6, p := { c.p with c := true, z := true, d := true, v := true, n := true } })
      [] = true := by
  decide +kernel
theorem test_J13_brk_impl :
    runs 0x8000 [0x00] (fun c => { c with s := 0x01, p := { c.p with i := false, c := true, n := true } }) []
      (fun c => { c with s := 0xFE, pc := 0x9800, cycles := 7, p := { c.p with i := true } })
      [(0x100, 0x02), (0x101, 0x80), (0x1FF, 0xB1)] = true := by
  decide +kernel
theorem test_J14_bcc_rel :
    runs 0x8000 [0x90, 0x02] (fun c => { c with p := { c.p with c := false } }) []
      (fun c => { c with pc := 0x8004, cycles := 3 }) [] = true := by
  decide +kernel
theorem test_J17_bcs_rel :
    runs 0x80FE [0xB0, 0xFF] (fun c => { c with p := { c.p with c := true } }) []
      (fun c => { c with pc := 0x80FF, cycles := 4 }) [] = true := by
  decide +kernel
theorem test_J19_beq_rel :
    runs 0x8000 [0xF0, 0xFE] (fun c => { c with p := { c.p with z := true } }) []
      (fun c => { c with pc := 0x8000, cycles := 3 }) [] = true := by
  decide +kernel
theorem test_J20_bne_rel :
    runs 0x8005 [0xD0, 0xFB] id [] (fun c => { c with pc := 0x8002, cycles := 3 }) [] = true := by
  decide +kernel
theorem test_J21_bmi_rel :
    runs 0x8000 [0x30, 0x7F] (fun c => { c with p := { c.p with n := true } }) []
      (fun c => { c with pc := 0x8081, cycles := 3 }) [] = true := by
  decide +kernel
theorem test_J22_bpl_rel :
    runs 0x8003 [0x10, 0xFB] id [] (fun c => { c with pc := 0x8000, cycles := 3 }) [] = true := by
  decide +kernel
theorem test_J23_bvc_rel :
    runs 0x8000 [0x50, 0x80] id [] (fun c => { c with pc := 0x7F82, cycles := 4 }) [] = true := by
  decide +kernel
theorem test_J25_bvs_rel :
    runs 0x8000 [0x70, 0x10] (fun c => { c with p := { c.p with v := true } }) []
      (fun c => { c with pc := 0x8012, cycles := 3 }) [] = true := by
  decide +kernel
theorem test_F1_clc_impl :
    runs 0x8000 [0x18] (fun c => { c with p := { c.p with c := true } }) []
      (fun c => { c with pc := 0x8001, cycles := 2, p := { c.p with c := false } }) [] = true := by
  decide +kernel
theorem test_F2_sec_impl :
    runs 0x8000 [0x38] id []
      (fun c => { c with pc := 0x8001, cycles := 2, p := { c.p with c := true } }) [] = true := by
  decide +kernel
theorem test_F3_cli_impl :
    runs 0x8000 [0x58] id []
      (fun c => { c with pc := 0x8001, cycles := 2, p := { c.p with i := false } }) [] = true := by
  decide +kernel
theorem test_F4_sei_impl :
    runs 0x8000 [0x78] (fun c => { c with p := { c.p with i := false } }) []
      (fun c => { c with pc := 0x8001, cycles := 2, p := { c.p with i := true } }) [] = true := by
  decide +kernel
theorem test_F5_clv_impl :
    runs 0x8000 [0xB8] (fun c => { c with p := { c.p with v := true } }) []
      (fun c => { c with pc := 0x8001, cycles := 2, p := { c.p with v := false } }) [] = true := by
  decide +kernel
theorem test_F6_cld_impl :
    runs 0x8000 [0xD8] (fun c => { c with p := { c.p with d := true } }) []
      (fun c => { c with pc := 0x8001, cycles := 2, p := { c.p with d := false } }) [] = true := by
  decide +kernel
theorem test_F7_sed_impl :
    runs 0x8000 [0xF8] id []
      (fun c => { c with pc := 0x8001, cycles := 2, p := { c.p with d := true } }) [] = true := by
  decide +kernel
theorem test_F8_nop_impl :
    runs 0x8000 [0xEA] (fun c => { c with a := 0x12, p := { c.p with n := true } }) []
      (fun c => { c with pc := 0x8001, cycles := 2 }) [] = true := by
  decide +kernel
theorem test_X1_illegal : stops [0x02] (.illegalOpcode 0x8000 0x02) = true := by decide +kernel
theorem test_X6_lda_abs : stops [0xAD, 0x00, 0x50] (.invalidAccess .cpu 0x5000 .read) = true := by decide +kernel
theorem test_X8_sta_abs : stops [0x8D, 0x00, 0x80] (.invalidAccess .cpu 0x8000 .write) = true := by decide +kernel
theorem test_X9_lda_abs : stops [0xAD, 0x00, 0x20] (.invalidAccess .cpu 0x2000 .read) = true := by decide +kernel
theorem test_X11_inc_abs : stops [0xEE, 0x00, 0x80] (.invalidAccess .cpu 0x8000 .write) = true := by decide +kernel
theorem test_X16_jmp_abs : stops [0x6C, 0xFF, 0x5F] (.invalidAccess .cpu 0x5FFF .read) = true := by decide +kernel

/-- I1: an NMI entry. -/
theorem test_I1_nmi :
    (match cpuStep { rom 0x8000 [] with cpu := { Cpu.reset 0x8000 with nmiPending := true } } with
      | .next t =>
        decide (t.cpu = { Cpu.reset 0x8000 with pc := 0x9000, s := 0xFA, cycles := 7 } ∧
          t.ram = fill [] [(0x1FD, 0x80), (0x1FB, 0x24)])
      | _ => false) = true := by decide +kernel

/-- I3: an IRQ entry, the pushed status with bit 4 clear and I as it was. -/
theorem test_I3_irq :
    (match cpuStep { rom 0x8000 [] with
        cpu := { Cpu.reset 0x8000 with p := ⟨true, false, false, false, false, false, true⟩, irqPending := true } } with
      | .next t => decide (t.cpu.pc = 0x9800 ∧ t.cpu.p.i = true ∧ t.ram.read 0x1FB = 0xA1 ∧ t.cpu.irqPending = false)
      | _ => false) = true := by decide +kernel

/-- I2: a request with I set is lost. -/
theorem test_I2_lost : State.reset.triggerIrq.cpu.irqPending = false := by decide

/-- Bus writes in order, then whether a property of the machine holds. -/
def afterWrites (s : State) : List (Word × Byte) → (State → Bool) → Bool
  | [], p => p s
  | (a, d) :: rest, p =>
    match memWrite a d s with
    | .ok ((), t) => afterWrites t rest p
    | .error _ => false

/-- A bus read gives the byte and leaves the machine with the property. -/
def readGives (a : Word) (b : Byte) (p : State → Bool) (s : State) : Bool :=
  match memRead a s with
  | .ok (v, t) => v == b && p t
  | .error _ => false

theorem test_E7_scroll :
    afterWrites State.reset [(0x2005, 0x7D), (0x2005, 0x5E)] (fun s =>
      s.ppu.t == 0x616F && s.ppu.x == 5 && !s.ppu.w && readGives 0x2002 0x1E (fun t => t.ppu.v == 0) s) = true := by
  decide +kernel

theorem test_P2_control :
    afterWrites State.reset [(0x2000, 0xFF)] (fun s => s.ppu.t == 0x0C00 && s.ppu.nmiEnable && !s.cpu.nmiPending) =
      true := by decide +kernel

theorem test_P3_mask :
    afterWrites State.reset [(0x2001, 0x1E)] (fun s => s.ppu.showBg && s.ppu.showSprLeft && !s.ppu.grayscale) = true := by
  decide +kernel

theorem test_P4_P5_address :
    afterWrites State.reset [(0x2006, 0xFF), (0x2006, 0x10), (0x2007, 0x2A)] (fun s =>
      s.ppu.t == 0x3F10 && s.ppu.v == 0x3F11 && s.ppu.palette.read 0 == 0x2A) = true := by decide +kernel

theorem test_P6_buffer :
    readGives 0x2007 0x00 (readGives 0x2007 0x11 (readGives 0x2007 0x22 fun s => s.ppu.v == 0x2003))
      { State.reset with ppu := { Ppu.reset with v := 0x2000, nametable := [(0, 0x11), (1, 0x22)] } } = true := by
  decide +kernel

theorem test_P7_palette_read :
    readGives 0x2007 0x2A (fun s => s.ppu.readBuffer == 0x77 && s.ppu.v == 0x3F02)
      { State.reset with
        ppu := { Ppu.reset with v := 0x3F01, palette := [(1, 0x2A)], nametable := [(0x701, 0x77)] } } = true := by
  decide +kernel

theorem test_P10_oam :
    afterWrites State.reset [(0x2003, 0xFE), (0x2004, 1), (0x2004, 2), (0x2004, 3)] (fun s =>
      s.ppu.oam == [(0, 3), (0xFE, 1), (0xFF, 2)] && readGives 0x2004 0 (fun t => t.ppu.oamAddr == 1) s) = true := by
  decide +kernel

theorem test_P12_status :
    readGives 0x2002 0xDF (readGives 0x2002 0x5F fun s => s.ppu.spr0Hit)
      { State.reset with ppu := { Ppu.reset with vblank := true, spr0Hit := true, latch := 0xFF, w := true } } = true := by
  decide +kernel

/-- 10.2: the nametable index of 0x2C00 in the four modes. -/
theorem test_nametable_index :
    ([Mirroring.horizontal, .vertical, .singleLower, .singleUpper].map fun m => ntIndex m 0x2C00) =
      [0x400, 0x400, 0x000, 0x400] := by decide

theorem test_palette_index : [0x3F10, 0x3F14, 0x3F11, 0x3FFF].map palIndex = [0, 4, 17, 31] := by decide

/-- 10.3. -/
theorem test_IncX : [0x0000, 0x001F, 0x041F, 0x7BFF].map incX = [0x0001, 0x0400, 0x0000, 0x7FE0] := by decide

theorem test_IncY : [0x6000, 0x73A0, 0x7BA0, 0x73E0, 0x73C0, 0x7FFF].map incY =
    [0x7000, 0x0800, 0x0000, 0x0000, 0x03E0, 0x0C1F] := by decide

theorem test_CopyX_CopyY : copyX 0x1234 0x6543 = 0x1623 ∧ copyY 0x1234 0x6543 = 0x6154 := by decide

theorem test_fetch_addresses :
    ntAddress 0x0ABD = 0x2ABD ∧ atAddress 0x0ABD = 0x2BEF ∧ atShift 0x0042 = 6 ∧ atAddress 0x7C21 = 0x2FC0 := by decide

/-- A background fetch cycle of eight dots (61_ppu.md R341 to R346) on tile 1 of 10.5 with palette 1. -/
theorem test_tile_fetched :
    (match (do for _ in [0:8] do ppuStep : M Unit)
        { State.reset with
          chrRam := [(0x10, 0xF0), (0x18, 0x0F)]
          ppu := { Ppu.reset with showBg := true, nametable := [(0, 1), (0x3C0, 1)] } } with
      | .ok ((), s) => decide (s.ppu.tileShift = 0x55556666 ∧ s.ppu.v = 1 ∧ s.ppu.dot = 8)
      | .error _ => false) = true := by decide +kernel

/-- 10.6: a sprite row, flipped horizontally. -/
theorem test_sprite_pattern :
    (match spritePattern 1 0x40 0 { State.reset with chrRam := [(0x10, 0xF0), (0x18, 0x0F)] } with
      | .ok (p, _) => decide (p = 0x22221111)
      | .error _ => false) = true := by decide +kernel

/-- 10.6: row 15 of an 8x16 sprite comes from the second tile. -/
theorem test_sprite_pattern_tall :
    (match spritePattern 3 0 15
        { State.reset with chrRam := [(0x1037, 0xAA)], ppu := { Ppu.reset with sprSize := true } } with
      | .ok (p, _) => decide (p = 0x10101010)
      | .error _ => false) = true := by decide +kernel

/-- 11.1: the MMC1 window after control 0x12 with program bank 3. -/
theorem test_mmc1_banks :
    [0x8000, 0xC000].map (Mmc1.prgBankAt ⟨0, 0, 0x12, 5, 31, 3⟩ 16) = [2, 3] ∧
      [0x0000, 0x1000].map (Mmc1.chrBankAt ⟨0, 0, 0x12, 5, 31, 3⟩) = [5, 31] := by decide

/-- 11.1: MMC3 with both mode bits. -/
theorem test_mmc3_banks :
    let m : Mmc3 := ⟨0, true, true, #v[0x10, 0x21, 0x30, 0x31, 0x32, 0x33, 4, 5], .vertical, 0, 0, false⟩
    [0x8000, 0xA000, 0xC000, 0xE000].map (m.prgBankAt 16) = [14, 5, 4, 15] ∧
      [0x0000, 0x0400, 0x0800, 0x0C00, 0x1000, 0x1400, 0x1800, 0x1C00].map m.chrBankAt =
        [48, 49, 50, 51, 16, 17, 32, 33] := by decide

/-- K2, K3: with the strobe on the index stays, and a strobe of 0 does not latch again. -/
theorem test_K_controllers :
    afterWrites { State.reset with pads := ⟨⟨0x81, 0, 0⟩, ⟨0x08, 0, 0⟩, false⟩ } [(0x4016, 1), (0x4016, 0)]
        (fun s =>
      readGives 0x4016 1 (readGives 0x4016 0 (readGives 0x4017 0 fun t => t.pads.pad0.index == 2)) s) = true := by
  decide +kernel

/-- What placing an instruction promises: the first step from reset runs it. -/
theorem test_placed :
    (match step (State.reset.withFetchWord 16 0x07A9) with
      | .next t => decide (t.cpu.a = 7 ∧ t.cpu.cycles = 2)
      | _ => false) = true := by decide +kernel

/-- R251: an opcode byte fetched from the status register is illegal; the read has cleared `vblank` and `w`, the CPU is as
before. -/
theorem test_illegal_keeps_fetch_effect :
    let s := { State.reset with cpu := Cpu.reset 0x2002, ppu := { Ppu.reset with vblank := true, w := true } }
    stopsIn s (.illegalOpcode 0x2002 0x80) (fun t => !t.ppu.vblank && !t.ppu.w && t.cpu == s.cpu) = true := by
  decide +kernel

/-- R254: the bytes OAM DMA has copied before a faulting read remain: page 0x40 is read up to 0x401F. -/
theorem test_fault_keeps_copied_bytes :
    let s := { rom 0x8000 [0x8D, 0x14, 0x40] with
      cpu := { Cpu.reset 0x8000 with a := 0x40 }, pads := ⟨⟨0, 1, 0⟩, ⟨0, 0, 0⟩, false⟩ }
    stopsIn s (.invalidAccess .cpu 0x4020 .read)
      (fun t => t.ppu.oam == [(0x16, 1)] && t.ppu.oamAddr == 0x20 && t.cpu.idle == 0) = true := by decide +kernel

/-- R254 with R196: ASL 0x8000 on NROM has set C from the byte read (here 0x80) when its write is refused. -/
theorem test_fault_keeps_shift_carry :
    let s := (rom 0x8000 [0x80]).setPc 0x0000
    stopsIn { s with ram := [(0, 0x0E), (2, 0x80)] } (.invalidAccess .cpu 0x8000 .write)
      (fun t => t.cpu.p.c && !t.cpu.p.z && t.cpu.pc == 0x0003 && t.cpu.cycles == 6) = true := by decide +kernel

/-- R254 with R214: BRK on a machine without program memory has pushed its frame and set P.I when the vector read fails. -/
theorem test_fault_keeps_break_frame :
    let cpu := { Cpu.reset 0x0000 with p := { Flags.reset with i := false } }
    stopsIn { State.reset with cpu := cpu, cart := { Cartridge.blank with prgBanks := 0 } }
      (.invalidAccess .cpu 0xFFFE .read)
      (fun t => t.cpu.p.i && t.cpu.s == 0xFA && t.ram == [(0x1FB, 0x30), (0x1FC, 0x02)]) = true := by decide +kernel

/-- R254 with R104, R107: an immediate byte that cannot be read leaves PC and cycles advanced; the operand byte of a zero-page
instruction leaves them as they were. -/
theorem test_fault_of_operand_byte :
    let s := (rom 0x8000 []).setPc 0x1FFF
    stopsIn { s with ram := [(0x7FF, 0xA9)] } (.invalidAccess .cpu 0x2000 .read)
        (fun t => t.cpu.pc == 0x2001 && t.cpu.cycles == 2) &&
      stopsIn { s with ram := [(0x7FF, 0xA5)] } (.invalidAccess .cpu 0x2000 .read)
        (fun t => t.cpu.pc == 0x1FFF && t.cpu.cycles == 0) = true := by decide +kernel

/-- R460, R465: a run reports the machine the faulting round leaves, and no later round changes it. -/
theorem test_run_faulted :
    (match runConsole 2 [] (rom 0x8000 [0xA9, 0x07, 0x02]) with
      | .faulted t => decide (t.cpu.a = 7 ∧ t.fault = some (.illegalOpcode 0x8002 0x02) ∧ t.ppu.dot = 6) &&
          match consoleRound t with
          | .fault (.recorded c) => some c == t.fault
          | _ => false
      | _ => false) = true := by decide +kernel

/-- R464: after a reset between two frames the host may still act, until the next round starts. -/
theorem test_host_acts_after_reset :
    (match consoleReset { rom 0x8000 [0xEA] with con := { Console.reset with stop := true, frameDelivered := true } } with
      | .next t =>
        let u := hostUpdate ⟨0x81, 0x02, false⟩ t
        decide (t.con.stop = false ∧ u.pads.pad0.buttons = 0x81 ∧ u.pads.pad1.buttons = 0x02) &&
          match step u with
          | .next v => decide (hostUpdate ⟨0, 0, false⟩ v = v)
          | _ => false
      | _ => false) = true := by decide +kernel

/-! ### Witnesses: a state and operands that meet the hypotheses of each statement -/

theorem witness_DecodedBytesAreTheEncoding : decode [0xEA, 0x00] = .ok (.nop, [0x00]) := by decide

/-- The default work-RAM machine with a program at 0, where `PC` stands. -/
def ramRun (bytes : List Byte) : State := { State.reset with ram := Memory.writeAll [] 0 bytes }

theorem ramRun_ready (bytes : List Byte) : Claims.Ready (ramRun bytes) := ⟨rfl, rfl, rfl, nofun⟩

theorem witness_IllegalOpcodesStop :
    (Claims.Ready (ramRun [0x02]) ∧ 0x02 ∈ Claims.illegalBytes ∧ ∃ t, memRead 0 (ramRun [0x02]) = .ok (0x02, t)) ∧
      Claims.Ready (ramRun [0xFF]) ∧ 0xFF ∈ Claims.illegalBytes ∧ ∃ t, memRead 0 (ramRun [0xFF]) = .ok (0xFF, t) :=
  ⟨⟨ramRun_ready _, by decide, _, rfl⟩, ramRun_ready _, by decide, _, rfl⟩

/-- An operand of each kind that reads, at the ends of work RAM, and one that faults, at the ends of the refused window. -/
theorem operands_read :
    (State.reset.OperandReads (.immediate 0xFF) 0xFF false State.reset) ∧
      (ramRun [0x11]).OperandReads (.absolute 0x1800) 0x11 false (ramRun [0x11]) ∧
      State.reset.OperandReads (.absoluteX 0x1FFF) 0 false State.reset ∧
      State.reset.OperandFaults (.absolute 0x4020) (.invalidAccess .cpu 0x4020 .read) ∧
      State.reset.OperandFaults (.absoluteY 0x5FFF) (.invalidAccess .cpu 0x5FFF .read) :=
  ⟨.inl ⟨rfl, rfl, rfl⟩, .inr ⟨_, rfl, rfl⟩, .inr ⟨_, rfl, rfl⟩, ⟨_, _, _, rfl, rfl⟩, ⟨_, _, _, rfl, rfl⟩⟩

/-- The hypotheses of `Claims.Reading`: a row of the mnemonic whose operand reads, one whose operand faults. -/
def ReadingMet (mn : Mnemonic) : Prop :=
  (∃ (i : Instr) (m : Byte) (t : State), i.row.mnemonic = mn ∧ State.reset.OperandReads i.row.operand m false t) ∧
    ∃ (i : Instr) (c : FatalCondition), i.row.mnemonic = mn ∧ State.reset.OperandFaults i.row.operand c

/-- From the mnemonic's absolute row. -/
theorem readingMet {mn : Mnemonic} (i : Word → Instr)
    (h : ∀ w, (i w).row.mnemonic = mn ∧ (i w).row.operand = .absolute w) : ReadingMet mn :=
  ⟨⟨i 0x1FFF, 0, State.reset, (h _).1, by rw [(h _).2]; exact .inr ⟨_, rfl, rfl⟩⟩,
    i 0x4020, _, (h _).1, by rw [(h _).2]; exact ⟨_, _, _, rfl, rfl⟩⟩

theorem witness_LoadsTakeTheOperand : ReadingMet .lda ∧ ReadingMet .ldx ∧ ReadingMet .ldy :=
  ⟨readingMet .ldaAbsolute fun _ => ⟨rfl, rfl⟩, readingMet .ldxAbsolute fun _ => ⟨rfl, rfl⟩,
    readingMet .ldyAbsolute fun _ => ⟨rfl, rfl⟩⟩

theorem witness_AddAndSubtractWithCarry : ReadingMet .adc ∧ ReadingMet .sbc :=
  ⟨readingMet .adcAbsolute fun _ => ⟨rfl, rfl⟩, readingMet .sbcAbsolute fun _ => ⟨rfl, rfl⟩⟩

theorem witness_LogicCombinesWithA : ReadingMet .and ∧ ReadingMet .ora ∧ ReadingMet .eor :=
  ⟨readingMet .andAbsolute fun _ => ⟨rfl, rfl⟩, readingMet .oraAbsolute fun _ => ⟨rfl, rfl⟩,
    readingMet .eorAbsolute fun _ => ⟨rfl, rfl⟩⟩

theorem witness_ComparesSetFlagsOnly : ReadingMet .cmp ∧ ReadingMet .cpx ∧ ReadingMet .cpy :=
  ⟨readingMet .cmpAbsolute fun _ => ⟨rfl, rfl⟩, readingMet .cpxAbsolute fun _ => ⟨rfl, rfl⟩,
    readingMet .cpyAbsolute fun _ => ⟨rfl, rfl⟩⟩

theorem witness_BitTestsMemory : ReadingMet .bit := readingMet .bitAbsolute fun _ => ⟨rfl, rfl⟩

/-- The hypotheses of `Claims.Storing`: a store that completes and one that faults. -/
def StoringMet (mn : Mnemonic) (reg : Cpu → Byte) : Prop :=
  ∃ (i j : Instr) (ea eb : Word), i.row.mnemonic = mn ∧ j.row.mnemonic = mn ∧
    State.reset.effective i.row.operand = some (ea, false) ∧ State.reset.effective j.row.operand = some (eb, false) ∧
    (∃ t, memWrite ea (reg State.reset.cpu) { State.reset with cpu := State.reset.cpu.past 3 4 } = .ok ((), t)) ∧
    ∃ f, memWrite eb (reg State.reset.cpu) { State.reset with cpu := State.reset.cpu.past 3 4 } = .error f

theorem witness_StoresWriteTheRegister : StoringMet .sta (·.a) ∧ StoringMet .stx (·.x) ∧ StoringMet .sty (·.y) :=
  ⟨⟨.staAbsolute 0x1FFF, .staAbsolute 0x4020, _, _, rfl, rfl, rfl, rfl, ⟨_, rfl⟩, _, rfl⟩,
    ⟨.stxAbsolute 0x7FFF, .stxAbsolute 0x5FFF, _, _, rfl, rfl, rfl, rfl, ⟨_, rfl⟩, _, rfl⟩,
    ⟨.styAbsolute 0x6000, .styAbsolute 0xFFFF, _, _, rfl, rfl, rfl, rfl, ⟨_, rfl⟩, _, rfl⟩⟩

/-- A machine whose memories are canonical. -/
theorem reset_memories (ram : Memory) (h : ram.wfIn 0x800 = true) : { State.reset with ram := ram }.MemoriesOk :=
  ⟨h, rfl, rfl, rfl, fun y hy => by simp [State.reset, Ppu.reset], nofun, rfl, rfl⟩

theorem witness_StoresToMemoryComplete :
    State.reset.MemoriesOk ∧
      (∀ ea, (Instr.staAbsolute ea).row.mnemonic ∈ [Mnemonic.sta, .stx, .sty] ∧
        State.reset.effective (Instr.staAbsolute ea).row.operand = some (ea, false)) ∧
      ([0x0000, 0x1FFF, 0x6000, 0x7FFF] : List Word).all (fun ea =>
        decide (ea.toNat < 0x2000 ∨ (0x6000 ≤ ea.toNat ∧ ea.toNat < 0x8000))) = true :=
  ⟨reset_memories [] rfl, fun ea => ⟨by simp [Instr.row], rfl⟩, by decide⟩

/-- The hypotheses of `Claims.Modifying`: the read faults, both accesses complete, the write faults. -/
def ModifyingMet (mn : Mnemonic) (f : Claims.Modification) : Prop :=
  ∃ i : Word → Instr, ∀ w, (i w).row.mnemonic = mn ∧ (i w).row.operand = .absolute w ∧
    (∃ e u, memRead 0x5FFF State.reset = .error (.raised e u)) ∧
    (∃ m t u, memRead 0x1FFF State.reset = .ok (m, t) ∧
      memWrite 0x1FFF (f State.reset.cpu.p m).1 { t with cpu := State.reset.cpu.past 3 6 } = .ok ((), u)) ∧
    ∃ m t e u, memRead 0x8000 State.reset = .ok (m, t) ∧
      memWrite 0x8000 (f State.reset.cpu.p m).1 { t with cpu := State.reset.cpu.past 3 6 } = .error (.raised e u)

theorem modifyingMet {mn : Mnemonic} {f : Claims.Modification} (i : Word → Instr)
    (h : ∀ w, (i w).row.mnemonic = mn ∧ (i w).row.operand = .absolute w) : ModifyingMet mn f :=
  ⟨i, fun w => ⟨(h w).1, (h w).2, ⟨_, _, rfl⟩, ⟨_, _, _, rfl, rfl⟩, _, _, _, _, rfl, rfl⟩⟩

theorem witness_ModifiesReadThenWrite :
    ModifyingMet .inc Claims.inc ∧ ModifyingMet .dec Claims.dec ∧ ModifyingMet .asl Claims.asl ∧
      ModifyingMet .lsr Claims.lsr ∧ ModifyingMet .rol Claims.rol ∧ ModifyingMet .ror Claims.ror :=
  ⟨modifyingMet .incAbsolute fun _ => ⟨rfl, rfl⟩, modifyingMet .decAbsolute fun _ => ⟨rfl, rfl⟩,
    modifyingMet .aslAbsolute fun _ => ⟨rfl, rfl⟩, modifyingMet .lsrAbsolute fun _ => ⟨rfl, rfl⟩,
    modifyingMet .rolAbsolute fun _ => ⟨rfl, rfl⟩, modifyingMet .rorAbsolute fun _ => ⟨rfl, rfl⟩⟩

theorem witness_ModifiesInWorkRamComplete :
    (∀ ea, (Instr.rorAbsolute ea).row.mnemonic ∈ [Mnemonic.inc, .dec, .asl, .lsr, .rol, .ror] ∧
      State.reset.effective (Instr.rorAbsolute ea).row.operand = some (ea, false)) ∧
      (0x0000 : Word).toNat < 0x2000 ∧ (0x1FFF : Word).toNat < 0x2000 :=
  ⟨fun ea => ⟨by simp [Instr.row], rfl⟩, by decide, by decide⟩

theorem witness_StackRoundTrips :
    State.reset.cpu.p.b = false ∧ State.reset.ram.wf = true ∧
      (∃ t u, exec .php State.reset = .next t ∧ exec .plp t = .next u) ∧
      (∃ t u, exec (.jsr 0x9000) State.reset = .next t ∧ exec .rts t = .next u) ∧
      ∃ u, exec .rti (Claims.entered State.reset 0x9000) = .next u :=
  ⟨rfl, rfl, ⟨_, _, rfl, rfl⟩, ⟨_, _, rfl, rfl⟩, _, rfl⟩

/-- JMP indirect: the first pointer read faults; the second does (the page of 0x401F wraps to 0x4000, so the refused
byte is reached from inside the page 0x5F00); both read. -/
theorem witness_Jumps :
    (∃ f, memRead 0x5FFF State.reset = .error f) ∧
      (∃ lo t f, memRead 0x401F State.reset = .ok (lo, t) ∧ memRead 0x4020 t = .error f) ∧
      ∃ lo t hi u, memRead 0x1FFF State.reset = .ok (lo, t) ∧ memRead 0x1F00 t = .ok (hi, u) :=
  ⟨⟨_, rfl⟩, ⟨_, _, _, rfl, rfl⟩, _, _, _, _, rfl, rfl⟩

theorem witness_BreakTakesTheIrqVector :
    (peek (rom 0x8000 []) 0xFFFE = some 0x00 ∧ peek (rom 0x8000 []) 0xFFFF = some 0x98) ∧
      peek { State.reset with cart := { Cartridge.blank with prgBanks := 0 } } 0xFFFE = none :=
  ⟨⟨by decide +kernel, by decide +kernel⟩, by decide +kernel⟩

theorem witness_InstructionFrame :
    (∃ t, exec .nop State.reset = .next t) ∧ ∃ t, exec (.staAbsolute 0x1FFF) State.reset = .next t :=
  ⟨⟨_, rfl⟩, _, rfl⟩

theorem witness_NoInstructionChanges : ∃ t, exec (.incAbsoluteX 0x0000) State.reset = .next t := ⟨_, rfl⟩

theorem witness_DecimalFlagIsInert :
    (Instr.adcImmediate 9).row.mnemonic ∉ [Mnemonic.php, .brk, .plp, .rti, .cld, .sed] ∧
      (∃ t, exec (.adcImmediate 9) State.reset = .next t) ∧ ∃ c t, exec (.adcAbsolute 0x4020) State.reset = .fault (.raised c t) :=
  ⟨by decide, ⟨_, rfl⟩, _, _, rfl⟩

theorem witness_StepRunsTheDecodedInstruction :
    (ramRun [0xA9, 0x07]).runEnded = false ∧ Claims.Ready (ramRun [0xA9, 0x07]) ∧
      ∃ t, Claims.ReadsBytes (ramRun [0xA9, 0x07]).beginRound 0 (encode (.ldaImmediate 7)) t :=
  ⟨rfl, ramRun_ready _, _, _, rfl, _, rfl, rfl⟩

theorem witness_IdleStepsAndStops :
    { State.reset with fault := some (.chrRomWrite 0) }.fault = some (.chrRomWrite 0) ∧
      (State.reset.addIdleCycles 1).fault = none ∧ 0 < (State.reset.addIdleCycles 1).cpu.idle ∧
      ({ State.reset with con := { Console.reset with stop := true, frameDelivered := true } }).fault = none ∧
      ({ State.reset with con := { Console.reset with stop := true, frameDelivered := true } }).con.stop = true ∧
      ({ State.reset with con := { Console.reset with stop := true, frameDelivered := true } }).con.frameDelivered = true :=
  ⟨rfl, rfl, by decide, rfl, rfl, rfl⟩

/-- The interrupt statements' three cases, S at its wrap. -/
def pendingBoth (i : Bool) (nmi : Bool) : State :=
  { rom 0x8000 [0xEA] with
    cpu := { Cpu.reset 0x8000 with s := 0x01, p := { Flags.reset with i := i }, nmiPending := nmi, irqPending := true } }

theorem witness_InterruptEntries :
    (peek (pendingBoth true true) 0xFFFA = some 0x00 ∧ peek (pendingBoth true true) 0xFFFB = some 0x90) ∧
      (peek (pendingBoth false false) 0xFFFE = some 0x00 ∧ peek (pendingBoth false false) 0xFFFF = some 0x98) ∧
      ∃ t, cpuStep (ramRun [0xEA]) = .next t :=
  ⟨⟨by decide +kernel, by decide +kernel⟩, ⟨by decide +kernel, by decide +kernel⟩, _, rfl⟩

theorem witness_WorkRamMirrors :
    (0x1FFF : Word).toNat < 0x2000 ∧ (0x07FF : Word).toNat < 0x2000 ∧ State.reset.ram.wf = true ∧
      (0x1FFF : Word).toNat % 0x800 = (0x07FF : Word).toNat % 0x800 ∧
      (0x1FFF : Word).toNat % 0x800 ≠ (0x0000 : Word).toNat % 0x800 := by decide

/-- Each range of the statement at its ends. -/
theorem witness_ReadSideEffects :
    ([0x2002, 0x3FFA, 0x2007, 0x3FFF, 0x4016, 0x4017, 0x4000, 0x401F, 0x0000, 0x1FFF, 0x2004, 0x6000, 0xFFFF] :
      List Word).all (fun a => match memRead a State.reset with | .ok _ => true | .error _ => false) = true := by
  decide +kernel

/-- Invariant states other than the reset state: a program in work RAM, graphics RAM or ROM. -/
def running (bytes : List Byte) (chrBanks : Nat) : State :=
  { ramRun bytes with cart := { Cartridge.blank with chrBanks := chrBanks } }

theorem running_inv (bytes : List Byte) (chrBanks : Nat) (h : (Memory.writeAll [] 0 bytes).wfIn 0x800 = true) :
    (running bytes chrBanks).Inv where
  memories :=
    ⟨h, rfl, rfl, rfl, fun y hy => by simp [running, ramRun, State.reset, Ppu.reset], nofun, rfl, rfl⟩
  cart := rfl
  map := rfl
  ppu := ⟨Nat.zero_le _, Nat.zero_le _, Nat.zero_le _, by simp [running, ramRun, State.reset, Ppu.reset]⟩
  pad0 := ⟨Nat.zero_le _, nofun⟩
  pad1 := ⟨Nat.zero_le _, nofun⟩
  breakFlag := rfl
  event := rfl
  running := rfl

theorem default_lenient : Lenient Params.default := ⟨nofun, rfl⟩

theorem witness_AccessesRefused :
    (running [0xEA] 0).Inv ∧ Lenient (running [0xEA] 0).params ∧
      readRefused Params.default 0x2000 ∧ readRefused Params.default 0x3FFE ∧ readRefused Params.default 0x4020 ∧
      readRefused Params.default 0x5FFF ∧ ¬readRefused Params.default 0x2002 ∧ ¬readRefused Params.default 0x401F ∧
      ¬readRefused Params.default 0x6000 ∧ writeRefused (running [0xEA] 0) 0x4020 ∧
      writeRefused (running [0xEA] 0) 0x5FFF ∧ writeRefused (running [0xEA] 0) 0x8000 ∧
      ¬writeRefused (running [0xEA] 0) 0x2007 ∧ ¬writeRefused (running [0xEA] 0) 0x7FFF ∧
      ((running [0xEA] 1).Inv ∧ (running [0xEA] 1).ppu.v.toNat % 0x4000 < 0x2000 ∧
        (running [0xEA] 1).cart.chrBanks ≠ 0) := by
  refine ⟨running_inv _ _ rfl, default_lenient, ?_, ?_, ?_, ?_, ?_, ?_, ?_, ?_, ?_, ?_, ?_, ?_, running_inv _ _ rfl, ?_⟩
  all_goals first | (unfold readRefused; decide) | (unfold writeRefused; decide) | decide

theorem witness_AbsentRange :
    ([0x4000, 0x4013, 0x4014, 0x4015, 0x4017, 0x4018, 0x401F] : List Word).all (fun a =>
      decide (0x4000 ≤ a.toNat ∧ a.toNat < 0x4020 ∧ a ≠ 0x4016)) = true ∧ State.reset.fault = none := by decide

/-- The machine with an OAM address. -/
def oamAt (o : Byte) : State := { State.reset with ppu := { Ppu.reset with oamAddr := o } }

/-- Zeros copied from work RAM into empty OAM leave it empty. -/
theorem transfers_zeros : ∀ (n : Nat) (a : Word) (o : Byte), a.toNat + n ≤ 0x2000 →
    Claims.Transfers (oamAt o) a (List.replicate n 0) (oamAt (o + BitVec.ofNat 8 n))
  | 0, a, o, _ => by
    rw [BitVec.ofNat_eq_ofNat, BitVec.add_zero]
    rfl
  | n + 1, a, o, h => by
    refine ⟨oamAt o, memRead_ram (by omega) _, ?_⟩
    have e : o + BitVec.ofNat 8 (n + 1) = o + 1 + BitVec.ofNat 8 n := by bv_omega
    rw [e]
    exact transfers_zeros n (a + 1) (o + 1) (by bv_omega)

/-- Storage pages at the ends of the ranges, a page whose reads fault part of the way, and refused pages. -/
theorem witness_OamDma :
    (([0x00, 0x1F, 0x60, 0x7F, 0x80, 0xFF] : List Byte).all fun d => (List.range 256).all fun k =>
        (peek State.reset (BitVec.ofNat 16 (256 * d.toNat + k))).isSome) = true ∧
      State.reset.ppu.oam.wf = true ∧
      (List.replicate 256 (0 : Byte)).length = 256 ∧
      Claims.Transfers (oamAt 0xFF) 0x1F00 (List.replicate 256 0) (oamAt (0xFF + BitVec.ofNat 8 256)) ∧
      (Claims.Transfers State.reset 0x4100 [] State.reset ∧ ∃ f, memRead 0x4100 State.reset = .error f) ∧
      (State.reset.fault = none ∧ State.reset.params.ppuWoRead = .fault) :=
  ⟨by decide +kernel, rfl, List.length_replicate, transfers_zeros _ _ _ (by decide), ⟨rfl, _, rfl⟩, rfl, rfl⟩

theorem witness_ControllersShiftButtons : (0x01 : Byte).getLsbD 0 = true ∧ (0x00 : Byte).getLsbD 0 = false := by decide

/-- The address is one of register n's mirrors. -/
def mirrorOf (n : Nat) (a : Word) : Bool := decide (0x2000 ≤ a.toNat ∧ a.toNat < 0x4000 ∧ a.toNat % 8 = n)

theorem witness_ControlAndMaskRegisters :
    mirrorOf 0 0x2000 ∧ mirrorOf 0 0x3FF8 ∧ mirrorOf 1 0x2001 ∧ mirrorOf 1 0x3FF9 := by decide

theorem witness_StatusAndOamRegisters :
    mirrorOf 2 0x2002 ∧ mirrorOf 2 0x3FFA ∧ mirrorOf 3 0x2003 ∧ mirrorOf 3 0x3FFB ∧ mirrorOf 4 0x2004 ∧
      mirrorOf 4 0x3FFC := by decide

/-- Both halves: the toggle clear and set. -/
theorem witness_ScrollAndAddressRegisters :
    mirrorOf 5 0x2005 ∧ mirrorOf 5 0x3FFD ∧ mirrorOf 6 0x2006 ∧ mirrorOf 6 0x3FFE ∧ State.reset.ppu.w = false ∧
      { State.reset with ppu := { Ppu.reset with w := true } }.ppu.w = true := by decide

/-- A machine with `v` set, on this mapper and cartridge. -/
def atV (v : BitVec 15) (p : Params) (chrBanks : Nat) (m : Mapper) : State :=
  { State.reset with
    params := p, map := m, cart := { Cartridge.blank with chrBanks := chrBanks }, ppu := { Ppu.reset with v := v } }

/-- Below the palette at both ends, in the palette at both ends, and the two refusals: a graphics bank number over the
range under `BANK_RANGE = fault`, a write to graphics ROM. -/
theorem witness_VramDataRegister :
    mirrorOf 7 0x2007 ∧ mirrorOf 7 0x3FFF ∧ (∃ b, ppuRead 0x0000 (atV 0x0000 Params.default 0 .nrom) = .ok b) ∧
      (∃ b, ppuRead 0x3EFF (atV 0x3EFF Params.default 0 .nrom) = .ok b) ∧
      (∃ p b, ppuRead 0x3F00 (atV 0x7F00 Params.default 0 .nrom) = .ok p ∧
        ppuRead 0x2F00 (atV 0x7F00 Params.default 0 .nrom) = .ok b) ∧
      (∃ p b, ppuRead 0x3FFF (atV 0x3FFF Params.default 0 .nrom) = .ok p ∧
        ppuRead 0x2FFF (atV 0x3FFF Params.default 0 .nrom) = .ok b) ∧
      (∃ f, ppuRead 0x0000 (atV 0 { Params.default with bankRange := .fault } 0 (.mmc1 ⟨0, 0, 0x1F, 31, 0, 0⟩)) = .error f) ∧
      (∃ t, ppuWrite 0x1FFF 0x55 (atV 0x1FFF Params.default 0 .nrom) = .ok ((), t)) ∧
      ∃ f, ppuWrite 0x1FFF 0x55 (atV 0x1FFF Params.default 1 .nrom) = .error f :=
  ⟨by decide, by decide, ⟨_, rfl⟩, ⟨_, rfl⟩, ⟨_, _, rfl, rfl⟩, ⟨_, _, rfl, rfl⟩, ⟨_, rfl⟩, ⟨_, rfl⟩, _, rfl⟩

theorem witness_PictureBusRouting :
    State.reset.MemoriesOk ∧
      ([0x2000, 0x3EFF, 0x3F00, 0x3FFF] : List Word).all (fun a =>
        decide (a.toNat < 0x4000 ∧ 0x2000 ≤ a.toNat) &&
          match ppuWrite a 0x2A State.reset with | .ok _ => true | .error _ => false) = true :=
  ⟨reset_memories [] rfl, by decide +kernel⟩

/-- The picture unit at a position. -/
def atDot (scanline dot : Nat) (odd showBg : Bool) : State :=
  { State.reset with ppu := { Ppu.reset with scanline := scanline, dot := dot, odd := odd, showBg := showBg } }

theorem atDot_inRange (scanline dot : Nat) (odd showBg : Bool) (h : scanline ≤ 261) (h' : dot ≤ 340) :
    (atDot scanline dot odd showBg).ppu.InRange :=
  ⟨h', h, by simp [atDot, Ppu.reset], by simp [atDot, Ppu.reset]⟩

/-- An inner dot, the last dot, and the skipped one. -/
theorem witness_PositionAdvances :
    ((atDot 0 0 false true).ppu.InRange ∧ ¬Claims.skips (atDot 0 0 false true).ppu ∧
        ∃ t, ppuStep (atDot 0 0 false true) = .ok ((), t)) ∧
      ((atDot 261 340 true true).ppu.InRange ∧ Claims.position (atDot 261 340 true true).ppu = 89341 ∧
        ∃ t, ppuStep (atDot 261 340 true true) = .ok ((), t)) ∧
      (atDot 261 339 true true).ppu.InRange ∧ Claims.skips (atDot 261 339 true true).ppu ∧
        ∃ t, ppuStep (atDot 261 339 true true) = .ok ((), t) :=
  ⟨⟨atDot_inRange _ _ _ _ (by decide) (by decide), fun h => absurd h.2.1 (by decide), _, rfl⟩,
    ⟨atDot_inRange _ _ _ _ (by decide) (by decide), rfl, _, rfl⟩,
    atDot_inRange _ _ _ _ (by decide) (by decide), ⟨.inl rfl, rfl, rfl, rfl⟩, _, rfl⟩

/-- The two event dots and one beside each. -/
theorem witness_VblankEvents :
    ∀ p ∈ [(241, 0), (241, 1), (261, 0), (261, 1)],
      (match ppuStep (atDot p.1 p.2 false false) with | .ok _ => true | .error _ => false) = true := by decide +kernel

theorem witness_RenderingOffDot :
    (atDot 241 0 false false).ppu.showBg = false ∧ (atDot 241 0 false false).ppu.showSpr = false := ⟨rfl, rfl⟩

/-- Every phase of a fetch, at both ends of both ranges of fetch dots, and dots beside them. -/
theorem witness_BackgroundFetches :
    (atDot 0 0 false true).ppu.showBg = true ∧
      ([(0, 0), (0, 2), (0, 4), (0, 6), (0, 7), (0, 1), (239, 255), (239, 256), (261, 320), (261, 335), (261, 336),
        (240, 0)] : List (Nat × Nat)).all (fun p =>
          match ppuStep (atDot p.1 p.2 false true) with | .ok _ => true | .error _ => false) = true :=
  ⟨rfl, by decide +kernel⟩

/-- A dot for every clause: the vertical copies, dots 256 and 257 of the three kinds of scanline, an increment, a pixel, the
clearing dot. -/
theorem witness_RenderingOnDot :
    ((running [0xEA] 0).Inv ∧ (running [0xEA] 0).params.bankRange = .modulo) ∧ (atDot 0 0 false true).ppu.showBg = true ∧
      ([(261, 278), (261, 279), (261, 303), (261, 304), (0, 255), (0, 256), (239, 256), (261, 255), (261, 256), (240, 256),
        (0, 7), (261, 335), (0, 0), (239, 255), (261, 0)] : List (Nat × Nat)).all (fun p =>
          match ppuStep (atDot p.1 p.2 false true) with | .ok _ => true | .error _ => false) = true :=
  ⟨⟨running_inv _ _ rfl, rfl⟩, rfl, by decide +kernel⟩

theorem witness_FrameWithRenderingOff :
    (atDot 261 340 true false).ppu.InRange ∧ (atDot 261 340 true false).ppu.showBg = false ∧
      (atDot 261 340 true false).ppu.showSpr = false ∧ (atDot 261 340 true false).con.frameReady = false :=
  ⟨atDot_inRange _ _ _ _ (by decide) (by decide), rfl, rfl, rfl⟩

/-- The corners of the picture. -/
theorem witness_PixelOutput :
    frameOk (atDot 239 256 false true).ppu.framebuffer ∧ frameOk (atDot 0 1 false true).ppu.framebuffer ∧
      (1 ≤ (atDot 0 1 false true).ppu.dot ∧ (atDot 239 256 false true).ppu.dot ≤ 256 ∧
        (atDot 239 256 false true).ppu.scanline ≤ 239) :=
  ⟨fun y hy => by simp [atDot, Ppu.reset], fun y hy => by simp [atDot, Ppu.reset], by decide⟩

/-- Nine records of OAM with Y = 0 (all 64 have it): eight slots, and the overflow. -/
theorem witness_SpriteEvaluation :
    (match evaluateSprites State.reset with | .ok _ => true | .error _ => false) = true ∧
      8 < (Claims.found State.reset.ppu).length := by decide +kernel

/-- The four register ranges of MMC1 and MMC3 at their ends. -/
def registerAddresses : List Word := [0x8000, 0x9FFF, 0xA000, 0xBFFF, 0xC000, 0xDFFF, 0xE000, 0xFFFF]

theorem witness_Mmc1SerialWrites :
    { State.reset with map := .mmc1 (Mmc1.initial .horizontal) }.map = .mmc1 (Mmc1.initial .horizontal) ∧
      (Mmc1.initial .horizontal).count = 0 ∧ (0x80 : Byte).getLsbD 7 = true ∧ (0x7F : Byte).toNat < 128 ∧
      registerAddresses.all (fun a => decide (0x8000 ≤ a.toNat)) = true := by
  refine ⟨rfl, ?_⟩
  decide

theorem witness_MapperWindows :
    State.reset.cart.valid = true ∧ State.reset.params.bankRange = .modulo ∧ State.reset.map = .nrom ∧
      { State.reset with map := .uxrom ⟨0xFF⟩ }.map = .uxrom ⟨0xFF⟩ ∧
      { State.reset with map := .mmc1 (Mmc1.initial .vertical) }.map = .mmc1 (Mmc1.initial .vertical) ∧
      { State.reset with map := .mmc3 (Mmc3.initial .vertical) }.map = .mmc3 (Mmc3.initial .vertical) ∧
      (0x8000 ≤ (0x8000 : Word).toNat ∧ (0xBFFF : Word).toNat < 0xC000 ∧ 0xC000 ≤ (0xC000 : Word).toNat ∧
        0xC000 ≤ (0xFFFF : Word).toNat) ∧
      (0x0000 : Word).toNat < 0x2000 ∧ (0x1FFF : Word).toNat < 0x2000 :=
  ⟨rfl, rfl, rfl, rfl, rfl, rfl, by decide, by decide, by decide⟩

/-- The MMC3 machine of the witnesses, at a position. -/
def mmc3At (counter : Byte) (scanline dot : Nat) : State :=
  { atDot scanline dot false true with map := .mmc3 { Mmc3.initial .vertical with irqCounter := counter, irqReload := 3 } }

theorem witness_Mmc3Registers :
    (∃ m, (mmc3At 0 0 0).map = .mmc3 m) ∧ registerAddresses.all (fun a => decide (0x8000 ≤ a.toNat)) = true :=
  ⟨⟨_, rfl⟩, by decide⟩

theorem witness_MapperHook :
    (∀ m, State.reset.map ≠ .mmc3 m) ∧
      (∀ p ∈ [(0, 260), (239, 260), (261, 260)], countEvent (mmc3At 1 p.1 p.2) = true) ∧
      (∀ p ∈ [(0, 259), (240, 260), (260, 260)], countEvent (mmc3At 0 p.1 p.2) = false) :=
  ⟨nofun, by decide, by decide⟩

theorem witness_BanksStayInRange :
    State.reset.cart.valid = true ∧ State.reset.params.bankRange = .modulo ∧ 0x8000 ≤ 0xFFFF ∧ 0x1FFF < 0x2000 :=
  ⟨rfl, rfl, by decide, by decide⟩

theorem witness_StepKeepsInvariant : (running [0xEA] 0).Inv ∧ ∃ t, step (running [0xEA] 0) = .next t :=
  ⟨running_inv _ _ rfl, _, rfl⟩

/-- A fault of each kind the statement lists. -/
theorem witness_StepFaultsAreListed :
    Lenient Params.default ∧
      ((running [0xFF] 0).Inv ∧ StopsWith (.illegalOpcode 0 0xFF) (step (running [0xFF] 0))) ∧
      ((running [0xAD, 0x20, 0x40] 0).Inv ∧
        StopsWith (.invalidAccess .cpu 0x4020 .read) (step (running [0xAD, 0x20, 0x40] 0))) ∧
      ((running [0x8D, 0x00, 0x80] 0).Inv ∧
        StopsWith (.invalidAccess .cpu 0x8000 .write) (step (running [0x8D, 0x00, 0x80] 0))) ∧
      (running [0x8D, 0x07, 0x20] 1).Inv ∧ StopsWith (.chrRomWrite 0) (step (running [0x8D, 0x07, 0x20] 1)) :=
  ⟨default_lenient, ⟨running_inv _ _ rfl, _, rfl⟩, ⟨running_inv _ _ rfl, _, rfl⟩, ⟨running_inv _ _ rfl, _, rfl⟩,
    running_inv _ _ rfl, _, rfl⟩

theorem witness_LoadEstablishesReset :
    ({ Cartridge.blank with mapperNumber := 3 }).mapperNumber ∉ [0, 1, 2, 4] ∧ Cartridge.blank.valid = true ∧
      { Cartridge.blank with mapperNumber := 4, headerMirroring := .vertical }.valid = true := by decide

theorem witness_ResetKeepsMemories :
    (rom 0x8000 []).fault = none ∧ peek (rom 0x8000 []) 0xFFFC = some 0x00 ∧ peek (rom 0x8000 []) 0xFFFD = some 0x80 :=
  ⟨rfl, by decide +kernel, by decide +kernel⟩

end Sys2Proof.Tests
end

/-! Every step keeps the invariant: the CPU's step by its four kinds, then dot by dot. -/

namespace Sys2Proof.Machine

/-! ### What one round does -/

theorem consoleRound_next {s t : State} (h : consoleRound s = .next t) :
    s.fault = none ∧ s.runEnded = false ∧ ∃ u, cpuStep s.beginRound = .next u ∧
      runDots (3 * (u.cpu.cycles - s.cpu.cycles)) u = .ok ((), t) := by
  unfold consoleRound at h
  split at h
  · cases h
  · next hf =>
    split at h
    · cases h
    · next hr =>
      split at h
      · next u hu => exact ⟨hf, by simpa using hr, u, hu, M.outcome_next.mp h⟩
      · cases h
      · cases h

/-- The CPU's step by its four kinds (60_exceptions.md R262). -/
theorem cpuStep_next {s t : State} (h : cpuStep s = .next t) :
    t = idleStep s ∨ takeNmi s = .ok ((), t) ∨ takeIrq s = .ok ((), t) ∨ execInstruction s = .next t := by
  unfold cpuStep at h
  split at h
  · cases h
  · split at h
    · cases h
      exact .inl rfl
    · split at h
      · exact .inr (.inl (M.outcome_next.mp h))
      · split at h
        · exact .inr (.inr (.inl (M.outcome_next.mp h)))
        · exact .inr (.inr (.inr h))

theorem execInstruction_next {s t : State} (h : execInstruction s = .next t) :
    ∃ i u, fetch s = .ok (i, u) ∧ exec i u = .next t := by
  unfold execInstruction at h
  split at h
  · next i u hf => exact ⟨i, u, hf, h⟩
  · cases h

/-! ### The break flag and the console in the CPU's step -/

theorem Permit.Allows.con_eq {p : Permit} {s t : State} (h : p.Allows s t) : t.con = s.con := by
  rw [h.rest]

theorem M.Within.raise {α : Type} {p : Permit} (e : FatalCondition) : M.Within p (Machine.raise e : M α) :=
  fun _ _ _ h => nomatch h

theorem fetchOperand_within {p : Permit} (op : Byte) (pc0 : Word) : M.Within p (fetchOperand op pc0) :=
  fun _ _ _ h => memRead_within _ _ _ _ (fetchOperand_ok.mp h)

/-- The fetch writes no register, no flag and no memory. -/
theorem fetch_within {p : Permit} : M.Within p fetch := by
  refine M.Within.getS.bind fun s => (memRead_within _).bind fun op => ?_
  cases opcodeSize op with
  | none => exact .raise _
  | some size =>
    refine .ite ((fetchOperand_within _ _).bind fun b1 => ?_) ((M.Within.pure 0).bind fun b1 => ?_) <;>
      refine .ite ((memRead_within _).bind fun b2 => ?_) ((M.Within.pure 0).bind fun b2 => ?_)
    all_goals
      dsimp only
      split
      · exact .raise _
      · exact .pure _

/-- What an interrupt entry may write. -/
def interruptPermit : Permit := { regS := true, flagI := true, cycles := true, bus := true }

theorem interruptEntry_within (vec : Word) : M.Within interruptPermit (interruptEntry vec) :=
  M.Within.getS.bind fun _ =>
    ((saveFrame_within rfl rfl _ _).bind fun _ => (loadVector_within _).bind fun _ => disableInterrupts_within rfl).bind
      fun _ => addCycles_within rfl _

/-- PLP and RTI clear the break flag (10_state.md R24, R25); no other instruction writes it. -/
theorem exec_breakFlag {i : Instr} {s t : State} (hb : s.cpu.p.b = false) (h : exec i s = .next t) :
    t.cpu.p.b = false := by
  cases hp : (permitOf (decide (i.row.operand = .accumulator)) i.row.mnemonic).flagB with
  | false => exact ((exec_allows h).cpu.flagB hp).trans hb
  | true =>
    obtain ⟨r, u, -, hrun⟩ := exec_next h
    have hm : i.row.mnemonic = .plp ∨ i.row.mnemonic = .rti := by
      revert hp
      cases i.row.mnemonic <;> simp [permitOf]
    rcases hm with hm | hm <;> rw [hm] at hrun
    · obtain ⟨v, w, -, hflags⟩ := M.bind_ok.mp hrun
      cases hflags
      rfl
    · cases (returnFromInterrupt_apply _).symm.trans hrun
      rfl

/-! ### The invariant -/

theorem State.Inv.sound {s : State} (h : s.Inv) : s.Sound := (s.inv_iff.mp h).1

theorem State.Inv.withCpu {s : State} (h : s.Inv) {c : Cpu} (hc : c.p.b = false) : (s.withCpu c).Inv :=
  (State.inv_iff _).mpr ⟨h.sound.withCpu c, hc, h.event⟩

theorem State.Inv.beginRound {s : State} (h : s.Inv) : s.beginRound.Inv where
  memories := ⟨h.memories.ram, h.memories.nametable, h.memories.palette, h.memories.oam, h.memories.framebuffer,
    h.memories.lastFrame, h.memories.prgRam, h.memories.chrRam⟩
  cart := h.cart
  map := h.map
  ppu := h.ppu
  pad0 := h.pad0
  pad1 := h.pad1
  breakFlag := h.breakFlag
  event := h.event
  running := h.running

/-- What keeps `Sound` within a permit without the break flag keeps the invariant: no permit lets the console change. -/
theorem M.Keeps.inv_of_within {α : Type} {p : Permit} {x : M α} (hp : p.flagB = false) (hw : x.Within p)
    (hx : x.Keeps State.Sound) : x.Keeps State.Inv := by
  intro s a t hs h
  have ha := hw s a t h
  exact (State.inv_iff t).mpr
    ⟨hx s a t hs.sound h, (ha.cpu.flagB hp).trans hs.breakFlag, by rw [ha.con_eq]; exact hs.event⟩

theorem exec_inv {i : Instr} {s t : State} (hs : s.Inv) (h : exec i s = .next t) : t.Inv :=
  (State.inv_iff t).mpr
    ⟨exec_sound hs.sound h, exec_breakFlag hs.breakFlag h, by rw [(exec_allows h).con_eq]; exact hs.event⟩

theorem interruptEntry_inv (vec : Word) : M.Keeps State.Inv (interruptEntry vec) :=
  M.Keeps.inv_of_within rfl (interruptEntry_within vec) (interruptEntry_sound vec)

theorem cpuStep_inv {s t : State} (hs : s.Inv) (h : cpuStep s = .next t) : t.Inv := by
  rcases cpuStep_next h with rfl | h | h | h
  · exact hs.withCpu hs.breakFlag
  · exact interruptEntry_inv _ _ _ _ (hs.withCpu (c := { s.cpu with nmiPending := false }) hs.breakFlag) h
  · exact interruptEntry_inv _ _ _ _ (hs.withCpu (c := { s.cpu with irqPending := false }) hs.breakFlag) h
  · obtain ⟨i, u, hf, he⟩ := execInstruction_next h
    exact exec_inv (M.Keeps.inv_of_within (p := {}) rfl fetch_within fetch_sound _ _ _ hs hf) he

/-! ### Dots -/

theorem ppuStep_flags {s t : State} (h : ppuStep s = .ok ((), t)) : t.cpu.p = s.cpu.p := by
  obtain ⟨u, hu, -, rfl⟩ := ppuStep_ok h
  rw [flagEvents_frame, hu.rest, State.ticked_rest]
  rfl

theorem mapperHook_flags (s : State) : (mapperHook s).cpu.p = s.cpu.p := by
  unfold mapperHook
  split
  · rfl
  · rfl
  · rfl
  · split
    · dsimp only
      split
      · rw [State.triggerIrq_cpu]
        rfl
      · rfl
    · rfl

theorem deliverFrame_cpu (s : State) : (deliverFrame s).cpu = s.cpu := by
  unfold deliverFrame
  split <;> rfl

/-- A dot raises the frame event at most between the picture unit's step and the delivery that consumes it. -/
theorem dotStep_inv : M.Keeps State.Inv dotStep := by
  intro s a t hs h
  obtain ⟨_, u, hdot, hrest⟩ := M.bind_ok.mp h
  cases hrest
  obtain ⟨hsound, hevent⟩ := deliverFrame_sound (mapperHook_sound (ppuStep_sound _ _ _ hs.sound hdot))
  refine (State.inv_iff _).mpr ⟨hsound, ?_, hevent⟩
  rw [deliverFrame_cpu, mapperHook_flags, ppuStep_flags hdot]
  exact hs.breakFlag

theorem runDots_inv : ∀ n, M.Keeps State.Inv (runDots n)
  | 0 => .pure _
  | n + 1 => dotStep_inv.bind fun _ => runDots_inv n

theorem consoleRound_inv {s t : State} (hs : s.Inv) (h : consoleRound s = .next t) : t.Inv := by
  obtain ⟨-, -, u, hcpu, hdots⟩ := consoleRound_next h
  exact runDots_inv _ _ _ _ (cpuStep_inv hs.beginRound hcpu) hdots

/-- Settles O56: the CPU's step keeps the invariant, whichever of its four kinds it is, and every dot after it does. -/
theorem stepKeepsInvariant : Obligations.StepKeepsInvariant :=
  fun _ _ hs h => consoleRound_inv hs h

/-- Settles O57: every memory is empty and every field at its reset value. -/
theorem resetHasInvariant : Obligations.ResetHasInvariant where
  memories := ⟨rfl, rfl, rfl, rfl, fun y hy => by simp [State.reset, Ppu.reset], nofun, rfl, rfl⟩
  cart := rfl
  map := rfl
  ppu := ⟨Nat.zero_le _, Nat.zero_le _, Nat.zero_le _, rfl⟩
  pad0 := ⟨Nat.zero_le _, nofun⟩
  pad1 := ⟨Nat.zero_le _, nofun⟩
  breakFlag := rfl
  event := rfl
  running := rfl

end Sys2Proof.Machine

/-! What an instruction may write, read off the permit of its mnemonic. -/

namespace Sys2Proof.Machine

/-! ### The permits and the lists of writers -/

section Writers

variable (inA : Bool) (mn : Mnemonic)

theorem permitOf_regA : (permitOf false mn).regA = decide (mn ∈ Claims.writersA) := by cases mn <;> rfl
theorem permitOf_regX : (permitOf inA mn).regX = decide (mn ∈ Claims.writersX) := by cases mn <;> rfl
theorem permitOf_regY : (permitOf inA mn).regY = decide (mn ∈ Claims.writersY) := by cases mn <;> rfl
theorem permitOf_regS : (permitOf inA mn).regS = decide (mn ∈ Claims.writersS) := by cases mn <;> rfl
theorem permitOf_flagC : (permitOf inA mn).flagC = decide (mn ∈ Claims.writersC) := by cases mn <;> rfl
theorem permitOf_flagZN : (permitOf inA mn).flagZN = decide (mn ∈ Claims.writersZN) := by cases mn <;> rfl
theorem permitOf_flagI : (permitOf inA mn).flagI = decide (mn ∈ Claims.writersI) := by cases mn <;> rfl
theorem permitOf_flagD : (permitOf inA mn).flagD = decide (mn ∈ Claims.writersD) := by cases mn <;> rfl
theorem permitOf_flagB : (permitOf inA mn).flagB = decide (mn ∈ Claims.writersB) := by cases mn <;> rfl
theorem permitOf_flagV : (permitOf inA mn).flagV = decide (mn ∈ Claims.writersV) := by cases mn <;> rfl
theorem permitOf_bus : (permitOf false mn).bus = decide (mn ∈ Claims.busWriters) := by cases mn <;> rfl

end Writers

/-- The accumulator forms write A where the memory forms write the bus. -/
theorem permitOf_bus_accumulator {i : Instr} (h : i.row.operand = .accumulator) :
    (permitOf true i.row.mnemonic).bus = false := by
  revert h
  cases i <;> simp [Instr.row, permitOf]

/-! ### Storage -/

/-- Storage depends on work RAM, cartridge RAM, the cartridge, the parameters and the mapper alone. -/
theorem peek_congr {s t : State} (hr : t.ram = s.ram) (hw : t.prgRam = s.prgRam) (hp : t.params = s.params)
    (hc : t.cart = s.cart) (hm : t.map = s.map) (a : Word) : peek t a = peek s a := by
  unfold peek prgIndex
  rw [hr, hw, hp, hc, hm]

/-- Settles O26: the permit of a mnemonic allows what the lists of writers name and nothing else. -/
theorem instructionFrame : Obligations.InstructionFrame := by
  intro i s t h
  have ha := exec_allows h
  have hcpu := ha.cpu
  refine ⟨fun hm ho => hcpu.regA ?_, fun hm => hcpu.regX ?_, fun hm => hcpu.regY ?_, fun hm => hcpu.regS ?_,
    fun hm => hcpu.flagC ?_, fun hm => hcpu.flagZN ?_, fun hm => hcpu.flagI ?_, fun hm => hcpu.flagD ?_,
    fun hm => hcpu.flagB ?_, fun hm => hcpu.flagV ?_, fun hbus => ?_⟩
  · rw [decide_eq_false ho]
    exact (permitOf_regA _).trans (decide_eq_false hm)
  · exact (permitOf_regX _ _).trans (decide_eq_false hm)
  · exact (permitOf_regY _ _).trans (decide_eq_false hm)
  · exact (permitOf_regS _ _).trans (decide_eq_false hm)
  · exact (permitOf_flagC _ _).trans (decide_eq_false hm)
  · exact (permitOf_flagZN _ _).trans (decide_eq_false hm)
  · exact (permitOf_flagI _ _).trans (decide_eq_false hm)
  · exact (permitOf_flagD _ _).trans (decide_eq_false hm)
  · exact (permitOf_flagB _ _).trans (decide_eq_false hm)
  · exact (permitOf_flagV _ _).trans (decide_eq_false hm)
  · have hquiet : (permitOf (decide (i.row.operand = .accumulator)) i.row.mnemonic).bus = false := by
      by_cases ho : i.row.operand = .accumulator
      · rw [decide_eq_true ho]
        exact permitOf_bus_accumulator ho
      · rw [decide_eq_false ho]
        exact (permitOf_bus _).trans (decide_eq_false (hbus.resolve_right ho))
    obtain ⟨hidle, hppu, hrest⟩ := ha.quiet hquiet
    have hram : t.ram = s.ram := by rw [hrest]
    have hprg : t.prgRam = s.prgRam := by rw [hrest]
    have hmap : t.map = s.map := by rw [hrest]
    exact ⟨peek_congr hram hprg (by rw [hrest]) (by rw [hrest]) hmap, hram, hprg, by rw [hrest], hmap, hidle, hppu⟩

/-- Settles O27: no permit reaches the console, the fault or the scan of the picture unit. -/
theorem noInstructionChanges : Obligations.NoInstructionChanges := by
  intro i s t h
  have ha := exec_allows h
  obtain ⟨hmin, hmax⟩ := exec_cycles h
  refine ⟨?_, ?_, ha.con_eq, ?_, ha.cpu.nmi, ha.cpu.irq, ?_, ?_, ?_, ?_, ?_, ?_, ?_, ?_, ?_, ?_, ?_, hmin,
    hmax, ha.idle⟩
  · rw [ha.rest]
  · rw [ha.rest]
  · rw [ha.rest]
  all_goals
    rw [ha.ppu]
    rfl

end Sys2Proof.Machine

/-! The stack and interrupt instructions in full, and what a push and a pull leave of the machine. -/

namespace Sys2Proof.Machine

/-! ### The status byte -/

/-- What a pull of a pushed status gives back: every flag but the break flag (10_state.md R24). -/
@[simp] theorem Flags.unpack_pack (p : Flags) (b : Bool) : Flags.unpack (p.pack b) = { p with b := false } := by
  obtain ⟨c, z, i, d, e, v, n⟩ := p
  revert c z i d e v n b
  decide

theorem Flags.with_b_self {p : Flags} (h : p.b = false) : { p with b := false } = p := by
  rw [← h]

/-- The status as a number is the status as bits. -/
theorem packed_eq_pack (p : Flags) (b : Bool) : Claims.packed p b = p.pack b := by
  obtain ⟨c, z, i, d, e, v, n⟩ := p
  revert c z i d e v n b
  decide

/-! ### Bytes on the stack -/

theorem stackIndex_ne {s t : Byte} (h : s ≠ t) : Claims.stackIndex s ≠ Claims.stackIndex t := fun e =>
  h (BitVec.eq_of_toNat_eq (Nat.add_left_cancel e))

theorem pushWord_wf {ram : Memory} (h : ram.wf = true) (s : Byte) (w : Word) : (Claims.pushWord ram s w).wf = true :=
  Memory.wf_write _ _ (Memory.wf_write _ _ h)

/-- A word pushed from S is pulled back from S - 2, wherever S stands. -/
theorem read_pushWord {ram : Memory} (h : ram.wf = true) (s : Byte) (w : Word) :
    wordOf ((Claims.pushWord ram s w).read (Claims.stackIndex s))
      ((Claims.pushWord ram s w).read (Claims.stackIndex (s - 1))) = w := by
  have hne : s ≠ s - 1 := by bv_omega
  rw [Claims.pushWord, Memory.read_write_other _ (stackIndex_ne hne), Memory.read_write_same _ _ h,
    Memory.read_write_same _ _ (Memory.wf_write _ _ h), wordOf_hiByte_loByte]

/-! ### The instructions -/

theorem exec_php (s : State) : exec .php s = .next
    { s with
      ram := s.ram.write (Claims.stackIndex s.cpu.s) (s.cpu.p.pack true)
      cpu := { s.cpu.past 1 3 with s := s.cpu.s - 1 } } := by
  rw [exec_implied rfl]
  exact M.outcome_of_ok (push_apply _ _)

theorem exec_plp (s : State) : exec .plp s = .next
    { s with cpu := { s.cpu.past 1 4 with
        s := s.cpu.s + 1
        p := Flags.unpack (s.ram.read (Claims.stackIndex (s.cpu.s + 1))) } } := by
  rw [exec_implied rfl]
  exact M.outcome_bind_of_ok (pull_apply _)

theorem opJsr_apply (target : Target) (s : State) : opJsr target s = .ok ((),
    { s with
      ram := Claims.pushWord s.ram s.cpu.s (s.cpu.pc - 1)
      cpu := { s.cpu with pc := target.address, s := s.cpu.s - 2 } }) := by
  unfold opJsr
  rw [M.getS_bind, M.bind_of_ok (push16_apply _ _)]
  rfl

theorem exec_jsr (w : Word) (s : State) : exec (.jsr w) s = .next
    { s with
      ram := Claims.pushWord s.ram s.cpu.s (s.cpu.pc + 2)
      cpu := { s.cpu with pc := w, s := s.cpu.s - 2, cycles := s.cpu.cycles + 6 } } := by
  have hpc : (s.advanced 3 6).cpu.pc - 1 = s.cpu.pc + 2 := by
    rw [State.advanced_cpu, Cpu.past_pc]
    bv_omega
  rw [exec_memory (i := .jsr w) (crossed := false) rfl]
  refine (M.outcome_of_ok (opJsr_apply (.memory w) (s.advanced 3 6))).trans ?_
  rw [hpc]
  rfl

theorem exec_rts (s : State) : exec .rts s = .next
    { s with cpu := { s.cpu with
        pc := wordOf (s.ram.read (Claims.stackIndex (s.cpu.s + 2))) (s.ram.read (Claims.stackIndex (s.cpu.s + 1))) + 1
        s := s.cpu.s + 2
        cycles := s.cpu.cycles + 6 } } := by
  rw [exec_implied rfl]
  exact M.outcome_bind_of_ok (pull16_apply _)

theorem exec_rti (s : State) : exec .rti s = .next
    { s with cpu := { s.cpu with
        p := Flags.unpack (s.ram.read (Claims.stackIndex (s.cpu.s + 1)))
        pc := wordOf (s.ram.read (Claims.stackIndex (s.cpu.s + 3))) (s.ram.read (Claims.stackIndex (s.cpu.s + 2)))
        s := s.cpu.s + 3
        cycles := s.cpu.cycles + 6 } } := by
  rw [exec_implied rfl]
  exact M.outcome_of_ok (returnFromInterrupt_apply _)

/-! ### The round trips -/

theorem php_plp {s t u : State} (hb : s.cpu.p.b = false) (hw : s.ram.wf = true) (h1 : exec .php s = .next t)
    (h2 : exec .plp t = .next u) : u.cpu.p = s.cpu.p ∧ u.cpu.s = s.cpu.s := by
  cases (exec_php s).symm.trans h1
  cases (exec_plp _).symm.trans h2
  refine ⟨?_, BitVec.sub_add_cancel _ _⟩
  dsimp only
  rw [BitVec.sub_add_cancel, Memory.read_write_same _ _ hw, Flags.unpack_pack, Flags.with_b_self hb]

theorem jsr_rts {w : Word} {s t u : State} (hw : s.ram.wf = true) (h1 : exec (.jsr w) s = .next t)
    (h2 : exec .rts t = .next u) : u.cpu = { s.cpu with pc := s.cpu.pc + 3, cycles := s.cpu.cycles + 12 } := by
  cases (exec_jsr w s).symm.trans h1
  cases (exec_rts _).symm.trans h2
  have hs : s.cpu.s - 2 + 1 = s.cpu.s - 1 := by bv_omega
  dsimp only
  rw [BitVec.sub_add_cancel, hs, read_pushWord hw, BitVec.add_assoc]
  rfl

theorem entered_rti {s u : State} {target : Word} (hw : s.ram.wf = true) (hb : s.cpu.p.b = false)
    (h : exec .rti (Claims.entered s target) = .next u) : u.cpu = { s.cpu with cycles := s.cpu.cycles + 13 } := by
  cases (exec_rti _).symm.trans h
  have h1 : s.cpu.s - 3 + 1 = s.cpu.s - 2 := by bv_omega
  have h2 : s.cpu.s - 3 + 2 = s.cpu.s - 1 := by bv_omega
  have hlo : s.cpu.s - 1 ≠ s.cpu.s - 2 := by bv_omega
  have hhi : s.cpu.s ≠ s.cpu.s - 2 := by bv_omega
  dsimp only [Claims.entered]
  rw [h1, h2, BitVec.sub_add_cancel, Memory.read_write_same _ _ (pushWord_wf hw _ _), packed_eq_pack, Flags.unpack_pack,
    Flags.with_b_self hb, Memory.read_write_other _ (stackIndex_ne hlo), Memory.read_write_other _ (stackIndex_ne hhi),
    read_pushWord hw]

/-- Settles O18: the pulled indices are the pushed ones modulo 256, and the pushed ones are distinct. -/
theorem stackRoundTrips : Obligations.StackRoundTrips :=
  ⟨fun _ _ _ hb hw h1 h2 => php_plp hb hw h1 h2, fun _ _ _ _ hw h1 h2 => jsr_rts hw h1 h2,
    fun _ _ _ hw hb h => entered_rti hw hb h⟩

end Sys2Proof.Machine

/-! The decimal flag: every computation of the machine that neither pushes nor writes the flags as a whole carries another
value of it along. -/

namespace Sys2Proof.Machine

variable {α β : Type}

/-- The machine with another decimal flag. -/
def State.withD (d : Bool) (s : State) : State := { s with cpu := { s.cpu with p := { s.cpu.p with d := d } } }

/-- A fault with another decimal flag in the machine it leaves. -/
def Fault.withD (d : Bool) : Fault → Fault
  | .raised c t => .raised c (t.withD d)
  | .recorded c => .recorded c

/-- A result with another decimal flag in its machine. -/
def resultWithD (d : Bool) : Except Fault (α × State) → Except Fault (α × State)
  | .ok (a, t) => .ok (a, t.withD d)
  | .error f => .error (f.withD d)

/-- A computation that does the same whatever the decimal flag, and carries the flag along. -/
def M.DecimalBlind (x : M α) : Prop := ∀ d s, x (s.withD d) = resultWithD d (x s)

/-! ### Primitives -/

theorem M.DecimalBlind.pure (a : α) : M.DecimalBlind (Pure.pure a : M α) := fun _ _ => rfl

theorem M.DecimalBlind.update {f : State → State} (h : ∀ d s, f (s.withD d) = (f s).withD d) :
    M.DecimalBlind (Machine.update f) := fun d s => congrArg (fun t => Except.ok ((), t)) (h d s)

theorem M.DecimalBlind.bind {x : M α} {f : α → M β} (hx : x.DecimalBlind) (hf : ∀ a, (f a).DecimalBlind) :
    (x >>= f).DecimalBlind := by
  intro d s
  rw [M.bind_apply, M.bind_apply, hx]
  cases x s with
  | error e => rfl
  | ok r => exact hf r.1 d r.2

/-- What follows may look at the state, but not at its decimal flag. -/
theorem M.DecimalBlind.getS_bind {f : State → M β} (hd : ∀ d s, f (s.withD d) = f s) (hf : ∀ s, (f s).DecimalBlind) :
    M.DecimalBlind (Machine.getS >>= f) := by
  intro d s
  rw [M.getS_bind, M.getS_bind, hd, hf]

theorem M.DecimalBlind.ite {c : Prop} [Decidable c] {x y : M α} (hx : x.DecimalBlind) (hy : y.DecimalBlind) :
    M.DecimalBlind (if c then x else y) := by
  split
  · exact hx
  · exact hy

/-- From a computation to the outcome of an instruction. -/
theorem M.DecimalBlind.outcome_next {x : M Unit} (h : x.DecimalBlind) {s t : State} (d : Bool)
    (e : x.outcome s = .next t) : x.outcome (s.withD d) = .next (t.withD d) :=
  M.outcome_of_ok (by rw [h, M.outcome_next.mp e]; rfl)

theorem M.DecimalBlind.outcome_fault {x : M Unit} (h : x.DecimalBlind) {s : State} {f : Fault} (d : Bool)
    (e : x.outcome s = .fault f) : x.outcome (s.withD d) = .fault (f.withD d) :=
  M.outcome_of_error (by rw [h, M.outcome_fault.mp e]; rfl)

/-! ### Bus accesses -/

theorem State.withD_eq_withCpu (d : Bool) (s : State) :
    s.withD d = s.withCpu { s.cpu with p := { s.cpu.p with d := d } } := rfl

/-- A fault that leaves the CPU as it stood. -/
theorem Fault.withD_eq_withCpu {e : Fault} {c : Cpu} (h : e.withCpu c = e) (d : Bool) :
    e.withD d = e.withCpu { c with p := { c.p with d := d } } := by
  rw [← h]
  cases e <;> rfl

theorem M.CpuBlind.decimalBlind {x : M α} (h : x.CpuBlind) : x.DecimalBlind := by
  intro d s
  have hself : readWithCpu s.cpu (x s) = x s := (h s.cpu s).symm
  rw [State.withD_eq_withCpu, h]
  cases hx : x s with
  | error e =>
    rw [hx] at hself
    exact congrArg Except.error (Fault.withD_eq_withCpu (Except.error.inj hself) d).symm
  | ok r =>
    rw [hx] at hself
    have ht : r.2.withCpu s.cpu = r.2 := congrArg Prod.snd (Except.ok.inj hself)
    rw [← show (r.1, r.2.withCpu s.cpu) = r from Prod.ext rfl ht]
    rfl

theorem memRead_decimalBlind (a : Word) : M.DecimalBlind (memRead a) := (memRead_cpuBlind a).decimalBlind

/-- A bus write looks at no flag: OAM DMA at the parity of `cycles` alone (63_bus_devices_console.md R441). -/
theorem memWrite_decimalBlind (a : Word) (v : Byte) : M.DecimalBlind (memWrite a v) := by
  intro d s
  have hself := memWrite_withCpu a v s.cpu s
  rw [State.withCpu_self] at hself
  rw [State.withD_eq_withCpu, memWrite_withCpu]
  cases hx : memWrite a v s with
  | error e =>
    rw [hx] at hself
    exact congrArg Except.error (Fault.withD_eq_withCpu (Except.error.inj hself).symm d).symm
  | ok r =>
    obtain ⟨u, t⟩ := r
    show _ = Except.ok ((), t.withD d)
    rw [State.withD_eq_withCpu, memWrite_cpu hx]

/-! ### Operands and the stack -/

theorem read16_decimalBlind (a : Word) : M.DecimalBlind (read16 a) :=
  (memRead_decimalBlind _).bind fun _ => (memRead_decimalBlind _).bind fun _ => .pure _

theorem read16Bug_decimalBlind (a : Word) : M.DecimalBlind (read16Bug a) :=
  (memRead_decimalBlind _).bind fun _ => (memRead_decimalBlind _).bind fun _ => .pure _

theorem resolve_decimalBlind (o : Operand) (pc0 : Word) : M.DecimalBlind (resolve o pc0) := by
  refine .getS_bind (fun _ _ => rfl) fun s => ?_
  cases o with
  | indirect w => exact (read16Bug_decimalBlind _).bind fun _ => .pure _
  | indirectX b => exact (read16Bug_decimalBlind _).bind fun _ => .pure _
  | indirectY b => exact (read16Bug_decimalBlind _).bind fun _ => .pure _
  | _ => exact .pure _

theorem Target.read_decimalBlind (t : Target) : M.DecimalBlind t.read := by
  cases t with
  | memory ea => exact memRead_decimalBlind ea
  | accumulator => exact .getS_bind (fun _ _ => rfl) fun _ => .pure _
  | _ => exact .pure _

theorem Target.write_decimalBlind (t : Target) (v : Byte) : M.DecimalBlind (t.write v) := by
  cases t with
  | memory ea => exact memWrite_decimalBlind ea v
  | accumulator => exact .update fun _ _ => rfl
  | _ => exact .pure _

theorem push_decimalBlind (v : Byte) : M.DecimalBlind (push v) :=
  .getS_bind (fun _ _ => rfl) fun _ => (memWrite_decimalBlind _ _).bind fun _ => .update fun _ _ => rfl

theorem push16_decimalBlind (w : Word) : M.DecimalBlind (push16 w) :=
  (push_decimalBlind _).bind fun _ => push_decimalBlind _

theorem pull_decimalBlind : M.DecimalBlind pull :=
  M.DecimalBlind.bind (.update fun _ _ => rfl) fun _ => .getS_bind (fun _ _ => rfl) fun _ => memRead_decimalBlind _

theorem pull16_decimalBlind : M.DecimalBlind pull16 :=
  pull_decimalBlind.bind fun _ => pull_decimalBlind.bind fun _ => .pure _

/-! ### The effects -/

/-- A computation of flags that leaves the decimal flag alone and does not look at it. -/
def Flags.Decimalless (f : Flags → Flags) : Prop := ∀ (d : Bool) (p : Flags), f { p with d := d } = { f p with d := d }

theorem updateFlags_decimalBlind {f : Flags → Flags} (h : Flags.Decimalless f) : M.DecimalBlind (updateFlags f) :=
  .update fun d s => congrArg s.setP (h d s.cpu.p)

/-- A value stored in a register, then flags from it. -/
theorem register_decimalBlind {set : State → State} {f : Flags → Flags} (hs : ∀ d s, set (s.withD d) = (set s).withD d)
    (hf : Flags.Decimalless f) : M.DecimalBlind (update set >>= fun _ => updateFlags f) :=
  M.DecimalBlind.bind (.update hs) fun _ => updateFlags_decimalBlind hf

theorem addToA_decimalBlind (m : Byte) : M.DecimalBlind (addToA m) :=
  .getS_bind (fun _ _ => rfl) fun _ => register_decimalBlind (fun _ _ => rfl) fun _ _ => rfl

theorem combineA_decimalBlind (f : Byte → Byte → Byte) (t : Target) : M.DecimalBlind (combineA f t) :=
  t.read_decimalBlind.bind fun _ => .getS_bind (fun _ _ => rfl) fun _ =>
    register_decimalBlind (fun _ _ => rfl) fun _ _ => rfl

theorem stepMemory_decimalBlind (f : Byte → Byte) (t : Target) : M.DecimalBlind (stepMemory f t) :=
  t.read_decimalBlind.bind fun _ => (t.write_decimalBlind _).bind fun _ => updateFlags_decimalBlind fun _ _ => rfl

theorem shiftOperand_decimalBlind (f : Byte → Bool → Shifted) (t : Target) : M.DecimalBlind (shiftOperand f t) :=
  t.read_decimalBlind.bind fun _ => .getS_bind (fun _ _ => rfl) fun _ =>
    (updateFlags_decimalBlind fun _ _ => rfl).bind fun _ => (t.write_decimalBlind _).bind fun _ =>
      updateFlags_decimalBlind fun _ _ => rfl

theorem branch_decimalBlind {cond : Flags → Bool} (hc : ∀ (d : Bool) (p : Flags), cond { p with d := d } = cond p)
    (t : Target) : M.DecimalBlind (branch cond t) := by
  refine .getS_bind (fun d s => ?_) fun s => .ite ?_ (.pure _)
  · have hcond : cond (s.withD d).cpu.p = cond s.cpu.p := hc d s.cpu.p
    dsimp only
    rw [hcond]
    rfl
  · exact M.DecimalBlind.bind (.update fun _ _ => rfl) fun _ => .update fun _ _ => rfl

/-! ### The instructions -/

/-- The mnemonics that push or write the decimal flag (10_state.md R23, R26). -/
def decimalMnemonics : List Mnemonic := [.php, .brk, .plp, .rti, .cld, .sed]

/-- Every other handler is blind to the decimal flag. -/
theorem handler_decimalBlind {mn : Mnemonic} (h : mn ∉ decimalMnemonics) (t : Target) :
    M.DecimalBlind (handlerOf mn t) := by
  cases mn with
  | lda | ldx | ldy =>
    exact t.read_decimalBlind.bind fun _ => register_decimalBlind (fun _ _ => rfl) fun _ _ => rfl
  | sta | stx | sty => exact .getS_bind (fun _ _ => rfl) fun _ => t.write_decimalBlind _
  | tax | tay | txa | tya | tsx | inx | iny | dex | dey =>
    exact .getS_bind (fun _ _ => rfl) fun _ => register_decimalBlind (fun _ _ => rfl) fun _ _ => rfl
  | txs | jmp => exact .update fun _ _ => rfl
  | pha => exact .getS_bind (fun _ _ => rfl) fun _ => push_decimalBlind _
  | pla => exact pull_decimalBlind.bind fun _ => register_decimalBlind (fun _ _ => rfl) fun _ _ => rfl
  | adc | sbc => exact t.read_decimalBlind.bind fun _ => addToA_decimalBlind _
  | and | ora | eor => exact combineA_decimalBlind _ t
  | cmp | cpx | cpy | bit =>
    exact t.read_decimalBlind.bind fun _ => .getS_bind (fun _ _ => rfl) fun _ =>
      updateFlags_decimalBlind fun _ _ => rfl
  | inc | dec => exact stepMemory_decimalBlind _ t
  | asl | lsr | rol | ror => exact shiftOperand_decimalBlind _ t
  | jsr =>
    exact .getS_bind (fun _ _ => rfl) fun _ => (push16_decimalBlind _).bind fun _ => .update fun _ _ => rfl
  | rts => exact pull16_decimalBlind.bind fun _ => .update fun _ _ => rfl
  | bcc => exact branch_decimalBlind (cond := fun p => !p.c) (fun _ _ => rfl) t
  | bne => exact branch_decimalBlind (cond := fun p => !p.z) (fun _ _ => rfl) t
  | bpl => exact branch_decimalBlind (cond := fun p => !p.n) (fun _ _ => rfl) t
  | bvc => exact branch_decimalBlind (cond := fun p => !p.v) (fun _ _ => rfl) t
  | bcs | beq | bmi | bvs => exact branch_decimalBlind (fun _ _ => rfl) t
  | clc => exact updateFlags_decimalBlind (f := fun p => { p with c := false }) fun _ _ => rfl
  | sec => exact updateFlags_decimalBlind (f := fun p => { p with c := true }) fun _ _ => rfl
  | cli => exact updateFlags_decimalBlind (f := fun p => { p with i := false }) fun _ _ => rfl
  | sei => exact updateFlags_decimalBlind (f := fun p => { p with i := true }) fun _ _ => rfl
  | clv => exact updateFlags_decimalBlind (f := fun p => { p with v := false }) fun _ _ => rfl
  | nop => exact .pure _
  | php | brk | plp | rti | cld | sed => exact absurd (by decide) h

theorem runRow_decimalBlind (r : Row) {handler : Target → M Unit} (h : ∀ t, (handler t).DecimalBlind) :
    M.DecimalBlind (runRow r handler) :=
  .getS_bind (fun _ _ => rfl) fun _ => (resolve_decimalBlind _ _).bind fun _ =>
    M.DecimalBlind.bind (.update fun _ _ => rfl) fun _ => M.DecimalBlind.bind (.update fun _ _ => rfl) fun _ => h _

/-- Settles O28: row and handler carry another decimal flag along, whether the instruction completes or stops. -/
theorem decimalFlagIsInert : Obligations.DecimalFlagIsInert := by
  intro i s d hm
  have hrun := runRow_decimalBlind i.row (handler_decimalBlind hm)
  refine ⟨fun t h => ?_, fun c t h => ?_⟩ <;> rw [exec_eq] at h ⊢
  · exact hrun.outcome_next d h
  · exact hrun.outcome_fault d h

end Sys2Proof.Machine

/-! The CPU bus in work RAM, the picture unit's registers, the controllers and the absent range: what a read gives and
what it changes (20_memory.md R62 to R65, R72). -/

namespace Sys2Proof.Machine

/-! ### Work RAM -/

/-- Settles O33: an address below 0x2000 reaches the byte at its remainder modulo 0x800. -/
theorem workRamMirrors : Obligations.WorkRamMirrors := by
  intro a b v s ha hb hw
  refine ⟨_, memWrite_ram ha v s, fun hsame => ?_, fun hdiff => ⟨_, memRead_ram hb s, ?_⟩⟩
  · have hread : (s.ram.write (ramIndex a) v).read (ramIndex b) = v := by
      rw [show ramIndex b = ramIndex a from hsame.symm]
      exact Memory.read_write_same _ v hw
    rw [memRead_ram hb, State.writeRam_ram, hread]
  · have hread : (s.ram.write (ramIndex a) v).read (ramIndex b) = s.ram.read (ramIndex b) :=
      Memory.read_write_other v (Ne.symm hdiff) s.ram
    rw [memRead_ram hb, State.writeRam_ram, hread]

/-! ### Faults -/

/-- A fault raised on a running machine stops it with that condition. -/
theorem raise_of_running {α : Type} {s : State} (c : FatalCondition) (h : s.fault = none) :
    (raise c : M α) s = .error (.raised c (s.stopped c)) := by
  rw [raise_apply, State.recordFault_of_none s c h]
  rfl

/-! ### The absent range -/

section Absent

variable (a : Word) {s : State}

theorem readAbsent_of_zero (h : s.params.absentIo = .zero) : readAbsent a s = .ok (0, s) := by
  rw [readAbsent, M.getS_bind, h]
  rfl

theorem readAbsent_of_draw (h : s.params.absentIo = .draw) :
    readAbsent a s = .ok (Config.freeByte s.draws, s.countDraw) := by
  rw [readAbsent, M.getS_bind, h]
  rfl

theorem readAbsent_of_fault (h : s.params.absentIo = .fault) :
    readAbsent a s = raise (.invalidAccess .cpu a .read) s := by
  rw [readAbsent, M.getS_bind, h]

theorem writeAbsent_of_fault (h : s.params.absentIo = .fault) :
    writeAbsent a s = raise (.invalidAccess .cpu a .write) s := by
  rw [writeAbsent, M.getS_bind, h]

theorem writeAbsent_of_not_fault (h : s.params.absentIo ≠ .fault) : writeAbsent a s = .ok ((), s) := by
  rw [writeAbsent, M.getS_bind]
  cases hp : s.params.absentIo with
  | fault => exact absurd hp h
  | zero => rfl
  | draw => rfl

/-- A read of the absent range changes at most the count of draws, and that only under `ABSENT_IO = draw`. -/
theorem readAbsent_ok {a : Word} {t : State} {b : Byte} (h : readAbsent a s = .ok (b, t)) :
    t = { s with draws := t.draws } ∧ (s.params.absentIo ≠ .draw → t = s) := by
  cases hp : s.params.absentIo with
  | zero =>
    cases (readAbsent_of_zero a hp).symm.trans h
    exact ⟨rfl, fun _ => rfl⟩
  | fault => cases (readAbsent_of_fault a hp).symm.trans h
  | draw =>
    cases (readAbsent_of_draw a hp).symm.trans h
    exact ⟨rfl, fun hne => absurd rfl hne⟩

end Absent

/-- Settles O36: one case per value of `ABSENT_IO`, a write of 0x4017 and a read of 0x4014 included. -/
theorem absentRange : Obligations.AbsentRange := by
  intro a v s hlo hhi h16
  refine ⟨fun h17 hp => ?_, fun h17 hp hf => ?_, fun h17 hp => ⟨Config.freeByte s.draws, ?_⟩, fun h14 hp => ?_, fun h14 hp hf => ?_⟩
  · rw [memRead_absent hlo hhi h16 h17, readAbsent_of_zero a hp]
  · rw [memRead_absent hlo hhi h16 h17, readAbsent_of_fault a hp, raise_of_running _ hf]
  · rw [memRead_absent hlo hhi h16 h17]
    exact readAbsent_of_draw a hp
  · rw [memWrite_absent hlo hhi h14 h16, writeAbsent_of_not_fault a hp]
  · rw [memWrite_absent hlo hhi h14 h16, writeAbsent_of_fault a hp, raise_of_running _ hf]

/-! ### The picture unit's registers, read -/

theorem Ppu.stepAddress_eq (p : Ppu) : p.stepAddress = { p with v := Claims.nextV p } := by
  have hv : p.v + (if p.vramInc then 32 else 1) = Claims.nextV p := by
    unfold Claims.nextV
    split <;> bv_omega
  rw [stepAddress, hv]

section Registers

variable {a : Word} {s t : State} {b : Byte}

theorem readPpuRegister_status (h : a.toNat % 8 = 2) (s : State) :
    readPpuRegister a s = .ok (s.ppu.status, s.setPpu { s.ppu with vblank := false, w := false }) := by
  rw [readPpuRegister, M.getS_bind, h]
  rfl

theorem readPpuRegister_vramData (h : a.toNat % 8 = 7) (s : State) : readPpuRegister a s = readVramData s := by
  rw [readPpuRegister, M.getS_bind, h]
  rfl

theorem readWriteOnly_ok (h : readWriteOnly a s = .ok (b, t)) : t = s := by
  rw [readWriteOnly, M.getS_bind] at h
  cases hp : s.params.ppuWoRead with
  | fault =>
    rw [hp] at h
    cases h
  | latch =>
    rw [hp] at h
    cases h
    rfl

/-- A read of any register but status and VRAM data changes nothing (61_ppu.md R314, R319). -/
theorem readPpuRegister_unchanged (h2 : a.toNat % 8 ≠ 2) (h7 : a.toNat % 8 ≠ 7)
    (h : readPpuRegister a s = .ok (b, t)) : t = s := by
  rw [readPpuRegister, M.getS_bind] at h
  generalize a.toNat % 8 = register at h h2 h7
  split at h
  · exact absurd rfl h2
  · cases h
    rfl
  · exact absurd rfl h7
  · exact readWriteOnly_ok h

/-- A read of VRAM data steps `v` and fills the read buffer, below the palette and in it (61_ppu.md R317). -/
theorem readVramData_ok (h : readVramData s = .ok (b, t)) :
    t = { s with ppu := { s.ppu with v := Claims.nextV s.ppu, readBuffer := t.ppu.readBuffer } } := by
  have after (buffer : Byte) : s.setPpu { s.ppu with readBuffer := buffer }.stepAddress =
      { s with ppu := { s.ppu with v := Claims.nextV s.ppu, readBuffer := buffer } } := by
    rw [Ppu.stepAddress_eq]
    rfl
  rw [readVramData, M.getS_bind] at h
  dsimp only at h
  split at h
  · obtain ⟨buffer, u, hlook, hrest⟩ := M.bind_ok.mp h
    obtain ⟨-, rfl⟩ := look_ok.mp hlook
    rw [M.update_bind, after] at hrest
    cases hrest
    rfl
  · obtain ⟨result, u, hlook, hrest⟩ := M.bind_ok.mp h
    obtain ⟨-, rfl⟩ := look_ok.mp hlook
    obtain ⟨buffer, u', hlook', hrest'⟩ := M.bind_ok.mp hrest
    obtain ⟨-, rfl⟩ := look_ok.mp hlook'
    rw [M.update_bind, after] at hrest'
    cases hrest'
    rfl

/-! ### The controllers, read -/

theorem readPad0_ok (h : readPad0 s = .ok (b, t)) :
    t = { s with pads := { s.pads with pad0 := { s.pads.pad0 with index := t.pads.pad0.index } } } := by
  cases h
  exact congrArg (fun p => s.setPads { s.pads with pad0 := p }) (Pad.read_snd _ _ _)

theorem readPad1_ok (h : readPad1 s = .ok (b, t)) :
    t = { s with pads := { s.pads with pad1 := { s.pads.pad1 with index := t.pads.pad1.index } } } := by
  cases h
  exact congrArg (fun p => s.setPads { s.pads with pad1 := p }) (Pad.read_snd _ _ _)

end Registers

/-- Settles O34: row by row of the bus routing, each device's read changes its own fields. -/
theorem readSideEffects : Obligations.ReadSideEffects := by
  intro a s t b h
  split_ifs with hstatus hdata h16 h17 habsent
  · obtain ⟨hlo, hhi, h2⟩ := hstatus
    rw [memRead_register hlo hhi, readPpuRegister_status h2] at h
    cases h
    rfl
  · obtain ⟨hlo, hhi, h7⟩ := hdata
    rw [memRead_register hlo hhi, readPpuRegister_vramData h7] at h
    exact readVramData_ok h
  · subst h16
    exact readPad0_ok h
  · subst h17
    exact readPad1_ok h
  · obtain ⟨hlo, hhi⟩ := habsent
    rw [memRead_absent hlo hhi h16 h17] at h
    exact readAbsent_ok h
  · rcases lt_or_ge a.toNat 0x2000 with hram | hlo
    · cases (memRead_ram hram s).symm.trans h
      rfl
    · rcases lt_or_ge a.toNat 0x4000 with hregister | hmapper
      · rw [memRead_register hlo hregister] at h
        exact readPpuRegister_unchanged (by omega) (by omega) h
      · rw [memRead_mapper (by omega)] at h
        exact (look_ok.mp h).2

end Sys2Proof.Machine

/-! The picture-unit bus outside the pattern tables: the mirrored nametables and the aliased palette
(20_memory.md R80 to R85). -/

namespace Sys2Proof.Machine

/-! ### Indices -/

/-- The half of the nametable RAM by the table of 20_memory.md R83. -/
theorem nametableHalf_eq_lookup (m : Mirroring) {table : Nat} (h : table < 4) :
    nametableHalf m table = (Claims.lookup m).getD table 0 := by
  interval_cases table <;> cases m <;> rfl

theorem ntIndex_eq_lookup (m : Mirroring) (a : Nat) :
    ntIndex m a = (Claims.lookup m).getD ((a - 0x2000) % 0x1000 / 0x400) 0 * 0x400 + (a - 0x2000) % 0x1000 % 0x400 := by
  have htable : (a - 0x2000) % 0x1000 / 0x400 < 4 := by omega
  rw [← nametableHalf_eq_lookup m htable]
  rfl

/-- The four aliases of 20_memory.md R84, listed. -/
theorem palIndex_eq_ite_mem (a : Nat) :
    palIndex a = if a % 32 ∈ [16, 20, 24, 28] then a % 32 - 16 else a % 32 := by
  have hlisted : (16 ≤ a % 32 ∧ a % 32 % 4 = 0) ↔ a % 32 ∈ [16, 20, 24, 28] := by
    simp only [List.mem_cons, List.not_mem_nil, or_false]
    omega
  exact if_congr hlisted rfl rfl

/-! ### Writes, and the read of the byte written -/

section PictureBus

variable {a : Word} {s t : State} {d : Byte}

theorem ppuWrite_nametable (h1 : 0x2000 ≤ a.toNat) (h2 : a.toNat < 0x3F00) (d : Byte) (s : State) :
    ppuWrite a d s = .ok ((),
      s.setPpu { s.ppu with nametable := s.ppu.nametable.write (ntIndex (mirroring s) a.toNat) d }) := by
  rw [ppuWrite_apply (by omega), if_neg (by omega), if_pos h2]

theorem ppuWrite_palette (h1 : 0x3F00 ≤ a.toNat) (h2 : a.toNat < 0x4000) (d : Byte) (s : State) :
    ppuWrite a d s = .ok ((), s.setPpu { s.ppu with palette := s.ppu.palette.write (palIndex a.toNat) d }) := by
  rw [ppuWrite_apply h2, if_neg (by omega), if_neg (by omega)]

/-- The picture unit has no part in the mirroring, so a nametable address keeps its index over a write. -/
theorem mirroring_setPpu (s : State) (p : Ppu) : mirroring (s.setPpu p) = mirroring s := rfl

/-- All eight bits of a byte written outside the pattern tables are read back (20_memory.md R85). -/
theorem ppuRead_of_ppuWrite (hn : s.ppu.nametable.wf = true) (hp : s.ppu.palette.wf = true) (hlo : 0x2000 ≤ a.toNat)
    (hhi : a.toNat < 0x4000) (h : ppuWrite a d s = .ok ((), t)) : ppuRead a t = .ok d := by
  rcases lt_or_ge a.toNat 0x3F00 with hnt | hpal
  · cases (ppuWrite_nametable hlo hnt d s).symm.trans h
    rw [ppuRead_nametable hlo hnt, mirroring_setPpu]
    exact congrArg Except.ok (Memory.read_write_same _ d hn)
  · cases (ppuWrite_palette hpal hhi d s).symm.trans h
    rw [ppuRead_palette hpal hhi]
    exact congrArg Except.ok (Memory.read_write_same _ d hp)

end PictureBus

theorem Memory.wf_of_wfIn {size : Nat} {m : Memory} (h : m.wfIn size = true) : m.wf = true :=
  (Bool.and_eq_true_iff.mp h).1

/-- Settles O43: the model's indices are the tables' ones, and a write keeps the index of its own address. -/
theorem pictureBusRouting : Obligations.PictureBusRouting := by
  intro a d s hm hhi r nt pal
  have hnt : ntIndex (mirroring s) a.toNat = nt := ntIndex_eq_lookup _ _
  have hpal : palIndex a.toNat = pal := palIndex_eq_ite_mem _
  refine ⟨fun h1 h2 => ⟨?_, ?_⟩, fun h1 => ⟨?_, ?_⟩, fun h1 t h => ?_⟩
  · rw [ppuRead_nametable h1 h2, hnt]
  · rw [ppuWrite_nametable h1 h2, hnt]
    rfl
  · rw [ppuRead_palette h1 hhi, hpal]
  · rw [ppuWrite_palette h1 hhi, hpal]
    rfl
  · exact ppuRead_of_ppuWrite (Memory.wf_of_wfIn hm.nametable) (Memory.wf_of_wfIn hm.palette) h1 hhi h

end Sys2Proof.Machine

/-! The decoder and the encoder as inverses: the opcode table read by byte and by instruction, then lists of bytes
(30_encoding.md R103, R120). -/

namespace Sys2Proof

open Machine

/-! ### Operand bytes -/

theorem Operand.bytes_length_le (o : Operand) : o.bytes.length ≤ 2 := by
  cases o <;> simp [Operand.bytes]

theorem Instr.size_eq (i : Instr) : i.size = i.row.operand.bytes.length + 1 := by
  unfold Instr.size
  cases i.row.operand <;> rfl

theorem eq_of_byte_prefix {b b1 b2 : Byte} (h : [b] <+: [b1, b2]) : b = b1 := (List.cons_prefix_cons.mp h).1

theorem eq_wordOf_of_prefix {w : Word} {b1 b2 : Byte} (h : [loByte w, hiByte w] <+: [b1, b2]) : w = wordOf b2 b1 := by
  obtain ⟨rfl, hhi⟩ := List.cons_prefix_cons.mp h
  rw [← (List.cons_prefix_cons.mp hhi).1, wordOf_hiByte_loByte]

/-! ### The table -/

/-- The row of an instruction in the table by opcode byte, whatever follows its operand: three bytes, two, or one
(30_encoding.md R101). -/
theorem decodeOp_opcode {i : Instr} {b1 b2 : Byte} (h : i.row.operand.bytes <+: [b1, b2]) :
    decodeOp i.row.opcode b1 b2 = some i := by
  cases i
  all_goals first
    | (cases eq_wordOf_of_prefix h; rfl)
    | (cases eq_of_byte_prefix h; rfl)
    | rfl

/-- The two directions of the table agree: an opcode byte with its operand names an instruction exactly when they are
the instruction's own. -/
theorem decodeOp_eq_some {op b1 b2 : Byte} {i : Instr} :
    decodeOp op b1 b2 = some i ↔ i.row.opcode = op ∧ i.row.operand.bytes <+: [b1, b2] := by
  refine ⟨fun h => ?_, fun ⟨hop, hbytes⟩ => hop ▸ decodeOp_opcode hbytes⟩
  unfold decodeOp at h
  split at h <;> cases h
  all_goals exact ⟨rfl, by simp [Instr.row, Operand.bytes]⟩

/-! ### Lists of bytes -/

theorem take_two_prefix_getD (m : List Byte) : m.take 2 <+: [m.getD 0 0, m.getD 1 0] := by
  match m with
  | [] => exact List.nil_prefix
  | [a] => exact List.prefix_append [a] [0]
  | a :: b :: _ => exact List.prefix_rfl

/-- The decoder looks at two bytes after the opcode, zeros past the end: enough for every operand the list holds. -/
theorem prefix_getD_iff {l m : List Byte} (htwo : l.length ≤ 2) (hlen : l.length ≤ m.length) :
    l <+: [m.getD 0 0, m.getD 1 0] ↔ l <+: m := by
  have htake : l.length ≤ (m.take 2).length := by
    rw [List.length_take]
    exact Nat.le_min.mpr ⟨htwo, hlen⟩
  exact ⟨fun h => (List.prefix_of_prefix_length_le h (take_two_prefix_getD m) htake).trans (List.take_prefix 2 m),
    fun h => (List.prefix_of_prefix_length_le h (List.take_prefix 2 m) htake).trans (take_two_prefix_getD m)⟩

theorem decode_cons_eq_ok {op : Byte} {tail rest : List Byte} {i : Instr} :
    decode (op :: tail) = .ok (i, rest) ↔ decodeOp op (tail.getD 0 0) (tail.getD 1 0) = some i ∧
      i.size ≤ tail.length + 1 ∧ rest = tail.drop (i.size - 1) := by
  rw [decode]
  cases decodeOp op (tail.getD 0 0) (tail.getD 1 0) with
  | none => simp
  | some j =>
    dsimp only
    split
    · simp only [reduceCtorEq, Option.some.injEq, false_iff, not_and]
      rintro rfl hsize
      omega
    · simp only [Except.ok.injEq, Prod.mk.injEq, Option.some.injEq]
      constructor
      · rintro ⟨rfl, rfl⟩
        exact ⟨rfl, by omega, rfl⟩
      · rintro ⟨rfl, -, rfl⟩
        exact ⟨rfl, rfl⟩

/-- A list of bytes has one reading, and it is the one that was written. -/
theorem decode_eq_ok {bytes rest : List Byte} {i : Instr} :
    decode bytes = .ok (i, rest) ↔ bytes = encode i ++ rest := by
  cases bytes with
  | nil => simp [decode, encode]
  | cons op tail =>
    have htwo := i.row.operand.bytes_length_le
    rw [decode_cons_eq_ok, decodeOp_eq_some, encode, List.cons_append, List.cons.injEq, and_assoc, eq_comm (a := op),
      i.size_eq, Nat.add_le_add_iff_right, Nat.add_sub_cancel]
    refine and_congr_right fun _ => ⟨?_, ?_⟩
    · rintro ⟨hprefix, hlen, rfl⟩
      exact (List.prefix_iff_eq_append.mp ((prefix_getD_iff htwo hlen).mp hprefix)).symm
    · rintro rfl
      have hprefix := List.prefix_append i.row.operand.bytes rest
      exact ⟨(prefix_getD_iff htwo hprefix.length_le).mpr hprefix, hprefix.length_le, List.drop_left.symm⟩

/-- Settles O1: the table by opcode byte finds every row of the table by instruction, operand and all. -/
theorem decodeInvertsEncode : Obligations.DecodeInvertsEncode :=
  fun _ _ => decode_eq_ok.mpr rfl

/-- Settles O2: the table by instruction finds every row of the table by opcode byte. -/
theorem decodedBytesAreTheEncoding : Obligations.DecodedBytesAreTheEncoding :=
  fun _ _ _ h => decode_eq_ok.mp h

/-- Settles O3, by running the decoder on the seven words. -/
theorem tableWordsDecode : Obligations.TableWordsDecode := by
  unfold Obligations.TableWordsDecode
  decide

/-! ### Opcode bytes without an instruction -/

theorem opcodeSize_opcode (i : Instr) : opcodeSize i.row.opcode = some i.size := by
  cases i <;> rfl

/-- Whether an opcode byte has an instruction does not depend on the operand. -/
theorem opcodeSize_eq_none {op : Byte} : opcodeSize op = none ↔ ∀ b1 b2, decodeOp op b1 b2 = none := by
  refine ⟨fun h b1 b2 => Option.eq_none_iff_forall_ne_some.mpr fun i hi => ?_, fun h => by rw [opcodeSize, h]; rfl⟩
  rw [← (decodeOp_eq_some.mp hi).1, opcodeSize_opcode] at h
  cases h

/-- The list of 30_encoding.md R122 is what the table of R121 leaves out, in the same order. -/
theorem illegalBytes_eq_filter :
    Claims.illegalBytes = ((List.range 256).map (BitVec.ofNat 8)).filter fun op => (opcodeSize op).isNone := by
  decide +kernel

theorem mem_illegalBytes {op : Byte} : op ∈ Claims.illegalBytes ↔ opcodeSize op = none := by
  have hop : op ∈ (List.range 256).map (BitVec.ofNat 8) :=
    List.mem_map.mpr ⟨op.toNat, List.mem_range.mpr op.isLt, by simp⟩
  rw [illegalBytes_eq_filter, List.mem_filter, Option.isNone_iff_eq_none, and_iff_right hop]

end Sys2Proof

/-! The fetch and the round around it: what a machine with nothing before its next instruction does
(30_encoding.md R104, 60_exceptions.md R262, 63_bus_devices_console.md R460). -/

namespace Sys2Proof.Machine

/-! ### The fetch -/

/-- A bus read records no fault. -/
theorem memRead_fault {a : Word} {s t : State} {b : Byte} (h : memRead a s = .ok (b, t)) : t.fault = s.fault := by
  rw [(memRead_within (p := {}) _ _ _ _ h).rest]

/-- An opcode byte without an instruction stops the fetch after its own read (60_exceptions.md R251). -/
theorem fetch_of_illegal {s t : State} {op : Byte} (h : memRead s.cpu.pc s = .ok (op, t)) (hop : opcodeSize op = none) :
    fetch s = raise (.illegalOpcode s.cpu.pc op) t := by
  rw [fetch, M.getS_bind, M.bind_of_ok h, hop]

/-- The fetch of an instruction whose encoding stands at PC: no operand byte, one, or two. -/
theorem fetch_of_readsBytes {s t : State} {i : Instr} (h : Claims.ReadsBytes s s.cpu.pc (encode i) t) :
    fetch s = .ok (i, t) := by
  obtain ⟨u, hop, h⟩ := h
  have hlen := i.row.operand.bytes_length_le
  have hdecode {b1 b2 : Byte} (hbytes : i.row.operand.bytes <+: [b1, b2]) := decodeOp_opcode hbytes
  rw [fetch, M.getS_bind, M.bind_of_ok hop, opcodeSize_opcode, i.size_eq]
  dsimp only
  match hb : i.row.operand.bytes with
  | [] =>
    rw [hb] at h hdecode
    cases h
    rw [if_neg (by simp), M.pure_bind_apply, if_neg (by simp), M.pure_bind_apply, hdecode List.nil_prefix]
    rfl
  | [b1] =>
    rw [hb] at h hdecode
    obtain ⟨v, h1, rfl⟩ := h
    rw [if_pos (by simp), M.bind_of_ok (fetchOperand_ok.mpr h1), if_neg (by simp), M.pure_bind_apply,
      hdecode (List.prefix_append [b1] [0])]
    rfl
  | [b1, b2] =>
    rw [hb] at h hdecode
    obtain ⟨v, h1, w, h2, rfl⟩ := h
    have hpc : s.cpu.pc + 1 + 1 = s.cpu.pc + 2 := BitVec.add_assoc _ _ _
    rw [hpc] at h2
    rw [if_pos (by simp), M.bind_of_ok (fetchOperand_ok.mpr h1), if_pos (by simp), M.bind_of_ok h2,
      hdecode List.prefix_rfl]
    rfl
  | _ :: _ :: _ :: _ =>
    rw [hb] at hlen
    simp at hlen

/-! ### The CPU's step and the round -/

theorem execInstruction_of_fetch_ok {s t : State} {i : Instr} (h : fetch s = .ok (i, t)) :
    execInstruction s = exec i t := by
  rw [execInstruction, h]

theorem execInstruction_of_fetch_error {s : State} {f : Fault} (h : fetch s = .error f) :
    execInstruction s = .fault f := by
  rw [execInstruction, h]

/-- With no fault, no idle cycle and no interrupt to take, the CPU's step is an instruction. -/
theorem cpuStep_of_ready {s : State} (h : Claims.Ready s) : cpuStep s = execInstruction s := by
  obtain ⟨hrunning, hidle, hnmi, hirq⟩ := h
  have hmasked : (s.cpu.irqPending && !s.cpu.p.i) = false := by
    cases hp : s.cpu.irqPending with
    | false => rfl
    | true => rw [hirq hp]; rfl
  simp [cpuStep, hrunning, hidle, hnmi, hmasked]

/-- The beginning of a round changes nothing that the CPU's step looks at first. -/
theorem ready_beginRound {s : State} (h : Claims.Ready s) : Claims.Ready s.beginRound :=
  ⟨h.running, h.idle, h.nmi, h.irq⟩

theorem consoleRound_of_running {s : State} (hf : s.fault = none) (hr : s.runEnded = false) :
    consoleRound s = Claims.roundAfter s (cpuStep s.beginRound) := by
  rw [consoleRound, hf, hr]
  cases cpuStep s.beginRound <;> rfl

/-- Settles O4: the 105 bytes are those without a size, and the fetch of one raises on the machine its read leaves. -/
theorem illegalOpcodesStop : Obligations.IllegalOpcodesStop := by
  refine ⟨rfl, fun op => mem_illegalBytes.trans opcodeSize_eq_none, fun s t op hready hop hread => ?_⟩
  have hrunning : t.fault = none := (memRead_fault hread).trans hready.running
  have hfetch := (fetch_of_illegal hread (mem_illegalBytes.mp hop)).trans (raise_of_running _ hrunning)
  rw [cpuStep_of_ready hready, execInstruction_of_fetch_error hfetch]

/-- Settles O29: the fetch gives the instruction the bytes encode, and the round follows its CPU step. -/
theorem stepRunsTheDecodedInstruction : Obligations.StepRunsTheDecodedInstruction := by
  intro s t i hrun hready hbytes
  have hfetch : fetch s.beginRound = .ok (i, t) := fetch_of_readsBytes hbytes
  rw [step, consoleRound_of_running hready.running hrun, cpuStep_of_ready (ready_beginRound hready),
    execInstruction_of_fetch_ok hfetch]

end Sys2Proof.Machine

/-! Loads, stores and transfers (40_load_store_transfer.md R140 to R151, 43_incdec_shift.md R192 to R195): what a handler
does to its operand and the CPU gives the statement about every mode of its mnemonic. -/

namespace Sys2Proof.Machine

/-! ### From a handler to the statement about its instructions -/

/-- A mnemonic whose handler reads its operand and then changes the CPU alone. -/
theorem reading_of_handler {mn : Mnemonic} {effect : Byte → M Unit} {f : Cpu → Byte → Cpu} (hmn : mn ∈ readMnemonics)
    (hhandler : ∀ target, handlerOf mn target = target.read >>= effect)
    (heffect : ∀ m s, (effect m).outcome s = .next (s.withCpu (f s.cpu m))) : Claims.Reading mn f := by
  rintro i s rfl
  exact ⟨fun m _ t h => (exec_read hmn hhandler h).trans (heffect m _), fun _ h => exec_read_fault hhandler h⟩

/-- An implied instruction whose handler changes the CPU alone. -/
theorem cpuOnly_of_handler {i : Instr} {opcode : Byte} {f : Cpu → Cpu} (hencode : encode i = [opcode])
    (ho : i.row.operand = .implied)
    (hhandler : ∀ s, (handlerOf i.row.mnemonic .none).outcome s = .next (s.withCpu (f s.cpu))) :
    Claims.CpuOnly i opcode i.row.base f :=
  ⟨hencode, fun _ => (exec_implied ho).trans (hhandler _)⟩

/-! ### Loads, transfers and register increments -/

/-- Settles O5: each handler reads its operand, stores it in the register and sets Z and N. -/
theorem loadsTakeTheOperand : Obligations.LoadsTakeTheOperand := by
  simp only [Obligations.LoadsTakeTheOperand, ← Flags.setZN_eq]
  exact ⟨reading_of_handler (by decide) (fun _ => rfl) fun _ _ => rfl,
    reading_of_handler (by decide) (fun _ => rfl) fun _ _ => rfl,
    reading_of_handler (by decide) (fun _ => rfl) fun _ _ => rfl⟩

/-- Settles O16: the ten handlers read and write the CPU alone. -/
theorem registerInstructions : Obligations.RegisterInstructions := by
  simp only [Obligations.RegisterInstructions, ← Flags.setZN_eq]
  refine ⟨?_, ?_, ?_, ?_, ?_, ?_, ?_, ?_, ?_, ?_⟩
  all_goals exact cpuOnly_of_handler rfl rfl fun _ => rfl

/-! ### Stores -/

/-- A store is one bus write of its register, made after PC and `cycles` have advanced. -/
theorem exec_store {i : Instr} {s : State} {ea : Word} {crossed : Bool} (hmn : i.row.mnemonic ∈ [.sta, .stx, .sty])
    (h : s.effective i.row.operand = some (ea, crossed)) :
    exec i s = (memWrite ea (Claims.stored i s.cpu)).outcome
      (s.advanced i.row.operand.size (storeCycles i.row.operand)) := by
  rw [exec_memory h, cycles_of_store hmn, Claims.stored]
  simp only [List.mem_cons, List.not_mem_nil, or_false] at hmn
  rcases hmn with hmn | hmn | hmn <;> rw [hmn] <;> rfl

theorem storing_of_stored {mn : Mnemonic} {reg : Cpu → Byte} (hmn : mn ∈ [.sta, .stx, .sty])
    (hreg : ∀ i c, i.row.mnemonic = mn → Claims.stored i c = reg c) : Claims.Storing mn reg := by
  intro i s ea crossed hi hea
  have hexec := exec_store (hi ▸ hmn) hea
  rw [hreg i s.cpu hi] at hexec
  exact ⟨fun _ h => hexec.trans (M.outcome_of_ok h), fun _ h => hexec.trans (M.outcome_of_error h)⟩

/-- Settles O11: the register a mnemonic stores is the one its statement names. -/
theorem storesWriteTheRegister : Obligations.StoresWriteTheRegister :=
  ⟨storing_of_stored (by decide) fun _ _ h => by rw [Claims.stored, h],
    storing_of_stored (by decide) fun _ _ h => by rw [Claims.stored, h],
    storing_of_stored (by decide) fun _ _ h => by rw [Claims.stored, h]⟩

/-! ### The storage behind a byte written -/

theorem peek_ram {a : Word} (h : a.toNat < 0x2000) (s : State) : peek s a = some (s.ram.read (ramIndex a)) := by
  rw [peek, if_pos h]

theorem peek_prgRam {a : Word} (h1 : 0x6000 ≤ a.toNat) (h2 : a.toNat < 0x8000) (s : State) :
    peek s a = some (s.prgRam.read (a.toNat - 0x6000)) := by
  rw [peek, if_neg (by omega), if_neg (by omega), if_pos h2]

/-- A byte of work RAM shows at its aliases alone (20_memory.md R63). -/
theorem peek_writeRam_other {k : Nat} {b : Word} (v : Byte) (s : State) (h : ¬(b.toNat < 0x2000 ∧ ramIndex b = k)) :
    peek (s.writeRam k v) b = peek s b := by
  by_cases hb : b.toNat < 0x2000
  · rw [peek_ram hb, peek_ram hb, State.writeRam_ram, Memory.read_write_other v (fun e => h ⟨hb, e⟩)]
  · unfold peek
    rw [if_neg hb, if_neg hb]
    rfl

/-- A byte of cartridge RAM shows at its own address alone (62_mappers.md R383). -/
theorem peek_writePrgRam_other {a b : Word} (v : Byte) (s : State) (ha : 0x6000 ≤ a.toNat) (h : b ≠ a) :
    peek (s.writePrgRam (a.toNat - 0x6000) v) b = peek s b := by
  by_cases hb : 0x6000 ≤ b.toNat ∧ b.toNat < 0x8000
  · obtain ⟨hlo, hhi⟩ := hb
    have hk : b.toNat - 0x6000 ≠ a.toNat - 0x6000 := fun e => h (BitVec.eq_of_toNat_eq (by omega))
    rw [peek_prgRam hlo hhi, peek_prgRam hlo hhi, State.writePrgRam_prgRam, Memory.read_write_other v hk]
  · unfold peek
    split
    · rfl
    · split
      · rfl
      · rw [if_neg (by omega), if_neg (by omega)]
        rfl

/-- A bus write to work RAM or cartridge RAM changes that byte and nothing else. -/
theorem memWrite_memory {a : Word} {s : State} (v : Byte)
    (ha : a.toNat < 0x2000 ∨ (0x6000 ≤ a.toNat ∧ a.toNat < 0x8000)) (hram : s.ram.wf = true)
    (hprg : s.prgRam.wf = true) :
    ∃ t, memWrite a v s = .ok ((), t) ∧ t = { s with ram := t.ram, prgRam := t.prgRam } ∧ peek t a = some v ∧
      ∀ b : Word, b ≠ a → ¬(a.toNat < 0x2000 ∧ b.toNat < 0x2000 ∧ b.toNat % 0x800 = a.toNat % 0x800) →
        peek t b = peek s b := by
  rcases ha with ha | ⟨hlo, hhi⟩
  · refine ⟨_, memWrite_ram ha v s, rfl, ?_, fun b _ halias => ?_⟩
    · rw [peek_ram ha, State.writeRam_ram, Memory.read_write_same _ v hram]
    · exact peek_writeRam_other v s fun ⟨hb, hk⟩ => halias ⟨ha, hb, hk⟩
  · refine ⟨_, memWrite_prgRam hlo hhi v s, rfl, ?_, fun b hb _ => ?_⟩
    · rw [peek_prgRam hlo hhi, State.writePrgRam_prgRam, Memory.read_write_same _ v hprg]
    · exact peek_writePrgRam_other v s hlo hb

/-- Settles O12: the one bus write of a store lands in memory, and storage does not depend on the CPU. -/
theorem storesToMemoryComplete : Obligations.StoresToMemoryComplete := by
  intro i s ea crossed hmn hs hea hmem
  obtain ⟨t, hwrite, ht, hsame, hother⟩ :=
    memWrite_memory (s := s.advanced i.row.operand.size (storeCycles i.row.operand)) (Claims.stored i s.cpu) hmem
      (Memory.wf_of_wfIn hs.ram) (Memory.wf_of_wfIn hs.prgRam)
  exact ⟨t, (exec_store hmn hea).trans (M.outcome_of_ok hwrite), ht, hsame, hother⟩

end Sys2Proof.Machine

/-! The stack instructions (41_stack.md R165 to R168): PHA and PLA in full, and the status byte in the words of the
statements. -/

namespace Sys2Proof.Machine

/-- The two readings of a pulled status name the same bits (10_state.md R24). -/
theorem unpack_eq_unpacked (v : Byte) : Flags.unpack v = Claims.unpacked v := rfl

theorem exec_pha (s : State) : exec .pha s = .next
    { s with
      ram := s.ram.write (Claims.stackIndex s.cpu.s) s.cpu.a
      cpu := { s.cpu.past 1 3 with s := s.cpu.s - 1 } } := by
  rw [exec_implied rfl]
  exact M.outcome_of_ok (push_apply _ _)

theorem exec_pla (s : State) : exec .pla s = .next
    { s with cpu := { s.cpu.past 1 4 with
        s := s.cpu.s + 1
        a := s.ram.read (Claims.stackIndex (s.cpu.s + 1))
        p := s.cpu.p.zn (s.ram.read (Claims.stackIndex (s.cpu.s + 1))) } } := by
  rw [exec_implied rfl, ← Flags.setZN_eq]
  exact M.outcome_bind_of_ok (pull_apply _)

/-- Settles O17: each handler is one push or one pull, and the status byte as a number is the status as bits. -/
theorem stackInstructions : Obligations.StackInstructions := by
  refine ⟨rfl, rfl, rfl, rfl, fun s => ⟨exec_pha s, ?_, exec_pla s, ?_⟩⟩
  · rw [packed_eq_pack]
    exact exec_php s
  · rw [← unpack_eq_unpacked]
    exact exec_plp s

end Sys2Proof.Machine

/-! Arithmetic, logic, compares and the bit test (42_arithmetic_logic.md R170 to R182): the sign bit, the sum of
`addCore` and the difference in integers, what the handlers leave in the CPU, then the statements. -/

namespace Sys2Proof.Machine

/-! ### The sign bit -/

theorem getLsbD_seven (v : Byte) : v.getLsbD 7 = decide (128 ≤ v.toNat) :=
  (BitVec.msb_eq_getLsbD_last v).symm.trans (BitVec.msb_eq_decide v)

/-- The spec's test for two bytes of one sign, `(a ^ b) & 0x80 == 0`. -/
theorem xor_and_signBit_eq_zero {a b : Byte} : (a ^^^ b) &&& 0x80 = 0 ↔ a.getLsbD 7 = b.getLsbD 7 := by
  have hand : (a ^^^ b) &&& 0x80 = if (a ^^^ b).getLsbD 7 then 0x80 else 0 := BitVec.and_twoPow _ 7
  rw [hand, BitVec.getLsbD_xor]
  cases a.getLsbD 7 <;> cases b.getLsbD 7 <;> decide

/-! ### The sum -/

section Sum

variable {a b : Byte} {c : Bool}

theorem addCore_result_toNat : (addCore a b c).result.toNat = (a.toNat + b.toNat + c.toNat) % 256 :=
  BitVec.toNat_ofNat _ _

theorem addCore_carry : (addCore a b c).carry = decide (255 < a.toNat + b.toNat + c.toNat) := rfl

/-- Operands of one sign and a result of the other. -/
theorem addCore_overflow : (addCore a b c).overflow =
    decide (a.getLsbD 7 = b.getLsbD 7 ∧ a.getLsbD 7 ≠ (addCore a b c).result.getLsbD 7) := by
  rw [Bool.decide_and, decide_not]
  rfl

theorem addCore_overflow_eq_false : (addCore a b c).overflow = false ↔
    ((128 ≤ a.toNat ↔ 128 ≤ b.toNat) → (128 ≤ a.toNat ↔ 128 ≤ (addCore a b c).result.toNat)) := by
  rw [addCore_overflow, decide_eq_false_iff_not, not_and, ne_eq, not_not, getLsbD_seven, getLsbD_seven, getLsbD_seven,
    decide_eq_decide, decide_eq_decide]

/-- The carry is the ninth bit of the sum (R180). -/
theorem addCore_unsigned :
    (addCore a b c).result.toNat + 256 * (addCore a b c).carry.toNat = a.toNat + b.toNat + c.toNat := by
  have ha := a.isLt
  have hb := b.isLt
  have hc := c.toNat_le
  rw [addCore_result_toNat, addCore_carry]
  by_cases h : 255 < a.toNat + b.toNat + c.toNat
  · rw [decide_eq_true h, Bool.toNat_true]
    omega
  · rw [decide_eq_false h, Bool.toNat_false]
    omega

/-- Operands of two signs have a sum in range; the sum of operands of one sign is in range when it keeps the sign. -/
theorem addCore_signed :
    (addCore a b c).overflow = false ↔ (addCore a b c).result.toInt = a.toInt + b.toInt + c.toNat := by
  have ha := a.isLt
  have hb := b.isLt
  have hc := c.toNat_le
  rw [addCore_overflow_eq_false, BitVec.toInt_eq_toNat_cond, BitVec.toInt_eq_toNat_cond, BitVec.toInt_eq_toNat_cond,
    addCore_result_toNat]
  by_cases hsame : 128 ≤ a.toNat ↔ 128 ≤ b.toNat
  · omega
  · omega

end Sum

/-- Settles O7: the carry is the ninth bit, and no overflow is a result in range. -/
theorem sumIsUnsignedAndSigned : Obligations.SumIsUnsignedAndSigned :=
  fun _ _ _ => ⟨addCore_unsigned, addCore_signed⟩

/-! ### The difference -/

section Difference

variable {a m : Byte} {c : Bool}

theorem complement_toNat (m : Byte) : (m ^^^ 0xFF).toNat = 255 - m.toNat := by
  have hnot : m ^^^ 0xFF = ~~~m := BitVec.xor_allOnes
  rw [hnot, BitVec.toNat_not]

theorem complement_getLsbD_seven (m : Byte) : (m ^^^ 0xFF).getLsbD 7 = !m.getLsbD 7 := by
  rw [BitVec.getLsbD_xor]
  exact Bool.xor_true _

/-- Adding the complement subtracts: modulo 256 the two formulations of R171 are one number. -/
theorem addCore_complement_result :
    (addCore a (m ^^^ 0xFF) c).result = BitVec.ofInt 8 (a.toNat - m.toNat - (1 - c.toNat)) := by
  have hm := m.isLt
  apply BitVec.eq_of_toNat_eq
  rw [addCore_result_toNat, complement_toNat, BitVec.toNat_ofInt]
  omega

/-- The carry of the sum says that nothing was borrowed. -/
theorem addCore_complement_carry :
    (addCore a (m ^^^ 0xFF) c).carry = decide ((0 : Int) ≤ a.toNat - m.toNat - (1 - c.toNat)) := by
  have hm := m.isLt
  rw [addCore_carry, complement_toNat, decide_eq_decide]
  omega

theorem addCore_complement_overflow : (addCore a (m ^^^ 0xFF) c).overflow =
    decide (a.getLsbD 7 ≠ m.getLsbD 7 ∧ a.getLsbD 7 ≠ (addCore a (m ^^^ 0xFF) c).result.getLsbD 7) := by
  rw [addCore_overflow, complement_getLsbD_seven, decide_eq_decide, Bool.eq_not]

end Difference

/-- Modulo 256 the integer difference is the words' own (R182). -/
theorem ofInt_toNat_sub_toNat (r m : Byte) : BitVec.ofInt 8 (r.toNat - m.toNat) = r - m := by
  have hm := m.isLt
  apply BitVec.eq_of_toNat_eq
  rw [BitVec.toNat_ofInt, BitVec.toNat_sub]
  omega

/-! ### What the handlers leave in the CPU -/

/-- The CPU with a sum in A and in its flags (R170, R171). -/
def Cpu.afterSum (c : Cpu) (r : Sum) : Cpu := { c with a := r.result, p := c.p.ofSum r }

theorem addToA_outcome (m : Byte) (s : State) :
    (addToA m).outcome s = .next (s.withCpu (s.cpu.afterSum (addCore s.cpu.a m s.cpu.p.c))) := rfl

theorem Cpu.afterSum_addCore (c : Cpu) (m : Byte) : c.afterSum (addCore c.a m c.p.c) = Claims.adc c m := by
  simp only [afterSum, Flags.ofSum, Flags.setZN_eq, addCore_overflow, ne_eq, ← xor_and_signBit_eq_zero]
  rfl

theorem Cpu.afterSum_addCore_complement (c : Cpu) (m : Byte) :
    c.afterSum (addCore c.a (m ^^^ 0xFF) c.p.c) = Claims.sbc c m := by
  simp only [afterSum, Flags.ofSum, Flags.setZN_eq, addCore_complement_overflow, addCore_complement_carry,
    addCore_complement_result, ne_eq, ← xor_and_signBit_eq_zero]
  rfl

theorem comparison_eq (c : Cpu) (r m : Byte) : Claims.comparison c r m = { c with p := c.p.compare r m } := by
  rw [Claims.comparison, ofInt_toNat_sub_toNat, ← Flags.setZN_eq, Flags.compare]

/-! ### The statements -/

/-- Settles O6: ADC adds its operand and SBC its operand's complement, which is the difference. -/
theorem addAndSubtractWithCarry : Obligations.AddAndSubtractWithCarry := by
  refine ⟨reading_of_handler (by decide) (fun _ => rfl) fun m s => ?_,
    reading_of_handler (effect := fun m => addToA (m ^^^ 0xFF)) (by decide) (fun _ => rfl) fun m s => ?_⟩
  · rw [addToA_outcome, Cpu.afterSum_addCore]
  · rw [addToA_outcome, Cpu.afterSum_addCore_complement]

/-- Settles O8: each handler reads its operand, combines it with A and sets Z and N. -/
theorem logicCombinesWithA : Obligations.LogicCombinesWithA := by
  simp only [Obligations.LogicCombinesWithA, ← Flags.setZN_eq]
  refine ⟨?_, ?_, ?_⟩
  all_goals exact reading_of_handler (by decide) (fun _ => rfl) fun _ _ => rfl

/-- Settles O9: each handler reads its operand and replaces the flags alone. -/
theorem comparesSetFlagsOnly : Obligations.ComparesSetFlagsOnly := by
  simp only [Obligations.ComparesSetFlagsOnly, comparison_eq]
  refine ⟨?_, ?_, ?_⟩
  all_goals exact reading_of_handler (by decide) (fun _ => rfl) fun _ _ => rfl

/-- Settles O10: the handler reads its operand and replaces the flags alone. -/
theorem bitTestsMemory : Obligations.BitTestsMemory :=
  reading_of_handler (by decide) (fun _ => rfl) fun _ _ => rfl

end Sys2Proof.Machine

/-! Increment, decrement and shift (43_incdec_shift.md R190, R191, R196 to R200): a bus write with other flags in the
machine, what a handler makes of a byte of memory and of A, the shifts as arithmetic on the byte, then the statements. -/

namespace Sys2Proof.Machine

/-! ### A bus write with other flags in the machine -/

theorem State.setP_eq_withCpu (s : State) (p : Flags) : s.setP p = s.withCpu { s.cpu with p := p } := rfl

theorem memWrite_setP {a : Word} {v : Byte} {s t : State} (p : Flags) (h : memWrite a v s = .ok ((), t)) :
    memWrite a v (s.setP p) = .ok ((), t.setP p) := by
  rw [State.setP_eq_withCpu, memWrite_withCpu, h, State.setP_eq_withCpu, memWrite_cpu h]

theorem memWrite_setP_error {a : Word} {v : Byte} {s t : State} {c : FatalCondition} (p : Flags)
    (h : memWrite a v s = .error (.raised c t)) : ∃ u, memWrite a v (s.setP p) = .error (.raised c u) := by
  rw [State.setP_eq_withCpu, memWrite_withCpu, h]
  exact ⟨_, rfl⟩

/-! ### What a handler makes of its operand -/

/-- INC and DEC as a modification: the new value, Z and N from it. -/
def stepping (g : Byte → Byte) : Claims.Modification := fun p m => (g m, p.setZN (g m))

/-- A shift as a modification: the old carry enters, the bit shifted out becomes the carry, Z and N from the result. -/
def shifting (g : Byte → Bool → Shifted) : Claims.Modification := fun p m =>
  ((g m p.c).result, { p with c := (g m p.c).out }.setZN (g m p.c).result)

/-- A handler that reads a byte of memory once and writes the modified byte once, with the flags changed on the way; a
fault of either access is its own (R200). -/
structure ModifiesMemory (handler : Target → M Unit) (f : Claims.Modification) : Prop where
  readFaults {ea s c t} : memRead ea s = .error (.raised c t) → handler (.memory ea) s = .error (.raised c t)
  completes {ea s m t u} : memRead ea s = .ok (m, t) → memWrite ea (f s.cpu.p m).1 t = .ok ((), u) →
    handler (.memory ea) s = .ok ((), u.setP (f s.cpu.p m).2)
  writeFaults {ea s m t c u} : memRead ea s = .ok (m, t) → memWrite ea (f s.cpu.p m).1 t = .error (.raised c u) →
    ∃ v, handler (.memory ea) s = .error (.raised c v)

/-- The flags come after the write, from the flags it leaves, which are those before the read. -/
theorem stepMemory_modifiesMemory (g : Byte → Byte) : ModifiesMemory (stepMemory g) (stepping g) where
  readFaults hread := M.bind_of_error hread
  completes {ea s m t u} hread hwrite := by
    have hp : u.cpu.p = s.cpu.p := by rw [memWrite_cpu hwrite, memRead_cpu hread]
    refine (M.bind_of_ok hread).trans ((M.bind_of_ok hwrite).trans ?_)
    rw [stepping, ← hp]
    rfl
  writeFaults hread hwrite := ⟨_, (M.bind_of_ok hread).trans (M.bind_of_error hwrite)⟩

/-- After its read a shift sets the carry, then writes, then sets Z and N. -/
theorem shiftOperand_of_read {g : Byte → Bool → Shifted} {target : Target} {s t : State} {m : Byte}
    (h : target.read s = .ok (m, t)) :
    shiftOperand g target s =
      (target.write (g m t.cpu.p.c).result >>= fun _ => updateFlags (·.setZN (g m t.cpu.p.c).result))
        (t.setP { t.cpu.p with c := (g m t.cpu.p.c).out }) :=
  M.bind_of_ok h

/-- The carry is set before the write, which does not look at it. -/
theorem shiftOperand_modifiesMemory (g : Byte → Bool → Shifted) :
    ModifiesMemory (shiftOperand g) (shifting g) where
  readFaults hread := M.bind_of_error hread
  completes {ea s m t u} hread hwrite := by
    rw [← memRead_cpu hread] at hwrite ⊢
    exact (shiftOperand_of_read (target := .memory ea) hread).trans (M.bind_of_ok (memWrite_setP _ hwrite))
  writeFaults {ea s m t c u} hread hwrite := by
    rw [← memRead_cpu hread] at hwrite
    obtain ⟨v, hwrite'⟩ := memWrite_setP_error { t.cpu.p with c := (g m t.cpu.p.c).out } hwrite
    exact ⟨v, (shiftOperand_of_read (target := .memory ea) hread).trans (M.bind_of_error hwrite')⟩

/-- On the accumulator a shift changes A and the flags. -/
theorem shiftOperand_accumulator (g : Byte → Bool → Shifted) (s : State) :
    (shiftOperand g .accumulator).outcome s =
      .next (s.withCpu { s.cpu with a := (shifting g s.cpu.p s.cpu.a).1, p := (shifting g s.cpu.p s.cpu.a).2 }) := rfl

/-! ### The shifts as arithmetic -/

theorem getLsbD_zero_eq_decide (m : Byte) : m.getLsbD 0 = decide (m.toNat % 2 = 1) := Nat.testBit_zero m.toNat

theorem shiftLeft_one (m : Byte) : m <<< 1 = BitVec.ofNat 8 (2 * m.toNat) := by
  apply BitVec.eq_of_toNat_eq
  rw [BitVec.toNat_shiftLeft, BitVec.toNat_ofNat, Nat.shiftLeft_eq, Nat.mul_comm]

theorem shiftRight_one (m : Byte) : m >>> 1 = BitVec.ofNat 8 (m.toNat / 2) := by
  have hm := m.isLt
  apply BitVec.eq_of_toNat_eq
  rw [BitVec.toNat_ushiftRight, BitVec.toNat_ofNat, Nat.shiftRight_one]
  omega

/-- The bit that enters at the right is added, since the shift left a zero there. -/
theorem rotateLeft_result (m : Byte) (c : Bool) :
    (rotateLeft m c).result = BitVec.ofNat 8 (2 * m.toNat + c.toNat) := by
  cases c with
  | false => exact BitVec.or_zero.trans (shiftLeft_one m)
  | true =>
    have hor : 2 ^ 1 * (m.toNat % 128) + 1 = 2 ^ 1 * (m.toNat % 128) ||| 1 :=
      Nat.two_pow_add_eq_or_of_lt (by decide) _
    have hshift : (m <<< 1).toNat = 2 ^ 1 * (m.toNat % 128) := by
      rw [shiftLeft_one, BitVec.toNat_ofNat]
      omega
    apply BitVec.eq_of_toNat_eq
    show (m <<< 1 ||| 1#8).toNat = _
    rw [BitVec.toNat_or, hshift, BitVec.toNat_ofNat, BitVec.toNat_ofNat, Bool.toNat_true]
    refine hor.symm.trans ?_
    omega

/-- The bit that enters at the left is added, since the shift left a zero there. -/
theorem rotateRight_result (m : Byte) (c : Bool) :
    (rotateRight m c).result = BitVec.ofNat 8 (m.toNat / 2 + 128 * c.toNat) := by
  cases c with
  | false => exact BitVec.or_zero.trans (shiftRight_one m)
  | true =>
    have hm := m.isLt
    have hor : 2 ^ 7 * 1 + m.toNat / 2 = 2 ^ 7 * 1 ||| m.toNat / 2 := Nat.two_pow_add_eq_or_of_lt (by omega) _
    apply BitVec.eq_of_toNat_eq
    show (m >>> 1 ||| 0x80#8).toNat = _
    rw [BitVec.toNat_or, BitVec.toNat_ushiftRight, Nat.shiftRight_one, BitVec.toNat_ofNat, BitVec.toNat_ofNat,
      Bool.toNat_true, Nat.or_comm]
    refine hor.symm.trans ?_
    omega

/-! ### The handlers' modifications are those of the statements -/

theorem stepping_inc : stepping (· + 1) = Claims.inc := by
  funext p m
  rw [stepping, Flags.setZN_eq, Claims.inc]

theorem stepping_dec : stepping (· - 1) = Claims.dec := by
  funext p m
  rw [stepping, Flags.setZN_eq, Claims.dec]

theorem shifting_asl : shifting shiftLeft = Claims.asl := by
  funext p m
  rw [shifting, Flags.setZN_eq, shiftLeft, shiftLeft_one, getLsbD_seven, Claims.asl]

theorem shifting_lsr : shifting shiftRight = Claims.lsr := by
  funext p m
  rw [shifting, Flags.setZN_eq, shiftRight, shiftRight_one, getLsbD_zero_eq_decide, Claims.lsr]

theorem shifting_rol : shifting rotateLeft = Claims.rol := by
  funext p m
  rw [shifting, Flags.setZN_eq, rotateLeft_result, rotateLeft, getLsbD_seven, Claims.rol]

theorem shifting_ror : shifting rotateRight = Claims.ror := by
  funext p m
  rw [shifting, Flags.setZN_eq, rotateRight_result, rotateRight, getLsbD_zero_eq_decide, Claims.ror]

/-! ### The statements -/

/-- The mnemonics that modify memory. -/
def modifyMnemonics : List Mnemonic := [.inc, .dec, .asl, .lsr, .rol, .ror]

/-- Row and handler of a memory form: PC and `cycles` advance, then the handler runs on the effective address. -/
theorem exec_modify {i : Instr} {s : State} {ea : Word} {crossed : Bool} (hmn : i.row.mnemonic ∈ modifyMnemonics)
    (h : s.effective i.row.operand = some (ea, crossed)) :
    exec i s = (handlerOf i.row.mnemonic (.memory ea)).outcome
      (s.advanced i.row.operand.size (modifyCycles i.row.operand)) := by
  have hoperand : i.row.operand ≠ .accumulator := fun e => by
    rw [e] at h
    cases h
  rw [exec_memory h, cycles_of_modify hmn hoperand]

theorem modifying_of_handler {mn : Mnemonic} {f : Claims.Modification} (hmn : mn ∈ modifyMnemonics)
    (hf : ModifiesMemory (handlerOf mn) f) : Claims.Modifying mn f := by
  rintro i s ea crossed rfl hea
  rw [exec_modify hmn hea]
  refine ⟨fun e u hread => ?_, fun m t hread => ⟨fun u hwrite => ?_, fun e u hwrite => ?_⟩⟩
  · exact ⟨_, M.outcome_of_error (hf.readFaults (memRead_advanced_error _ _ hread))⟩
  · exact M.outcome_of_ok (hf.completes (memRead_advanced _ _ hread) hwrite)
  · obtain ⟨v, hv⟩ := hf.writeFaults (memRead_advanced _ _ hread) hwrite
    exact ⟨v, M.outcome_of_error hv⟩

/-- Settles O13: the handlers of INC and DEC step a byte of memory, those of the shifts shift it. -/
theorem modifiesReadThenWrite : Obligations.ModifiesReadThenWrite := by
  rw [Obligations.ModifiesReadThenWrite, ← stepping_inc, ← stepping_dec, ← shifting_asl, ← shifting_lsr,
    ← shifting_rol, ← shifting_ror]
  exact ⟨modifying_of_handler (by decide) (stepMemory_modifiesMemory _),
    modifying_of_handler (by decide) (stepMemory_modifiesMemory _),
    modifying_of_handler (by decide) (shiftOperand_modifiesMemory _),
    modifying_of_handler (by decide) (shiftOperand_modifiesMemory _),
    modifying_of_handler (by decide) (shiftOperand_modifiesMemory _),
    modifying_of_handler (by decide) (shiftOperand_modifiesMemory _)⟩

theorem modifyingA_of_handler {i : Instr} {g : Byte → Bool → Shifted} (ho : i.row.operand = .accumulator)
    (hbase : i.row.base = 2) (hhandler : handlerOf i.row.mnemonic = shiftOperand g) :
    Claims.ModifyingA i (shifting g) := by
  intro s
  rw [exec_accumulator ho, hhandler, hbase]
  exact shiftOperand_accumulator g _

/-- Settles O14: the accumulator forms run the same four handlers. -/
theorem shiftsOfTheAccumulator : Obligations.ShiftsOfTheAccumulator := by
  rw [Obligations.ShiftsOfTheAccumulator, ← shifting_asl, ← shifting_lsr, ← shifting_rol, ← shifting_ror]
  exact ⟨modifyingA_of_handler rfl rfl rfl, modifyingA_of_handler rfl rfl rfl, modifyingA_of_handler rfl rfl rfl,
    modifyingA_of_handler rfl rfl rfl⟩

/-- The modification of an instruction is that of its mnemonic. -/
theorem modifying_modification {i : Instr} (hmn : i.row.mnemonic ∈ modifyMnemonics) :
    Claims.Modifying i.row.mnemonic (Claims.modification i) := by
  obtain ⟨hinc, hdec, hasl, hlsr, hrol, hror⟩ := modifiesReadThenWrite
  simp only [modifyMnemonics, List.mem_cons, List.not_mem_nil, or_false] at hmn
  rcases hmn with h | h | h | h | h | h <;> rw [Claims.modification, h] <;> assumption

/-- Settles O15: in work RAM both accesses complete, and storage does not depend on the CPU. -/
theorem modifiesInWorkRamComplete : Obligations.ModifiesInWorkRamComplete := by
  intro i s ea crossed hmn hea hram
  obtain ⟨-, hmodify⟩ := modifying_modification hmn i s ea crossed rfl hea
  obtain ⟨hnext, -⟩ := hmodify _ s (memRead_ram hram s)
  exact ⟨_, hnext _ (memWrite_ram hram _ _), rfl, fun b halias => peek_writeRam_other _ s halias⟩

end Sys2Proof.Machine

/-! Jumps, subroutines, returns, the software interrupt and branches (44_control_flow.md R210 to R223): addresses as
integers, the pointer of JMP's indirect mode, BRK's frame and vector, a branch's target and cycles. -/

namespace Sys2Proof.Machine

/-! ### Addresses as integers -/

theorem wordOf_eq_ofNat (hi lo : Byte) : wordOf hi lo = BitVec.ofNat 16 (256 * hi.toNat + lo.toNat) := by
  apply BitVec.eq_of_toNat_eq
  rw [wordOf_toNat, BitVec.toNat_ofNat]
  omega

/-- Where the high byte of a pointer at w stands: the next address inside the page of w (20_memory.md R71). -/
theorem wordOf_hiByte_loByte_add_one (w : Word) :
    wordOf (hiByte w) (loByte w + 1) = BitVec.ofNat 16 (w.toNat / 256 * 256 + (w.toNat + 1) % 256) := by
  have hlo : (loByte w + 1).toNat = (w.toNat + 1) % 256 := by
    rw [BitVec.toNat_add, loByte_toNat]
    exact Nat.mod_add_mod _ _ _
  rw [wordOf_eq_ofNat, hiByte_toNat, hlo, Nat.mul_comm]

/-- `PagesDiffer` by division (00_scope.md R15). -/
theorem pagesDiffer_iff {a b : Word} : pagesDiffer a b = true ↔ a.toNat / 256 ≠ b.toNat / 256 := by
  rw [pagesDiffer, bne_iff_ne, ne_eq, BitVec.toNat_eq, hiByte_toNat, hiByte_toNat]

theorem following_toNat (w : Word) : (w + 2).toNat = (w.toNat + 2) % 65536 := BitVec.toNat_add ..

/-- The target of a branch at w (30_encoding.md R117), by integers modulo 65536. -/
theorem branchTarget_toNat (w : Word) (b : Byte) :
    (w + 2 + sext16 b).toNat = ((w.toNat + 2 + b.toInt) % 65536).toNat := by
  have hoffset : (sext16 b).toNat = (b.toInt % 65536).toNat := BitVec.toNat_ofInt ..
  rw [BitVec.toNat_add, hoffset, following_toNat]
  omega

/-! ### JMP -/

theorem read16Bug_ok {w : Word} {lo hi : Byte} {s t u : State} (hlo : memRead w s = .ok (lo, t))
    (hhi : memRead (wordOf (hiByte w) (loByte w + 1)) t = .ok (hi, u)) :
    read16Bug w s = .ok (wordOf hi lo, u) := by
  rw [read16Bug, M.bind_of_ok hlo, M.bind_of_ok hhi, M.pure_apply]

theorem read16Bug_low_fault {w : Word} {s : State} {f : Fault} (hlo : memRead w s = .error f) :
    read16Bug w s = .error f :=
  M.bind_of_error hlo

theorem read16Bug_high_fault {w : Word} {lo : Byte} {s t : State} {f : Fault} (hlo : memRead w s = .ok (lo, t))
    (hhi : memRead (wordOf (hiByte w) (loByte w + 1)) t = .error f) : read16Bug w s = .error f := by
  rw [read16Bug, M.bind_of_ok hlo, M.bind_of_error hhi]

/-- The indirect operand is the word its pointer reads (30_encoding.md R114). -/
theorem resolve_indirect (w pc0 : Word) (s : State) :
    resolve (.indirect w) pc0 s = (read16Bug w >>= fun ea => pure (.at ea)) s := rfl

theorem exec_jmpIndirect {w target : Word} {s t : State} (h : read16Bug w s = .ok (target, t)) :
    exec (.jmpIndirect w) s = .next
      { t with cpu := { t.cpu with pc := target, cycles := t.cpu.cycles + 5 } } := by
  have hresolve : resolve (.indirect w) s.cpu.pc s = .ok (.at target, t) := by
    rw [resolve_indirect, M.bind_of_ok h, M.pure_apply]
  rw [exec_eq, M.outcome, runRow_of_resolve hresolve]
  rfl

theorem exec_jmpIndirect_fault {w : Word} {s : State} {f : Fault} (h : read16Bug w s = .error f) :
    exec (.jmpIndirect w) s = .fault f := by
  have hresolve : resolve (.indirect w) s.cpu.pc s = .error f := by
    rw [resolve_indirect, M.bind_of_error h]
  rw [exec_eq, runRow, M.outcome_getS_bind]
  exact M.outcome_bind_of_error hresolve

/-- Settles O20: the operand is resolved by the two pointer reads, which leave the CPU alone, before PC moves. -/
theorem jumps : Obligations.Jumps := by
  refine ⟨fun w => ⟨rfl, rfl⟩, fun w s => exec_memory (i := .jmpAbsolute w) (crossed := false) rfl, fun w s => ?_⟩
  rw [← wordOf_hiByte_loByte_add_one]
  refine ⟨fun f hlo => ?_, fun lo t hlo => ⟨fun f hhi => ?_, fun hi u hhi => ?_⟩⟩
  · exact exec_jmpIndirect_fault (read16Bug_low_fault hlo)
  · exact exec_jmpIndirect_fault (read16Bug_high_fault hlo hhi)
  · rw [exec_jmpIndirect (read16Bug_ok hlo hhi), memRead_cpu hhi, memRead_cpu hlo, wordOf_eq_ofNat]

/-! ### Subroutines and returns -/

/-- Settles O21: JSR is one word pushed, RTS one word pulled. -/
theorem subroutineCallAndReturn : Obligations.SubroutineCallAndReturn :=
  ⟨rfl, fun w s => ⟨rfl, exec_jsr w s, exec_rts s⟩⟩

/-- Settles O23: RTI is a status and a word pulled (the bare name is the model's own operation). -/
theorem ControlFlow.returnFromInterrupt : Obligations.ReturnFromInterrupt :=
  ⟨rfl, fun s => exec_rti s⟩

/-! ### BRK -/

/-- The machine between BRK's pushes and its vector (R214). -/
def State.breaking (s : State) : State :=
  { s with
    ram := (Claims.pushWord s.ram s.cpu.s (s.cpu.pc + 2)).write (Claims.stackIndex (s.cpu.s - 2))
      (Claims.packed s.cpu.p true)
    cpu := { s.cpu.past 1 7 with s := s.cpu.s - 3, p := { s.cpu.p with i := true } } }

theorem exec_brk (s : State) : exec .brk s = (loadVector irqVector).outcome s.breaking := by
  have hret : (s.advanced 1 7).cpu.pc + 1 = s.cpu.pc + 2 := BitVec.add_assoc ..
  have hbreak : opBrk .none (s.advanced 1 7) = loadVector irqVector s.breaking := by
    rw [opBrk, M.getS_bind, takeBreak_eq, hret, State.breaking, packed_eq_pack]
    rfl
  rw [exec_implied rfl, M.outcome, M.outcome, ← hbreak]
  rfl

theorem peek_breaking (s : State) {a : Word} (ha : 0x8000 ≤ a.toNat) : peek s.breaking a = peek s a :=
  peek_program_congr ha rfl rfl rfl

/-- A vector with a byte missing is refused at the first missing one. -/
theorem loadVector_fault {vec : Word} {s : State} (h1 : 0x8000 ≤ vec.toNat) (h2 : 0x8000 ≤ (vec + 1).toNat)
    (h : peek s vec = none ∨ peek s (vec + 1) = none) :
    let c := FatalCondition.invalidAccess .cpu (if peek s vec = none then vec else vec + 1) .read
    loadVector vec s = .error (.raised c (s.recordFault c)) := by
  cases hlo : peek s vec with
  | none => exact loadVector_low_fault h1 hlo
  | some lo => exact loadVector_high_fault h2 hlo (h.resolve_left (by simp [hlo]))

/-- Settles O24: after the pushes, which reach no program byte, BRK is the load of PC from the IRQ vector. -/
theorem breakTakesTheIrqVector : Obligations.BreakTakesTheIrqVector := by
  refine ⟨rfl, fun s => ?_⟩
  have hloPeek : peek s.breaking irqVector = peek s 0xFFFE := peek_breaking s (by decide)
  have hhiPeek : peek s.breaking (irqVector + 1) = peek s 0xFFFF := peek_breaking s (by decide)
  rw [exec_brk, ← hloPeek, ← hhiPeek]
  refine ⟨fun lo hi hlo hhi => M.outcome_of_ok (loadVector_next hlo hhi), fun hmissing => ?_⟩
  refine ⟨_, M.outcome_of_error (loadVector_fault (by decide) (by decide) hmissing), rfl, rfl, fun hrunning => ?_⟩
  rw [State.recordFault_fault]
  exact congrArg some (congrArg (Option.getD · _) hrunning)

/-! ### Branches -/

/-- `Branch(cond, ea, pc0)` in full (R215). -/
theorem branch_outcome (cond : Flags → Bool) (target : Word) (s : State) :
    (branch cond (.memory target)).outcome s = .next
      (if cond s.cpu.p then
        s.withCpu { s.cpu with
          pc := target
          cycles := s.cpu.cycles + 1 + if s.cpu.pc.toNat / 256 = target.toNat / 256 then 0 else 1 }
      else s) := by
  have hpage : (if pagesDiffer s.cpu.pc target then 1 else 0) =
      if s.cpu.pc.toNat / 256 = target.toNat / 256 then 0 else 1 := by
    simp only [pagesDiffer_iff, ne_eq, ite_not]
  rw [branch, M.outcome_getS_bind, Nat.add_assoc, ← hpage]
  dsimp only
  split <;> rfl

/-- A row of the table with a relative operand and a branch as its handler. -/
theorem branching_of_handler {i : Byte → Instr} {opcode : Byte} {mn : Mnemonic} {cond : Flags → Bool}
    (hrow : ∀ b, (i b).row = ⟨opcode, mn, .relative b, 2, false⟩) (hhandler : handlerOf mn = branch cond) :
    Claims.Branching i opcode cond := by
  intro b s
  have hea : s.effective (i b).row.operand = some (s.cpu.pc + 2 + sext16 b, false) := by rw [hrow]; rfl
  have hexec : exec (i b) s = (branch cond (.memory (s.cpu.pc + 2 + sext16 b))).outcome (s.advanced 2 2) := by
    rw [exec_memory hea, hrow, ← hhandler]
    rfl
  refine ⟨by rw [encode, hrow]; rfl, ?_⟩
  rw [hexec, branch_outcome, ← branchTarget_toNat, ← following_toNat]
  simp only [BitVec.ofNat_toNat, BitVec.setWidth_eq]
  rfl

/-- Settles O25: each of the eight rows runs the one branch under its own condition. -/
theorem branches : Obligations.Branches :=
  ⟨branching_of_handler (fun _ => rfl) rfl, branching_of_handler (fun _ => rfl) rfl,
    branching_of_handler (fun _ => rfl) rfl, branching_of_handler (fun _ => rfl) rfl,
    branching_of_handler (fun _ => rfl) rfl, branching_of_handler (fun _ => rfl) rfl,
    branching_of_handler (fun _ => rfl) rfl, branching_of_handler (fun _ => rfl) rfl⟩

end Sys2Proof.Machine

/-! The flag instructions and NOP (45_flags_nop.md R240 to R247). -/

namespace Sys2Proof.Machine

/-- An implied instruction whose handler only replaces the flags: PC and `cycles` advance, nothing else changes. -/
theorem cpuOnly_of_updateFlags {i : Instr} {opcode : Byte} {f : Flags → Flags} (hencode : encode i = [opcode])
    (ho : i.row.operand = .implied) (hhandler : handlerOf i.row.mnemonic .none = updateFlags f) :
    Claims.CpuOnly i opcode i.row.base fun c => { c with p := f c.p } :=
  cpuOnly_of_handler hencode ho fun _ => by rw [hhandler]; rfl

/-- NOP (R247): the handler does nothing, so only PC and `cycles` advance. -/
theorem nop_cpuOnly : Claims.CpuOnly .nop 0xEA 2 fun c => c :=
  cpuOnly_of_handler rfl rfl fun _ => rfl

/-- Settles O19: the seven flag handlers replace the flags alone, and NOP's does nothing. -/
theorem flagInstructionsAndNop : Obligations.FlagInstructionsAndNop := by
  refine ⟨?clc, ?sec, ?cli, ?sei, ?clv, ?cld, ?sed, nop_cpuOnly⟩
  case clc => exact cpuOnly_of_updateFlags (f := fun p => { p with c := false }) rfl rfl rfl
  case sec => exact cpuOnly_of_updateFlags (f := fun p => { p with c := true }) rfl rfl rfl
  case cli => exact cpuOnly_of_updateFlags (f := fun p => { p with i := false }) rfl rfl rfl
  case sei => exact cpuOnly_of_updateFlags (f := fun p => { p with i := true }) rfl rfl rfl
  case clv => exact cpuOnly_of_updateFlags (f := fun p => { p with v := false }) rfl rfl rfl
  case cld => exact cpuOnly_of_updateFlags (f := fun p => { p with d := false }) rfl rfl rfl
  case sed => exact cpuOnly_of_updateFlags (f := fun p => { p with d := true }) rfl rfl rfl

end Sys2Proof.Machine

/-! The CPU's step around its instructions: the recorded fault, the idle cycle, the two interrupt entries, the end of a
run (60_exceptions.md R254, R262 to R267, 63_bus_devices_console.md R465). -/

namespace Sys2Proof.Machine

/-! ### Stops and idle cycles -/

theorem cpuStep_of_fault {s : State} {c : FatalCondition} (h : s.fault = some c) :
    cpuStep s = .fault (.recorded c) := by
  rw [cpuStep, h]

theorem consoleRound_of_fault {s : State} {c : FatalCondition} (h : s.fault = some c) :
    consoleRound s = .fault (.recorded c) := by
  rw [consoleRound, h]

theorem cpuStep_idle {s : State} (hf : s.fault = none) (hi : 0 < s.cpu.idle) : cpuStep s = .next (idleStep s) := by
  rw [cpuStep, hf]
  exact if_pos hi

theorem consoleRound_of_runEnded {s : State} (hf : s.fault = none) (h : s.runEnded = true) :
    consoleRound s = .refused .runEnded := by
  rw [consoleRound, hf]
  exact if_pos h

/-- Settles O30: the recorded fault is looked at before everything else, an idle cycle before the interrupts. -/
theorem idleStepsAndStops : Obligations.IdleStepsAndStops := by
  refine ⟨fun s c hf => cpuStep_of_fault hf, fun s hf hi => cpuStep_idle hf hi, fun s hf hstop hframe => ?_,
    fun s c hf => consoleRound_of_fault hf⟩
  have hended : s.runEnded = true := by rw [State.runEnded, hstop, hframe, Bool.and_self]
  exact consoleRound_of_runEnded hf hended

/-! ### Interrupts -/

/-- An interrupt entry through a vector that storage holds (60_exceptions.md R266). -/
theorem interruptEntry_next {vec : Word} {s : State} {lo hi : Byte} (h1 : 0x8000 ≤ vec.toNat)
    (h2 : 0x8000 ≤ (vec + 1).toNat) (hlo : peek s vec = some lo) (hhi : peek s (vec + 1) = some hi) :
    interruptEntry vec s = .ok ((), Claims.entered s (wordOf hi lo)) := by
  rw [interruptEntry, M.getS_bind, M.bind_of_ok (takeVector_next h1 h2 hlo hhi), Claims.entered, packed_eq_pack]
  rfl

/-- An instruction leaves a pending IRQ as it is, its fetch included. -/
theorem execInstruction_irqPending {s t : State} (h : execInstruction s = .next t) :
    t.cpu.irqPending = s.cpu.irqPending := by
  obtain ⟨i, u, hfetch, hexec⟩ := execInstruction_next h
  exact (exec_allows hexec).cpu.irq.trans (fetch_within (p := {}) _ _ _ hfetch).cpu.irq

/-- Settles O31: each request is cleared before its entry, and the vectors lie in the program window, which neither the
CPU nor the pushes reach. -/
theorem interruptEntries : Obligations.InterruptEntries := by
  refine ⟨fun s lo hi hf hidle hnmi hlo hhi => ?_, fun s lo hi hf hidle hnmi hirq hmask hlo hhi => ?_,
    fun s t hf hidle hnmi hmask => ?_⟩
  · rw [cpuStep_nmi hf hidle hnmi]
    exact M.outcome_of_ok (interruptEntry_next (vec := nmiVector) (by decide) (by decide) hlo hhi)
  · rw [cpuStep_irq hf hidle hnmi hirq hmask]
    exact M.outcome_of_ok (interruptEntry_next (vec := irqVector) (by decide) (by decide) hlo hhi)
  · have hstep : cpuStep s = execInstruction s := cpuStep_instruction hf hidle hnmi fun _ => hmask
    exact ⟨hstep, fun h => execInstruction_irqPending (hstep ▸ h)⟩

end Sys2Proof.Machine

/-! Which accesses the CPU bus refuses: the mappers' windows are total under the default `BANK_RANGE`, so an access
is refused for its address alone (60_exceptions.md R252, R253, 62_mappers.md R380 to R388). -/

namespace Sys2Proof.Machine

/-! ### The mappers' windows are total -/

/-- A bank number reduced modulo the banks of its size names a place in the array. -/
theorem inArray_bankOf {p : Params} {bank n size offset total : Nat} (hp : p.bankRange = .modulo) (hn : 0 < n)
    (ho : offset < size) (ht : n * size = total) :
    inArray total ((bankOf p bank n).map fun b => b * size + offset) = some (bank % n * size + offset) := by
  have hbank : bank % n + 1 ≤ n := Nat.mod_lt bank hn
  have hlast : (bank % n + 1) * size ≤ n * size := Nat.mul_le_mul_right size hbank
  rw [Nat.add_mul, Nat.one_mul, ht] at hlast
  rw [bankOf_modulo hp]
  exact inArray_of_lt (Nat.lt_of_lt_of_le (Nat.add_lt_add_left ho _) hlast)

theorem prgIndex_total {s : State} {a : Nat} (hc : s.cart.valid = true) (hp : s.params.bankRange = .modulo)
    (h1 : 0x8000 ≤ a) (h2 : a < 0x10000) : ∃ k, prgIndex s a = some k := by
  have hbanks : 1 ≤ s.cart.prgBanks := Cartridge.banks_of_valid hc
  have hsize : s.cart.prgSize = 16384 * s.cart.prgBanks := rfl
  cases hm : s.map with
  | nrom =>
    rw [prgIndex_nrom hm]
    exact ⟨_, inArray_of_lt (Nat.mod_lt _ (by omega))⟩
  | uxrom m =>
    rw [prgIndex_uxrom hm]
    split
    · exact ⟨_, inArray_bankOf hp hbanks (by omega) (by omega)⟩
    · exact ⟨_, inArray_of_lt (by omega)⟩
  | mmc1 m =>
    rw [prgIndex_mmc1 hm]
    exact ⟨_, inArray_bankOf hp hbanks (Nat.mod_lt _ (by decide)) (by omega)⟩
  | mmc3 m =>
    rw [prgIndex_mmc3 hm]
    exact ⟨_, inArray_bankOf hp (by omega) (Nat.mod_lt _ (by decide)) (by omega)⟩

theorem chrIndex_total {s : State} {a : Nat} (hp : s.params.bankRange = .modulo) (ha : a < 0x2000) :
    ∃ k, chrIndex s a = some k := by
  have hmin : 8192 ≤ s.cart.chrSize := Cartridge.chrSize_pos _
  have hsize : s.cart.chrSize = 8192 * max s.cart.chrBanks 1 := rfl
  cases hm : s.map with
  | nrom =>
    rw [chrIndex_nrom hm]
    exact ⟨_, inArray_of_lt (by omega)⟩
  | uxrom m =>
    rw [chrIndex_uxrom hm]
    exact ⟨_, inArray_of_lt (by omega)⟩
  | mmc1 m =>
    rw [chrIndex_mmc1 hm]
    exact ⟨_, inArray_bankOf hp (by omega) (Nat.mod_lt _ (by decide)) (by omega)⟩
  | mmc3 m =>
    rw [chrIndex_mmc3 hm]
    exact ⟨_, inArray_bankOf hp (by omega) (Nat.mod_lt _ (by decide)) (by omega)⟩

theorem State.patternsOk_of_modulo {s : State} (hp : s.params.bankRange = .modulo) : s.PatternsOk :=
  fun _ ha => chrIndex_total hp ha

/-! ### Reads -/

section Reads

variable {a : Word} {s : State}

theorem readPpuRegister_oamData (h : a.toNat % 8 = 4) (s : State) :
    readPpuRegister a s = .ok (s.ppu.oam.read s.ppu.oamAddr.toNat, s) := by
  rw [readPpuRegister, M.getS_bind, h]
  rfl

theorem readPpuRegister_writeOnly (h : a.toNat % 8 ∈ [0, 1, 3, 5, 6]) (s : State) :
    readPpuRegister a s = readWriteOnly a s := by
  rw [readPpuRegister, M.getS_bind]
  simp only [List.mem_cons, List.not_mem_nil, or_false] at h
  rcases h with h | h | h | h | h <;> rw [h] <;> rfl

theorem readWriteOnly_of_fault (h : s.params.ppuWoRead = .fault) :
    readWriteOnly a s = raise (.invalidAccess .cpu a .read) s := by
  rw [readWriteOnly, M.getS_bind, h]

theorem readWriteOnly_of_not_fault (h : s.params.ppuWoRead ≠ .fault) : readWriteOnly a s = .ok (s.ppu.latch, s) := by
  rw [readWriteOnly, M.getS_bind]
  cases hp : s.params.ppuWoRead with
  | fault => exact absurd hp h
  | latch => rfl

/-- A read of VRAM data completes: below the palette one picture-unit read, in it two (61_ppu.md R317). -/
theorem readVramData_total (h : s.PatternsOk) : ∃ b t, readVramData s = .ok (b, t) := by
  have hlt : s.ppu.busAddress.toNat < 0x4000 := by
    rw [Ppu.busAddress_toNat]
    omega
  obtain ⟨b, hb⟩ := ppuRead_total h hlt
  rw [readVramData, M.getS_bind]
  dsimp only
  split
  · rw [M.bind_of_ok (look_of_ok hb)]
    exact ⟨_, _, rfl⟩
  · obtain ⟨under, hunder⟩ := ppuRead_total h (a := s.ppu.busAddress - 0x1000) (by bv_omega)
    rw [M.bind_of_ok (look_of_ok hb), M.bind_of_ok (look_of_ok hunder)]
    exact ⟨_, _, rfl⟩

/-- A refused read stops with the fault of its address (60_exceptions.md R252 (a), (b)). -/
theorem memRead_refused (hf : s.fault = none) (h : readRefused s.params a) :
    memRead a s =
      .error (.raised (.invalidAccess .cpu a .read) (s.stopped (.invalidAccess .cpu a .read))) := by
  rw [← raise_of_running _ hf]
  rcases h with ⟨hlo, hhi, hregister, hp⟩ | ⟨hlo, hhi⟩
  · rw [memRead_register hlo hhi, readPpuRegister_writeOnly hregister, readWriteOnly_of_fault hp]
  · rw [memRead_mapper hlo]
    exact look_of_error (if_pos hhi)

/-- A read that is not refused completes, device by device. -/
theorem memRead_total (hc : s.cart.valid = true) (hp : Lenient s.params) (h : ¬readRefused s.params a) :
    ∃ b t, memRead a s = .ok (b, t) := by
  rcases lt_or_ge a.toNat 0x2000 with hram | hlo
  · exact ⟨_, _, memRead_ram hram s⟩
  rcases lt_or_ge a.toNat 0x4000 with hhi | hlo
  · rw [memRead_register hlo hhi]
    by_cases h2 : a.toNat % 8 = 2
    · exact ⟨_, _, readPpuRegister_status h2 s⟩
    by_cases h4 : a.toNat % 8 = 4
    · exact ⟨_, _, readPpuRegister_oamData h4 s⟩
    by_cases h7 : a.toNat % 8 = 7
    · rw [readPpuRegister_vramData h7]
      exact readVramData_total (State.patternsOk_of_modulo hp.bankRange)
    · have hregister : a.toNat % 8 ∈ [0, 1, 3, 5, 6] := by
        simp only [List.mem_cons, List.not_mem_nil, or_false]
        omega
      rw [readPpuRegister_writeOnly hregister]
      exact ⟨_, _, readWriteOnly_of_not_fault fun hw => h (.inl ⟨hlo, hhi, hregister, hw⟩)⟩
  rcases lt_or_ge a.toNat 0x4020 with hhi | hlo
  · by_cases h16 : a = 0x4016
    · subst h16
      exact ⟨_, _, rfl⟩
    by_cases h17 : a = 0x4017
    · subst h17
      exact ⟨_, _, rfl⟩
    rw [memRead_absent hlo hhi h16 h17]
    cases hw : s.params.absentIo with
    | zero => exact ⟨_, _, readAbsent_of_zero a hw⟩
    | draw => exact ⟨_, _, readAbsent_of_draw a hw⟩
    | fault => exact absurd hw hp.absentIo
  rcases lt_or_ge a.toNat 0x8000 with hhi | hlo
  · have hmapped : 0x6000 ≤ a.toNat := Nat.le_of_not_lt fun hwindow => h (.inr ⟨hlo, hwindow⟩)
    exact ⟨_, _, memRead_of_peek (peek_prgRam hmapped hhi s)⟩
  · obtain ⟨k, hk⟩ := prgIndex_total hc hp.bankRange hlo a.isLt
    exact ⟨_, _, memRead_program hlo hk⟩

end Reads

/-! ### Writes -/

/-- A write to this address is one to register 7 with `v` in the pattern tables (61_ppu.md R318). -/
def writesPattern (s : State) (a : Word) : Prop :=
  0x2000 ≤ a.toNat ∧ a.toNat < 0x4000 ∧ a.toNat % 8 = 7 ∧ s.ppu.v.toNat % 0x4000 < 0x2000

/-- The machine whose picture-unit latch has taken a byte (61_ppu.md R308). -/
def State.latched (s : State) (d : Byte) : State := s.setPpu { s.ppu with latch := d }

section Writes

variable {a : Word} {s : State}

theorem mapPpuWrite_of_rom (h : s.cart.chrBanks ≠ 0) (d : Byte) : mapPpuWrite a d s = raise (.chrRomWrite a) s := by
  rw [mapPpuWrite, M.getS_bind, if_neg h]

/-- A picture-unit write completes, but for one to graphics ROM. -/
theorem ppuWrite_total (ha : a.toNat < 0x4000) (hs : s.PatternsOk)
    (h : ¬(a.toNat < 0x2000 ∧ s.cart.chrBanks ≠ 0)) (d : Byte) : ∃ t, ppuWrite a d s = .ok ((), t) := by
  rw [ppuWrite_apply ha]
  split
  · next hpattern =>
    have hram : s.cart.chrBanks = 0 := not_ne_iff.mp fun hrom => h ⟨hpattern, hrom⟩
    obtain ⟨k, hk⟩ := hs _ hpattern
    rw [mapPpuWrite, M.getS_bind, if_pos hram, hk]
    exact ⟨_, rfl⟩
  · split <;> exact ⟨_, rfl⟩

theorem writePpuRegister_vramData (h : a.toNat % 8 = 7) (d : Byte) (s : State) :
    writePpuRegister a d s = (ppuWrite s.ppu.busAddress d >>= fun _ => update fun t => t.setPpu t.ppu.stepAddress)
      (s.latched d) := by
  rw [writePpuRegister, M.update_bind, h]
  rfl

/-- Only VRAM data has a write that can be refused. -/
theorem writePpuRegister_total (h : a.toNat % 8 ≠ 7) (d : Byte) (s : State) :
    ∃ t, writePpuRegister a d s = .ok ((), t) := by
  have hlt : a.toNat % 8 < 7 := by omega
  rw [writePpuRegister, M.update_bind]
  generalize a.toNat % 8 = register at hlt
  interval_cases register <;> exact ⟨_, rfl⟩

theorem mapperWrite_of_nrom (hm : s.map = .nrom) (hp : s.params.nromPrgWrite = .fault) (d : Byte) :
    mapperWrite a d s = raise (.invalidAccess .cpu a .write) s := by
  rw [mapperWrite, M.getS_bind, hm, hp]

theorem mapperWrite_total (h : ¬(s.map = .nrom ∧ s.params.nromPrgWrite = .fault)) (d : Byte) :
    ∃ t, mapperWrite a d s = .ok ((), t) := by
  rw [mapperWrite, M.getS_bind]
  cases hm : s.map with
  | nrom =>
    cases hp : s.params.nromPrgWrite with
    | fault => exact absurd ⟨hm, hp⟩ h
    | ignore => exact ⟨_, rfl⟩
  | uxrom m => exact ⟨_, rfl⟩
  | mmc1 m => exact ⟨_, rfl⟩
  | mmc3 m => exact ⟨_, rfl⟩

/-- A refused write stops with the fault of its address (60_exceptions.md R252 (b), (c)). -/
theorem memWrite_refused (hf : s.fault = none) (h : writeRefused s a) (v : Byte) :
    memWrite a v s =
      .error (.raised (.invalidAccess .cpu a .write) (s.stopped (.invalidAccess .cpu a .write))) := by
  rw [← raise_of_running _ hf]
  rcases h with ⟨hlo, hhi⟩ | ⟨hlo, hm, hp⟩
  · rw [memWrite_mapper hlo, mapCpuWrite, if_pos hhi]
  · rw [memWrite_program hlo, mapperWrite_of_nrom hm hp]

/-- A write of register 7 to graphics ROM stops after the latch has taken the byte (61_ppu.md R308, R318). -/
theorem memWrite_graphicsRom (hf : s.fault = none) (h : writesPattern s a) (hc : s.cart.chrBanks ≠ 0) (v : Byte) :
    let c := FatalCondition.chrRomWrite (BitVec.ofNat 16 (s.ppu.v.toNat % 0x4000))
    memWrite a v s = .error (.raised c ((s.latched v).stopped c)) := by
  intro c
  obtain ⟨hlo, hhi, h7, hpattern⟩ := h
  have hbus : s.ppu.busAddress = BitVec.ofNat 16 (s.ppu.v.toNat % 0x4000) := by
    rw [← Ppu.busAddress_toNat, BitVec.ofNat_toNat, BitVec.setWidth_eq]
  have hlt : s.ppu.busAddress.toNat < 0x2000 := by rwa [Ppu.busAddress_toNat]
  have hwrite : ppuWrite s.ppu.busAddress v (s.latched v) = raise c (s.latched v) := by
    rw [ppuWrite_apply (by omega), if_pos hlt, mapPpuWrite_of_rom (s := s.latched v) hc, hbus]
  rw [memWrite_register hlo hhi, writePpuRegister_vramData h7]
  exact M.bind_of_error (hwrite.trans (raise_of_running c hf))

/-- A write that is not refused completes, device by device; OAM DMA is its 256 reads. -/
theorem memWrite_total (hp : Lenient s.params) (h14 : a ≠ 0x4014) (h : ¬writeRefused s a)
    (hrom : ¬(writesPattern s a ∧ s.cart.chrBanks ≠ 0)) (v : Byte) : ∃ t, memWrite a v s = .ok ((), t) := by
  rcases lt_or_ge a.toNat 0x2000 with hram | hlo
  · exact ⟨_, memWrite_ram hram v s⟩
  rcases lt_or_ge a.toNat 0x4000 with hhi | hlo
  · rw [memWrite_register hlo hhi]
    by_cases h7 : a.toNat % 8 = 7
    · have hbus : s.ppu.busAddress.toNat = s.ppu.v.toNat % 0x4000 := Ppu.busAddress_toNat _
      obtain ⟨t, ht⟩ := ppuWrite_total (a := s.ppu.busAddress) (s := s.latched v) (by omega)
        (State.patternsOk_of_modulo hp.bankRange) (fun ⟨hlt, hc⟩ => hrom ⟨⟨hlo, hhi, h7, hbus ▸ hlt⟩, hc⟩) v
      rw [writePpuRegister_vramData h7]
      exact ⟨_, M.bind_of_ok ht⟩
    · exact writePpuRegister_total h7 v s
  rcases lt_or_ge a.toNat 0x4020 with hhi | hlo
  · by_cases h16 : a = 0x4016
    · subst h16
      exact ⟨_, rfl⟩
    · rw [memWrite_absent hlo hhi h14 h16]
      exact ⟨_, writeAbsent_of_not_fault a hp.absentIo⟩
  rcases lt_or_ge a.toNat 0x8000 with hhi | hlo
  · have hmapped : 0x6000 ≤ a.toNat := Nat.le_of_not_lt fun hwindow => h (.inl ⟨hlo, hwindow⟩)
    exact ⟨_, memWrite_prgRam hmapped hhi v s⟩
  · rw [memWrite_program hlo]
    exact mapperWrite_total (fun hnrom => h (.inr ⟨hlo, hnrom⟩)) v

end Writes

/-- Settles O35: the refused addresses raise, and every other row of the bus routing completes. -/
theorem accessesRefused : Obligations.AccessesRefused := by
  intro a v s hs hp toPattern noRead noWrite noGraphics
  refine ⟨fun h => memRead_refused hs.running h, fun h => memRead_total hs.cart hp h, fun h14 => ⟨fun h => ?_,
    fun hpattern hc => ?_, fun h hrom => ?_⟩⟩
  · exact memWrite_refused hs.running h v
  · exact ⟨_, memWrite_graphicsRom hs.running hpattern hc v, rfl⟩
  · exact memWrite_total hp h14 h hrom v

end Sys2Proof.Machine

/-! What a step can stop with: every computation of the CPU either stays in a state of the run or stops with a recorded
condition of 60_exceptions.md R250 to R253, and the dots after it complete. -/

namespace Sys2Proof.Machine

variable {α β : Type}

/-! ### States of a run, and what a step from one of them may stop with -/

/-- `t` is a sound machine with the parameters and the cartridge of the sound machine `s`, the bus parameters at their
defaults: a state that a step from `s` goes through. -/
structure InStep (s t : State) : Prop where
  start : s.Sound
  lenient : Lenient s.params
  sound : t.Sound
  params : t.params = s.params
  cart : t.cart = s.cart

/-- The conditions of 60_exceptions.md R250 to R253, in the terms of the machine `s` the step starts from. -/
def StopCondition (s : State) (c : FatalCondition) : Prop :=
  (∃ op, c = .illegalOpcode s.cpu.pc op ∧ op ∈ Claims.illegalBytes) ∨
    (∃ a, c = .invalidAccess .cpu a .read ∧ readRefused s.params a) ∨
    (∃ a, c = .invalidAccess .cpu a .write ∧ writeRefused s a) ∨
    (∃ a, c = .chrRomWrite a ∧ a.toNat < 0x2000 ∧ s.cart.chrBanks ≠ 0)

/-- A fault of a step from `s`: one of its conditions, recorded in the machine it leaves (60_exceptions.md R254). -/
def Listed (s : State) (f : Fault) : Prop :=
  ∃ c t, f = .raised c t ∧ t.fault = some c ∧ StopCondition s c

/-- A result of a part of a step from `s`. -/
def ResultOk (s : State) : Except Fault (α × State) → Prop
  | .ok r => InStep s r.2
  | .error f => Listed s f

/-- An outcome of a part of a step from `s`. -/
def OutcomeOk (s : State) : Host.Outcome State Fault Refusal → Prop
  | .next t => InStep s t
  | .fault f => Listed s f
  | .refused _ => True

theorem InStep.refl {s : State} (hs : s.Sound) (hp : Lenient s.params) : InStep s s := ⟨hs, hp, hs, rfl, rfl⟩

/-- A change that keeps the machine sound and touches neither parameters nor cartridge. -/
theorem InStep.trans {s t u : State} (h : InStep s t) (hu : u.Sound) (hp : u.params = t.params) (hc : u.cart = t.cart) :
    InStep s u :=
  ⟨h.start, h.lenient, hu, hp.trans h.params, hc.trans h.cart⟩

theorem InStep.withCpu {s t : State} (h : InStep s t) (c : Cpu) : InStep s (t.withCpu c) :=
  h.trans (h.sound.withCpu c) rfl rfl

theorem InStep.lenientParams {s t : State} (h : InStep s t) : Lenient t.params := h.params ▸ h.lenient

/-- The variant of the mapper is that of the cartridge's number (62_mappers.md R380). -/
theorem State.Sound.map_eq_nrom_iff {s : State} (h : s.Sound) : s.map = .nrom ↔ s.cart.mapperNumber = 0 := by
  have hm := h.map
  cases hs : s.map with
  | nrom =>
    rw [hs] at hm
    exact iff_of_true rfl hm
  | mmc1 m =>
    rw [hs] at hm
    obtain ⟨hnumber, -⟩ := hm
    exact iff_of_false nofun (by omega)
  | uxrom m =>
    rw [hs] at hm
    have hnumber : s.cart.mapperNumber = 2 := hm
    exact iff_of_false nofun (by omega)
  | mmc3 m =>
    rw [hs] at hm
    have hnumber : s.cart.mapperNumber = 4 := hm
    exact iff_of_false nofun (by omega)

/-- The mapper's registers may change in a step, its variant does not: what the bus refuses to write stays the same. -/
theorem InStep.writeRefused {s t : State} (h : InStep s t) {a : Word} (ha : writeRefused t a) : writeRefused s a := by
  rcases ha with hwindow | ⟨hlo, hm, hp⟩
  · exact .inl hwindow
  · rw [h.sound.map_eq_nrom_iff, h.cart, ← h.start.map_eq_nrom_iff] at hm
    exact .inr ⟨hlo, hm, h.params ▸ hp⟩

/-! ### Computations that are part of a step -/

/-- From a state of a step from `s` the computation completes in one, or stops with a listed fault. -/
def M.Guarded (s : State) (x : M α) : Prop := ∀ t, InStep s t → ResultOk s (x t)

section Guarded

variable {s : State}

theorem M.Guarded.pure (a : α) : M.Guarded s (Pure.pure a : M α) := fun _ h => h

theorem M.Guarded.getS : M.Guarded s Machine.getS := fun _ h => h

theorem M.Guarded.bind {x : M α} {f : α → M β} (hx : x.Guarded s) (hf : ∀ a, (f a).Guarded s) :
    (x >>= f).Guarded s := by
  intro t h
  have hresult := hx t h
  rw [M.bind_apply]
  cases hxt : x t with
  | error e =>
    rw [hxt] at hresult
    exact hresult
  | ok r =>
    rw [hxt] at hresult
    exact hf r.1 r.2 hresult

theorem M.Guarded.ite {c : Prop} [Decidable c] {x y : M α} (hx : x.Guarded s) (hy : y.Guarded s) :
    M.Guarded s (if c then x else y) := by
  split
  · exact hx
  · exact hy

theorem M.Guarded.raise {c : FatalCondition} (hc : StopCondition s c) : M.Guarded s (Machine.raise c : M α) := by
  intro t h
  rw [raise_of_running c h.sound.running]
  exact ⟨c, _, rfl, rfl, hc⟩

/-- A change of the CPU alone. -/
theorem M.Guarded.cpu {f : State → State} (hf : ∀ t, ∃ c, f t = t.withCpu c) : M.Guarded s (update f) := by
  intro t h
  obtain ⟨c, hc⟩ := hf t
  rw [update_apply, hc]
  exact h.withCpu c

theorem M.Guarded.outcome {x : M Unit} (hx : x.Guarded s) {t : State} (h : InStep s t) : OutcomeOk s (x.outcome t) := by
  have hresult := hx t h
  rw [M.outcome]
  cases hxt : x t <;> rw [hxt] at hresult <;> exact hresult

/-! ### Bus accesses -/

theorem memRead_guarded (a : Word) : M.Guarded s (memRead a) := by
  intro t h
  by_cases hrefused : readRefused t.params a
  · rw [memRead_refused h.sound.running hrefused]
    exact ⟨_, _, rfl, rfl, .inr (.inl ⟨a, rfl, h.params ▸ hrefused⟩)⟩
  · obtain ⟨b, u, hread⟩ := memRead_total h.sound.cart h.lenientParams hrefused
    have hrest := (memRead_frame hread).rest
    rw [hread]
    exact h.trans (memRead_sound a _ _ _ h.sound hread) (by rw [hrest]) (by rw [hrest])

theorem dmaCopy_guarded (base : Word) : ∀ n, M.Guarded s (dmaCopy base n)
  | 0 => .pure _
  | n + 1 => (memRead_guarded _).bind fun b =>
    M.Guarded.bind (fun _ h => h.trans (h.sound.writeOam b) rfl rfl) fun _ => dmaCopy_guarded base n

theorem memWrite_guarded (a : Word) (v : Byte) : M.Guarded s (memWrite a v) := by
  by_cases h14 : a = 0x4014
  · rw [h14, memWrite_dma]
    exact (dmaCopy_guarded _ _).bind fun _ => .cpu fun _ => ⟨_, rfl⟩
  intro t h
  by_cases hrefused : writeRefused t a
  · rw [memWrite_refused h.sound.running hrefused]
    exact ⟨_, _, rfl, rfl, .inr (.inr (.inl ⟨a, rfl, h.writeRefused hrefused⟩))⟩
  by_cases hrom : writesPattern t a ∧ t.cart.chrBanks ≠ 0
  · obtain ⟨hpattern, hc⟩ := hrom
    have hlt : (BitVec.ofNat 16 (t.ppu.v.toNat % 0x4000)).toNat < 0x2000 := by
      obtain ⟨-, -, -, hv⟩ := hpattern
      rw [BitVec.toNat_ofNat]
      omega
    rw [memWrite_graphicsRom h.sound.running hpattern hc]
    exact ⟨_, _, rfl, rfl, .inr (.inr (.inr ⟨_, rfl, hlt, h.cart ▸ hc⟩))⟩
  · obtain ⟨u, hwrite⟩ := memWrite_total h.lenientParams h14 hrefused hrom v
    have hrest := (memWrite_frame hwrite).rest
    rw [hwrite]
    exact h.trans (memWrite_sound a v _ _ _ h.sound hwrite) (by rw [hrest]) (by rw [hrest])

theorem read16_guarded (a : Word) : M.Guarded s (read16 a) :=
  (memRead_guarded _).bind fun _ => (memRead_guarded _).bind fun _ => .pure _

theorem read16Bug_guarded (a : Word) : M.Guarded s (read16Bug a) :=
  (memRead_guarded _).bind fun _ => (memRead_guarded _).bind fun _ => .pure _

theorem push_guarded (v : Byte) : M.Guarded s (push v) :=
  M.Guarded.getS.bind fun _ => (memWrite_guarded _ _).bind fun _ => .cpu fun _ => ⟨_, rfl⟩

theorem push16_guarded (w : Word) : M.Guarded s (push16 w) :=
  (push_guarded _).bind fun _ => push_guarded _

theorem pull_guarded : M.Guarded s pull :=
  M.Guarded.bind (.cpu fun _ => ⟨_, rfl⟩) fun _ => M.Guarded.getS.bind fun _ => memRead_guarded _

theorem pull16_guarded : M.Guarded s pull16 :=
  pull_guarded.bind fun _ => pull_guarded.bind fun _ => .pure _

/-! ### Instructions -/

theorem resolve_guarded (o : Operand) (pc0 : Word) : M.Guarded s (resolve o pc0) := by
  refine M.Guarded.getS.bind fun t => ?_
  cases o with
  | indirect w => exact (read16Bug_guarded _).bind fun _ => .pure _
  | indirectX b => exact (read16Bug_guarded _).bind fun _ => .pure _
  | indirectY b => exact (read16Bug_guarded _).bind fun _ => .pure _
  | _ => exact .pure _

theorem Target.read_guarded (t : Target) : M.Guarded s t.read := by
  cases t with
  | memory ea => exact memRead_guarded ea
  | accumulator => exact M.Guarded.getS.bind fun _ => .pure _
  | _ => exact .pure _

theorem Target.write_guarded (t : Target) (v : Byte) : M.Guarded s (t.write v) := by
  cases t with
  | memory ea => exact memWrite_guarded ea v
  | accumulator => exact .cpu fun _ => ⟨_, rfl⟩
  | _ => exact .pure _

theorem updateFlags_guarded (f : Flags → Flags) : M.Guarded s (updateFlags f) := .cpu fun _ => ⟨_, rfl⟩

/-- Two changes of the CPU, a register and then the flags, or PC and then the cycles. -/
theorem cpuTwice_guarded {f g : State → State} (hf : ∀ t, ∃ c, f t = t.withCpu c) (hg : ∀ t, ∃ c, g t = t.withCpu c) :
    M.Guarded s (update f >>= fun _ => update g) :=
  (M.Guarded.cpu hf).bind fun _ => .cpu hg

theorem saveFrame_guarded (ret : Word) (b : Bool) : M.Guarded s (saveFrame ret b) :=
  (push16_guarded _).bind fun _ => M.Guarded.getS.bind fun _ => push_guarded _

theorem loadVector_guarded (vec : Word) : M.Guarded s (loadVector vec) :=
  (read16_guarded _).bind fun _ => .cpu fun _ => ⟨_, rfl⟩

theorem disableInterrupts_guarded : M.Guarded s disableInterrupts := .cpu fun _ => ⟨_, rfl⟩

theorem stepMemory_guarded (f : Byte → Byte) (t : Target) : M.Guarded s (stepMemory f t) :=
  t.read_guarded.bind fun _ => (t.write_guarded _).bind fun _ => updateFlags_guarded _

theorem shiftOperand_guarded (f : Byte → Bool → Shifted) (t : Target) : M.Guarded s (shiftOperand f t) :=
  t.read_guarded.bind fun _ => M.Guarded.getS.bind fun _ => (updateFlags_guarded _).bind fun _ =>
    (t.write_guarded _).bind fun _ => updateFlags_guarded _

theorem branch_guarded (cond : Flags → Bool) (t : Target) : M.Guarded s (branch cond t) :=
  M.Guarded.getS.bind fun _ => .ite (cpuTwice_guarded (fun _ => ⟨_, rfl⟩) fun _ => ⟨_, rfl⟩) (.pure _)

/-- Every handler is its operand accesses, its pushes and pulls, and changes of the CPU. -/
theorem handler_guarded (mn : Mnemonic) (t : Target) : M.Guarded s (handlerOf mn t) := by
  cases mn with
  | lda | ldx | ldy => exact t.read_guarded.bind fun _ => cpuTwice_guarded (fun _ => ⟨_, rfl⟩) fun _ => ⟨_, rfl⟩
  | sta | stx | sty => exact M.Guarded.getS.bind fun _ => t.write_guarded _
  | tax | tay | txa | tya | tsx | inx | iny | dex | dey =>
    exact M.Guarded.getS.bind fun _ => cpuTwice_guarded (fun _ => ⟨_, rfl⟩) fun _ => ⟨_, rfl⟩
  | txs | jmp | clc | sec | cli | sei | clv | cld | sed => exact .cpu fun _ => ⟨_, rfl⟩
  | pha | php => exact M.Guarded.getS.bind fun _ => push_guarded _
  | pla => exact pull_guarded.bind fun _ => cpuTwice_guarded (fun _ => ⟨_, rfl⟩) fun _ => ⟨_, rfl⟩
  | plp => exact pull_guarded.bind fun _ => updateFlags_guarded _
  | adc | sbc | and | ora | eor =>
    exact t.read_guarded.bind fun _ => M.Guarded.getS.bind fun _ =>
      cpuTwice_guarded (fun _ => ⟨_, rfl⟩) fun _ => ⟨_, rfl⟩
  | cmp | cpx | cpy | bit =>
    exact t.read_guarded.bind fun _ => M.Guarded.getS.bind fun _ => updateFlags_guarded _
  | inc | dec => exact stepMemory_guarded _ t
  | asl | lsr | rol | ror => exact shiftOperand_guarded _ t
  | jsr => exact M.Guarded.getS.bind fun _ => (push16_guarded _).bind fun _ => .cpu fun _ => ⟨_, rfl⟩
  | rts => exact pull16_guarded.bind fun _ => .cpu fun _ => ⟨_, rfl⟩
  | rti =>
    exact pull_guarded.bind fun _ => M.Guarded.bind (.cpu fun _ => ⟨_, rfl⟩) fun _ => pull16_guarded.bind fun _ =>
      .cpu fun _ => ⟨_, rfl⟩
  | brk =>
    exact M.Guarded.getS.bind fun _ => (saveFrame_guarded _ _).bind fun _ => disableInterrupts_guarded.bind fun _ =>
      loadVector_guarded _
  | bcc => exact branch_guarded (fun p => !p.c) t
  | bne => exact branch_guarded (fun p => !p.z) t
  | bpl => exact branch_guarded (fun p => !p.n) t
  | bvc => exact branch_guarded (fun p => !p.v) t
  | bcs | beq | bmi | bvs => exact branch_guarded _ t
  | nop => exact .pure _

theorem runRow_guarded (i : Instr) : M.Guarded s (runRow i.row (handlerOf i.row.mnemonic)) :=
  M.Guarded.getS.bind fun _ => (resolve_guarded _ _).bind fun _ => M.Guarded.bind (.cpu fun _ => ⟨_, rfl⟩) fun _ =>
    M.Guarded.bind (.cpu fun _ => ⟨_, rfl⟩) fun _ => handler_guarded _ _

theorem exec_ok (i : Instr) {t : State} (h : InStep s t) : OutcomeOk s (exec i t) := by
  rw [exec_eq]
  exact (runRow_guarded i).outcome h

/-! ### The fetch -/

/-- The second reading of a byte that cannot be read, after PC and `cycles` have advanced, is a bus read too. -/
theorem fetchOperand_guarded (op : Byte) (pc0 : Word) : M.Guarded s (fetchOperand op pc0) := by
  refine .ite (fun t h => ?_) (memRead_guarded _)
  have hresult := memRead_guarded (pc0 + 1) t h
  rw [fetchImmediate]
  cases hread : memRead (pc0 + 1) t with
  | ok r =>
    rw [hread] at hresult
    exact hresult
  | error f => exact memRead_guarded _ _ ((h.withCpu _).withCpu _)

theorem decodeOp_opcode_ne_none (i : Instr) (b1 b2 : Byte) : decodeOp i.row.opcode b1 b2 ≠ none := by
  cases i <;> exact Option.some_ne_none _

/-- The opcode byte alone decides whether there is an instruction. -/
theorem mem_illegalBytes_of_decodeOp {op b1 b2 : Byte} (h : decodeOp op b1 b2 = none) : op ∈ Claims.illegalBytes := by
  rw [mem_illegalBytes, opcodeSize, Option.map_eq_none_iff]
  refine Option.eq_none_iff_forall_ne_some.mpr fun i hi => ?_
  rw [← (decodeOp_eq_some.mp hi).1] at h
  exact decodeOp_opcode_ne_none i b1 b2 h

/-- The fetch reads at most three bytes, and stops itself at an illegal opcode byte at PC. -/
theorem fetch_ok {t : State} (h : InStep s t) (hpc : t.cpu.pc = s.cpu.pc) : ResultOk s (fetch t) := by
  have illegal {op : Byte} (hop : op ∈ Claims.illegalBytes) :
      M.Guarded s (raise (.illegalOpcode s.cpu.pc op) : M Instr) := .raise (.inl ⟨op, rfl, hop⟩)
  rw [fetch, M.getS_bind, hpc]
  refine (memRead_guarded _).bind (fun op => ?_) t h
  cases hsize : opcodeSize op with
  | none => exact illegal (mem_illegalBytes.mpr hsize)
  | some size =>
    refine .ite ((fetchOperand_guarded _ _).bind fun b1 => ?_) ((M.Guarded.pure 0).bind fun b1 => ?_) <;>
      refine .ite ((memRead_guarded _).bind fun b2 => ?_) ((M.Guarded.pure 0).bind fun b2 => ?_)
    all_goals
      dsimp only
      split
      · next hdecode => exact illegal (mem_illegalBytes_of_decodeOp hdecode)
      · exact .pure _

/-! ### The CPU's step -/

theorem interruptEntry_guarded (vec : Word) : M.Guarded s (interruptEntry vec) :=
  M.Guarded.getS.bind fun _ => M.Guarded.bind
    ((saveFrame_guarded _ _).bind fun _ => (loadVector_guarded _).bind fun _ => disableInterrupts_guarded)
    fun _ => .cpu fun _ => ⟨_, rfl⟩

theorem execInstruction_ok {t : State} (h : InStep s t) (hpc : t.cpu.pc = s.cpu.pc) :
    OutcomeOk s (execInstruction t) := by
  have hresult := fetch_ok h hpc
  cases hfetch : fetch t with
  | error f =>
    rw [hfetch] at hresult
    rw [execInstruction_of_fetch_error hfetch]
    exact hresult
  | ok r =>
    rw [hfetch] at hresult
    rw [execInstruction_of_fetch_ok hfetch]
    exact exec_ok r.1 hresult

theorem cpuStep_ok {t : State} (h : InStep s t) (hpc : t.cpu.pc = s.cpu.pc) : OutcomeOk s (cpuStep t) := by
  rw [cpuStep, h.sound.running]
  dsimp only
  split_ifs
  · exact h.withCpu _
  · exact (M.Guarded.bind (.cpu fun _ => ⟨_, rfl⟩) fun _ => interruptEntry_guarded _).outcome h
  · exact (M.Guarded.bind (.cpu fun _ => ⟨_, rfl⟩) fun _ => interruptEntry_guarded _).outcome h
  · exact execInstruction_ok h hpc

/-! ### Dots -/

theorem ppuStep_params {t u : State} (h : ppuStep t = .ok ((), u)) : u.params = t.params ∧ u.cart = t.cart := by
  obtain ⟨v, hv, -, rfl⟩ := ppuStep_ok h
  rw [flagEvents_frame, hv.rest, State.ticked_rest]
  exact ⟨rfl, rfl⟩

theorem mapperHook_params (t : State) : (mapperHook t).params = t.params ∧ (mapperHook t).cart = t.cart := by
  unfold mapperHook
  split
  · exact ⟨rfl, rfl⟩
  · exact ⟨rfl, rfl⟩
  · exact ⟨rfl, rfl⟩
  · split
    · dsimp only
      split
      · exact ⟨State.triggerIrq_params _, State.triggerIrq_cart _⟩
      · exact ⟨rfl, rfl⟩
    · exact ⟨rfl, rfl⟩

theorem deliverFrame_params (t : State) : (deliverFrame t).params = t.params ∧ (deliverFrame t).cart = t.cart := by
  unfold deliverFrame
  split <;> exact ⟨rfl, rfl⟩

/-- A dot completes: the picture unit makes no access that can be refused. -/
theorem dotStep_guarded : M.Guarded s dotStep := by
  intro t h
  obtain ⟨⟨⟩, u, hdot⟩ := ppuStep_completes t (State.patternsOk_of_modulo h.lenientParams.bankRange)
  have hsound := ppuStep_sound _ _ _ h.sound hdot
  obtain ⟨hp, hc⟩ := ppuStep_params hdot
  obtain ⟨hp', hc'⟩ := mapperHook_params u
  obtain ⟨hp'', hc''⟩ := deliverFrame_params (mapperHook u)
  rw [dotStep, M.bind_of_ok hdot]
  exact ((h.trans hsound hp hc).trans (mapperHook_sound hsound) hp' hc').trans
    (deliverFrame_sound (mapperHook_sound hsound)).1 hp'' hc''

theorem runDots_guarded : ∀ n, M.Guarded s (runDots n)
  | 0 => .pure _
  | n + 1 => dotStep_guarded.bind fun _ => runDots_guarded n

end Guarded

/-! ### The step -/

theorem roundAfter_ok {s : State} {o : Host.Outcome State Fault Refusal} (h : OutcomeOk s o) :
    OutcomeOk s (Claims.roundAfter s o) := by
  cases o with
  | next t => exact (runDots_guarded _).outcome h
  | fault f => exact h
  | refused r => exact h

theorem step_ok {s : State} (hs : s.Inv) (hp : Lenient s.params) : OutcomeOk s (step s) := by
  have hbegin : InStep s s.beginRound := (InStep.refl hs.sound hp).trans hs.beginRound.sound rfl rfl
  rw [step]
  cases hr : s.runEnded with
  | true =>
    rw [consoleRound_of_runEnded hs.running hr]
    trivial
  | false =>
    rw [consoleRound_of_running hs.running hr]
    exact roundAfter_ok (cpuStep_ok hbegin rfl)

/-- Settles O58: every part of a step keeps to the states of the run or stops with a listed fault. -/
theorem stepFaultsAreListed : Obligations.StepFaultsAreListed := by
  intro s f hs hp h
  have hstep := step_ok hs hp
  rw [h] at hstep
  exact hstep

end Sys2Proof.Machine

/-! The picture unit's registers, written, and VRAM data, read (61_ppu.md R308 to R318). -/

namespace Sys2Proof.Machine

/-! ### Fields of a word -/

/-- A concatenation as a number: the fields lie side by side. -/
theorem toNat_append_eq_add {m n : Nat} (x : BitVec m) (y : BitVec n) : (x ++ y).toNat = x.toNat * 2 ^ n + y.toNat := by
  rw [BitVec.toNat_append, ← Nat.shiftLeft_add_eq_or_of_lt y.isLt, Nat.shiftLeft_eq]

/-- A field as a number. -/
theorem toNat_extractLsb'_eq_mod {w : Nat} (v : BitVec w) (start len : Nat) :
    (v.extractLsb' start len).toNat = v.toNat / 2 ^ start % 2 ^ len := by
  rw [BitVec.extractLsb'_toNat, Nat.shiftRight_eq_div_pow]

/-! ### The registers but VRAM data, written -/

/-- The picture unit after the latch and one of the registers 0 to 6 have taken a byte. -/
def Ppu.registerWritten (p : Ppu) (d : Byte) : Nat → Ppu
  | 0 => { p with latch := d }.writeControl d
  | 1 => { p with latch := d }.writeMask d
  | 3 => { p with latch := d, oamAddr := d }
  | 4 => { p with latch := d }.writeOam d
  | 5 => { p with latch := d }.writeScroll d
  | 6 => { p with latch := d }.writeAddress d
  | _ => { p with latch := d }

/-- A write of any register but VRAM data changes the picture unit alone, and never faults. -/
theorem memWrite_ppuRegister {a : Word} (hlo : 0x2000 ≤ a.toNat) (hhi : a.toNat < 0x4000) {register : Nat}
    (h : a.toNat % 8 = register) (h7 : register ≠ 7) (d : Byte) (s : State) :
    memWrite a d s = .ok ((), s.setPpu (s.ppu.registerWritten d register)) := by
  have hlt : register < 7 := by omega
  rw [memWrite_register hlo hhi, writePpuRegister, M.update_bind, h]
  interval_cases register <;> rfl

/-- The nametable bits of register 0 go to bits 11:10 of `t`, the other bits of `t` stay (R310). -/
theorem Ppu.writeControl_t_getLsbD (p : Ppu) (d : Byte) {k : Nat} (hk : k < 15) : (p.writeControl d).t.getLsbD k =
    if k = 10 then d.getLsbD 0 else if k = 11 then d.getLsbD 1 else p.t.getLsbD k := by
  unfold writeControl
  interval_cases k <;> simp

/-- Settles O39: the two registers set their fields from the byte, at every mirror. -/
theorem controlAndMaskRegisters : Obligations.ControlAndMaskRegisters := by
  intro a d s hlo hhi
  refine ⟨fun h => ⟨_, memWrite_ppuRegister hlo hhi h (by decide) d s, rfl, fun k hk => ?_⟩, fun h => ?_⟩
  · exact Ppu.writeControl_t_getLsbD _ d hk
  · have hemphasis : d.extractLsb' 5 3 = BitVec.ofNat 3 (d.toNat / 32) :=
      congrArg (BitVec.ofNat 3) (Nat.shiftRight_eq_div_pow d.toNat 5)
    rw [memWrite_ppuRegister hlo hhi h (by decide) d s, ← hemphasis]
    rfl

/-! ### The status byte -/

/-- The status byte as a number: the three flags over the latch's low bits (R312). -/
theorem Ppu.status_toNat (p : Ppu) : p.status.toNat =
    128 * p.vblank.toNat + 64 * p.spr0Hit.toNat + 32 * p.sprOverflow.toNat + p.latch.toNat % 32 := by
  unfold status
  simp only [toNat_append_eq_add, toNat_extractLsb'_eq_mod, BitVec.toNat_ofBool]
  omega

theorem Ppu.status_getLsbD_seven (p : Ppu) : p.status.getLsbD 7 = p.vblank := by
  have h0 : p.spr0Hit.toNat ≤ 1 := Bool.toNat_le _
  have h1 : p.sprOverflow.toNat ≤ 1 := Bool.toNat_le _
  rw [getLsbD_seven, status_toNat]
  cases p.vblank <;> simp <;> omega

/-- Settles O40: a status read clears what the second read shows, and each write stores its byte. -/
theorem statusAndOamRegisters : Obligations.StatusAndOamRegisters := by
  intro a d s hlo hhi
  have hread : memRead a = readPpuRegister a := memRead_register hlo hhi
  refine ⟨fun h => ⟨memWrite_ppuRegister hlo hhi h (by decide) d s, ?_⟩,
    fun h => memWrite_ppuRegister hlo hhi h (by decide) d s, fun h => ⟨?_, ?_⟩⟩
  · rw [hread]
    refine ⟨_, _, readPpuRegister_status h s, rfl, s.ppu.status_toNat, _, readPpuRegister_status h _, ?_⟩
    exact Ppu.status_getLsbD_seven _
  · rw [hread, readPpuRegister_oamData h]
  · exact memWrite_ppuRegister hlo hhi h (by decide) d s

/-! ### The two registers of the toggle -/

section Toggle

variable (p : Ppu) {k : Nat}

/-- The first scroll byte's upper five bits go to bits 4:0 of `t` (R315). -/
theorem Ppu.writeScroll_t_first (hw : p.w = false) (d : Byte) (hk : k < 15) :
    (p.writeScroll d).t.getLsbD k = if k < 5 then d.getLsbD (k + 3) else p.t.getLsbD k := by
  rw [writeScroll, hw]
  interval_cases k <;> simp

/-- The second scroll byte goes to bits 9:5 and 14:12 of `t` (R315). -/
theorem Ppu.writeScroll_t_second (hw : p.w = true) (d : Byte) (hk : k < 15) : (p.writeScroll d).t.getLsbD k =
    if 12 ≤ k then d.getLsbD (k - 12) else if 5 ≤ k ∧ k < 10 then d.getLsbD (k - 2) else p.t.getLsbD k := by
  rw [writeScroll, hw]
  interval_cases k <;> simp

/-- The first address byte goes to bits 13:8 of `t`, and bit 14 is cleared (R316). -/
theorem Ppu.writeAddress_t_first (hw : p.w = false) (d : Byte) (hk : k < 15) : (p.writeAddress d).t.getLsbD k =
    if k = 14 then false else if 8 ≤ k then d.getLsbD (k - 8) else p.t.getLsbD k := by
  rw [writeAddress, hw]
  interval_cases k <;> simp

/-- The second address byte goes to bits 7:0 of `t` (R316). -/
theorem Ppu.writeAddress_t_second (hw : p.w = true) (d : Byte) (hk : k < 15) :
    (p.writeAddress d).t.getLsbD k = if k < 8 then d.getLsbD k else p.t.getLsbD k := by
  rw [writeAddress, hw]
  interval_cases k <;> simp

theorem Ppu.writeScroll_first (hw : p.w = false) (d : Byte) :
    p.writeScroll d = { p with t := (p.writeScroll d).t, x := BitVec.ofNat 3 d.toNat, w := true } := by
  rw [writeScroll, hw]
  rfl

theorem Ppu.writeScroll_second (hw : p.w = true) (d : Byte) :
    p.writeScroll d = { p with t := (p.writeScroll d).t, w := false } := by
  rw [writeScroll, hw]
  rfl

theorem Ppu.writeAddress_first (hw : p.w = false) (d : Byte) :
    p.writeAddress d = { p with t := (p.writeAddress d).t, w := true } := by
  rw [writeAddress, hw]
  rfl

theorem Ppu.writeAddress_second (hw : p.w = true) (d : Byte) :
    p.writeAddress d = { p with t := (p.writeAddress d).t, v := (p.writeAddress d).t, w := false } := by
  rw [writeAddress, hw]
  rfl

end Toggle

/-- Settles O41: the toggle selects the half, and the byte's bits take their places in `t`. -/
theorem scrollAndAddressRegisters : Obligations.ScrollAndAddressRegisters := by
  intro a d s hlo hhi
  let p : Ppu := { s.ppu with latch := d }
  have hscroll {q : Ppu} (hq : p.writeScroll d = q) (h : a.toNat % 8 = 5) : memWrite a d s = .ok ((), s.setPpu q) :=
    hq ▸ memWrite_ppuRegister hlo hhi h (by decide) d s
  have haddress {q : Ppu} (hq : p.writeAddress d = q) (h : a.toNat % 8 = 6) : memWrite a d s = .ok ((), s.setPpu q) :=
    hq ▸ memWrite_ppuRegister hlo hhi h (by decide) d s
  exact ⟨fun h hw => ⟨_, hscroll (p.writeScroll_first hw d) h, fun _ => p.writeScroll_t_first hw d⟩,
    fun h hw => ⟨_, hscroll (p.writeScroll_second hw d) h, fun _ => p.writeScroll_t_second hw d⟩,
    fun h hw => ⟨_, haddress (p.writeAddress_first hw d) h, fun _ => p.writeAddress_t_first hw d⟩,
    fun h hw => ⟨_, haddress (p.writeAddress_second hw d) h, fun _ => p.writeAddress_t_second hw d⟩⟩

/-! ### VRAM data -/

theorem Ppu.busAddress_eq_ofNat (p : Ppu) : p.busAddress = BitVec.ofNat 16 (p.v.toNat % 0x4000) := by
  apply BitVec.eq_of_toNat_eq
  rw [busAddress_toNat, BitVec.toNat_ofNat]
  omega

/-- The machine after an access to VRAM data that leaves this byte in the read buffer (R317, R318). -/
def State.vramAccessed (s : State) (buffer : Byte) : State :=
  s.setPpu { s.ppu with readBuffer := buffer }.stepAddress

theorem State.vramAccessed_eq (s : State) (buffer : Byte) :
    s.vramAccessed buffer = { s with ppu := { s.ppu with v := Claims.nextV s.ppu, readBuffer := buffer } } := by
  rw [vramAccessed, Ppu.stepAddress_eq]
  rfl

section VramData

variable {s t : State} {p b : Byte}

/-- Below the palette a read answers the buffer and refills it (R317). -/
theorem readVramData_buffered (ha : s.ppu.busAddress.toNat < 0x3F00) (h : ppuRead s.ppu.busAddress s = .ok b) :
    readVramData s = .ok (s.ppu.readBuffer, s.vramAccessed b) := by
  rw [readVramData, M.getS_bind]
  dsimp only
  rw [if_pos ha, M.bind_of_ok (look_of_ok h)]
  rfl

/-- A palette read answers at once and fills the buffer from the nametable under it (R317). -/
theorem readVramData_palette (ha : 0x3F00 ≤ s.ppu.busAddress.toNat) (h : ppuRead s.ppu.busAddress s = .ok p)
    (hunder : ppuRead (s.ppu.busAddress - 0x1000) s = .ok b) : readVramData s = .ok (p, s.vramAccessed b) := by
  rw [readVramData, M.getS_bind]
  dsimp only
  rw [if_neg (by omega), M.bind_of_ok (look_of_ok h), M.bind_of_ok (look_of_ok hunder)]
  rfl

theorem readVramData_refused {c : FatalCondition} (h : ppuRead s.ppu.busAddress s = .error c) :
    readVramData s = .error (.raised c (s.recordFault c)) := by
  rw [readVramData, M.getS_bind]
  dsimp only
  split <;> exact M.bind_of_error (look_of_error h)

/-- A picture-unit write reaches a memory, none of the registers of the picture unit. -/
theorem ppuWrite_registers {a : Word} {d : Byte} (ha : a.toNat < 0x4000) (h : ppuWrite a d s = .ok ((), t)) :
    t.ppu = { s.ppu with nametable := t.ppu.nametable, palette := t.ppu.palette } := by
  rw [ppuWrite_apply ha] at h
  split at h
  · rw [mapPpuWrite, M.getS_bind] at h
    split at h
    · cases hk : chrIndex s a.toNat with
      | none =>
        rw [hk] at h
        cases h
      | some k =>
        rw [hk] at h
        cases h
        rfl
    · cases h
  · split at h <;> cases h <;> rfl

end VramData

/-- Settles O42: the access of the picture-unit bus decides, and one that is made steps `v`. -/
theorem vramDataRegister : Obligations.VramDataRegister := by
  intro a d s hlo hhi h7 at' after
  have haddr : s.ppu.busAddress = at' := s.ppu.busAddress_eq_ofNat
  have hread : memRead a s = readVramData s := by
    rw [memRead_register hlo hhi, readPpuRegister_vramData h7]
  have hafter (b : Byte) : s.vramAccessed b = after s b := s.vramAccessed_eq b
  refine ⟨fun ha b h => ?_, fun ha p b h hunder => ?_, fun c h => ?_, fun t h => ?_, fun f h => ?_⟩
  · rw [hread, readVramData_buffered (haddr ▸ ha) (haddr ▸ h), hafter]
  · rw [hread, readVramData_palette (haddr ▸ ha) (haddr ▸ h) (haddr ▸ hunder), hafter]
  · exact ⟨_, hread.trans (readVramData_refused (haddr ▸ h))⟩
  · rw [memWrite_register hlo hhi, writePpuRegister_vramData h7, M.bind_of_ok (haddr ▸ h)]
    have hat : at'.toNat < 0x4000 := by
      rw [← haddr, Ppu.busAddress_toNat]
      omega
    have hnext : Claims.nextV t.ppu = Claims.nextV s.ppu := by
      rw [ppuWrite_registers hat h]
      rfl
    rw [Machine.update_apply, Ppu.stepAddress_eq, hnext]
    rfl
  · rw [memWrite_register hlo hhi, writePpuRegister_vramData h7]
    exact M.bind_of_error (haddr ▸ h)

end Sys2Proof.Machine

/-! The scroll arithmetic by the fields of `v` (61_ppu.md R347 to R350). -/

namespace Sys2Proof.Machine

/-! ### Coarse X -/

theorem incX_eq (v : BitVec 15) : incX v =
    if v.toNat % 32 = 31 then (v &&& 0x7FE0) ^^^ 0x0400 else BitVec.ofNat 15 (v.toNat + 1) := by
  have hlast : v &&& 0x001F = 31 ↔ v.toNat % 32 = 31 := by
    rw [← BitVec.toNat_inj, BitVec.toNat_and]
    exact iff_of_eq (congrArg (· = 31) (Nat.and_two_pow_sub_one_eq_mod v.toNat 5))
  exact if_congr hlast rfl (by rw [BitVec.ofNat_add, BitVec.ofNat_toNat, BitVec.setWidth_eq]; rfl)

/-! ### Coarse Y and fine Y -/

/-- The address whose fine Y is 0, by its other fields: the nametable bits, coarse Y, coarse X. -/
def vOfFields (vertical horizontal : BitVec 1) (y x : BitVec 5) : BitVec 15 :=
  0#3 ++ vertical ++ horizontal ++ y ++ x

theorem vOfFields_eq_ofNat (vertical horizontal : BitVec 1) (y x : BitVec 5) :
    vOfFields vertical horizontal y x =
      BitVec.ofNat 15 (x.toNat + 32 * y.toNat + 0x400 * horizontal.toNat + 0x800 * vertical.toNat) := by
  apply BitVec.eq_of_toNat_eq
  simp only [vOfFields, toNat_append_eq_add, BitVec.toNat_ofNat]
  omega

theorem vOfFields_getLsbD (vertical horizontal : BitVec 1) (y x : BitVec 5) (k : Nat) :
    (vOfFields vertical horizontal y x).getLsbD k =
      if k < 5 then x.getLsbD k else if k < 10 then y.getLsbD (k - 5)
      else if k < 11 then horizontal.getLsbD (k - 10) else if k < 12 then vertical.getLsbD (k - 11) else false := by
  simp only [vOfFields, BitVec.getLsbD_append, Nat.sub_sub, BitVec.getLsbD_zero]
  grind

section IncY

variable {v : BitVec 15}

/-- Fine Y is 7 in the last eighth of the addresses. -/
theorem and_fineY_eq_iff : v &&& 0x7000 = 0x7000 ↔ 0x7000 ≤ v.toNat := by
  have hbits : v &&& 0x7000 = v.extractLsb' 12 3 ++ 0#12 := by
    refine BitVec.eq_of_getLsbD_eq fun k hk => ?_
    rw [BitVec.getLsbD_append]
    interval_cases k <;> simp
  have hlt : v.toNat < 2 ^ 15 := v.isLt
  rw [hbits, ← BitVec.toNat_inj, toNat_append_eq_add, toNat_extractLsb'_eq_mod]
  change v.toNat / 0x1000 % 8 * 0x1000 + 0 = 0x7000 ↔ 0x7000 ≤ v.toNat
  omega

theorem incY_of_lt (h : v.toNat < 0x7000) : incY v = BitVec.ofNat 15 (v.toNat + 0x1000) := by
  unfold incY
  rw [if_pos fun he => by have := and_fineY_eq_iff.mp he; omega, BitVec.ofNat_add, BitVec.ofNat_toNat, BitVec.setWidth_eq]
  rfl

/-- With fine Y at 7 the row wraps to fine Y 0 of the next coarse Y: 29 goes on in the other vertical nametable, 31 in the
same one. -/
theorem incY_of_ge (h : 0x7000 ≤ v.toNat) : incY v =
    if v.extractLsb' 5 5 = 29 then vOfFields (~~~v.extractLsb' 11 1) (v.extractLsb' 10 1) 0#5 (v.extractLsb' 0 5)
    else if v.extractLsb' 5 5 = 31 then vOfFields (v.extractLsb' 11 1) (v.extractLsb' 10 1) 0#5 (v.extractLsb' 0 5)
    else vOfFields (v.extractLsb' 11 1) (v.extractLsb' 10 1) (v.extractLsb' 5 5 + 1#5) (v.extractLsb' 0 5) := by
  unfold incY
  rw [if_neg (not_not.mpr (and_fineY_eq_iff.mpr h))]
  refine if_congr Iff.rfl ?_ (if_congr Iff.rfl ?_ ?_)
  · refine BitVec.eq_of_getLsbD_eq fun k hk => ?_
    rw [vOfFields_getLsbD]
    interval_cases k <;> simp
  · refine BitVec.eq_of_getLsbD_eq fun k hk => ?_
    rw [vOfFields_getLsbD]
    interval_cases k <;> simp
  · generalize v.extractLsb' 5 5 + 1#5 = y
    refine BitVec.eq_of_getLsbD_eq fun k hk => ?_
    rw [vOfFields_getLsbD]
    interval_cases k <;> simp

end IncY

/-- A field that holds `n`, compared as a number. -/
theorem extractLsb'_eq_ofNat_iff {w start len n : Nat} {v : BitVec w} (hn : n < 2 ^ len) :
    v.extractLsb' start len = BitVec.ofNat len n ↔ v.toNat / 2 ^ start % 2 ^ len = n := by
  rw [← BitVec.toNat_inj, toNat_extractLsb'_eq_mod, BitVec.toNat_ofNat, Nat.mod_eq_of_lt hn]

/-- The coarse Y that follows where fine Y wraps, and whether the vertical nametable is left (R348). -/
def nextCoarseY (y : Nat) : Nat × Bool :=
  if y = 29 then (0, true) else if y = 31 then (0, false) else (y + 1, false)

theorem incY_of_ge_eq_ofNat {v : BitVec 15} (h : 0x7000 ≤ v.toNat) : incY v =
    BitVec.ofNat 15 (v.toNat % 32 + 32 * (nextCoarseY (v.toNat / 32 % 32)).1 + 0x400 * (v.toNat / 0x400 % 2) +
      0x800 * ((v.toNat / 0x800 + (nextCoarseY (v.toNat / 32 % 32)).2.toNat) % 2)) := by
  have h29 : v.extractLsb' 5 5 = 29 ↔ v.toNat / 32 % 32 = 29 := extractLsb'_eq_ofNat_iff (by decide)
  have h31 : v.extractLsb' 5 5 = 31 ↔ v.toNat / 32 % 32 = 31 := extractLsb'_eq_ofNat_iff (by decide)
  rw [incY_of_ge h, nextCoarseY]
  simp only [h29, h31]
  split_ifs
  all_goals
    rw [vOfFields_eq_ofNat]
    refine congrArg (BitVec.ofNat 15) ?_
    simp only [BitVec.toNat_add, BitVec.toNat_not, toNat_extractLsb'_eq_mod, BitVec.toNat_ofNat, Nat.reducePow,
      Nat.reduceMod, Bool.toNat_true, Bool.toNat_false]
    omega

/-! ### The copies -/

theorem copyX_getLsbD (v t : BitVec 15) {k : Nat} (hk : k < 15) :
    (copyX v t).getLsbD k = if k < 5 ∨ k = 10 then t.getLsbD k else v.getLsbD k := by
  unfold copyX
  interval_cases k <;> simp

theorem copyY_getLsbD (v t : BitVec 15) {k : Nat} (hk : k < 15) :
    (copyY v t).getLsbD k = if k < 5 ∨ k = 10 then v.getLsbD k else t.getLsbD k := by
  unfold copyY
  interval_cases k <;> simp

/-- Settles O48: the word operations act on the fields one by one. -/
theorem scrollIncrements : Obligations.ScrollIncrements := by
  refine ⟨incX_eq, fun v => ⟨_, _, incY_of_lt, incY_of_ge_eq_ofNat, fun h => ?_, fun h => ?_, fun h29 h31 => ?_⟩,
    fun v t k hk => ⟨copyX_getLsbD v t hk, copyY_getLsbD v t hk⟩⟩
  · rw [h]
    exact ⟨rfl, rfl⟩
  · rw [h]
    exact ⟨rfl, rfl⟩
  · rw [nextCoarseY, if_neg h29, if_neg h31]
    exact ⟨rfl, rfl⟩

end Sys2Proof.Machine

/-! The position and the flag events of a dot (61_ppu.md R330 to R334), rendering or not. -/

namespace Sys2Proof.Machine

/-! ### The flag events, field by field -/

section FlagEvents

variable (s : State)

/-- The first flag event sets `vblank` and requests the NMI where it is enabled (R333). -/
theorem setVblank_eq : setVblank s = { s with
    ppu := { s.ppu with vblank := true }
    cpu := { s.cpu with nmiPending := s.cpu.nmiPending || s.ppu.nmiEnable } } := by
  unfold setVblank
  cases hn : s.ppu.nmiEnable with
  | true => rw [Bool.or_true]; rfl
  | false => rw [Bool.or_false]; rfl

/-- Both flag events at once: the two dots differ, so at most one of them happens. -/
theorem flagEvents_eq : flagEvents s =
    if s.ppu.scanline = 241 ∧ s.ppu.dot = 1 then setVblank s
    else if s.ppu.scanline = 261 ∧ s.ppu.dot = 1 then s.setPpu s.ppu.clearFlags else s := by
  unfold flagEvents
  dsimp only
  by_cases hv : s.ppu.scanline = 241 ∧ s.ppu.dot = 1
  · rw [if_pos hv, if_pos hv, if_neg]
    rw [setVblank_eq]
    intro (hc : s.ppu.scanline = 261 ∧ s.ppu.dot = 1)
    omega
  · rw [if_neg hv, if_neg hv]

theorem flagEvents_scanline : (flagEvents s).ppu.scanline = s.ppu.scanline := by rw [flagEvents_frame]

theorem flagEvents_dot : (flagEvents s).ppu.dot = s.ppu.dot := by rw [flagEvents_frame]

theorem flagEvents_vblank : (flagEvents s).ppu.vblank =
    if s.ppu.scanline = 241 ∧ s.ppu.dot = 1 then true
    else if s.ppu.scanline = 261 ∧ s.ppu.dot = 1 then false else s.ppu.vblank := by
  rw [flagEvents_eq, setVblank_eq]
  split_ifs <;> rfl

theorem flagEvents_nmiPending : (flagEvents s).cpu.nmiPending =
    if s.ppu.scanline = 241 ∧ s.ppu.dot = 1 then s.cpu.nmiPending || s.ppu.nmiEnable else s.cpu.nmiPending := by
  rw [flagEvents_eq, setVblank_eq]
  split_ifs <;> rfl

variable {s}

/-- At the second flag event the three flags are clear (R334). -/
theorem flagEvents_of_clear (h : s.ppu.scanline = 261 ∧ s.ppu.dot = 1) :
    flagEvents s = s.setPpu s.ppu.clearFlags := by
  rw [flagEvents_eq, if_neg (by omega), if_pos h]

/-- Off the second flag event the sprite flags stay. -/
theorem flagEvents_sprites_of_not_clear (h : ¬(s.ppu.scanline = 261 ∧ s.ppu.dot = 1)) :
    (flagEvents s).ppu.sprOverflow = s.ppu.sprOverflow ∧ (flagEvents s).ppu.spr0Hit = s.ppu.spr0Hit := by
  rw [flagEvents_eq, setVblank_eq, if_neg h]
  split_ifs <;> exact ⟨rfl, rfl⟩

end FlagEvents

/-! ### A dot as tick, rendering and flag events -/

section PpuStep

variable {s t : State}

/-- What a dot leaves unchanged: of the CPU all but the pending NMI, of the console all but the frame event, of the picture
unit the registers of the CPU bus, the memories and OAM. -/
theorem ppuStep_frame (h : ppuStep s = .ok ((), t)) : t = { s with
    cpu := { s.cpu with nmiPending := t.cpu.nmiPending }
    con := { s.con with frameReady := t.con.frameReady }
    ppu := { s.ppu with
      dot := t.ppu.dot, scanline := t.ppu.scanline, odd := t.ppu.odd
      v := t.ppu.v, ntByte := t.ppu.ntByte, atBits := t.ppu.atBits, patLo := t.ppu.patLo, patHi := t.ppu.patHi
      tileShift := t.ppu.tileShift, sprCount := t.ppu.sprCount, slots := t.ppu.slots
      sprOverflow := t.ppu.sprOverflow, spr0Hit := t.ppu.spr0Hit, vblank := t.ppu.vblank
      framebuffer := t.ppu.framebuffer } } := by
  obtain ⟨u, hu, -, rfl⟩ := ppuStep_ok h
  rw [flagEvents_frame, hu.rest, hu.ppu, State.ticked_rest, State.ticked_con, Ppu.tick_frame]
  rfl

/-- The tick alone moves the position and raises the frame event. -/
theorem ppuStep_position (h : ppuStep s = .ok ((), t)) :
    t.ppu.dot = s.ppu.tick.1.dot ∧ t.ppu.scanline = s.ppu.tick.1.scanline ∧ t.ppu.odd = s.ppu.tick.1.odd ∧
      t.con.frameReady = (s.con.frameReady || s.ppu.tick.2) := by
  obtain ⟨u, hu, -, rfl⟩ := ppuStep_ok h
  rw [flagEvents_frame, hu.rest, hu.ppu, State.ticked_ppu, State.setPpu_con, State.ticked_con]
  exact ⟨rfl, rfl, rfl, rfl⟩

theorem ppuStep_vblank (h : ppuStep s = .ok ((), t)) : t.ppu.vblank =
    if t.ppu.scanline = 241 ∧ t.ppu.dot = 1 then true
    else if t.ppu.scanline = 261 ∧ t.ppu.dot = 1 then false else s.ppu.vblank := by
  obtain ⟨u, hu, -, rfl⟩ := ppuStep_ok h
  have hvblank : u.ppu.vblank = s.ppu.vblank := by
    rw [hu.ppu, State.ticked_ppu, Ppu.tick_frame]
    rfl
  rw [flagEvents_vblank, hvblank, flagEvents_scanline, flagEvents_dot]

theorem ppuStep_nmiPending (h : ppuStep s = .ok ((), t)) : t.cpu.nmiPending =
    if t.ppu.scanline = 241 ∧ t.ppu.dot = 1 then s.cpu.nmiPending || s.ppu.nmiEnable else s.cpu.nmiPending := by
  obtain ⟨u, hu, -, rfl⟩ := ppuStep_ok h
  have hpending : u.cpu.nmiPending = s.cpu.nmiPending := by
    rw [hu.rest, State.ticked_rest]
    rfl
  have henable : u.ppu.nmiEnable = s.ppu.nmiEnable := by
    rw [hu.ppu, State.ticked_ppu, Ppu.tick_frame]
    rfl
  rw [flagEvents_nmiPending, hpending, henable, flagEvents_scanline, flagEvents_dot]

theorem ppuStep_of_clear (h : ppuStep s = .ok ((), t)) (hc : t.ppu.scanline = 261 ∧ t.ppu.dot = 1) :
    t.ppu.sprOverflow = false ∧ t.ppu.spr0Hit = false := by
  obtain ⟨u, hu, -, rfl⟩ := ppuStep_ok h
  rw [flagEvents_scanline, flagEvents_dot] at hc
  rw [flagEvents_of_clear hc]
  exact ⟨rfl, rfl⟩

/-- Settles O45: the events are at the position the tick reaches, and rendering touches neither flag nor CPU. -/
theorem vblankEvents : Obligations.VblankEvents := by
  intro s t h start clear
  have hcpu : t.cpu = { s.cpu with nmiPending := t.cpu.nmiPending } := congrArg State.cpu (ppuStep_frame h)
  refine ⟨fun hv => ?_, fun hc => ⟨?_, ppuStep_of_clear h hc⟩, fun hv hc => ?_, hcpu, ?_⟩
  · rw [ppuStep_vblank h, if_pos hv]
  · rw [ppuStep_vblank h, if_neg (by omega), if_pos hc]
  · rw [ppuStep_vblank h, if_neg hv, if_neg hc]
  · rw [ppuStep_nmiPending h]
    by_cases hv : start
    · rw [if_pos hv, Bool.or_eq_true]
      exact or_congr_right (and_iff_right hv).symm
    · rw [if_neg hv, or_iff_left fun hnmi => hv hnmi.1]

end PpuStep

/-- Settles O46: without rendering a dot is its tick and its flag events. -/
theorem renderingOffDot : Obligations.RenderingOffDot := by
  intro s hbg hspr
  have h : ppuStep s = .ok ((), flagEvents s.ticked) := ppuStep_off (by rw [Ppu.rendering, hbg, hspr]; rfl)
  refine ⟨_, h, ?_, fun hv hc => ?_, fun hv => ?_, fun hc => ?_⟩
  · rw [flagEvents_frame, State.ticked_rest, State.ticked_con, Ppu.tick_frame]
  · rw [ppuStep_vblank h, if_neg hv, if_neg hc]
  · rw [ppuStep_nmiPending h, if_neg hv]
  · rw [flagEvents_scanline, flagEvents_dot] at hc
    obtain ⟨hoverflow, hhit⟩ := flagEvents_sprites_of_not_clear hc
    rw [hoverflow, hhit, State.ticked_ppu, Ppu.tick_frame]
    exact ⟨rfl, rfl⟩

/-! ### The position -/

section Position

variable {p : Ppu}

theorem Ppu.position_nextFrame (p : Ppu) : Claims.position p.nextFrame = 0 := by
  simp [Claims.position, nextFrame]

/-- The odd-frame skip goes from the last dot but one to the next frame (R331). -/
theorem Ppu.tick_of_skips (h : Claims.skips p) : p.tick = (p.nextFrame, true) := by
  obtain ⟨hrendering, hodd, hscanline, hdot⟩ := h
  have hr : p.rendering = true := by simpa [rendering] using hrendering
  simp [tick, hr, hodd, hscanline, hdot]

/-- Without the skip a tick goes to the next dot, and from the last one to the next frame (R331). -/
theorem Ppu.tick_of_not_skips (hp : p.InRange) (h : ¬Claims.skips p) :
    (Claims.position p = 89341 ∧ p.tick = (p.nextFrame, true)) ∨
      (Claims.position p ≠ 89341 ∧ Claims.position p.tick.1 = Claims.position p + 1 ∧ p.tick.1.odd = p.odd ∧
        p.tick.2 = false) := by
  have hdot := hp.dot
  have hscanline := hp.scanline
  unfold tick
  rw [if_neg]
  · unfold Claims.position
    split_ifs with hrow hframe
    · exact .inr ⟨by omega, by dsimp only; omega, rfl, rfl⟩
    · exact .inr ⟨by omega, by dsimp only; omega, rfl, rfl⟩
    · exact .inl ⟨by omega, rfl⟩
  · intro hskip
    simp only [rendering, Bool.and_eq_true, Bool.or_eq_true, decide_eq_true_eq] at hskip
    obtain ⟨⟨⟨hrendering, hodd⟩, h261⟩, h339⟩ := hskip
    exact h ⟨hrendering, hodd, h261, h339⟩

theorem Ppu.position_lt (hp : p.InRange) : Claims.position p < 89342 := by
  have hdot := hp.dot
  have hscanline := hp.scanline
  unfold Claims.position
  omega

end Position

/-- Settles O44: the position after a dot is the tick's, rendering or not. -/
theorem positionAdvances : Obligations.PositionAdvances := by
  intro s t hp h
  obtain ⟨hdot, hscanline, hodd, hready⟩ := ppuStep_position h
  have hposition : Claims.position t.ppu = Claims.position s.ppu.tick.1 := by
    rw [Claims.position, hdot, hscanline]
    rfl
  have hrange := Ppu.tick_inRange hp
  have hlt := Ppu.position_lt hp
  refine ⟨hdot ▸ hrange.dot, hscanline ▸ hrange.scanline, fun hs => ?_, fun hs => ?_⟩
  · rw [hposition, hodd, hready, Ppu.tick_of_skips hs, Bool.or_true]
    exact ⟨Ppu.position_nextFrame _, rfl, rfl⟩
  · rw [hposition, hodd, hready]
    rcases Ppu.tick_of_not_skips hp hs with ⟨hlast, htick⟩ | ⟨hnot, hnext, hsame, hquiet⟩
    · have hwrap : (Claims.position s.ppu + 1) % 89342 = 0 := by omega
      rw [htick, hwrap, Bool.or_true]
      exact ⟨Ppu.position_nextFrame _, fun _ => ⟨rfl, rfl⟩, fun hne => absurd hlast hne⟩
    · rw [hnext, hsame, hquiet, Bool.or_false]
      have hmod : (Claims.position s.ppu + 1) % 89342 = Claims.position s.ppu + 1 := Nat.mod_eq_of_lt (by omega)
      exact ⟨hmod.symm, fun he => absurd he hnot, fun _ => ⟨rfl, rfl⟩⟩

end Sys2Proof.Machine

/-! The background pipeline of a rendering dot (61_ppu.md R340 to R346): addresses and bytes by their fields, and one fetch
action by the dot modulo 8. -/

namespace Sys2Proof.Machine

/-! ### Addresses and bytes by their fields -/

theorem ntAddress_eq (v : BitVec 15) : ntAddress v = Claims.nametableAddress v := by
  have hfields : ntAddress v = 2#4 ++ v.extractLsb' 0 12 := by
    unfold ntAddress
    refine BitVec.eq_of_getLsbD_eq fun k hk => ?_
    rw [BitVec.getLsbD_append]
    interval_cases k <;> simp
  rw [hfields]
  apply BitVec.eq_of_toNat_eq
  simp only [toNat_append_eq_add, toNat_extractLsb'_eq_mod, Claims.nametableAddress, BitVec.toNat_ofNat, Nat.reducePow]
  omega

theorem atAddress_eq (v : BitVec 15) : atAddress v = Claims.attributeAddress v := by
  have hfields : atAddress v = 2#4 ++ v.extractLsb' 10 2 ++ 15#4 ++ v.extractLsb' 7 3 ++ v.extractLsb' 2 3 := by
    unfold atAddress
    refine BitVec.eq_of_getLsbD_eq fun k hk => ?_
    simp only [BitVec.getLsbD_append]
    interval_cases k <;> simp
  rw [hfields]
  apply BitVec.eq_of_toNat_eq
  simp only [toNat_append_eq_add, toNat_extractLsb'_eq_mod, Claims.attributeAddress, BitVec.toNat_ofNat, Nat.reducePow]
  omega

theorem atShift_eq (v : BitVec 15) : atShift v = Claims.attributeShift v := by
  have hfields : ((v >>> 4) &&& 4) ||| (v &&& 2) = 0#12 ++ v.extractLsb' 6 1 ++ v.extractLsb' 1 1 ++ 0#1 := by
    refine BitVec.eq_of_getLsbD_eq fun k hk => ?_
    simp only [BitVec.getLsbD_append]
    interval_cases k <;> simp
  rw [atShift, hfields, Claims.attributeShift]
  simp only [toNat_append_eq_add, toNat_extractLsb'_eq_mod, BitVec.toNat_ofNat, Nat.reducePow]
  omega

/-- The palette bits as a number: the quadrant's two bits in the upper half of the nibble (R342). -/
theorem atBits_eq (b : Byte) (shift : Nat) :
    ((b >>> shift) &&& 3).setWidth 4 <<< 2 = BitVec.ofNat 4 (4 * (b.toNat / 2 ^ shift % 4)) := by
  have hquadrant : ((b >>> shift) &&& 3).toNat = b.toNat / 2 ^ shift % 4 := by
    rw [BitVec.toNat_and, BitVec.toNat_ushiftRight, Nat.shiftRight_eq_div_pow]
    exact Nat.and_two_pow_sub_one_eq_mod _ 2
  apply BitVec.eq_of_toNat_eq
  rw [BitVec.toNat_shiftLeft, BitVec.toNat_setWidth, hquadrant, BitVec.toNat_ofNat, Nat.shiftLeft_eq]
  omega

theorem Ppu.bgPatternAddress_eq (p : Ppu) : p.bgPatternAddress = Claims.tileAddress p := by
  have hrow : (p.v.extractLsb' 12 3).toNat = p.v.toNat / 4096 := by
    have hlt : p.v.toNat < 2 ^ 15 := p.v.isLt
    rw [toNat_extractLsb'_eq_mod]
    omega
  rw [bgPatternAddress, patternAddress, hrow, Claims.tileAddress]
  cases p.bgTable <;> rfl

theorem pixelNibble_eq (palette : BitVec 4) (hi lo : Byte) (bit : Nat) : pixelNibble palette hi lo bit =
    palette ||| BitVec.ofNat 4 (2 * (hi.getLsbD bit).toNat + (lo.getLsbD bit).toNat) := by
  rw [pixelNibble, BitVec.or_assoc]
  cases hi.getLsbD bit <;> cases lo.getLsbD bit <;> rfl

theorem Ppu.storeTile_eq (p : Ppu) : p.storeTile =
    { p with tileShift := p.tileShift ||| (Claims.packed8 (Claims.tileNibble p)).setWidth 64 } := by
  have hnibble (i : Nat) : pixelNibble p.atBits p.patHi p.patLo (7 - i) = Claims.tileNibble p i := pixelNibble_eq ..
  have hrow : pixelRow p.atBits p.patHi p.patLo false = Claims.packed8 (Claims.tileNibble p) := by
    simp only [pixelRow, Claims.packed8, ← hnibble]
    rfl
  rw [storeTile, hrow]

/-! ### One fetch action -/

/-- What the fetch action of a dot leaves in the picture unit, by the dot modulo 8 (R340): the register has shifted, and one
byte has been read or the tile packed. -/
inductive Fetched (s : State) : Ppu → Prop where
  | ntByte {b : Byte} : s.ppu.dot % 8 = 1 → ppuRead (Claims.nametableAddress s.ppu.v) s = .ok b →
      Fetched s { s.ppu with tileShift := s.ppu.tileShift <<< 4, ntByte := b }
  | atBits {b : Byte} : s.ppu.dot % 8 = 3 → ppuRead (Claims.attributeAddress s.ppu.v) s = .ok b →
      Fetched s { s.ppu with
        tileShift := s.ppu.tileShift <<< 4
        atBits := BitVec.ofNat 4 (4 * (b.toNat / 2 ^ Claims.attributeShift s.ppu.v % 4)) }
  | patLo {b : Byte} : s.ppu.dot % 8 = 5 → ppuRead (Claims.tileAddress s.ppu) s = .ok b →
      Fetched s { s.ppu with tileShift := s.ppu.tileShift <<< 4, patLo := b }
  | patHi {b : Byte} : s.ppu.dot % 8 = 7 → ppuRead (Claims.tileAddress s.ppu + 8) s = .ok b →
      Fetched s { s.ppu with tileShift := s.ppu.tileShift <<< 4, patHi := b }
  | packed : s.ppu.dot % 8 = 0 →
      Fetched s { s.ppu with
        tileShift := (s.ppu.tileShift <<< 4) ||| (Claims.packed8 (Claims.tileNibble s.ppu)).setWidth 64 }
  | shifted : s.ppu.dot % 8 ∈ [2, 4, 6] → Fetched s { s.ppu with tileShift := s.ppu.tileShift <<< 4 }

section Fetch

variable {s t : State}

theorem fetchByte_ok {a : Word} {f : Byte → Ppu → Ppu} (h : (look (ppuRead a) >>= fun b => updatePpu (f b)) s = .ok ((), t)) :
    ∃ b, ppuRead a s = .ok b ∧ t = s.setPpu (f b s.ppu) := by
  obtain ⟨b, u, hlook, hupdate⟩ := M.bind_ok.mp h
  obtain ⟨hread, rfl⟩ := look_ok.mp hlook
  cases hupdate
  exact ⟨b, hread, rfl⟩

/-- The picture unit has no part in a pattern read, and of a nametable or palette read only those memories. -/
theorem ppuRead_shifted (a : Word) (s : State) :
    ppuRead a (s.setPpu { s.ppu with tileShift := s.ppu.tileShift <<< 4 }) = ppuRead a s := rfl

theorem fetchAction_fetched (h : fetchAction s = .ok ((), t)) : Fetched s t.ppu ∧ t = s.setPpu t.ppu := by
  have hlt : s.ppu.dot % 8 < 8 := Nat.mod_lt _ (by decide)
  rw [fetchAction, updatePpu, M.update_bind, M.getS_bind] at h
  dsimp only [State.setPpu_ppu] at h
  generalize hd : s.ppu.dot % 8 = n at h hlt
  split at h
  · obtain ⟨b, hb, rfl⟩ := fetchByte_ok (f := fun b p => { p with ntByte := b }) h
    rw [ppuRead_shifted, ntAddress_eq] at hb
    exact ⟨.ntByte hd hb, rfl⟩
  · obtain ⟨b, hb, rfl⟩ := fetchByte_ok (f := fun b p => { p with atBits := ((b >>> atShift s.ppu.v) &&& 3).setWidth 4 <<< 2 }) h
    rw [ppuRead_shifted, State.setPpu_ppu, atAddress_eq] at hb
    rw [atBits_eq, atShift_eq]
    exact ⟨.atBits hd hb, rfl⟩
  · obtain ⟨b, hb, rfl⟩ := fetchByte_ok (f := fun b p => { p with patLo := b }) h
    rw [ppuRead_shifted, Ppu.bgPatternAddress_eq] at hb
    exact ⟨.patLo hd hb, rfl⟩
  · obtain ⟨b, hb, rfl⟩ := fetchByte_ok (f := fun b p => { p with patHi := b }) h
    rw [ppuRead_shifted, Ppu.bgPatternAddress_eq] at hb
    exact ⟨.patHi hd hb, rfl⟩
  · rw [updatePpu, Machine.update_apply, Ppu.storeTile_eq] at h
    cases h
    exact ⟨.packed hd, rfl⟩
  · cases h
    exact ⟨.shifted (by grind), rfl⟩

end Fetch

end Sys2Proof.Machine

/-! Sprite evaluation (61_ppu.md R351, R352): the scan slot by slot, and the row of pixels each slot takes. -/

namespace Sys2Proof.Machine

/-! ### The row a sprite shows -/

/-- The upper tile of a tall sprite: its number with bit 0 cleared. -/
theorem evenTile_toNat (tile : Byte) : (tile &&& 0xFE).toNat = tile.toNat / 2 * 2 := by
  have hbits : tile &&& 0xFE = tile.extractLsb' 1 7 ++ 0#1 := by
    refine BitVec.eq_of_getLsbD_eq fun k hk => ?_
    rw [BitVec.getLsbD_append]
    interval_cases k <;> simp
  have hlt : tile.toNat < 2 ^ 8 := tile.isLt
  rw [hbits, toNat_append_eq_add, toNat_extractLsb'_eq_mod]
  change tile.toNat / 2 % 128 * 2 + 0 = _
  omega

theorem Ppu.spritePatternAddress_eq (p : Ppu) (tile attr : Byte) {row : Nat} (hrow : row < p.spriteHeight) :
    p.spritePatternAddress tile attr row = Claims.spriteAddress p tile attr row := by
  have hflip : (attr.getLsbD 7 = true) ↔ 128 ≤ attr.toNat := by rw [getLsbD_seven, decide_eq_true_iff]
  unfold spritePatternAddress Claims.spriteAddress
  cases hs : p.sprSize with
  | false =>
    simp only [Bool.false_eq_true, if_false, hflip, patternAddress]
    cases p.sprTable <;> rfl
  | true =>
    rw [spriteHeight, hs, if_pos rfl] at hrow
    simp only [if_true, hflip]
    have hr : (if 128 ≤ attr.toNat then 15 - row else row) < 16 := by split <;> omega
    generalize (if 128 ≤ attr.toNat then 15 - row else row) = r at hr
    have htable : (if tile.getLsbD 0 = true then 0x1000 else 0) = 4096 * (tile.toNat % 2) := by
      rw [getLsbD_zero_eq_decide]
      split <;> simp_all
    have hnext : ((tile &&& 0xFE) + 1).toNat = tile.toNat / 2 * 2 + 1 := by
      have hlt : tile.toNat < 2 ^ 8 := tile.isLt
      rw [BitVec.toNat_add, evenTile_toNat]
      change (tile.toNat / 2 * 2 + 1) % 256 = _
      omega
    unfold patternAddress
    rw [htable]
    split
    · rw [hnext]
      congr 1
      omega
    · rw [evenTile_toNat]
      congr 1
      omega

theorem spriteRow_eq (attr lo hi : Byte) : pixelRow ((attr &&& 3).setWidth 4 <<< 2) hi lo (attr.getLsbD 6) =
    Claims.packed8 (Claims.spriteNibble attr lo hi) := by
  have hnibble (k : Nat) : pixelNibble ((attr &&& 3).setWidth 4 <<< 2) hi lo k =
      BitVec.ofNat 4 (4 * (attr.toNat % 4) + 2 * (hi.getLsbD k).toNat + (lo.getLsbD k).toNat) := by
    have hpalette : (attr &&& 3).setWidth 4 <<< 2 = BitVec.ofNat 4 (4 * (attr.toNat % 4)) := by
      simpa using atBits_eq attr 0
    have hplanes : 2 * (hi.getLsbD k).toNat + (lo.getLsbD k).toNat < 2 ^ 2 := by
      have hhi : (hi.getLsbD k).toNat ≤ 1 := Bool.toNat_le _
      have hlo : (lo.getLsbD k).toNat ≤ 1 := Bool.toNat_le _
      omega
    rw [pixelNibble_eq, hpalette, Nat.add_assoc, ← BitVec.ofNat_or]
    exact congrArg (BitVec.ofNat 4) (Nat.two_pow_add_eq_or_of_lt hplanes _).symm
  simp only [pixelRow, hnibble]
  rfl

/-- The slot shows OAM record `n`: its column, its priority and the row of pixels that the scanline crosses (R351, R352). -/
def SlotShows (s : State) (n : Nat) (slot : Slot) : Prop :=
  ∃ lo hi,
    let tile := s.ppu.oam.read (4 * n + 1)
    let attr := s.ppu.oam.read (4 * n + 2)
    let address := Claims.spriteAddress s.ppu tile attr (s.ppu.scanline - (s.ppu.oam.read (4 * n)).toNat)
    slot.index = BitVec.ofNat 6 n ∧ slot.posX = s.ppu.oam.read (4 * n + 3) ∧ slot.priority = attr.getLsbD 5 ∧
      ppuRead address s = .ok lo ∧ ppuRead (address + 8) s = .ok hi ∧
      slot.pattern = Claims.packed8 (Claims.spriteNibble attr lo hi)

theorem spritePattern_row {s t : State} {tile attr : Byte} {row : Nat} {pattern : BitVec 32} (hrow : row < s.ppu.spriteHeight)
    (h : spritePattern tile attr row s = .ok (pattern, t)) :
    t = s ∧ ∃ lo hi, ppuRead (Claims.spriteAddress s.ppu tile attr row) s = .ok lo ∧
      ppuRead (Claims.spriteAddress s.ppu tile attr row + 8) s = .ok hi ∧
      pattern = Claims.packed8 (Claims.spriteNibble attr lo hi) := by
  rw [spritePattern, M.getS_bind, Ppu.spritePatternAddress_eq _ _ _ hrow] at h
  obtain ⟨lo, u, hlo, h'⟩ := M.bind_ok.mp h
  obtain ⟨hlo, rfl⟩ := look_ok.mp hlo
  obtain ⟨hi, u, hhi, h''⟩ := M.bind_ok.mp h'
  obtain ⟨hhi, rfl⟩ := look_ok.mp hhi
  rw [spriteRow_eq] at h''
  cases h''
  exact ⟨rfl, lo, hi, hlo, hhi, rfl⟩

theorem covers_iff (p : Ppu) (n : Nat) : Claims.covers p n = true ↔
    (p.oam.read (4 * n)).toNat ≤ p.scanline ∧ p.scanline - (p.oam.read (4 * n)).toNat < p.spriteHeight := by
  rw [Claims.covers, decide_eq_true_iff, Ppu.spriteHeight]
  split <;> omega

/-! ### The scan -/

/-- What the scan leaves that met these records with `count` slots filled: the slots filled at its end, the machine. -/
structure Scanned (s : State) (count : Nat) (records : List Nat) (filled : Nat) (t : State) : Prop where
  frame : t = s.setPpu { s.ppu with slots := t.ppu.slots, sprOverflow := t.ppu.sprOverflow }
  filled : filled = min 8 (count + records.length)
  overflow : t.ppu.sprOverflow = true ↔ s.ppu.sprOverflow = true ∨ 8 < count + records.length
  kept : ∀ (k : Nat) (h : k < 8), k < count → t.ppu.slots[k] = s.ppu.slots[k]
  shown : ∀ (k : Nat) (h : k < 8), count ≤ k → ∀ n, records[k - count]? = some n → SlotShows s n t.ppu.slots[k]

section Scan

variable {s t : State} {count filled : Nat} {records : List Nat}

/-- No record is left. -/
theorem Scanned.nil (hc : count ≤ 8) : Scanned s count [] count s where
  frame := rfl
  filled := (Nat.min_eq_right hc).symm
  overflow := (or_iff_left (Nat.not_lt.mpr hc)).symm
  kept _ _ _ := rfl
  shown _ _ _ n hn := by simp at hn

/-- The ninth record ends the scan. -/
theorem Scanned.ninth (n : Nat) :
    Scanned s 8 (n :: records) 8 (s.setPpu { s.ppu with sprOverflow := true }) where
  frame := rfl
  filled := by simp
  overflow := by simp
  kept _ _ _ := rfl
  shown _ _ _ _ _ := by omega

/-- A record takes the next slot. -/
theorem Scanned.cons {n : Nat} {slot : Slot} (hslot : SlotShows s n slot)
    (h : Scanned (s.setPpu (s.ppu.setSlot count slot)) (count + 1) records filled t) :
    Scanned s count (n :: records) filled t where
  frame := h.frame
  filled := by rw [h.filled, List.length_cons]; omega
  overflow := by rw [h.overflow, List.length_cons, Nat.add_right_comm, Nat.add_assoc]; rfl
  kept k hk hkc := by
    rw [h.kept k hk (by omega)]
    exact Vector.getElem_setIfInBounds_ne hk (by omega)
  shown k hk hck m hm := by
    rcases Nat.eq_or_lt_of_le hck with rfl | hlt
    · rw [Nat.sub_self, List.getElem?_cons_zero, Option.some.injEq] at hm
      subst hm
      have hstored : t.ppu.slots[count] = slot :=
        (h.kept count hk (by omega)).trans (Vector.getElem_setIfInBounds_self hk)
      rwa [hstored]
    · have hnext : k - count = k - (count + 1) + 1 := by omega
      rw [hnext, List.getElem?_cons_succ] at hm
      exact h.shown k hk hlt m hm

/-- The scan meets the covering records of the last `left` ones in their order. -/
theorem scanSprites_scanned : ∀ (left count : Nat) (s t : State) (filled : Nat), left ≤ 64 → count ≤ 8 →
    scanSprites left count s = .ok (filled, t) →
      Scanned s count ((List.range' (64 - left) left).filter (Claims.covers s.ppu)) filled t
  | 0, count, s, t, filled, _, hc, h => by
    cases h
    exact .nil hc
  | left + 1, count, s, t, filled, hl, hc, h => by
    have hfirst : 64 - (left + 1) = 63 - left := by omega
    have hrest : 63 - left + 1 = 64 - left := by omega
    rw [List.range'_succ, hfirst, hrest, List.filter_cons]
    rw [scanSprites, M.getS_bind] at h
    simp only [← covers_iff] at h
    split at h
    · next hcovers =>
      rw [if_pos hcovers]
      split at h
      · next h8 =>
        obtain ⟨pattern, u, hpattern, hscan⟩ := M.bind_ok.mp h
        obtain ⟨rfl, lo, hi, hlo, hhi, rfl⟩ := spritePattern_row ((covers_iff _ _).mp hcovers).2 hpattern
        rw [updatePpu, M.update_bind] at hscan
        exact .cons ⟨lo, hi, rfl, rfl, rfl, hlo, hhi, rfl⟩ (scanSprites_scanned left (count + 1) _ t filled (by omega) h8 hscan)
      · next h8 =>
        obtain rfl : count = 8 := by omega
        cases h
        exact .ninth _
    · next hcovers =>
      rw [if_neg hcovers]
      exact scanSprites_scanned left count s t filled (by omega) hc h

end Scan

/-- The records the scan looks at, as a stretch of the numbers from the first one on. -/
theorem found_eq (p : Ppu) : Claims.found p =
    (List.range' (p.oamAddr.toNat / 4) (64 - p.oamAddr.toNat / 4)).filter (Claims.covers p) := by
  have hlt : p.oamAddr.toNat < 2 ^ 8 := p.oamAddr.isLt
  generalize hfirst : p.oamAddr.toNat / 4 = first
  have hle : first ≤ 64 := by omega
  have hsplit : List.range 64 = List.range' 0 first ++ List.range' first (64 - first) := by
    have happend := List.range'_append_1 (s := 0) (m := first) (n := 64 - first)
    rw [Nat.zero_add, Nat.add_sub_of_le hle] at happend
    rw [happend, List.range_eq_range']
  have hbefore : (List.range' 0 first).filter (fun n => decide (first ≤ n) && Claims.covers p n) = [] := by
    refine List.filter_eq_nil_iff.mpr fun n hn => ?_
    have hn' : n < first := by simpa using hn
    simp [Nat.not_le.mpr hn']
  have hfrom : (List.range' first (64 - first)).filter (fun n => decide (first ≤ n) && Claims.covers p n) =
      (List.range' first (64 - first)).filter (Claims.covers p) := by
    refine List.filter_congr fun n hn => ?_
    have hn' : first ≤ n := (List.mem_range'_1.mp hn).1
    rw [decide_eq_true hn', Bool.true_and]
  rw [Claims.found, hfirst, hsplit, List.filter_append, hbefore, hfrom, List.nil_append]

/-- Settles O50: the scan from the first record fills the slots in order. -/
theorem spriteEvaluation : Obligations.SpriteEvaluation := by
  intro s t h records
  have hlt : s.ppu.oamAddr.toNat < 2 ^ 8 := s.ppu.oamAddr.isLt
  rw [evaluateSprites, M.getS_bind] at h
  obtain ⟨filled, u, hscan, hupdate⟩ := M.bind_ok.mp h
  have hfirst : 64 - (64 - s.ppu.oamAddr.toNat / 4) = s.ppu.oamAddr.toNat / 4 := by omega
  have hs := scanSprites_scanned _ 0 s u filled (Nat.sub_le _ _) (Nat.zero_le 8) hscan
  rw [hfirst, ← found_eq] at hs
  cases hupdate
  refine ⟨?_, ?_, fun k hk hrecord => ?_⟩
  · rw [hs.frame, hs.filled, Nat.zero_add]
    rfl
  · rw [← Nat.zero_add records.length]
    exact hs.overflow
  · have hget : records[k]? = some records[k] := List.getElem?_eq_getElem hrecord
    obtain ⟨lo, hi, hshown⟩ := hs.shown k hk (Nat.zero_le k) records[k] hget
    exact ⟨records[k], lo, hi, hget, hshown⟩

end Sys2Proof.Machine

/-! A rendering dot stage by stage (61_ppu.md R330): the tick, the pixel, the fetch action, the scroll updates, the sprites,
the flag events; and what each stage may change. -/

namespace Sys2Proof.Machine

/-! ### The stages -/

/-- The picture unit after the pixel of its dot, if the dot has one. -/
def Ppu.drawn (p : Ppu) : Ppu := if decide (p.scanline ≤ 239) && p.visDot then p.renderPixel else p

theorem Ppu.drawn_of_visible {p : Ppu} (h : p.scanline ≤ 239 ∧ 1 ≤ p.dot ∧ p.dot ≤ 256) : p.drawn = p.renderPixel := by
  simp [drawn, visDot, h]

theorem Ppu.drawn_of_not_visible {p : Ppu} (h : ¬(p.scanline ≤ 239 ∧ 1 ≤ p.dot ∧ p.dot ≤ 256)) : p.drawn = p := by
  rw [drawn, if_neg]
  simpa [visDot] using h

/-- The picture unit after the sprite buffer has been emptied, at the dots that empty it. -/
def Ppu.emptied (p : Ppu) : Ppu := if p.dot == 257 && !decide (p.scanline ≤ 239) then { p with sprCount := 0 } else p

/-- The machine after the tick and the pixel. -/
def State.drawn (s : State) : State := s.ticked.setPpu s.ticked.ppu.drawn

theorem whenPpu_apply (test : Ppu → Bool) (x : M Unit) (s : State) :
    whenPpu test x s = if test s.ppu then x s else .ok ((), s) := by
  rw [whenPpu, M.getS_bind]
  split <;> rfl

theorem whenPpu_updatePpu (test : Ppu → Bool) (f : Ppu → Ppu) (s : State) :
    whenPpu test (updatePpu f) s = .ok ((), s.setPpu (if test s.ppu then f s.ppu else s.ppu)) := by
  rw [whenPpu_apply]
  split <;> rfl

/-- A rendering dot that completes, cut at its two parts that read the picture-unit bus: `f` is the machine after the fetch
action, `e` the one after sprite evaluation. -/
theorem ppuStep_stages {s t : State} (hr : s.ppu.showBg = true ∨ s.ppu.showSpr = true) (h : ppuStep s = .ok ((), t)) :
    ∃ f e, whenPpu (fun p => p.renderLine && p.fetchDot) fetchAction s.drawn = .ok ((), f) ∧
      whenPpu (fun p => p.dot == 257 && decide (p.scanline ≤ 239)) evaluateSprites (f.setPpu f.ppu.scrollUpdates) =
        .ok ((), e) ∧
      t = flagEvents (e.setPpu e.ppu.emptied) := by
  have hrendering : s.ticked.ppu.rendering = true := by
    rw [State.ticked_ppu, Ppu.tick_frame]
    exact Bool.or_eq_true_iff.mpr hr
  rw [ppuStep, M.bind_of_ok (tick_apply s)] at h
  obtain ⟨_, u, hrender, hevents⟩ := M.bind_ok.mp h
  rw [whenPpu_apply, if_pos hrendering, renderActions, M.bind_of_ok (whenPpu_updatePpu _ _ _)] at hrender
  obtain ⟨_, f, hf, hrest⟩ := M.bind_ok.mp hrender
  rw [updatePpu, M.update_bind] at hrest
  obtain ⟨_, e, he, hempty⟩ := M.bind_ok.mp hrest
  rw [whenPpu_updatePpu] at hempty
  cases hempty
  cases hevents
  exact ⟨f, e, hf, he, rfl⟩

/-! ### What each stage may change -/

theorem Ppu.drawn_frame (p : Ppu) :
    p.drawn = { p with framebuffer := p.drawn.framebuffer, spr0Hit := p.drawn.spr0Hit } := by
  unfold drawn renderPixel
  dsimp only
  split_ifs <;> rfl

theorem Ppu.emptied_sprCount (p : Ppu) :
    p.emptied.sprCount = if p.dot = 257 ∧ ¬p.scanline ≤ 239 then 0 else p.sprCount := by
  simp only [emptied, Bool.and_eq_true, beq_iff_eq, Bool.not_eq_true', decide_eq_false_iff_not]
  split <;> rfl

theorem Ppu.emptied_frame (p : Ppu) : p.emptied = { p with sprCount := p.emptied.sprCount } := by
  unfold emptied
  split <;> rfl

/-- The fetch action changes the pipeline of the background only. -/
theorem Fetched.frame {s : State} {q : Ppu} (h : Fetched s q) : q = { s.ppu with
    ntByte := q.ntByte, atBits := q.atBits, patLo := q.patLo, patHi := q.patHi, tileShift := q.tileShift } := by
  cases h <;> rfl

/-- Where the picture unit stands on a render line and a fetch dot, it fetches. -/
theorem Ppu.fetches_iff (p : Ppu) : (p.renderLine && p.fetchDot) = true ↔ Claims.fetches p := by
  simp only [renderLine, fetchDot, visDot, Bool.and_eq_true, Bool.or_eq_true, decide_eq_true_eq]
  rfl

theorem State.drawn_eq (s : State) : s.drawn = { s with
    con := s.ticked.con
    ppu := { s.ppu with
      dot := s.ppu.tick.1.dot, scanline := s.ppu.tick.1.scanline, odd := s.ppu.tick.1.odd
      framebuffer := s.ticked.ppu.drawn.framebuffer, spr0Hit := s.ticked.ppu.drawn.spr0Hit } } := by
  rw [drawn, Ppu.drawn_frame, State.ticked_ppu, Ppu.tick_frame, State.ticked_rest]
  rfl

/-- The fetch stage: the fetch action where the picture unit fetches, and nothing elsewhere. -/
theorem whenPpu_fetchAction {s f : State}
    (h : whenPpu (fun p => p.renderLine && p.fetchDot) fetchAction s = .ok ((), f)) :
    (Claims.fetches s.ppu → Fetched s f.ppu) ∧ (¬Claims.fetches s.ppu → f = s) ∧
      f = { s with ppu := { s.ppu with
        ntByte := f.ppu.ntByte, atBits := f.ppu.atBits, patLo := f.ppu.patLo, patHi := f.ppu.patHi
        tileShift := f.ppu.tileShift } } := by
  rw [whenPpu_apply] at h
  split at h
  · next hfetches =>
    obtain ⟨hfetched, hf⟩ := fetchAction_fetched h
    refine ⟨fun _ => hfetched, fun hnot => absurd (s.ppu.fetches_iff.mp hfetches) hnot, ?_⟩
    rw [hf, State.setPpu_ppu, hfetched.frame]
    rfl
  · next hnot =>
    cases h
    exact ⟨fun hfetches => absurd (s.ppu.fetches_iff.mpr hfetches) hnot, fun _ => rfl, rfl⟩

/-- The sprite stage changes the sprite buffer and the overflow flag only. -/
theorem whenPpu_evaluateSprites_frame {test : Ppu → Bool} {s e : State} (h : whenPpu test evaluateSprites s = .ok ((), e)) :
    e = { s with ppu := { s.ppu with
      sprCount := e.ppu.sprCount, slots := e.ppu.slots, sprOverflow := e.ppu.sprOverflow } } := by
  rw [whenPpu_apply] at h
  split at h
  · have hframe := (spriteEvaluation s e h).1
    have hcount : e.ppu.sprCount = _ := congrArg (·.ppu.sprCount) hframe
    rw [hcount]
    exact hframe
  · cases h
    rfl

/-- The stages after the fetch action leave the pipeline and the position alone. -/
theorem ppuStep_after_fetch {f e t : State} {test : Ppu → Bool}
    (he : whenPpu test evaluateSprites (f.setPpu f.ppu.scrollUpdates) = .ok ((), e))
    (ht : t = flagEvents (e.setPpu e.ppu.emptied)) : t.ppu = { f.ppu with
      v := f.ppu.scrollUpdates.v, sprCount := e.ppu.emptied.sprCount, slots := e.ppu.slots
      sprOverflow := t.ppu.sprOverflow, spr0Hit := t.ppu.spr0Hit, vblank := t.ppu.vblank } := by
  subst ht
  rw [flagEvents_frame, State.setPpu_ppu, Ppu.emptied_frame, whenPpu_evaluateSprites_frame he, State.setPpu_ppu,
    Ppu.scrollUpdates_v]

/-! ### The background pipeline -/

/-- The machine whose registers and memories a rendering dot fetches from: its position is the dot's, and its pixel has been
drawn. -/
def State.atDot (s : State) (q : Ppu) (c : Console) (frame : Vector Memory 240) (hit : Bool) : State :=
  { s with
    con := c
    ppu := { s.ppu with dot := q.dot, scanline := q.scanline, odd := q.odd, framebuffer := frame, spr0Hit := hit } }

/-- The pipeline after a rendering dot is the one its fetch stage leaves. -/
theorem ppuStep_pipeline {s t : State} (hr : s.ppu.showBg = true ∨ s.ppu.showSpr = true) (h : ppuStep s = .ok ((), t)) :
    ∃ c frame hit fetched, (Claims.fetches t.ppu → Fetched (s.atDot t.ppu c frame hit) fetched) ∧
      (¬Claims.fetches t.ppu → fetched = (s.atDot t.ppu c frame hit).ppu) ∧
      t.ppu.ntByte = fetched.ntByte ∧ t.ppu.atBits = fetched.atBits ∧ t.ppu.patLo = fetched.patLo ∧
      t.ppu.patHi = fetched.patHi ∧ t.ppu.tileShift = fetched.tileShift := by
  obtain ⟨f, e, hf, he, ht⟩ := ppuStep_stages hr h
  have hq := ppuStep_after_fetch he ht
  obtain ⟨hfetched, hidle, hframe⟩ := whenPpu_fetchAction hf
  have hdrawn : s.drawn = s.atDot t.ppu s.ticked.con s.ticked.ppu.drawn.framebuffer s.ticked.ppu.drawn.spr0Hit := by
    rw [State.atDot, hq, hframe, State.drawn_eq]
  have hposition : Claims.fetches s.drawn.ppu ↔ Claims.fetches t.ppu := by
    rw [hq, hframe]
    rfl
  rw [hposition, hdrawn] at hfetched hidle
  refine ⟨_, _, _, f.ppu, hfetched, fun hnot => congrArg State.ppu (hidle hnot), ?_⟩
  rw [hq]
  exact ⟨rfl, rfl, rfl, rfl, rfl⟩

/-- Settles O22: the fetch stage decides, whose registers are the ones before the dot. -/
theorem backgroundFetches : Obligations.BackgroundFetches := by
  intro s t hr h p q phase
  obtain ⟨c, frame, hit, fetched, hfetched, hidle, hnt, hat, hlo, hhi, hshift⟩ := ppuStep_pipeline hr h
  rw [hnt, hat, hlo, hhi, hshift]
  by_cases hfetches : Claims.fetches q
  · have hphase (k : Nat) : phase k ↔ q.dot % 8 = k := and_iff_right hfetches
    cases hfetched hfetches with
    | ntByte hdot hread =>
      replace hdot : q.dot % 8 = 1 := hdot
      replace hread : ppuRead (Claims.nametableAddress p.v) s = .ok _ := hread
      simp [hphase, hdot, hfetches, hread, State.atDot, p]
    | atBits hdot hread =>
      replace hdot : q.dot % 8 = 3 := hdot
      replace hread : ppuRead (Claims.attributeAddress p.v) s = .ok _ := hread
      simp [hphase, hdot, hfetches, hread, State.atDot, p]
    | patLo hdot hread =>
      replace hdot : q.dot % 8 = 5 := hdot
      replace hread : ppuRead (Claims.tileAddress p) s = .ok _ := hread
      simp [hphase, hdot, hfetches, hread, State.atDot, p]
    | patHi hdot hread =>
      replace hdot : q.dot % 8 = 7 := hdot
      replace hread : ppuRead (Claims.tileAddress p + 8) s = .ok _ := hread
      simpa [hphase, hdot, hfetches, State.atDot, p] using hread
    | packed hdot =>
      replace hdot : q.dot % 8 = 0 := hdot
      have htile : Claims.tileNibble (s.atDot t.ppu c frame hit).ppu = Claims.tileNibble p := rfl
      rw [htile]
      simp [hphase, hdot, hfetches, State.atDot, p]
    | shifted hdot =>
      replace hdot : q.dot % 8 ∈ [2, 4, 6] := hdot
      simp only [List.mem_cons, List.not_mem_nil, or_false] at hdot
      rcases hdot with hdot | hdot | hdot <;> simp [hphase, hdot, hfetches, State.atDot, p]
  · have hphase (k : Nat) : ¬phase k := fun h => hfetches h.1
    rw [hidle hfetches]
    simp [hphase, hfetches, State.atDot, p]

end Sys2Proof.Machine

/-! What else a rendering dot does (61_ppu.md R330, R347 to R351, R360): the scroll updates, the pixel, the sprite buffer. -/

namespace Sys2Proof.Machine

/-! ### The scroll updates by the position -/

section Scroll

variable (p : Ppu)

/-- The scroll updates as a function of `v`, `t` and the position. -/
theorem Ppu.scrollUpdates_v_eq : p.scrollUpdates.v =
    let copied := if p.scanline = 261 ∧ 280 ≤ p.dot ∧ p.dot ≤ 304 then copyY p.v p.t else p.v
    let stepped := if p.fetchDot && p.dot % 8 == 0 then incX copied else copied
    let rowStepped := if p.dot = 256 then incY stepped else stepped
    if p.renderLine then (if p.dot = 257 then copyX rowStepped p.t else rowStepped) else copied := by
  simp only [scrollUpdates, apply_ite Ppu.v, apply_ite Ppu.t, apply_ite Ppu.dot, apply_ite Ppu.scanline, renderLine,
    fetchDot, visDot, ite_self]
  rfl

variable {p}

theorem Ppu.renderLine_iff : p.renderLine = true ↔ p.scanline ≤ 239 ∨ p.scanline = 261 := by
  simp only [renderLine, Bool.or_eq_true, decide_eq_true_eq]

theorem Ppu.fetchDot_iff : p.fetchDot = true ↔ (1 ≤ p.dot ∧ p.dot ≤ 256) ∨ (321 ≤ p.dot ∧ p.dot ≤ 336) := by
  simp only [fetchDot, visDot, Bool.or_eq_true, Bool.and_eq_true, decide_eq_true_eq]

theorem Ppu.scrollUpdates_copyY (h : p.scanline = 261 ∧ 280 ≤ p.dot ∧ p.dot ≤ 304) :
    p.scrollUpdates.v = copyY p.v p.t := by
  have hfetch : p.fetchDot = false := by
    rw [← Bool.not_eq_true, Ppu.fetchDot_iff]
    omega
  have h256 : p.dot ≠ 256 := by omega
  have h257 : p.dot ≠ 257 := by omega
  simp [scrollUpdates_v_eq, h, hfetch, h256, h257]

theorem Ppu.scrollUpdates_copyX (hline : p.scanline ≤ 239 ∨ p.scanline = 261) (hdot : p.dot = 257) :
    p.scrollUpdates.v = copyX p.v p.t := by
  simp [scrollUpdates_v_eq, Ppu.renderLine_iff.mpr hline, hdot]

theorem Ppu.scrollUpdates_incY (hline : p.scanline ≤ 239 ∨ p.scanline = 261) (hdot : p.dot = 256) :
    p.scrollUpdates.v = incY (incX p.v) := by
  have hfetch : p.fetchDot = true := Ppu.fetchDot_iff.mpr (by omega)
  simp [scrollUpdates_v_eq, Ppu.renderLine_iff.mpr hline, hdot, hfetch]

theorem Ppu.scrollUpdates_incX (h : Claims.fetches p ∧ p.dot % 8 = 0) (hdot : p.dot ≠ 256) :
    p.scrollUpdates.v = incX p.v := by
  obtain ⟨⟨hline, hfetch⟩, h8⟩ := h
  have h257 : p.dot ≠ 257 := by omega
  have hcopy : ¬(p.scanline = 261 ∧ 280 ≤ p.dot ∧ p.dot ≤ 304) := by omega
  simp [scrollUpdates_v_eq, Ppu.renderLine_iff.mpr hline, Ppu.fetchDot_iff.mpr hfetch, h8, hdot, h257, hcopy]

theorem Ppu.scrollUpdates_stays (hcopy : ¬(p.scanline = 261 ∧ 280 ≤ p.dot ∧ p.dot ≤ 304))
    (hcopyX : ¬((p.scanline ≤ 239 ∨ p.scanline = 261) ∧ p.dot = 257)) (hpacks : ¬(Claims.fetches p ∧ p.dot % 8 = 0)) :
    p.scrollUpdates.v = p.v := by
  by_cases hline : p.scanline ≤ 239 ∨ p.scanline = 261
  · have h257 : p.dot ≠ 257 := fun h => hcopyX ⟨hline, h⟩
    have h256 : p.dot ≠ 256 := fun h => hpacks ⟨⟨hline, by omega⟩, by omega⟩
    have hstep : ¬(p.fetchDot = true ∧ p.dot % 8 = 0) := fun h => hpacks ⟨⟨hline, Ppu.fetchDot_iff.mp h.1⟩, h.2⟩
    simp [scrollUpdates_v_eq, h257, h256, hstep, hcopy]
  · have hline' : p.renderLine = false := by rwa [← Bool.not_eq_true, Ppu.renderLine_iff]
    simp [scrollUpdates_v_eq, hline', hcopy]

end Scroll

/-! ### The stages of a rendering dot, by what they leave -/

section Stages

variable {s t : State}

theorem ppuStep_here (h : ppuStep s = .ok ((), t)) :
    s.ticked.ppu = { s.ppu with dot := t.ppu.dot, scanline := t.ppu.scanline, odd := t.ppu.odd } := by
  obtain ⟨hdot, hscanline, hodd, -⟩ := ppuStep_position h
  rw [State.ticked_ppu, Ppu.tick_frame, hdot, hscanline, hodd]

theorem ppuStep_v (hr : s.ppu.showBg = true ∨ s.ppu.showSpr = true) (h : ppuStep s = .ok ((), t)) :
    t.ppu.v = s.ticked.ppu.scrollUpdates.v := by
  obtain ⟨f, e, hf, he, ht⟩ := ppuStep_stages hr h
  rw [ppuStep_after_fetch he ht, (whenPpu_fetchAction hf).2.2, State.drawn, State.setPpu_ppu, Ppu.drawn_frame,
    Ppu.scrollUpdates_v_eq, Ppu.scrollUpdates_v_eq]
  rfl

theorem ppuStep_pixel (hr : s.ppu.showBg = true ∨ s.ppu.showSpr = true) (h : ppuStep s = .ok ((), t)) :
    t.ppu.framebuffer = s.ticked.ppu.drawn.framebuffer ∧
      (¬(t.ppu.scanline = 261 ∧ t.ppu.dot = 1) → t.ppu.spr0Hit = s.ticked.ppu.drawn.spr0Hit) := by
  obtain ⟨f, e, hf, he, ht⟩ := ppuStep_stages hr h
  have hframe := (whenPpu_fetchAction hf).2.2
  refine ⟨?_, fun hclear => ?_⟩
  · rw [ppuStep_after_fetch he ht, hframe]
    rfl
  · rw [ht, flagEvents_scanline, flagEvents_dot] at hclear
    rw [ht, (flagEvents_sprites_of_not_clear hclear).2, State.setPpu_ppu, Ppu.emptied_frame,
      whenPpu_evaluateSprites_frame he, State.setPpu_ppu, Ppu.scrollUpdates_v, hframe]
    rfl

/-- A tick that ends a frame goes to its first dot. -/
theorem Ppu.tick_ready {p : Ppu} (h : p.tick.2 = true) : p.tick.1.dot = 0 := by
  unfold tick at h ⊢
  split_ifs at h ⊢ <;> rfl

/-- At dot 257 nothing has happened before the scroll updates but the tick. -/
theorem drawn_of_257 (h : s.ticked.ppu.dot = 257) : s.drawn = { s with ppu := s.ticked.ppu } := by
  have hvis : s.ticked.ppu.visDot = false := by simp [Ppu.visDot, h]
  have hquiet : s.ppu.tick.2 = false := by
    rw [← Bool.not_eq_true]
    intro hready
    have hzero : s.ticked.ppu.dot = 0 := by rw [State.ticked_ppu, Ppu.tick_ready hready]
    omega
  have hcon : s.ticked.con = s.con := by rw [State.ticked_con, hquiet, Bool.or_false]
  rw [State.drawn, Ppu.drawn, hvis, Bool.and_false, if_neg Bool.false_ne_true, State.ticked_rest, hcon]
  rfl

/-- The sprite stage: `f` is the machine it starts from, `e` the one it leaves. -/
theorem ppuStep_sprites (hr : s.ppu.showBg = true ∨ s.ppu.showSpr = true) (h : ppuStep s = .ok ((), t)) :
    ∃ f e, whenPpu (fun p => p.dot == 257 && decide (p.scanline ≤ 239)) evaluateSprites f = .ok ((), e) ∧
      f.ppu.dot = t.ppu.dot ∧ f.ppu.scanline = t.ppu.scanline ∧
      f.ppu.sprCount = s.ppu.sprCount ∧ f.ppu.slots = s.ppu.slots ∧ f.ppu.sprOverflow = s.ppu.sprOverflow ∧
      (t.ppu.dot = 257 → f = { s with ppu := { s.ticked.ppu with v := t.ppu.v } }) ∧
      t.ppu.slots = e.ppu.slots ∧
      t.ppu.sprCount = (if t.ppu.dot = 257 ∧ ¬t.ppu.scanline ≤ 239 then 0 else e.ppu.sprCount) ∧
      (¬(t.ppu.scanline = 261 ∧ t.ppu.dot = 1) → t.ppu.sprOverflow = e.ppu.sprOverflow) := by
  obtain ⟨f, e, hf, he, ht⟩ := ppuStep_stages hr h
  obtain ⟨-, hidle, hframe⟩ := whenPpu_fetchAction hf
  obtain ⟨hdot, hscanline, -, -⟩ := ppuStep_position h
  have hafter := ppuStep_after_fetch he ht
  have hfetch : f.ppu.dot = t.ppu.dot ∧ f.ppu.scanline = t.ppu.scanline ∧ f.ppu.sprCount = s.ppu.sprCount ∧
      f.ppu.slots = s.ppu.slots ∧ f.ppu.sprOverflow = s.ppu.sprOverflow := by
    rw [hdot, hscanline, hframe, State.drawn_eq]
    exact ⟨rfl, rfl, rfl, rfl, rfl⟩
  rw [Ppu.scrollUpdates_v] at he
  obtain ⟨hfdot, hfscanline, hfcount, hfslots, hfoverflow⟩ := hfetch
  refine ⟨_, e, he, hfdot, hfscanline, hfcount, hfslots, hfoverflow, fun h257 => ?_, ?_, ?_, fun hclear => ?_⟩
  · have h257' : s.ticked.ppu.dot = 257 := by rw [State.ticked_ppu, ← hdot, h257]
    have hnot : ¬Claims.fetches s.drawn.ppu := by
      rw [drawn_of_257 h257']
      rintro ⟨-, hfetches⟩
      change (1 ≤ s.ticked.ppu.dot ∧ s.ticked.ppu.dot ≤ 256) ∨ (321 ≤ s.ticked.ppu.dot ∧ s.ticked.ppu.dot ≤ 336) at hfetches
      omega
    rw [ppuStep_v hr h, hidle hnot, drawn_of_257 h257']
    rfl
  · rw [hafter]
  · have heposition : e.ppu.dot = t.ppu.dot ∧ e.ppu.scanline = t.ppu.scanline := by
      rw [whenPpu_evaluateSprites_frame he]
      exact ⟨hfdot, hfscanline⟩
    rw [congrArg (·.sprCount) hafter, Ppu.emptied_sprCount, heposition.1, heposition.2]
  · rw [ht, flagEvents_scanline, flagEvents_dot] at hclear
    rw [ht, (flagEvents_sprites_of_not_clear hclear).1, State.setPpu_ppu, Ppu.emptied_frame]

end Stages

/-- Settles O32: the stages of the dot in their order, each with its own fields. -/
theorem renderingOnDot : Obligations.RenderingOnDot := by
  refine ⟨fun s _ hp => (ppuStep_completes s (State.patternsOk_of_modulo hp)).elim fun _ ht => ht, ?_⟩
  intro s t hr h p q here visible line drawn copies packs clear
  have hhere : s.ticked.ppu = here := ppuStep_here h
  have hv : q.v = here.scrollUpdates.v := hhere ▸ ppuStep_v hr h
  obtain ⟨hframebuffer, hhit⟩ := ppuStep_pixel hr h
  obtain ⟨f, e, he, hdot, hscanline, hcount, hslots, hoverflow, h257, htslots, htcount, htoverflow⟩ := ppuStep_sprites hr h
  rw [hhere] at hframebuffer hhit
  rw [whenPpu_apply, hdot, hscanline] at he
  have hkept : ¬(visible ∧ q.dot = 257) → e = f := fun hnot => by
    rw [if_neg (by simpa [and_comm] using hnot)] at he
    cases he
    rfl
  refine ⟨fun hcopies => ?_, fun hline hd => ?_, fun hline hd => ?_, fun hpacks hd => ?_, fun hcopies hx hpacks => ?_,
    fun hdrawn => ?_, fun hdrawn => ?_, fun hvisible hd => ?_, fun hvisible hd => ?_, fun hd => ?_,
    fun heval hclear => ?_, ppuStep_frame h⟩
  · exact hv.trans (Ppu.scrollUpdates_copyY (p := here) hcopies)
  · exact hv.trans (Ppu.scrollUpdates_copyX (p := here) hline hd)
  · exact hv.trans (Ppu.scrollUpdates_incY (p := here) hline hd)
  · exact hv.trans (Ppu.scrollUpdates_incX (p := here) hpacks hd)
  · exact hv.trans (Ppu.scrollUpdates_stays (p := here) hcopies hx hpacks)
  · have hnotclear : ¬clear := fun hc => by have := hdrawn.1; omega
    rw [hframebuffer, hhit hnotclear, Ppu.drawn_of_visible (p := here) hdrawn]
    exact ⟨rfl, rfl⟩
  · rw [Ppu.drawn_of_not_visible (p := here) hdrawn] at hframebuffer hhit
    exact ⟨hframebuffer, hhit⟩
  · have hnotclear : ¬clear := fun hc => by omega
    rw [if_pos (by simpa using ⟨hd, hvisible⟩), h257 hd, hhere] at he
    exact ⟨e, he, htslots, htcount.trans (if_neg fun hnot => hnot.2 hvisible), htoverflow hnotclear⟩
  · rw [hkept fun hboth => hvisible hboth.1] at htslots
    exact ⟨htcount.trans (if_pos ⟨hd, hvisible⟩), htslots.trans hslots⟩
  · rw [hkept fun hboth => hd hboth.2, hslots] at htslots
    rw [hkept fun hboth => hd hboth.2, if_neg fun hboth => hd hboth.1] at htcount
    exact ⟨htcount.trans hcount, htslots⟩
  · rw [hkept heval] at htoverflow
    exact (htoverflow hclear).trans hoverflow

end Sys2Proof.Machine

/-! The pixel of a visible dot (61_ppu.md R360 to R362, R365): the two layers, the colour they give, and the byte stored. -/

namespace Sys2Proof.Machine

/-! ### The two layers -/

theorem opaquePixel_eq (c : BitVec 4) : opaquePixel c = decide (c.toNat % 4 ≠ 0) := by
  revert c
  decide

/-- A pixel of a packed register: the nibble a shift brings to the low end. -/
theorem setWidth_ushiftRight_eq_ofNat {w : Nat} (v : BitVec w) (k : Nat) :
    (v >>> k).setWidth 4 = BitVec.ofNat 4 (v.toNat / 2 ^ k) := by
  apply BitVec.eq_of_toNat_eq
  rw [BitVec.toNat_setWidth, BitVec.toNat_ushiftRight, Nat.shiftRight_eq_div_pow, BitVec.toNat_ofNat]

theorem Slot.pixel_eq (s : Slot) (xp : Nat) : s.pixel xp = Claims.slotPixel s xp := by
  have hspan : (s.posX.toNat ≤ xp ∧ xp - s.posX.toNat ≤ 7) ↔ (s.posX.toNat ≤ xp ∧ xp ≤ s.posX.toNat + 7) := by omega
  exact if_congr hspan (setWidth_ushiftRight_eq_ofNat _ _) rfl

/-- The sprite shown is the first one of the list whose pixel is opaque. -/
theorem firstSpritePixel_eq (xp : Nat) (slots : List Slot) : firstSpritePixel xp slots =
    (slots.find? fun s => decide ((Claims.slotPixel s xp).toNat % 4 ≠ 0)).map fun s => (s, Claims.slotPixel s xp) := by
  induction slots with
  | nil => rfl
  | cons s rest ih =>
    rw [firstSpritePixel, ih, Slot.pixel_eq, opaquePixel_eq, List.find?_cons]
    split <;> simp_all

section Layers

variable {p : Ppu}

theorem Ppu.background_eq (hdot : 1 ≤ p.dot) :
    (if decide (p.dot - 1 < 8) && !p.showBgLeft then 0 else p.backgroundPixel) = Claims.backgroundAt p := by
  have hleft : p.dot - 1 < 8 ↔ p.dot ≤ 8 := by omega
  rw [backgroundPixel, Claims.backgroundAt, setWidth_ushiftRight_eq_ofNat]
  cases p.showBg <;> cases p.showBgLeft <;> simp [hleft]

theorem Ppu.spritePixel_eq (hdot : 1 ≤ p.dot) :
    p.spritePixel = (Claims.spriteAt p).map fun s => (s, Claims.slotPixel s (p.dot - 1)) := by
  have hleft : p.dot - 1 < 8 ↔ p.dot ≤ 8 := by omega
  have hhidden : ¬(p.showSpr && !(decide (p.dot - 1 < 8) && !p.showSprLeft)) = true ↔
      p.showSpr = false ∨ (p.dot ≤ 8 ∧ p.showSprLeft = false) := by
    cases p.showSpr <;> cases p.showSprLeft <;> simp [hleft]
  unfold spritePixel Claims.spriteAt
  dsimp only
  by_cases h : p.showSpr = false ∨ (p.dot ≤ 8 ∧ p.showSprLeft = false)
  · rw [if_pos h, if_neg (hhidden.mpr h)]
    rfl
  · rw [if_neg h, if_pos (not_not.mp (mt hhidden.mp h)), firstSpritePixel_eq]

theorem spriteAt_opaque {s : Slot} (h : Claims.spriteAt p = some s) : (Claims.slotPixel s (p.dot - 1)).toNat % 4 ≠ 0 := by
  rw [Claims.spriteAt] at h
  split at h
  · cases h
  · simpa using List.find?_some h

/-- The palette index of a sprite's pixel. -/
theorem spriteColour_eq (sp : BitVec 4) : 16#5 ||| sp.setWidth 5 = 16#5 + sp.setWidth 5 := by
  revert sp
  decide

/-- The sprite shown stands behind an opaque background (R360). -/
def Ppu.spriteBehind (p : Ppu) : Bool := match Claims.spriteAt p with | some s => s.priority | none => false

/-- Sprite 0 is hit at this dot (R360): both layers are opaque and the sprite shown is record 0. -/
def Ppu.hitsSpriteZero (p : Ppu) : Prop :=
  (Claims.backgroundAt p).toNat % 4 ≠ 0 ∧ (Claims.spritePixelAt p).toNat % 4 ≠ 0 ∧
    ∃ s, Claims.spriteAt p = some s ∧ s.index = 0

theorem Ppu.composePixel_colour (hdot : 1 ≤ p.dot) :
    p.composePixel.1 = Claims.colour (Claims.backgroundAt p) (Claims.spritePixelAt p) p.spriteBehind := by
  unfold composePixel Claims.spritePixelAt spriteBehind Claims.colour
  rw [background_eq hdot, spritePixel_eq hdot]
  cases hs : Claims.spriteAt p with
  | none => simp [opaquePixel_eq]
  | some s =>
    have hopaque := spriteAt_opaque hs
    by_cases hbackground : (Claims.backgroundAt p).toNat % 4 = 0 <;>
      simp [opaquePixel_eq, spriteColour_eq, hopaque, hbackground]

theorem Ppu.composePixel_hit (hdot : 1 ≤ p.dot) : p.composePixel.2 = true ↔ p.hitsSpriteZero := by
  unfold composePixel hitsSpriteZero Claims.spritePixelAt
  rw [background_eq hdot, spritePixel_eq hdot]
  cases hs : Claims.spriteAt p with
  | none => simp
  | some s =>
    have hopaque := spriteAt_opaque hs
    by_cases hbackground : (Claims.backgroundAt p).toNat % 4 = 0 <;>
      simp [opaquePixel_eq, hopaque, hbackground]

end Layers

/-! ### The frame buffer -/

section Frame

variable {frame : Vector Memory 240} {y x : Nat} (b : Byte)

/-- A frame with one byte replaced. -/
def storeByte (frame : Vector Memory 240) (y x : Nat) (b : Byte) : Vector Memory 240 :=
  frame.setIfInBounds y ((frame[y]?.getD []).write x b)

theorem frameByte_storeByte_same (hframe : frameOk frame) (hy : y < 240) :
    Claims.frameByte (storeByte frame y x b) y x = b := by
  have hrow : (frame[y]).wf = true := Memory.wf_of_wfIn (hframe y hy)
  rw [Claims.frameByte, storeByte, Vector.getElem?_setIfInBounds_self_of_lt hy, Vector.getElem?_eq_getElem hy]
  exact Memory.read_write_same x b hrow

theorem frameByte_storeByte_other {y' x' : Nat} (hy : y < 240) (h : ¬(y' = y ∧ x' = x)) :
    Claims.frameByte (storeByte frame y x b) y' x' = Claims.frameByte frame y' x' := by
  rcases eq_or_ne y y' with rfl | hrow
  · rw [Claims.frameByte, storeByte, Vector.getElem?_setIfInBounds_self_of_lt hy, Claims.frameByte]
    exact Memory.read_write_other b (fun hcolumn => h ⟨rfl, hcolumn⟩) _
  · rw [Claims.frameByte, storeByte, Vector.getElem?_setIfInBounds_ne hrow, Claims.frameByte]

end Frame

theorem Ppu.renderPixel_eq {p : Ppu} (hdot : 1 ≤ p.dot) : p.renderPixel = { p with
    framebuffer := storeByte p.framebuffer p.scanline (p.dot - 1) (p.palette.read (palIndex (0x3F00 +
      (Claims.colour (Claims.backgroundAt p) (Claims.spritePixelAt p) p.spriteBehind).toNat)))
    spr0Hit := p.spr0Hit || p.composePixel.2 } := by
  rw [renderPixel, ← composePixel_colour hdot]
  cases p.composePixel.2 with
  | true => rw [Bool.or_true]; rfl
  | false => rw [Bool.or_false]; rfl

/-- Settles O49: the pixel's colour and the hit are the two layers', and one byte of the frame buffer is stored. -/
theorem pixelOutput : Obligations.PixelOutput := by
  intro p hdot _ hscanline hframe bg sp behind index q
  have hq : q = { p with
      framebuffer := storeByte p.framebuffer p.scanline (p.dot - 1) (p.palette.read (palIndex index))
      spr0Hit := p.spr0Hit || p.composePixel.2 } := Ppu.renderPixel_eq hdot
  have hy : p.scanline < 240 := by omega
  refine ⟨?_, ?_, fun y x _ hother => ?_, ?_⟩
  · rw [hq]
  · rw [hq]
    exact frameByte_storeByte_same _ hframe hy
  · rw [hq]
    exact frameByte_storeByte_other _ hy hother
  · rw [hq, Bool.or_eq_true, Ppu.composePixel_hit hdot]
    rfl

end Sys2Proof.Machine

/-! The mappers' registers and hook (62_mappers.md R389, R400, R415, R430, R431): MMC1's serial register, MMC3's registers
and scanline counter, and the bounds of every index. -/

namespace Sys2Proof.Machine

/-! ### MMC1's serial register -/

/-- The serial register after a bit has entered at its top (R400). -/
def Mmc1.shiftedIn (m : Mmc1) (d : Byte) : BitVec 5 := (m.shift >>> 1) ||| (if d.getLsbD 0 then 0x10 else 0)

/-- The registers after a bit has entered and been counted. -/
def Mmc1.entered (m : Mmc1) (d : Byte) : Mmc1 := { m with shift := m.shiftedIn d, count := m.count + 1 }

/-- The registers after a value has been committed to the one an address selects (R400). -/
def Mmc1.committed (m : Mmc1) (a : Nat) (v : BitVec 5) : Mmc1 :=
  if a < 0xA000 then { m with shift := 0, count := 0, control := v }
  else if a < 0xC000 then { m with shift := 0, count := 0, chrBank0 := v }
  else if a < 0xE000 then { m with shift := 0, count := 0, chrBank1 := v }
  else { m with shift := 0, count := 0, prgBank := v.setWidth 4 }

section Serial

variable {m : Mmc1} {a : Word} {d : Byte} {s : State}

theorem Mmc1.shiftedIn_toNat (m : Mmc1) (d : Byte) :
    (m.shiftedIn d).toNat = m.shift.toNat / 2 + 16 * (d.toNat % 2) := by
  have hlow : (m.shift >>> 1).toNat = m.shift.toNat / 2 := by
    rw [BitVec.toNat_ushiftRight, Nat.shiftRight_eq_div_pow]
  have hlt := m.shift.isLt
  rw [shiftedIn, BitVec.toNat_or, hlow, getLsbD_zero_eq_decide]
  rcases Nat.mod_two_eq_zero_or_one d.toNat with h | h
  · simp [h]
  · have htop : m.shift.toNat / 2 ||| 16 = 2 ^ 4 * 1 + m.shift.toNat / 2 := by
      rw [Nat.or_comm, Nat.two_pow_add_eq_or_of_lt (by omega)]
    simp only [h, decide_true, if_true]
    exact htop.trans (by omega)

/-- A write with bit 7 set discards the partial value (R400). -/
theorem Mmc1.write_of_reset (p : Params) (m : Mmc1) (a : Nat) (h : d.getLsbD 7 = true) : m.write p a d =
    { m with
      shift := 0, count := 0
      control := if p.mmc1ResetFixesLast then m.control ||| 0x0C else m.control } := by
  rw [write, if_pos h]

theorem getLsbD_seven_of_lt (h : d.toNat < 128) : ¬d.getLsbD 7 = true := by
  rw [getLsbD_seven, decide_eq_true_eq]
  omega

/-- A write before the fifth enters one bit. -/
theorem Mmc1.write_of_partial (p : Params) (a : Nat) (hd : d.toNat < 128) (hc : m.count < 4) :
    m.write p a d = m.entered d := by
  have hnot : ¬m.count + 1 = 5 := by omega
  rw [write, if_neg (getLsbD_seven_of_lt hd)]
  exact if_neg hnot

/-- The fifth write commits the five bits. -/
theorem Mmc1.write_of_fifth (p : Params) {a : Nat} (h1 : 0x8000 ≤ a) (h2 : a < 0x10000) (hd : d.toNat < 128)
    (hc : m.count = 4) : m.write p a d = m.committed a (m.shiftedIn d) := by
  have hfifth : m.count + 1 = 5 := by omega
  rw [write, if_neg (getLsbD_seven_of_lt hd), committed]
  dsimp only
  rw [if_pos hfifth]
  by_cases hA : a < 0xA000
  · rw [if_pos hA, show a / 0x2000 % 4 = 0 by omega]
    rfl
  rw [if_neg hA]
  by_cases hC : a < 0xC000
  · rw [if_pos hC, show a / 0x2000 % 4 = 1 by omega]
    rfl
  rw [if_neg hC]
  by_cases hE : a < 0xE000
  · rw [if_pos hE, show a / 0x2000 % 4 = 2 by omega]
    rfl
  · rw [if_neg hE, show a / 0x2000 % 4 = 3 by omega]
    rfl

theorem memWrite_mmc1 (ha : 0x8000 ≤ a.toNat) (hm : s.map = .mmc1 m) (d : Byte) :
    memWrite a d s = .ok ((), s.setMap (.mmc1 (m.write s.params a.toNat d))) := by
  rw [memWrite_program ha, mapperWrite, M.getS_bind, hm]
  rfl

theorem memWrite_mmc1_partial (ha : 0x8000 ≤ a.toNat) (hm : s.map = .mmc1 m) (hd : d.toNat < 128) (hc : m.count < 4) :
    memWrite a d s = .ok ((), s.setMap (.mmc1 (m.entered d))) := by
  rw [memWrite_mmc1 ha hm, Mmc1.write_of_partial _ _ hd hc]

theorem memWrite_mmc1_fifth (ha : 0x8000 ≤ a.toNat) (hm : s.map = .mmc1 m) (hd : d.toNat < 128) (hc : m.count = 4) :
    memWrite a d s = .ok ((), s.setMap (.mmc1 (m.committed a.toNat (m.shiftedIn d)))) := by
  rw [memWrite_mmc1 ha hm, Mmc1.write_of_fifth _ ha a.isLt hd hc]

end Serial

/-- Settles O51: four writes shift a bit in, the fifth commits, and the register's old bits have left it by then. -/
theorem mmc1SerialWrites : Obligations.Mmc1SerialWrites := by
  intro s m hm
  refine ⟨fun a d ha hd => ?_, ?_⟩
  · rw [memWrite_mmc1 ha hm, Mmc1.write_of_reset _ _ _ hd]
    rfl
  · intro a0 a1 a2 a3 a4 d0 d1 d2 d3 d4 hc h0 h1 h2 h3 h4 hd0 hd1 hd2 hd3 hd4 n done
    let m1 := m.entered d0
    let m2 := m1.entered d1
    let m3 := m2.entered d2
    let m4 := m3.entered d3
    have hcount : m1.count = 1 ∧ m2.count = 2 ∧ m3.count = 3 ∧ m4.count = 4 := by
      simp only [m4, m3, m2, m1, Mmc1.entered, hc]
      decide
    obtain ⟨hc1, hc2, hc3, hc4⟩ := hcount
    have hv : (m4.shiftedIn d4).toNat = n := by
      have hlt := m.shift.isLt
      simp only [m4, m3, m2, m1, Mmc1.entered, Mmc1.shiftedIn_toNat, n]
      omega
    have hv5 : m4.shiftedIn d4 = BitVec.ofNat 5 n := by rw [← hv, BitVec.ofNat_toNat, BitVec.setWidth_eq]
    have hv4 : (m4.shiftedIn d4).setWidth 4 = BitVec.ofNat 4 n := by rw [← hv, BitVec.ofNat_toNat]
    rw [Claims.fiveWrites, M.bind_of_ok (memWrite_mmc1_partial h0 hm hd0 (by omega)),
      M.bind_of_ok (memWrite_mmc1_partial (m := m1) h1 rfl hd1 (by omega)),
      M.bind_of_ok (memWrite_mmc1_partial (m := m2) h2 rfl hd2 (by omega)),
      M.bind_of_ok (memWrite_mmc1_partial (m := m3) h3 rfl hd3 (by omega)),
      memWrite_mmc1_fifth (m := m4) h4 rfl hd4 hc4, Mmc1.committed, hv4, hv5]
    rfl

/-! ### MMC3's registers -/

theorem memWrite_mmc3 {a : Word} {s : State} {m : Mmc3} (ha : 0x8000 ≤ a.toNat) (hm : s.map = .mmc3 m) (d : Byte) :
    memWrite a d s = .ok ((), s.setMap (.mmc3 (m.write a.toNat d))) := by
  rw [memWrite_program ha, mapperWrite, M.getS_bind, hm]
  rfl

/-- Settles O53: the quarter of the program space and the parity of the address select the register. -/
theorem mmc3Registers : Obligations.Mmc3Registers := by
  intro a d s m ha hm
  refine ⟨_, memWrite_mmc3 ha hm d, ?_⟩
  have hlt := a.isLt
  have hparity := Nat.mod_two_eq_zero_or_one a.toNat
  unfold Mmc3.write
  by_cases hA : a.toNat < 0xA000
  · rw [if_pos hA, show a.toNat / 0x2000 % 4 = 0 by omega]
    rcases hparity with hp | hp <;> rw [hp] <;> rfl
  rw [if_neg hA]
  by_cases hC : a.toNat < 0xC000
  · rw [if_pos hC, show a.toNat / 0x2000 % 4 = 1 by omega]
    rcases hparity with hp | hp <;> rw [hp]
    · rw [getLsbD_zero_eq_decide]
      rcases Nat.mod_two_eq_zero_or_one d.toNat with hd | hd <;> rw [hd] <;> rfl
    · rfl
  rw [if_neg hC]
  by_cases hE : a.toNat < 0xE000
  · rw [if_pos hE, show a.toNat / 0x2000 % 4 = 2 by omega]
    rcases hparity with hp | hp <;> rw [hp] <;> rfl
  · rw [if_neg hE, show a.toNat / 0x2000 % 4 = 3 by omega]
    rcases hparity with hp | hp <;> rw [hp] <;> rfl

/-! ### The per-dot hook -/

theorem countEvent_iff (s : State) : countEvent s = true ↔
    s.ppu.dot = s.params.mmc3IrqDot.val ∧ (s.ppu.scanline ≤ 239 ∨ s.ppu.scanline = 261) ∧
      (s.ppu.showBg = true ∨ s.ppu.showSpr = true) := by
  simp only [countEvent, Bool.and_eq_true, Bool.or_eq_true, decide_eq_true_eq, and_assoc]

theorem mapperHook_of_not_mmc3 {s : State} (h : ∀ m, s.map ≠ .mmc3 m) : mapperHook s = s := by
  cases hm : s.map with
  | mmc3 m => exact absurd hm (h m)
  | _ => simp only [mapperHook, hm]

theorem mapperHook_of_no_event {s : State} (h : ¬countEvent s = true) : mapperHook s = s := by
  cases hm : s.map with
  | mmc3 m => simp only [mapperHook, hm, if_neg h]
  | _ => simp only [mapperHook, hm]

/-- The count event of MMC3: the counter's registers after it, and the request, which P.I drops (10_state.md R33). -/
theorem mapperHook_of_event {s : State} {m counted : Mmc3} {request : Bool} (hm : s.map = .mmc3 m)
    (h : countEvent s = true) (hc : m.count = (counted, request)) : mapperHook s = { s with
      map := .mmc3 counted
      cpu := { s.cpu with irqPending := s.cpu.irqPending || (request && !s.cpu.p.i) } } := by
  simp only [mapperHook, hm, h, hc, if_true]
  cases request with
  | true =>
    rw [if_pos rfl, State.triggerIrq_eq, Bool.true_and]
    rfl
  | false =>
    rw [if_neg Bool.false_ne_true, Bool.false_and, Bool.or_false]
    rfl

theorem Mmc3.count_of_zero {m : Mmc3} (h : m.irqCounter = 0) : m.count = ({ m with irqCounter := m.irqReload }, false) :=
  if_pos h

theorem Mmc3.count_of_ne_zero {m : Mmc3} (h : m.irqCounter ≠ 0) : m.count =
    ({ m with irqCounter := m.irqCounter - 1 }, decide (m.irqCounter.toNat = 1) && m.irqEnable) := by
  have hone : (m.irqCounter - 1 == 0) = decide (m.irqCounter.toNat = 1) := by
    rw [beq_eq_decide]
    exact decide_eq_decide.mpr (by bv_omega)
  rw [count, if_neg h, ← hone]

/-- Settles O54: a counter at zero reloads and requests nothing; any other counts down, and its request is P.I's to drop (the
bare name is the model's own operation). -/
theorem Mmc3.mapperHook : Obligations.MapperHook := by
  refine ⟨fun s hm => mapperHook_of_not_mmc3 hm, ?_⟩
  intro s m hm event
  refine ⟨fun hnot => ?_, fun he hz => ?_, fun he hz => ?_⟩
  · exact mapperHook_of_no_event fun he => hnot ((countEvent_iff s).mp he)
  · rw [mapperHook_of_event hm ((countEvent_iff s).mpr he) (Mmc3.count_of_zero hz), Bool.false_and, Bool.or_false]
  · exact mapperHook_of_event hm ((countEvent_iff s).mpr he) (Mmc3.count_of_ne_zero hz)

/-! ### The bounds of every index -/

/-- Settles O55: with bank numbers reduced every index is answered, and an index a mapper answers lies in its array. -/
theorem banksStayInRange : Obligations.BanksStayInRange := by
  intro s a hc hp
  refine ⟨fun h1 h2 => ?_, fun h => ?_⟩
  · obtain ⟨k, hk⟩ := prgIndex_total hc hp h1 h2
    exact ⟨k, hk, prgIndex_lt hk⟩
  · obtain ⟨k, hk⟩ := chrIndex_total hp h
    exact ⟨k, hk, chrIndex_lt hk⟩

end Sys2Proof.Machine

/-! What the four mappers show of the cartridge (62_mappers.md R380 to R420): the model's bank numbers are those of the
rules' tables, and every one is reduced into its array. -/

namespace Sys2Proof.Machine

/-! ### Bank numbers -/

theorem or_one_eq (n : Nat) : n ||| 1 = n / 2 * 2 + 1 := by
  have hlow : n % 2 ||| 1 = 1 := by rcases Nat.mod_two_eq_zero_or_one n with h | h <;> rw [h] <;> rfl
  calc n ||| 1 = (2 ^ 1 * (n / 2) + n % 2) ||| 1 := by rw [pow_one, Nat.div_add_mod]
    _ = 2 ^ 1 * (n / 2) + 1 := by
      rw [Nat.two_pow_add_eq_or_of_lt (Nat.mod_lt n (by decide)), Nat.or_assoc, hlow,
        ← Nat.two_pow_add_eq_or_of_lt (by decide)]
    _ = n / 2 * 2 + 1 := by rw [pow_one, Nat.mul_comm]

/-- The even bank of a pair, MMC1's program register (62_mappers.md R403). -/
theorem evenBank4_toNat (v : BitVec 4) : (v &&& 0xE).toNat = v.toNat / 2 * 2 := by
  revert v
  decide

/-- The even bank of a pair, MMC1's graphics register (R403). -/
theorem evenBank5_toNat (v : BitVec 5) : (v &&& 0x1E).toNat = v.toNat / 2 * 2 := by
  revert v
  decide

theorem decide_le_eq_not_lt (n a : Nat) : decide (n ≤ a) = !decide (a < n) := by
  rw [← decide_not]
  exact decide_eq_decide.mpr Nat.not_lt.symm

section Mmc1Banks

variable (m : Mmc1)

theorem Mmc1.prgBankAt_eq (n16 a : Nat) :
    m.prgBankAt n16 a = Claims.mmc1Program m n16 (decide (0xC000 ≤ a)) := by
  have hodd : (m.prgBank &&& 0xE ||| 1).toNat = m.prgBank.toNat / 2 * 2 + 1 := by
    rw [BitVec.toNat_or, evenBank4_toNat]
    exact (or_one_eq _).trans (by omega)
  have hhalf : decide (0xC000 ≤ a) = !decide (a < 0xC000) := decide_le_eq_not_lt _ _
  rw [prgBankAt, Claims.mmc1Program, toNat_extractLsb'_eq_mod, hodd, evenBank4_toNat, hhalf]
  cases decide (a < 0xC000) <;> rfl

theorem Mmc1.chrBankAt_eq (a : Nat) : m.chrBankAt a = Claims.mmc1Graphics m (decide (0x1000 ≤ a)) := by
  have hodd : (m.chrBank0 &&& 0x1E ||| 1).toNat = m.chrBank0.toNat / 2 * 2 + 1 := by
    rw [BitVec.toNat_or, evenBank5_toNat]
    exact (or_one_eq _).trans (by omega)
  have hmode : m.control.getLsbD 4 = decide (16 ≤ m.control.toNat) := BitVec.msb_eq_decide m.control
  have hhalf : decide (0x1000 ≤ a) = !decide (a < 0x1000) := decide_le_eq_not_lt _ _
  rw [chrBankAt, Claims.mmc1Graphics, hmode, hodd, evenBank5_toNat, hhalf]
  by_cases hm : m.control.toNat < 16
  · rw [if_pos hm, decide_eq_false (Nat.not_le_of_lt hm)]
    cases decide (a < 0x1000) <;> rfl
  · rw [if_neg hm, decide_eq_true (Nat.le_of_not_lt hm)]
    cases decide (a < 0x1000) <;> rfl

end Mmc1Banks

section Mmc3Banks

variable (m : Mmc3) {slot : Nat}

theorem Mmc3.prgSlot_eq (n8 : Nat) (h : slot < 4) : (Claims.mmc3Program m n8)[slot]? = some (m.prgSlot n8 slot) := by
  rw [Claims.mmc3Program]
  unfold prgSlot
  interval_cases slot <;> cases m.prgMode <;> rfl

theorem Mmc3.chrSlot_eq (h : slot < 8) : (Claims.mmc3Graphics m)[slot]? = some (m.chrSlot slot) := by
  have hodd (b : Byte) : (b ||| 1).toNat = b.toNat / 2 * 2 + 1 := (BitVec.toNat_or b 1).trans (or_one_eq _)
  rw [Claims.mmc3Graphics]
  unfold chrSlot
  rw [hodd, hodd, evenTile_toNat, evenTile_toNat]
  interval_cases slot <;> cases m.chrMode <;> rfl

end Mmc3Banks

/-! ### The windows -/

/-- A pattern address shows the byte at its index (62_mappers.md R384). -/
theorem ppuRead_of_chrIndex {a : Word} {s : State} {k : Nat} (ha : a.toNat < 0x2000) (h : chrIndex s a.toNat = some k) :
    ppuRead a s = .ok (if s.cart.chrBanks = 0 then s.chrRam.read k else s.cart.chr.read k) :=
  (ppuRead_pattern ha s).trans (mapPpuRead_apply h)

/-- MMC1's mirroring by the two low bits of its control register (R402). -/
theorem mirroring_mmc1 {s : State} {m : Mmc1} (hm : s.map = .mmc1 m) :
    some (mirroring s) = [Mirroring.singleLower, .singleUpper, .vertical, .horizontal][m.control.toNat % 4]? := by
  have hmode : m.control.toNat % 4 < 4 := Nat.mod_lt _ (by decide)
  simp only [mirroring, hm, toNat_extractLsb'_eq_mod, pow_zero, Nat.div_one, Nat.reducePow]
  generalize m.control.toNat % 4 = mode at hmode
  interval_cases mode <;> rfl

/-- Settles O52: every bank number is reduced into its array, and the model's banks are those of the rules' tables. -/
theorem mapperWindows : Obligations.MapperWindows := by
  intro a s hc hp n16 chrSize program pattern shows draws
  have hbanks : 1 ≤ n16 := Cartridge.banks_of_valid hc
  have hprg : s.cart.prgSize = 16384 * n16 := rfl
  have hchr : s.cart.chrSize = chrSize := rfl
  have hmin : 8192 ≤ chrSize := Cartridge.chrSize_pos _
  have hlt := a.isLt
  refine ⟨?nrom, ?uxrom, ?mmc1, ?mmc3⟩
  case nrom =>
    refine fun hm => ⟨fun ha => memRead_program ha ?_, fun ha => ppuRead_of_chrIndex ha ?_, ?_⟩
    · exact (prgIndex_nrom hm _).trans (inArray_of_lt (Nat.mod_lt _ (by omega)))
    · exact (chrIndex_nrom hm _).trans (inArray_of_lt (by omega))
    · simp only [mirroring, hm]
  case uxrom =>
    refine fun m hm => ⟨fun ha hlow => memRead_program ha ?_, fun ha => memRead_program (by omega) ?_,
      fun ha d => ?_, fun ha => ppuRead_of_chrIndex ha ?_, ?_⟩
    · rw [prgIndex_uxrom hm, if_pos hlow]
      exact inArray_bankOf hp hbanks (by omega) (by omega)
    · rw [prgIndex_uxrom hm, if_neg (by omega)]
      exact inArray_of_lt (by omega)
    · rw [memWrite_program ha, mapperWrite, M.getS_bind, hm]
      rfl
    · exact (chrIndex_uxrom hm _).trans (inArray_of_lt (by omega))
    · simp only [mirroring, hm]
  case mmc1 =>
    refine fun m hm => ⟨fun ha => memRead_program ha ?_, fun ha => ppuRead_of_chrIndex ha ?_, ?_⟩
    · rw [prgIndex_mmc1 hm, Mmc1.prgBankAt_eq]
      exact inArray_bankOf hp hbanks (Nat.mod_lt _ (by decide)) (by omega)
    · rw [chrIndex_mmc1 hm, Mmc1.chrBankAt_eq]
      exact inArray_bankOf hp (by omega) (Nat.mod_lt _ (by decide)) (by omega)
    · exact mirroring_mmc1 hm
  case mmc3 =>
    refine fun m hm => ⟨fun ha => ⟨_, m.prgSlot_eq (2 * n16) (by omega), memRead_program ha ?_⟩,
      fun ha => ⟨_, m.chrSlot_eq (by omega), ppuRead_of_chrIndex ha ?_⟩, ?_⟩
    · rw [prgIndex_mmc3 hm]
      exact inArray_bankOf hp (by omega) (Nat.mod_lt _ (by decide)) (by omega)
    · rw [chrIndex_mmc3 hm]
      exact inArray_bankOf hp (by omega) (Nat.mod_lt _ (by decide)) (by omega)
    · simp only [mirroring, hm]

end Sys2Proof.Machine

/-! OAM DMA and the controllers (63_bus_devices_console.md R440 to R453). -/

namespace Sys2Proof.Machine

/-! ### The copy of OAM DMA -/

section Copy

variable {s t : State} {a base : Word} {bytes : List Byte} {n : Nat}

/-- The turns made so far leave the copy its remaining ones. -/
theorem dmaCopy_of_transfers (hbytes : bytes.length ≤ n) (hn : n ≤ 256) (ha : a = base + BitVec.ofNat 16 (256 - n))
    (h : Claims.Transfers s a bytes t) : dmaCopy base n s = dmaCopy base (n - bytes.length) t := by
  induction bytes generalizing s a n with
  | nil =>
    cases h
    rfl
  | cons b rest ih =>
    obtain ⟨u, hread, hrest⟩ := h
    obtain ⟨k, rfl⟩ : ∃ k, n = k + 1 := ⟨n - 1, by rw [List.length_cons] at hbytes; omega⟩
    rw [List.length_cons] at hbytes
    have haddress : base + BitVec.ofNat 16 (255 - k) = a := by rw [ha, show 256 - (k + 1) = 255 - k by omega]
    have hnext : a + 1 = base + BitVec.ofNat 16 (256 - k) := by
      rw [← haddress, show 256 - k = 255 - k + 1 by omega, BitVec.ofNat_add, BitVec.add_assoc]
      rfl
    rw [dmaCopy, haddress, M.bind_of_ok hread, M.update_bind, List.length_cons, Nat.add_sub_add_right]
    exact ih (by omega) (by omega) hnext hrest

theorem pageStart_eq (d : Byte) :
    BitVec.ofNat 16 (256 * d.toNat) = wordOf d 0 + BitVec.ofNat 16 (256 - 256) :=
  (wordOf_eq_ofNat d 0).symm.trans (BitVec.add_zero _).symm

/-- After its 256 turns OAM DMA schedules the idle cycles (R441). -/
theorem oamDma_of_transfers {d : Byte} (hlen : bytes.length = 256)
    (h : Claims.Transfers s (BitVec.ofNat 16 (256 * d.toNat)) bytes t) :
    memWrite 0x4014 d s = .ok ((), t.addIdleCycles (if t.cpu.cycles % 2 = 0 then 513 else 514)) := by
  have hcopy : dmaCopy (wordOf d 0) 256 s = .ok ((), t) := by
    rw [dmaCopy_of_transfers (Nat.le_of_eq hlen) (Nat.le_refl _) (pageStart_eq d) h, hlen]
    rfl
  have hcost : 513 + t.cpu.cycles % 2 = if t.cpu.cycles % 2 = 0 then 513 else 514 := by split <;> omega
  rw [memWrite_dma, oamDma, M.bind_of_ok hcopy, update_apply, hcost]

/-- The first read that faults ends OAM DMA (60_exceptions.md R252). -/
theorem oamDma_of_fault {d : Byte} {f : Fault} (hlen : bytes.length < 256)
    (h : Claims.Transfers s (BitVec.ofNat 16 (256 * d.toNat)) bytes t)
    (hread : memRead (BitVec.ofNat 16 (256 * d.toNat + bytes.length)) t = .error f) : memWrite 0x4014 d s = .error f := by
  obtain ⟨k, hk⟩ : ∃ k, 256 - bytes.length = k + 1 := ⟨255 - bytes.length, by omega⟩
  have haddress : wordOf d 0 + BitVec.ofNat 16 (255 - k) = BitVec.ofNat 16 (256 * d.toNat + bytes.length) := by
    rw [wordOf_eq_ofNat, show 255 - k = bytes.length by omega, ← BitVec.ofNat_add]
    rfl
  have hcopy : dmaCopy (wordOf d 0) 256 s = .error f := by
    rw [dmaCopy_of_transfers (Nat.le_of_lt hlen) (Nat.le_refl _) (pageStart_eq d) h, hk, dmaCopy, haddress,
      M.bind_of_error hread]
  rw [memWrite_dma, oamDma, M.bind_of_error hcopy]

end Copy

/-! ### The copy from storage -/

section Storage

/-- OAM after the bytes have been stored through `oam_addr`. -/
theorem foldl_writeOam_oamAddr (bytes : List Byte) (p : Ppu) : bytes.foldl Ppu.writeOam p =
    { p with oam := (bytes.foldl Ppu.writeOam p).oam, oamAddr := p.oamAddr + BitVec.ofNat 8 bytes.length } := by
  induction bytes generalizing p with
  | nil => simp
  | cons b rest ih =>
    rw [List.foldl_cons, ih, List.length_cons, Nat.add_comm, BitVec.ofNat_add, ← BitVec.add_assoc]
    rfl

/-- A page of bytes goes once around OAM. -/
theorem foldl_writeOam_page {bytes : List Byte} (hlen : bytes.length = 256) (p : Ppu) :
    bytes.foldl Ppu.writeOam p = { p with oam := (bytes.foldl Ppu.writeOam p).oam } := by
  have haround : p.oamAddr + BitVec.ofNat 8 256 = p.oamAddr := BitVec.add_zero _
  have h := foldl_writeOam_oamAddr bytes p
  rwa [hlen, haround] at h

/-- A place no byte is stored at keeps its byte. -/
theorem foldl_writeOam_other {j : Nat} (bytes : List Byte) (p : Ppu)
    (h : ∀ k, k < bytes.length → (p.oamAddr.toNat + k) % 256 ≠ j) :
    (bytes.foldl Ppu.writeOam p).oam.read j = p.oam.read j := by
  induction bytes generalizing p with
  | nil => rfl
  | cons b rest ih =>
    have hfirst : j ≠ p.oamAddr.toNat := fun e => h 0 (Nat.succ_pos _) (by have := p.oamAddr.isLt; omega)
    rw [List.foldl_cons, ih]
    · exact Memory.read_write_other b hfirst p.oam
    · intro k hk
      have hlater := h (k + 1) (Nat.succ_lt_succ hk)
      have hnext : (p.writeOam b).oamAddr.toNat = (p.oamAddr.toNat + 1) % 256 := BitVec.toNat_add ..
      omega

/-- At most 256 bytes stored through `oam_addr` read back, wrapping. -/
theorem foldl_writeOam_read {bytes : List Byte} {p : Ppu} (hw : p.oam.wf = true) (hlen : bytes.length ≤ 256) {k : Nat}
    (hk : k < bytes.length) : (bytes.foldl Ppu.writeOam p).oam.read ((p.oamAddr.toNat + k) % 256) = bytes[k] := by
  induction bytes generalizing p k with
  | nil => cases hk
  | cons b rest ih =>
    rw [List.length_cons] at hlen hk
    have hlt := p.oamAddr.isLt
    have hnext : (p.writeOam b).oamAddr.toNat = (p.oamAddr.toNat + 1) % 256 := BitVec.toNat_add ..
    rw [List.foldl_cons]
    cases k with
    | zero =>
      rw [Nat.add_zero, Nat.mod_eq_of_lt hlt, foldl_writeOam_other]
      · exact Memory.read_write_same _ b hw
      · intro k hk
        omega
    | succ k =>
      have hindex : (p.oamAddr.toNat + (k + 1)) % 256 = ((p.writeOam b).oamAddr.toNat + k) % 256 := by omega
      rw [hindex, List.getElem_cons_succ]
      exact ih (Memory.wf_write _ b hw) (by omega) (by omega)

/-- Storage does not depend on OAM, so a copy from storage takes the bytes it holds. -/
theorem transfers_of_peek {bytes : List Byte} {s : State} {a : Word}
    (h : ∀ (k : Nat) (hk : k < bytes.length), peek s (a + BitVec.ofNat 16 k) = some bytes[k]) :
    Claims.Transfers s a bytes (s.setPpu (bytes.foldl Ppu.writeOam s.ppu)) := by
  induction bytes generalizing s a with
  | nil => rfl
  | cons b rest ih =>
    have hfirst : peek s a = some b := by simpa using h 0 (Nat.succ_pos _)
    refine ⟨s, memRead_of_peek hfirst, ih (s := s.setPpu (s.ppu.writeOam b)) fun k hk => ?_⟩
    have hlater := h (k + 1) (Nat.succ_lt_succ hk)
    have haddress : a + BitVec.ofNat 16 (k + 1) = a + 1 + BitVec.ofNat 16 k := by
      rw [Nat.add_comm, BitVec.ofNat_add, ← BitVec.add_assoc]
      rfl
    rw [haddress] at hlater
    exact hlater

/-- The bytes a stretch of storage holds. -/
theorem exists_bytes_of_storage {s : State} {base n : Nat}
    (h : ∀ k, k < n → (peek s (BitVec.ofNat 16 (base + k))).isSome = true) :
    ∃ bytes : List Byte, bytes.length = n ∧
      ∀ (k : Nat) (hk : k < bytes.length), peek s (BitVec.ofNat 16 (base + k)) = some bytes[k] := by
  refine ⟨List.ofFn fun k : Fin n => (peek s (BitVec.ofNat 16 (base + k))).get (h k k.isLt), List.length_ofFn, ?_⟩
  intro k hk
  rw [List.getElem_ofFn, Option.some_get]

end Storage

/-- The first byte of a page of picture-unit registers is a write-only one (61_ppu.md R319), that of a page of the window
no mapper handles lies in the window. -/
theorem readRefused_page {p : Params} {d : Byte}
    (h : (0x20 ≤ d.toNat ∧ d.toNat < 0x40 ∧ p.ppuWoRead = .fault) ∨ (0x41 ≤ d.toNat ∧ d.toNat < 0x60)) :
    readRefused p (BitVec.ofNat 16 (256 * d.toNat)) := by
  have hd := d.isLt
  have haddress : (BitVec.ofNat 16 (256 * d.toNat)).toNat = 256 * d.toNat :=
    BitVec.toNat_ofNat .. ▸ Nat.mod_eq_of_lt (by omega)
  have hregister : 256 * d.toNat % 8 = 0 := by omega
  rw [readRefused, haddress, hregister]
  rcases h with ⟨hlo, hhi, hp⟩ | ⟨hlo, hhi⟩
  · exact .inl ⟨by omega, by omega, by decide, hp⟩
  · exact .inr ⟨by omega, by omega⟩

/-- Settles O37: the copy is its 256 turns, from storage or not, and the first byte of a refused page is refused
(the bare name is the model's own operation). -/
theorem Dma.oamDma : Obligations.OamDma := by
  intro d s base cost refused
  have hd := d.isLt
  refine ⟨fun hw hstorage => ?_, fun hram k hk => ?_, fun bytes t hlen h => oamDma_of_transfers hlen h,
    fun bytes t f hlen h hread => oamDma_of_fault hlen h hread, fun hf hrefused => ?_⟩
  · obtain ⟨bytes, hlen, hbytes⟩ := exists_bytes_of_storage hstorage
    refine ⟨_, oamDma_of_transfers hlen (transfers_of_peek fun k hk => ?_), ?_, fun k hk => ?_⟩
    · rw [← BitVec.ofNat_add, hbytes k hk]
    · exact congrArg (fun p => (s.setPpu p).addIdleCycles (cost s.cpu.cycles)) (foldl_writeOam_page hlen s.ppu)
    · rw [hbytes k (by omega)]
      exact congrArg some (foldl_writeOam_read hw (Nat.le_of_eq hlen) (by omega)).symm
  · have haddress : (BitVec.ofNat 16 (base + k)).toNat = base + k := BitVec.toNat_ofNat .. ▸ Nat.mod_eq_of_lt (by omega)
    rw [peek_ram (by omega), ramIndex, haddress]
  · exact oamDma_of_fault (bytes := []) (by decide) rfl (memRead_refused hf (readRefused_page hrefused))

/-! ### The controllers -/

theorem bitByte_eq_bit (b : Bool) : bitByte b = Claims.bit b := by
  cases b <;> rfl

/-- A controller after the strobe and `k` reads (R450, R451). -/
def Pad.shifted (p : Pad) (k : Nat) : Pad := { p with latched := p.buttons, index := min k 8 }

/-- What the read after `k` others gives: the buttons in the order of their bits, then the exhausted value (R451). -/
def Pad.shownAt (p : Pad) (exhausted : Bool) (k : Nat) : Byte :=
  Claims.bit (if k < 8 then p.buttons.getLsbD k else exhausted)

theorem Pad.read_shifted (p : Pad) (exhausted : Bool) (k : Nat) :
    (p.shifted k).read exhausted false = (p.shownAt exhausted k, p.shifted (k + 1)) := by
  unfold read shifted shownAt
  rw [if_neg Bool.false_ne_true]
  by_cases h : k < 8
  · have hk : min k 8 = k := by omega
    have hk1 : min (k + 1) 8 = k + 1 := by omega
    dsimp only
    rw [hk, hk1, if_pos h, if_pos h, bitByte_eq_bit]
  · have hk : min k 8 = 8 := by omega
    have hk1 : min (k + 1) 8 = 8 := by omega
    dsimp only
    rw [hk, hk1, if_neg (by decide), if_neg h, bitByte_eq_bit]

/-- The strobe set and cleared: both controllers latched, nothing read. -/
theorem strobe_apply {on off : Byte} (hon : on.getLsbD 0 = true) (hoff : off.getLsbD 0 = false) (s : State) :
    memWrite 0x4016 on s = .ok ((), s.setPads ⟨s.pads.pad0.latch, s.pads.pad1.latch, true⟩) ∧
    memWrite 0x4016 off (s.setPads ⟨s.pads.pad0.latch, s.pads.pad1.latch, true⟩) =
      .ok ((), s.setPads ⟨s.pads.pad0.shifted 0, s.pads.pad1.shifted 0, false⟩) := by
  have hset (p : Pads) : p.writeStrobe on = ⟨p.pad0.latch, p.pad1.latch, true⟩ := if_pos hon
  have hclear (p : Pads) : p.writeStrobe off = { p with strobe := false } := if_neg (by rw [hoff]; decide)
  refine ⟨congrArg (fun p => Except.ok ((), s.setPads p)) (hset _), ?_⟩
  exact congrArg (fun p => Except.ok ((), s.setPads p)) (hclear _)

/-- Nine reads in a row of a port whose state after `k` reads is known. -/
theorem readNine_of_reads {port : Word} {on off : Byte} {s t : State} {after : Nat → State} {byte : Nat → Byte}
    (hon : memWrite 0x4016 on s = .ok ((), t)) (hoff : memWrite 0x4016 off t = .ok ((), after 0))
    (hread : ∀ k, memRead port (after k) = .ok (byte k, after (k + 1))) : Claims.readNine port on off s =
      .ok ([byte 0, byte 1, byte 2, byte 3, byte 4, byte 5, byte 6, byte 7, byte 8], after 9) := by
  rw [Claims.readNine, M.bind_of_ok hon, M.bind_of_ok hoff]
  iterate 9 rw [M.bind_of_ok (hread _)]
  rfl

/-- Settles O38: each read takes the next button, and while the strobe is on none is taken. -/
theorem controllersShiftButtons : Obligations.ControllersShiftButtons := by
  intro on off s hon hoff
  obtain ⟨hset, hclear⟩ := strobe_apply hon hoff s
  refine ⟨⟨_, readNine_of_reads
      (after := fun k => s.setPads ⟨s.pads.pad0.shifted k, s.pads.pad1.shifted 0, false⟩)
      (byte := s.pads.pad0.shownAt s.params.padExhausted) hset hclear fun k => ?_⟩,
    ⟨_, readNine_of_reads
      (after := fun k => s.setPads ⟨s.pads.pad0.shifted 0, s.pads.pad1.shifted k, false⟩)
      (byte := s.pads.pad1.shownAt s.params.padExhausted) hset hclear fun k => ?_⟩, _, hset, ?_, ?_⟩
  · exact congrArg (fun r => Except.ok (r.1, s.setPads ⟨r.2, s.pads.pad1.shifted 0, false⟩)) (Pad.read_shifted _ _ k)
  · exact congrArg (fun r => Except.ok (r.1, s.setPads ⟨s.pads.pad0.shifted 0, r.2, false⟩)) (Pad.read_shifted _ _ k)
  · rw [← bitByte_eq_bit]
    rfl
  · rw [← bitByte_eq_bit]
    rfl

end Sys2Proof.Machine

/-! A frame with rendering off (70_reset_and_hazards.md R496): the dots up to the end of the frame, the dot that ends it, the
dots up to where it began. -/

namespace Sys2Proof.Machine

/-! ### One dot -/

theorem mapperHook_of_off {s : State} (hbg : s.ppu.showBg = false) (hspr : s.ppu.showSpr = false) : mapperHook s = s := by
  refine mapperHook_of_no_event fun he => ?_
  obtain ⟨-, -, h | h⟩ := (countEvent_iff s).mp he
  · exact Bool.false_ne_true (hbg.symm.trans h)
  · exact Bool.false_ne_true (hspr.symm.trans h)

/-- A dot may begin, and rendering is off: the layers hidden, the position in range, no frame event left over. -/
structure State.Dark (s : State) : Prop where
  inRange : s.ppu.InRange
  showBg : s.ppu.showBg = false
  showSpr : s.ppu.showSpr = false
  event : s.con.frameReady = false

/-- Some dots later, still in the same frame: the frame toggle, the frame buffer and the frames delivered are the same. -/
structure SameFrame (s t : State) : Prop where
  dark : t.Dark
  odd : t.ppu.odd = s.ppu.odd
  framebuffer : t.ppu.framebuffer = s.ppu.framebuffer
  count : t.con.frameCount = s.con.frameCount
  last : t.con.lastFrame = s.con.lastFrame

/-- After the dot that ends a frame: the frame toggle is flipped and the frame buffer delivered. -/
structure NextFrame (s t : State) : Prop where
  dark : t.Dark
  odd : t.ppu.odd = !s.ppu.odd
  framebuffer : t.ppu.framebuffer = s.ppu.framebuffer
  count : t.con.frameCount = s.con.frameCount + 1
  last : t.con.lastFrame = some s.ppu.framebuffer

/-- What the picture unit's step leaves of a state with rendering off, by its tick. -/
structure DarkStep (s u : State) : Prop where
  inRange : u.ppu.InRange
  showBg : u.ppu.showBg = false
  showSpr : u.ppu.showSpr = false
  framebuffer : u.ppu.framebuffer = s.ppu.framebuffer
  odd : u.ppu.odd = s.ppu.tick.1.odd
  position : Claims.position u.ppu = Claims.position s.ppu.tick.1
  con : u.con = { s.con with frameReady := s.ppu.tick.2 }

section Dot

variable {s : State}

theorem State.Dark.not_skips (h : s.Dark) : ¬Claims.skips s.ppu := by
  rintro ⟨hbg | hspr, -⟩
  · exact Bool.false_ne_true (h.showBg.symm.trans hbg)
  · exact Bool.false_ne_true (h.showSpr.symm.trans hspr)

/-- With rendering off a dot is the picture unit's step and the delivery. -/
theorem dotStep_of_ppuStep {u : State} (h : ppuStep s = .ok ((), u)) (hbg : u.ppu.showBg = false)
    (hspr : u.ppu.showSpr = false) : dotStep s = .ok ((), deliverFrame u) := by
  rw [dotStep, M.bind_of_ok h, M.update_bind, update_apply, mapperHook_of_off hbg hspr]

theorem ppuStep_dark (h : s.Dark) : ∃ u, ppuStep s = .ok ((), u) ∧ DarkStep s u := by
  obtain ⟨u, hstep, hframe, -⟩ := renderingOffDot s h.showBg h.showSpr
  obtain ⟨hdot, hscanline, hodd, hready⟩ := ppuStep_position hstep
  obtain ⟨hrdot, hrscanline, -, -⟩ := Ppu.tick_inRange h.inRange
  rw [h.event, Bool.false_or] at hready
  have hppu := congrArg State.ppu hframe
  refine ⟨u, hstep, {
    inRange := ⟨hdot ▸ hrdot, hscanline ▸ hrscanline, ?_, ?_⟩
    showBg := (congrArg Ppu.showBg hppu).trans h.showBg
    showSpr := (congrArg Ppu.showSpr hppu).trans h.showSpr
    framebuffer := by rw [hppu]
    odd := hodd
    position := ?_
    con := ?_ }⟩
  · rw [hppu]
    exact h.inRange.sprCount
  · rw [hppu]
    exact h.inRange.atBits
  · rw [Claims.position, hdot, hscanline]
    rfl
  · rw [← hready]
    exact congrArg State.con hframe

/-- A dot inside a frame goes to the next position. -/
theorem dotStep_inside (h : s.Dark) (hp : Claims.position s.ppu ≠ 89341) : ∃ t, dotStep s = .ok ((), t) ∧
    SameFrame s t ∧ Claims.position t.ppu = Claims.position s.ppu + 1 := by
  obtain ⟨u, hstep, hu⟩ := ppuStep_dark h
  rcases Ppu.tick_of_not_skips h.inRange h.not_skips with ⟨hlast, -⟩ | ⟨-, hnext, hsame, hquiet⟩
  · exact absurd hlast hp
  · have hready : u.con.frameReady = false := by rw [hu.con, hquiet]
    have hdeliver : deliverFrame u = u := if_neg (by rw [hready]; exact Bool.false_ne_true)
    have hdot : dotStep s = .ok ((), u) := (dotStep_of_ppuStep hstep hu.showBg hu.showSpr).trans (by rw [hdeliver])
    refine ⟨u, hdot, ⟨⟨hu.inRange, hu.showBg, hu.showSpr, hready⟩, ?_, hu.framebuffer, ?_, ?_⟩, ?_⟩
    · exact hu.odd.trans hsame
    · rw [hu.con]
    · rw [hu.con]
    · exact hu.position.trans hnext

/-- The last dot of a frame goes to the first position of the next one and delivers the frame buffer. -/
theorem dotStep_last (h : s.Dark) (hp : Claims.position s.ppu = 89341) : ∃ t, dotStep s = .ok ((), t) ∧
    NextFrame s t ∧ Claims.position t.ppu = 0 := by
  obtain ⟨u, hstep, hu⟩ := ppuStep_dark h
  rcases Ppu.tick_of_not_skips h.inRange h.not_skips with ⟨-, htick⟩ | ⟨hnot, -⟩
  · have hready : u.con.frameReady = true := by rw [hu.con, htick]
    have hdeliver : deliverFrame u = _ := if_pos hready
    have hdot := (dotStep_of_ppuStep hstep hu.showBg hu.showSpr).trans (by rw [hdeliver])
    refine ⟨_, hdot, ⟨⟨hu.inRange, hu.showBg, hu.showSpr, rfl⟩, ?_, hu.framebuffer, ?_, ?_⟩, ?_⟩
    · exact hu.odd.trans (by rw [htick]; rfl)
    · show u.con.frameCount + 1 = _
      rw [hu.con]
    · exact congrArg some hu.framebuffer
    · exact hu.position.trans (by rw [htick]; exact Ppu.position_nextFrame _)
  · exact absurd hp hnot

end Dot

/-! ### Many dots -/

theorem runDots_add (m n : Nat) (s : State) : runDots (m + n) s = (runDots m >>= fun _ => runDots n) s := by
  induction m generalizing s with
  | zero => rw [Nat.zero_add]; rfl
  | succ m ih =>
    rw [Nat.succ_add, runDots, runDots, M.bind_apply, M.bind_apply, M.bind_apply]
    cases dotStep s with
    | error e => rfl
    | ok r => exact (ih r.2).trans (M.bind_apply _ _ _)

theorem runDots_add_of_ok {m n : Nat} {s t : State} (h : runDots m s = .ok ((), t)) :
    runDots (m + n) s = runDots n t := by
  rw [runDots_add, M.bind_of_ok h]

theorem SameFrame.refl {s : State} (h : s.Dark) : SameFrame s s := ⟨h, rfl, rfl, rfl, rfl⟩

theorem SameFrame.trans {s t u : State} (h : SameFrame s t) (k : SameFrame t u) : SameFrame s u :=
  ⟨k.dark, k.odd.trans h.odd, k.framebuffer.trans h.framebuffer, k.count.trans h.count, k.last.trans h.last⟩

/-- Dots that do not reach the end of the frame. -/
theorem runDots_inside {s : State} (h : s.Dark) (n : Nat) (hn : Claims.position s.ppu + n ≤ 89341) :
    ∃ t, runDots n s = .ok ((), t) ∧ SameFrame s t ∧ Claims.position t.ppu = Claims.position s.ppu + n := by
  induction n generalizing s with
  | zero => exact ⟨s, rfl, .refl h, (Nat.add_zero _).symm⟩
  | succ n ih =>
    obtain ⟨u, hdot, hsame, hposition⟩ := dotStep_inside h (by omega)
    obtain ⟨t, hrun, hrest, hend⟩ := ih hsame.dark (by omega)
    exact ⟨t, (M.bind_of_ok hdot).trans hrun, hsame.trans hrest, by omega⟩

/-- The position in the frame determines the dot and the scanline. -/
theorem position_injective {p q : Ppu} (hp : p.InRange) (hq : q.InRange) (h : Claims.position p = Claims.position q) :
    p.dot = q.dot ∧ p.scanline = q.scanline := by
  have hpdot := hp.dot
  have hqdot := hq.dot
  unfold Claims.position at h
  omega

/-- Settles O47: to the last dot of the frame, over its end, and on to where the run began. -/
theorem frameWithRenderingOff : Obligations.FrameWithRenderingOff := by
  intro s hrange hbg hspr hevent
  have hs : s.Dark := ⟨hrange, hbg, hspr, hevent⟩
  have hlt := Ppu.position_lt hrange
  obtain ⟨u, hu, husame, huend⟩ := runDots_inside hs (89341 - Claims.position s.ppu) (by omega)
  obtain ⟨v, hv, hvnext, hvstart⟩ := dotStep_last husame.dark (by omega)
  obtain ⟨t, ht, htsame, htend⟩ := runDots_inside hvnext.dark (Claims.position s.ppu) (by omega)
  have hrun : runDots (89341 - Claims.position s.ppu + (Claims.position s.ppu + 1)) s = .ok ((), t) :=
    (runDots_add_of_ok hu).trans ((M.bind_of_ok hv).trans ht)
  have hlength : 89341 - Claims.position s.ppu + (Claims.position s.ppu + 1) = 89342 := by omega
  obtain ⟨hdot, hscanline⟩ := position_injective htsame.dark.inRange hrange (by omega)
  rw [hlength] at hrun
  refine ⟨t, hrun, hdot, hscanline, ?_, ?_, ?_, htsame.dark.event, ?_⟩
  · rw [htsame.odd, hvnext.odd, husame.odd]
  · rw [htsame.count, hvnext.count, husame.count]
  · rw [htsame.last, hvnext.last, husame.framebuffer]
  · rw [htsame.framebuffer, hvnext.framebuffer, husame.framebuffer]

end Sys2Proof.Machine

/-! Load and reset (70_reset_and_hazards.md R470 to R472): a reset reads its vector through the current banking, and a load
is the reset of a machine whose memories are empty. -/

namespace Sys2Proof.Machine

/-! ### The reset -/

/-- The reset vector lies in the program window, which the reset does not touch. -/
theorem consoleReset_of_vector {s : State} {lo hi : Byte} (hf : s.fault = none) (hlo : peek s 0xFFFC = some lo)
    (hhi : peek s 0xFFFD = some hi) : consoleReset s = .next { s with
      cpu := Cpu.reset (wordOf hi lo)
      ppu := s.ppu.resetKeepingMemories
      pads := s.pads.reset
      con := { s.con with frameReady := false, stop := false } } := by
  rw [consoleReset, hf]
  refine M.outcome_of_ok (M.bind_of_ok (read16_of_peek ?_ ?_))
  · exact (peek_program_congr (by decide) rfl rfl rfl).trans hlo
  · exact (peek_program_congr (by decide) rfl rfl rfl).trans hhi

/-- Settles O60: everything the reset sets is at the reset values of the rules. -/
theorem resetKeepsMemories : Obligations.ResetKeepsMemories :=
  fun _ _ _ hf hlo hhi => consoleReset_of_vector hf hlo hhi

/-! ### The load -/

section Load

variable {p : Params} {c : Cartridge} {m : Mapper} {b0 b1 : Byte}

theorem Cartridge.mapperNumber_of_valid (h : c.valid = true) : c.mapperNumber ∈ [0, 1, 2, 4] := by
  simp only [valid, Bool.and_eq_true, List.contains_iff_mem] at h
  exact h.1.1.1.1

/-- A supported mapper number selects its variant with the reset values of the rules (R386, R393, R401, R416). -/
theorem Mapper.initial_of_supported (h : c.mapperNumber ∈ [0, 1, 2, 4]) :
    Mapper.initial c = some (Claims.loadedMapper c) ∧ mapperOk c.mapperNumber (Claims.loadedMapper c) := by
  unfold Mapper.initial Claims.loadedMapper
  simp only [List.mem_cons, List.not_mem_nil, or_false] at h
  rcases h with h | h | h | h <;> rw [h]
  · exact ⟨rfl, rfl⟩
  · exact ⟨rfl, rfl, Nat.zero_le 4⟩
  · exact ⟨rfl, rfl⟩
  · exact ⟨rfl, rfl⟩

/-- A bank number in range is its own reduction, under either `BANK_RANGE`. -/
theorem bankOf_of_lt {bank n : Nat} (h : bank < n) : bankOf p bank n = some bank := by
  unfold bankOf
  cases p.bankRange with
  | modulo => exact congrArg some (Nat.mod_eq_of_lt h)
  | fault => exact if_pos h

/-- The last bank of a size in the program window, under either `BANK_RANGE`. -/
theorem inArray_lastBank {n size offset total : Nat} (hn : 0 < n) (ho : offset < size) (ht : n * size = total) :
    inArray total ((bankOf p (n - 1) n).map fun b => b * size + offset) = some ((n - 1) * size + offset) := by
  have hlast : (n - 1) * size + size = total := by rw [← Nat.succ_mul, Nat.succ_eq_add_one, Nat.sub_add_cancel hn, ht]
  have hindex : (n - 1) * size + offset < total := by omega
  rw [bankOf_of_lt (Nat.sub_lt hn Nat.one_pos)]
  exact inArray_of_lt hindex

/-- MMC1 starts in program mode 3: the last bank is in the upper half. -/
theorem Mmc1.prgBankAt_initial (header : Mirroring) (n16 : Nat) {a : Nat} (h : 0xC000 ≤ a) :
    (Mmc1.initial header).prgBankAt n16 a = n16 - 1 := by
  rw [prgBankAt_eq, decide_eq_true h]
  cases header <;> rfl

/-- MMC3 shows the last bank in the last quarter. -/
theorem Mmc3.prgBankAt_last (m : Mmc3) (n8 : Nat) {a : Nat} (h1 : 0xE000 ≤ a) (h2 : a < 0x10000) :
    m.prgBankAt n8 a = n8 - 1 := by
  rw [prgBankAt, show (a - 0x8000) / 0x2000 = 3 by omega]
  rfl

/-- Right after a load every mapper shows the last bank at the vectors. -/
theorem prgIndex_loaded {s : State} (hc : s.cart.valid = true) (hm : s.map = Claims.loadedMapper s.cart) {a : Nat}
    (h1 : 0xE000 ≤ a) (h2 : a < 0x10000) : ∃ k, prgIndex s a = some k := by
  have hbanks : 1 ≤ s.cart.prgBanks := Cartridge.banks_of_valid hc
  have hsize : s.cart.prgSize = 16384 * s.cart.prgBanks := rfl
  have hnumber := Cartridge.mapperNumber_of_valid hc
  simp only [List.mem_cons, List.not_mem_nil, or_false] at hnumber
  unfold Claims.loadedMapper at hm
  rcases hnumber with h | h | h | h <;> rw [h] at hm
  · exact ⟨_, (prgIndex_nrom hm a).trans (inArray_of_lt (Nat.mod_lt _ (by omega)))⟩
  · rw [prgIndex_mmc1 (m := Mmc1.initial s.cart.headerMirroring) hm, Mmc1.prgBankAt_initial _ _ (by omega)]
    exact ⟨_, inArray_lastBank hbanks (Nat.mod_lt _ (by decide)) (by omega)⟩
  · rw [prgIndex_uxrom (m := ⟨0⟩) hm, if_neg (by omega)]
    exact ⟨_, inArray_of_lt (by omega)⟩
  · rw [prgIndex_mmc3 (m := Mmc3.initial s.cart.headerMirroring) hm, Mmc3.prgBankAt_last _ _ h1 h2]
    exact ⟨_, inArray_lastBank (by omega) (Nat.mod_lt _ (by decide)) (by omega)⟩

/-- Right after a load a vector has a byte behind it. -/
theorem peek_loaded (hc : c.valid = true) {a : Word} (ha : 0xE000 ≤ a.toNat) :
    ∃ b, peek (State.loaded p c (Claims.loadedMapper c) b0 b1) a = some b := by
  obtain ⟨k, hk⟩ := prgIndex_loaded (s := State.loaded p c (Claims.loadedMapper c) b0 b1) hc rfl ha a.isLt
  rw [peek, if_neg (by omega), if_neg (by omega), if_neg (by omega), hk]
  exact ⟨_, rfl⟩

/-- A machine with empty memories and reset registers, the cartridge bound, has the invariant. -/
theorem inv_of_reset (hc : c.valid = true) (hm : mapperOk c.mapperNumber m) (pc : Word) :
    ({ State.loaded p c m b0 b1 with cpu := Cpu.reset pc } : State).Inv where
  memories := ⟨rfl, rfl, rfl, rfl, fun y hy => by simp [State.loaded, Ppu.reset], nofun, rfl, rfl⟩
  cart := hc
  map := hm
  ppu := ⟨Nat.zero_le _, Nat.zero_le _, Nat.zero_le _, BitVec.zero_and⟩
  pad0 := ⟨Nat.zero_le _, nofun⟩
  pad1 := ⟨Nat.zero_le _, nofun⟩
  breakFlag := rfl
  event := rfl
  running := rfl

end Load

/-- Settles O59: a load is the reset of a machine with empty memories, whose vector is in the last bank. -/
theorem loadEstablishesReset : Obligations.LoadEstablishesReset := by
  intro p c b0 b1
  refine ⟨fun hnumber => if_neg fun hc => hnumber (Cartridge.mapperNumber_of_valid hc), fun hc => ?_⟩
  obtain ⟨hinitial, hmap⟩ := Mapper.initial_of_supported (Cartridge.mapperNumber_of_valid hc)
  obtain ⟨lo, hlo⟩ := peek_loaded (p := p) (b0 := b0) (b1 := b1) hc (a := 0xFFFC) (by decide)
  obtain ⟨hi, hhi⟩ := peek_loaded (p := p) (b0 := b0) (b1 := b1) hc (a := 0xFFFD) (by decide)
  refine ⟨{ State.loaded p c (Claims.loadedMapper c) b0 b1 with cpu := Cpu.reset (wordOf hi lo) }, lo, hi, ?_,
    inv_of_reset hc hmap _, ?_, ?_, rfl⟩
  · rw [load, if_pos hc, hinitial]
    exact congrArg some (consoleReset_of_vector rfl hlo hhi)
  · exact (peek_program_congr (by decide) rfl rfl rfl).trans hlo
  · exact (peek_program_congr (by decide) rfl rfl rfl).trans hhi

end Sys2Proof.Machine
